-- ==== Sys2Proof/Word.lean ====
section
/-! DEFINITION. The word types of REDC-CORE (spec 00_scope.md R10, R15, R16; 30_encoding.md R120). -/

namespace Sys2Proof

/-- One byte of the host window (20_memory.md R82). -/
abbrev Byte := BitVec 8

/-- One limb, and one 64-bit word of the host port (00_scope.md R10; 20_memory.md R84). -/
abbrev Limb := BitVec 64

/-- One command word (30_encoding.md R120). -/
abbrev CmdWord := BitVec 64

/-- The contents of one operand-memory slot or of one 256-bit register (00_scope.md R10). -/
abbrev Word256 := BitVec 256

/-- A slot field of a command word (30_encoding.md R123). -/
abbrev SlotIx := BitVec 16

end Sys2Proof
end

