-- ==== Sys2Proof/Syntax.lean ====
section
/-! DEFINITION. The 52 commands of REDC-CORE (spec 30_encoding.md R126), one constructor per row of
spec/opcode_table.json. Operands stand in the order of R126's "operands" column. -/

namespace Sys2Proof

/-- The field context that bit S selects in the field family (30_encoding.md R125; 00_scope.md R13). -/
inductive FieldCtx where
  | fq
  | fr
deriving DecidableEq, Repr

/-- The group that bit S selects in the curve and MSM families (30_encoding.md R125). -/
inductive Group where
  | g1
  | g2
deriving DecidableEq, Repr

/-- The BRF conditions (40_sequencer.md R166), in the order of their codes 0 to 9. -/
inductive Cond where
  | c | nc | z | nz | lt | nlt | gt | ngt | t | nt
deriving DecidableEq, Repr

/-- NORM's output form (30_encoding.md R124, 43_field_facade.md R288): mode 0 and mode 1. -/
inductive NormForm where
  | normal
  | montgomery
deriving DecidableEq, Repr

/-- The commands. `rd`, `ra`, `rb` are slot fields unless a docstring says otherwise. -/
inductive Instr where
  -- sequencer and data movement (40_sequencer.md)
  | nop
  | halt
  | jmp (target : BitVec 16)
  | brf (cond : Cond) (target : BitVec 16)
  | setlc (imm : BitVec 16)
  | djnz (target : BitVec 16)
  /-- copies `m7 + 1` slots (30_encoding.md R124, `cnt1`) -/
  | mov (rd ra : SlotIx) (m7 : BitVec 7)
  | limm (rd : SlotIx) (imm : BitVec 32)
  -- limb vector (41_limb.md)
  | ladd (rd ra rb : SlotIx)
  | lsub (rd ra rb : SlotIx)
  | lcmp (ra rb : SlotIx)
  | lisz (ra : SlotIx)
  | lshl (rd ra : SlotIx) (amt : BitVec 16)
  | lshr (rd ra : SlotIx) (amt : BitVec 16)
  | land (rd ra rb : SlotIx)
  | lor (rd ra rb : SlotIx)
  | lxor (rd ra rb : SlotIx)
  | lnot (rd ra : SlotIx)
  -- field (42_montgomery.md, 43_field_facade.md)
  | fadd (c : FieldCtx) (rd ra rb : SlotIx)
  | fsub (c : FieldCtx) (rd ra rb : SlotIx)
  | fneg (c : FieldCtx) (rd ra : SlotIx)
  | fmul (c : FieldCtx) (rd ra rb : SlotIx)
  | fsqr (c : FieldCtx) (rd ra : SlotIx)
  | fmulw (c : FieldCtx) (rd ra rb : SlotIx)
  | ftom (c : FieldCtx) (rd ra : SlotIx)
  | ffromm (c : FieldCtx) (rd ra : SlotIx)
  | norm (c : FieldCtx) (rd hdr : SlotIx) (mode : NormForm)
  | feisz (c : FieldCtx) (hdr : SlotIx)
  -- quadratic extension (44_fq2.md)
  | e2add (rd ra rb : SlotIx)
  | e2sub (rd ra rb : SlotIx)
  | e2neg (rd ra : SlotIx)
  | e2mul (rd ra rb : SlotIx)
  | e2sqr (rd ra : SlotIx)
  | e2eq (ra rb : SlotIx)
  | e2isz (ra : SlotIx)
  -- curve (45_curve.md)
  | padd (g : Group) (rd ra rb : SlotIx)
  | padda (g : Group) (rd ra rb : SlotIx)
  | pdbl (g : Group) (rd ra : SlotIx)
  | pneg (g : Group) (rd ra : SlotIx)
  | pisz (g : Group) (ra : SlotIx)
  | ponc (g : Group) (ra : SlotIx)
  | pfroma (g : Group) (rd ra : SlotIx)
  | peq (g : Group) (ra rb : SlotIx)
  /-- `rb` is the scalar slot, `nbytes` the byte count of 45_curve.md R359 -/
  | pmul (g : Group) (rd ra rb : SlotIx) (nbytes : BitVec 7)
  -- multi-scalar multiplication (46_msm.md)
  | bktclr (g : Group) (desc : SlotIx)
  | bktacc (g : Group) (desc : SlotIx) (w : BitVec 16)
  | bktred (g : Group) (rd desc : SlotIx)
  | msm (g : Group) (rd desc : SlotIx)
  -- FFT (47_fft.md)
  /-- `rd` is the upper element, `ra` the lower one, `rb` the twiddle (47_fft.md R425) -/
  | bfly (rd ra rb : SlotIx)
  | bitrev (base : SlotIx) (k : BitVec 7)
  | fft (base : SlotIx) (k : BitVec 7)
  | ifft (base : SlotIx) (k : BitVec 7)
deriving DecidableEq, Repr

end Sys2Proof
end

