-- ==== Sys2Proof/WellFormed.lean ====
section
/-! DEFINITION. Which instructions are well formed: those some command word encodes. Types bound
every field but PMUL's byte count, which 30_encoding.md R124 and R129 bound by 1 and 32. -/

namespace Sys2Proof

/-- The `nbytes` values that R124 does not reserve. -/
def nbytesOk (nb : BitVec 7) : Bool := decide (1 ≤ nb.toNat ∧ nb.toNat ≤ 32)

/-- A well-formed instruction: every field value is one its command admits (30_encoding.md R129). -/
def Instr.wf : Instr → Bool
  | .nop => true
  | .halt => true
  | .jmp _ => true
  | .brf _ _ => true
  | .setlc _ => true
  | .djnz _ => true
  | .mov _ _ _ => true
  | .limm _ _ => true
  | .ladd _ _ _ => true
  | .lsub _ _ _ => true
  | .lcmp _ _ => true
  | .lisz _ => true
  | .lshl _ _ _ => true
  | .lshr _ _ _ => true
  | .land _ _ _ => true
  | .lor _ _ _ => true
  | .lxor _ _ _ => true
  | .lnot _ _ => true
  | .fadd _ _ _ _ => true
  | .fsub _ _ _ _ => true
  | .fneg _ _ _ => true
  | .fmul _ _ _ _ => true
  | .fsqr _ _ _ => true
  | .fmulw _ _ _ _ => true
  | .ftom _ _ _ => true
  | .ffromm _ _ _ => true
  | .norm _ _ _ _ => true
  | .feisz _ _ => true
  | .e2add _ _ _ => true
  | .e2sub _ _ _ => true
  | .e2neg _ _ => true
  | .e2mul _ _ _ => true
  | .e2sqr _ _ => true
  | .e2eq _ _ => true
  | .e2isz _ => true
  | .padd _ _ _ _ => true
  | .padda _ _ _ _ => true
  | .pdbl _ _ _ => true
  | .pneg _ _ _ => true
  | .pisz _ _ => true
  | .ponc _ _ => true
  | .pfroma _ _ _ => true
  | .peq _ _ _ => true
  | .pmul _ _ _ _ nb => nbytesOk nb
  | .bktclr _ _ => true
  | .bktacc _ _ _ => true
  | .bktred _ _ _ => true
  | .msm _ _ _ => true
  | .bfly _ _ _ => true
  | .bitrev _ _ => true
  | .fft _ _ => true
  | .ifft _ _ => true

end Sys2Proof
end

