-- ==== Sys2Proof/Decode.lean ====
section
/-! DEFINITION. The decoder and the encoder of command words (spec 30_encoding.md). Both read the one
opcode map `opcodeMap`, the table of R126. -/

namespace Sys2Proof

/-- The fields of a command word (30_encoding.md R121). -/
structure Fields where
  opc : BitVec 8
  s   : BitVec 1
  m7  : BitVec 7
  rd  : BitVec 16
  ra  : BitVec 16
  rb  : BitVec 16
deriving DecidableEq, Repr

/-- The fields of the word `w`: OPC [7:0], S [8], M7 [15:9], RD [31:16], RA [47:32], RB [63:48]
(30_encoding.md R121). -/
def Fields.ofWord (w : CmdWord) : Fields where
  opc := w.extractLsb' 0 8
  s   := w.extractLsb' 8 1
  m7  := w.extractLsb' 9 7
  rd  := w.extractLsb' 16 16
  ra  := w.extractLsb' 32 16
  rb  := w.extractLsb' 48 16

/-- The word with the fields `f` (30_encoding.md R133). -/
def Fields.toWord (f : Fields) : CmdWord :=
  (f.rb ++ (f.ra ++ (f.rd ++ (f.m7 ++ (f.s ++ f.opc)))))

/-- Why a word or a byte string is no command. -/
inductive DecodeError where
  /-- the opcode is not in the map (30_encoding.md R128); the engine takes ILLEGAL_OPCODE; safe -/
  | illegalOpcode
  /-- a non-zero unused field, or a reserved value of a used one (30_encoding.md R122, R129); the
  engine takes RESERVED_FIELD; safe -/
  | reservedField
  /-- fewer than the eight bytes of a command word (30_encoding.md R120); never met by the engine,
  which fetches whole words; safe -/
  | truncated
deriving DecidableEq, Repr

/-- The fields an opcode may use (30_encoding.md R122). -/
inductive FieldName where
  | s | m7 | rd | ra | rb
deriving DecidableEq, Repr

/-- Every field outside `used` is zero (30_encoding.md R122). -/
def Fields.unusedZero (f : Fields) (used : List FieldName) : Bool :=
  (used.contains .s || f.s == 0) && (used.contains .m7 || f.m7 == 0) &&
  (used.contains .rd || f.rd == 0) && (used.contains .ra || f.ra == 0) &&
  (used.contains .rb || f.rb == 0)

/-- The context that S selects (30_encoding.md R125). -/
def ctxOf (s : BitVec 1) : FieldCtx := if s = 0 then .fq else .fr

/-- S for a context (30_encoding.md R125). -/
def FieldCtx.bit : FieldCtx → BitVec 1
  | .fq => 0
  | .fr => 1

/-- The group that S selects (30_encoding.md R125). -/
def groupOf (s : BitVec 1) : Group := if s = 0 then .g1 else .g2

/-- S for a group (30_encoding.md R125). -/
def Group.bit : Group → BitVec 1
  | .g1 => 0
  | .g2 => 1

/-- The condition that M7 encodes: codes 10 and above, and M7[6:4] not 0, are reserved
(30_encoding.md R129; 40_sequencer.md R166). -/
def condOf (m7 : BitVec 7) : Except DecodeError Cond :=
  match m7.toNat with
  | 0 => .ok .c
  | 1 => .ok .nc
  | 2 => .ok .z
  | 3 => .ok .nz
  | 4 => .ok .lt
  | 5 => .ok .nlt
  | 6 => .ok .gt
  | 7 => .ok .ngt
  | 8 => .ok .t
  | 9 => .ok .nt
  | _ => .error .reservedField

/-- M7 for a condition (40_sequencer.md R166). -/
def Cond.code : Cond → BitVec 7
  | .c => 0
  | .nc => 1
  | .z => 2
  | .nz => 3
  | .lt => 4
  | .nlt => 5
  | .gt => 6
  | .ngt => 7
  | .t => 8
  | .nt => 9

/-- The output form that M7 encodes: modes 2 to 127 are reserved (30_encoding.md R124, R129). -/
def normFormOf (m7 : BitVec 7) : Except DecodeError NormForm :=
  match m7.toNat with
  | 0 => .ok .normal
  | 1 => .ok .montgomery
  | _ => .error .reservedField

/-- M7 for an output form (30_encoding.md R124). -/
def NormForm.code : NormForm → BitVec 7
  | .normal => 0
  | .montgomery => 1

/-- One row of the opcode map: the opcode, the mnemonic, the fields it uses, and the instruction
those fields make. -/
structure OpcodeRow where
  opc      : BitVec 8
  mnemonic : String
  used     : List FieldName
  build    : Fields → Except DecodeError Instr

/-- The rows of 30_encoding.md R126 for one family (sequencer, 40_sequencer.md). -/
def opcodeRowsSeq : List OpcodeRow :=
  [ ⟨0x00, "NOP", [], fun _ => .ok .nop⟩
  , ⟨0x01, "HALT", [], fun _ => .ok .halt⟩
  , ⟨0x02, "JMP", [.ra], fun f => .ok (.jmp f.ra)⟩
  , ⟨0x03, "BRF", [.m7, .ra], fun f => (condOf f.m7).map (fun cc => .brf cc f.ra)⟩
  , ⟨0x04, "SETLC", [.ra], fun f => .ok (.setlc f.ra)⟩
  , ⟨0x05, "DJNZ", [.ra], fun f => .ok (.djnz f.ra)⟩
  , ⟨0x08, "MOV", [.m7, .rd, .ra], fun f => .ok (.mov f.rd f.ra f.m7)⟩
  , ⟨0x09, "LIMM", [.rd, .ra, .rb], fun f => .ok (.limm f.rd (f.rb ++ f.ra))⟩ ]

/-- The rows of 30_encoding.md R126 for one family (limb vector, 41_limb.md). -/
def opcodeRowsLimb : List OpcodeRow :=
  [ ⟨0x10, "LADD", [.rd, .ra, .rb], fun f => .ok (.ladd f.rd f.ra f.rb)⟩
  , ⟨0x11, "LSUB", [.rd, .ra, .rb], fun f => .ok (.lsub f.rd f.ra f.rb)⟩
  , ⟨0x12, "LCMP", [.ra, .rb], fun f => .ok (.lcmp f.ra f.rb)⟩
  , ⟨0x13, "LISZ", [.ra], fun f => .ok (.lisz f.ra)⟩
  , ⟨0x14, "LSHL", [.rd, .ra, .rb], fun f => .ok (.lshl f.rd f.ra f.rb)⟩
  , ⟨0x15, "LSHR", [.rd, .ra, .rb], fun f => .ok (.lshr f.rd f.ra f.rb)⟩
  , ⟨0x16, "LAND", [.rd, .ra, .rb], fun f => .ok (.land f.rd f.ra f.rb)⟩
  , ⟨0x17, "LOR", [.rd, .ra, .rb], fun f => .ok (.lor f.rd f.ra f.rb)⟩
  , ⟨0x18, "LXOR", [.rd, .ra, .rb], fun f => .ok (.lxor f.rd f.ra f.rb)⟩
  , ⟨0x19, "LNOT", [.rd, .ra], fun f => .ok (.lnot f.rd f.ra)⟩ ]

/-- The rows of 30_encoding.md R126 for one family (field, 42_montgomery.md and 43_field_facade.md). -/
def opcodeRowsField : List OpcodeRow :=
  [ ⟨0x20, "FADD", [.s, .rd, .ra, .rb], fun f => .ok (.fadd (ctxOf f.s) f.rd f.ra f.rb)⟩
  , ⟨0x21, "FSUB", [.s, .rd, .ra, .rb], fun f => .ok (.fsub (ctxOf f.s) f.rd f.ra f.rb)⟩
  , ⟨0x22, "FNEG", [.s, .rd, .ra], fun f => .ok (.fneg (ctxOf f.s) f.rd f.ra)⟩
  , ⟨0x23, "FMUL", [.s, .rd, .ra, .rb], fun f => .ok (.fmul (ctxOf f.s) f.rd f.ra f.rb)⟩
  , ⟨0x24, "FSQR", [.s, .rd, .ra], fun f => .ok (.fsqr (ctxOf f.s) f.rd f.ra)⟩
  , ⟨0x25, "FMULW", [.s, .rd, .ra, .rb], fun f => .ok (.fmulw (ctxOf f.s) f.rd f.ra f.rb)⟩
  , ⟨0x26, "FTOM", [.s, .rd, .ra], fun f => .ok (.ftom (ctxOf f.s) f.rd f.ra)⟩
  , ⟨0x27, "FFROMM", [.s, .rd, .ra], fun f => .ok (.ffromm (ctxOf f.s) f.rd f.ra)⟩
  , ⟨0x28, "NORM", [.s, .m7, .rd, .ra], fun f => (normFormOf f.m7).map (fun m => .norm (ctxOf f.s) f.rd f.ra m)⟩
  , ⟨0x29, "FEISZ", [.s, .ra], fun f => .ok (.feisz (ctxOf f.s) f.ra)⟩ ]

/-- The rows of 30_encoding.md R126 for one family (quadratic extension, 44_fq2.md). -/
def opcodeRowsFq2 : List OpcodeRow :=
  [ ⟨0x30, "E2ADD", [.rd, .ra, .rb], fun f => .ok (.e2add f.rd f.ra f.rb)⟩
  , ⟨0x31, "E2SUB", [.rd, .ra, .rb], fun f => .ok (.e2sub f.rd f.ra f.rb)⟩
  , ⟨0x32, "E2NEG", [.rd, .ra], fun f => .ok (.e2neg f.rd f.ra)⟩
  , ⟨0x33, "E2MUL", [.rd, .ra, .rb], fun f => .ok (.e2mul f.rd f.ra f.rb)⟩
  , ⟨0x34, "E2SQR", [.rd, .ra], fun f => .ok (.e2sqr f.rd f.ra)⟩
  , ⟨0x35, "E2EQ", [.ra, .rb], fun f => .ok (.e2eq f.ra f.rb)⟩
  , ⟨0x36, "E2ISZ", [.ra], fun f => .ok (.e2isz f.ra)⟩ ]

/-- The rows of 30_encoding.md R126 for one family (curve, 45_curve.md). -/
def opcodeRowsCurve : List OpcodeRow :=
  [ ⟨0x40, "PADD", [.s, .rd, .ra, .rb], fun f => .ok (.padd (groupOf f.s) f.rd f.ra f.rb)⟩
  , ⟨0x41, "PADDA", [.s, .rd, .ra, .rb], fun f => .ok (.padda (groupOf f.s) f.rd f.ra f.rb)⟩
  , ⟨0x42, "PDBL", [.s, .rd, .ra], fun f => .ok (.pdbl (groupOf f.s) f.rd f.ra)⟩
  , ⟨0x43, "PNEG", [.s, .rd, .ra], fun f => .ok (.pneg (groupOf f.s) f.rd f.ra)⟩
  , ⟨0x44, "PISZ", [.s, .ra], fun f => .ok (.pisz (groupOf f.s) f.ra)⟩
  , ⟨0x45, "PONC", [.s, .ra], fun f => .ok (.ponc (groupOf f.s) f.ra)⟩
  , ⟨0x46, "PFROMA", [.s, .rd, .ra], fun f => .ok (.pfroma (groupOf f.s) f.rd f.ra)⟩
  , ⟨0x47, "PEQ", [.s, .ra, .rb], fun f => .ok (.peq (groupOf f.s) f.ra f.rb)⟩
  , ⟨0x48, "PMUL", [.s, .m7, .rd, .ra, .rb], fun f => if nbytesOk f.m7 then .ok (.pmul (groupOf f.s) f.rd f.ra f.rb f.m7) else .error .reservedField⟩ ]

/-- The rows of 30_encoding.md R126 for one family (multi-scalar multiplication, 46_msm.md). -/
def opcodeRowsMsm : List OpcodeRow :=
  [ ⟨0x50, "BKTCLR", [.s, .ra], fun f => .ok (.bktclr (groupOf f.s) f.ra)⟩
  , ⟨0x51, "BKTACC", [.s, .ra, .rb], fun f => .ok (.bktacc (groupOf f.s) f.ra f.rb)⟩
  , ⟨0x52, "BKTRED", [.s, .rd, .ra], fun f => .ok (.bktred (groupOf f.s) f.rd f.ra)⟩
  , ⟨0x53, "MSM", [.s, .rd, .ra], fun f => .ok (.msm (groupOf f.s) f.rd f.ra)⟩ ]

/-- The rows of 30_encoding.md R126 for one family (FFT, 47_fft.md). -/
def opcodeRowsFft : List OpcodeRow :=
  [ ⟨0x60, "BFLY", [.rd, .ra, .rb], fun f => .ok (.bfly f.rd f.ra f.rb)⟩
  , ⟨0x61, "BITREV", [.m7, .rd], fun f => .ok (.bitrev f.rd f.m7)⟩
  , ⟨0x62, "FFT", [.m7, .rd], fun f => .ok (.fft f.rd f.m7)⟩
  , ⟨0x63, "IFFT", [.m7, .rd], fun f => .ok (.ifft f.rd f.m7)⟩ ]

/-- The opcode map (30_encoding.md R126). -/
def opcodeMap : List OpcodeRow :=
  opcodeRowsSeq ++ opcodeRowsLimb ++ opcodeRowsField ++ opcodeRowsFq2 ++ opcodeRowsCurve ++ opcodeRowsMsm ++ opcodeRowsFft

/-- The row of an opcode, if it has one (30_encoding.md R126, R128). -/
def opcodeRow (opc : BitVec 8) : Option OpcodeRow :=
  opcodeMap.find? (fun r => r.opc == opc)

/-- Decodes one command word: ILLEGAL_OPCODE before RESERVED_FIELD, unused fields before reserved
values (30_encoding.md R128, R122, R129; 60_exceptions.md R455 steps 2 and 3). -/
def decode (w : CmdWord) : Except DecodeError Instr :=
  let f := Fields.ofWord w
  match opcodeRow f.opc with
  | none => .error .illegalOpcode
  | some r => if f.unusedZero r.used then r.build f else .error .reservedField

/-- The little-endian number of a byte string (20_memory.md R82). -/
def leNat : List Byte → Nat
  | [] => 0
  | b :: bs => b.toNat + 256 * leNat bs

/-- The `n` low bytes of `v`, the least significant first (20_memory.md R82). -/
def leBytes : Nat → Nat → List Byte
  | 0, _ => []
  | n + 1, v => BitVec.ofNat 8 v :: leBytes n (v / 256)

/-- Decodes the command at the head of a byte string, as it lies in the host window (20_memory.md
R83), and gives the rest. -/
def decodeBytes (bs : List Byte) : Except DecodeError (Instr × List Byte) :=
  if bs.length < 8 then .error .truncated
  else (decode (BitVec.ofNat 64 (leNat (bs.take 8)))).map (fun i => (i, bs.drop 8))

/-- The fields of an instruction's command word (30_encoding.md R123, R124, R126). -/
def Instr.fields : Instr → Fields
  | .nop => ⟨0x00, 0, 0, 0, 0, 0⟩
  | .halt => ⟨0x01, 0, 0, 0, 0, 0⟩
  | .jmp a => ⟨0x02, 0, 0, 0, a, 0⟩
  | .brf cc t => ⟨0x03, 0, cc.code, 0, t, 0⟩
  | .setlc a => ⟨0x04, 0, 0, 0, a, 0⟩
  | .djnz a => ⟨0x05, 0, 0, 0, a, 0⟩
  | .mov d a n => ⟨0x08, 0, n, d, a, 0⟩
  | .limm d v => ⟨0x09, 0, 0, d, v.extractLsb' 0 16, v.extractLsb' 16 16⟩
  | .ladd d a b => ⟨0x10, 0, 0, d, a, b⟩
  | .lsub d a b => ⟨0x11, 0, 0, d, a, b⟩
  | .lcmp a b => ⟨0x12, 0, 0, 0, a, b⟩
  | .lisz a => ⟨0x13, 0, 0, 0, a, 0⟩
  | .lshl d a b => ⟨0x14, 0, 0, d, a, b⟩
  | .lshr d a b => ⟨0x15, 0, 0, d, a, b⟩
  | .land d a b => ⟨0x16, 0, 0, d, a, b⟩
  | .lor d a b => ⟨0x17, 0, 0, d, a, b⟩
  | .lxor d a b => ⟨0x18, 0, 0, d, a, b⟩
  | .lnot d a => ⟨0x19, 0, 0, d, a, 0⟩
  | .fadd c d a b => ⟨0x20, c.bit, 0, d, a, b⟩
  | .fsub c d a b => ⟨0x21, c.bit, 0, d, a, b⟩
  | .fneg c d a => ⟨0x22, c.bit, 0, d, a, 0⟩
  | .fmul c d a b => ⟨0x23, c.bit, 0, d, a, b⟩
  | .fsqr c d a => ⟨0x24, c.bit, 0, d, a, 0⟩
  | .fmulw c d a b => ⟨0x25, c.bit, 0, d, a, b⟩
  | .ftom c d a => ⟨0x26, c.bit, 0, d, a, 0⟩
  | .ffromm c d a => ⟨0x27, c.bit, 0, d, a, 0⟩
  | .norm c d a m => ⟨0x28, c.bit, m.code, d, a, 0⟩
  | .feisz c a => ⟨0x29, c.bit, 0, 0, a, 0⟩
  | .e2add d a b => ⟨0x30, 0, 0, d, a, b⟩
  | .e2sub d a b => ⟨0x31, 0, 0, d, a, b⟩
  | .e2neg d a => ⟨0x32, 0, 0, d, a, 0⟩
  | .e2mul d a b => ⟨0x33, 0, 0, d, a, b⟩
  | .e2sqr d a => ⟨0x34, 0, 0, d, a, 0⟩
  | .e2eq a b => ⟨0x35, 0, 0, 0, a, b⟩
  | .e2isz a => ⟨0x36, 0, 0, 0, a, 0⟩
  | .padd c d a b => ⟨0x40, c.bit, 0, d, a, b⟩
  | .padda c d a b => ⟨0x41, c.bit, 0, d, a, b⟩
  | .pdbl c d a => ⟨0x42, c.bit, 0, d, a, 0⟩
  | .pneg c d a => ⟨0x43, c.bit, 0, d, a, 0⟩
  | .pisz c a => ⟨0x44, c.bit, 0, 0, a, 0⟩
  | .ponc c a => ⟨0x45, c.bit, 0, 0, a, 0⟩
  | .pfroma c d a => ⟨0x46, c.bit, 0, d, a, 0⟩
  | .peq c a b => ⟨0x47, c.bit, 0, 0, a, b⟩
  | .pmul g d a b n => ⟨0x48, g.bit, n, d, a, b⟩
  | .bktclr c a => ⟨0x50, c.bit, 0, 0, a, 0⟩
  | .bktacc c a b => ⟨0x51, c.bit, 0, 0, a, b⟩
  | .bktred c d a => ⟨0x52, c.bit, 0, d, a, 0⟩
  | .msm c d a => ⟨0x53, c.bit, 0, d, a, 0⟩
  | .bfly d a b => ⟨0x60, 0, 0, d, a, b⟩
  | .bitrev d k => ⟨0x61, 0, k, d, 0, 0⟩
  | .fft d k => ⟨0x62, 0, k, d, 0, 0⟩
  | .ifft d k => ⟨0x63, 0, k, d, 0, 0⟩

/-- Encodes an instruction (30_encoding.md R133). -/
def encode (i : Instr) : CmdWord := i.fields.toWord

/-- The bytes of an encoded instruction, in window order (20_memory.md R83). -/
def encodeBytes (i : Instr) : List Byte := leBytes 8 (encode i).toNat

/-- The word that a table row of `nbits` bits with value `w` stands for: bits at `nbits` and above
are 0. -/
def tableWord (nbits w : Nat) : Nat := w % 2 ^ nbits % 2 ^ 64

/-- The instruction the decoder reads from a table row's word of `nbits` bits. -/
def decodeTableWord (nbits w : Nat) : Option Instr :=
  match decodeBytes (leBytes 8 (tableWord nbits w)) with
  | .ok (i, _) => some i
  | .error _ => none

end Sys2Proof
end

