-- ==== Sys2Proof/Config.lean ====
section
/-! DEFINITION. What an implementation or a platform fixes (spec 00_scope.md R12) and the free values:
what the spec leaves at "any value" (93_implementation_defined.md U1, U2, U3). What the spec leaves open
is opaque: no proof can learn it, so a theorem holds whatever it is. -/

namespace Sys2Proof

/-- The implementation parameters of 00_scope.md R12. -/
structure Params where
  opmLog  : Nat
  cmdmLog : Nat
  lanes   : Nat
  /-- BLOCK_BASE, the host bus address of the window (20_memory.md R81, R94; log 14) -/
  blockBase : Nat
deriving DecidableEq, Repr

/-- OPEN PARAMETER (00_scope.md R12; 92_eei_decisions.md, open parameters; log 14): the BLOCK_BASE of the
platform that the machine stands on after reset. -/
opaque Config.blockBase : Nat

/-- The default parameters of 00_scope.md R12, on a platform that R12 leaves open. -/
def Params.default : Params :=
  { opmLog := 16, cmdmLog := 12, lanes := 1, blockBase := Config.blockBase }

/-- The legal values of 00_scope.md R12; every BLOCK_BASE is the platform's to choose. -/
def Params.legal (p : Params) : Bool :=
  decide (1 ≤ p.opmLog ∧ p.opmLog ≤ 16 ∧ 1 ≤ p.cmdmLog ∧ p.cmdmLog ≤ 16 ∧ 1 ≤ p.lanes ∧ p.lanes ≤ 255)

/-- OPM_SLOTS (00_scope.md R12). -/
def Params.opmSlots (p : Params) : Nat := 2 ^ p.opmLog

/-- CMDM_WORDS (00_scope.md R12). -/
def Params.cmdmWords (p : Params) : Nat := 2 ^ p.cmdmLog

/-- FREE VALUE (93_implementation_defined.md U2; log 3): the byte that window offset `offset` of
operand or command memory holds after hardware reset number `powerOn`, until it is written. -/
opaque Config.powerOnByte (powerOn offset : Nat) : Byte

/-- FREE VALUE (93_implementation_defined.md U1; log 6): what draw number `draw` leaves in slot
`slot` when a group-law command is given a point that is not on the curve. The machine reduces it
below the modulus, the one limit U1 sets. -/
opaque Config.offCurveSlot (draw slot : Nat) : Nat

/-- FREE VALUE (93_implementation_defined.md U3; log 10): what draw number `draw` leaves in
destination slot `slot` of the command in progress when the host aborts a run. -/
opaque Config.abortedSlot (draw slot : Nat) : Word256

end Sys2Proof
end

