-- ==== Sys2Proof/Machine/State.lean ====
section
/-! DEFINITION. The state of REDC-CORE (spec 10_state.md R30-R50), as plain data, and the state after
a hardware reset. -/

namespace Sys2Proof.Machine

/-- The condition flags (10_state.md R39). -/
structure Flags where
  c  : Bool
  z  : Bool
  lt : Bool
  gt : Bool
  t  : Bool
deriving DecidableEq, Repr

/-- The stored bits of STATUS (10_state.md R38); STATUS.IRQ is computed. -/
structure Status where
  busy    : Bool
  done    : Bool
  fault   : Bool
  hostErr : Bool
deriving DecidableEq, Repr

/-- The fault registers FAULT_CAUSE, FAULT_PC, FAULT_CMD, FAULT_INFO (10_state.md R46). -/
structure FaultRecord where
  cause : BitVec 8
  pc    : BitVec 17
  cmd   : CmdWord
  info  : BitVec 32
deriving DecidableEq, Repr

/-- The fault registers when no fault is recorded (60_exceptions.md R450, code 0). -/
def FaultRecord.none : FaultRecord := { cause := 0, pc := 0, cmd := 0, info := 0 }

/-- The registers of one field context (10_state.md R40). -/
structure Ctx where
  q  : Word256
  r2 : Word256
  np : Limb
deriving DecidableEq, Repr

/-- The configuration registers (10_state.md R40, R42, R44): CTX0 and CTX1, BETA, B1, B2_C0, B2_C1,
ROOT_BASE, IROOT_BASE, ROOT_MAXLOG. -/
structure ConfigRegs where
  ctx0       : Ctx
  ctx1       : Ctx
  beta       : Word256
  b1         : Word256
  b2c0       : Word256
  b2c1       : Word256
  rootBase   : BitVec 16
  irootBase  : BitVec 16
  rootMaxlog : BitVec 7
deriving DecidableEq, Repr

/-- The configuration registers after a reset (10_state.md R49). -/
def ConfigRegs.reset : ConfigRegs where
  ctx0 := { q := 0, r2 := 0, np := 0 }
  ctx1 := { q := 0, r2 := 0, np := 0 }
  beta := 0
  b1 := 0
  b2c0 := 0
  b2c1 := 0
  rootBase := 0
  irootBase := 0
  rootMaxlog := 0

/-- Operand memory and command memory together, keyed by their byte offsets in the host window
(20_memory.md R81, R82): strictly rising offsets, one entry for every byte written since the last
hardware reset. A byte with no entry is unwritten (10_state.md R50). Log 2, log 3. -/
abbrev Memory := List Host.Cell

/-- An access of the host: a bus address, a size in bytes, and the data of a write (20_memory.md R81,
R84; log 14, log 15). -/
inductive HostAccess where
  | read (addr : Nat) (size : Nat)
  | write (addr : Nat) (size : Nat) (v : Limb)
deriving DecidableEq, Repr

/-- What the host does next. The model's own (log 4). -/
inductive HostTurn where
  /-- nothing: the engine makes its next step -/
  | engine
  /-- one access of the bus -/
  | access (a : HostAccess)
  /-- it pulls BLOCK_RESET (70_reset_and_hazards.md R500) -/
  | blockReset
deriving DecidableEq, Repr

/-- What the host port answers to an access (20_memory.md R84-R88). -/
inductive HostReply where
  | data (v : Limb)
  | done
  | busError
deriving DecidableEq, Repr

/-- The state of the machine: all that 10_state.md R30-R46 name, the parameters of 00_scope.md R12,
and four fields of the model's own (`inbox`, `reply`, `powerOns`, `freeCtr`). -/
structure State where
  /-- OPM_LOG, CMDM_LOG, LANES, BLOCK_BASE: constants of the machine (10_state.md R48; log 1, log 14) -/
  params    : Params
  /-- OPM and CMDM (10_state.md R31, R34) -/
  mem       : Memory
  /-- CPC (10_state.md R35) -/
  cpc       : BitVec 17
  /-- START_PC (10_state.md R36) -/
  startPc   : BitVec 16
  /-- LCNT (10_state.md R45) -/
  lcnt      : BitVec 16
  /-- FLAGS (10_state.md R39) -/
  flags     : Flags
  /-- STATUS (10_state.md R38) -/
  status    : Status
  /-- CTRL.IRQ_EN (10_state.md R37) -/
  irqEn     : Bool
  /-- FAULT_* (10_state.md R46) -/
  faultRec  : FaultRecord
  /-- the configuration registers (10_state.md R40, R42, R44) -/
  cfg       : ConfigRegs
  /-- the host's coming turns, the next one first (log 4) -/
  inbox     : List HostTurn
  /-- the answer to the host's last access (log 4) -/
  reply     : Option HostReply
  /-- how many hardware resets came before: the argument of the power-on contents (log 3) -/
  powerOns  : Nat
  /-- how many draws of free values came before (log 6) -/
  freeCtr   : Nat
deriving DecidableEq, Repr

/-- Why the machine stops. Every fault of the spec is an entry into the fault registers
(60_exceptions.md R456) and a next state, not one of these. -/
inductive Fault where
  /-- raised by `step` alone, on a state whose parameters 00_scope.md R12 does not allow; safe: no
  machine of the spec has such parameters (log 12) -/
  | illegalParameters
deriving DecidableEq, Repr

/-- Why the model has no meaning for an instruction. -/
inductive Refusal where
  /-- raised by `exec` alone, for an instruction that has no meaning yet; safe: the model stops.
  No arm of `exec` raises it -/
  | notModelled (mnemonic : String)
deriving DecidableEq, Repr

/-- What one step of this machine can end in. -/
abbrev Outcome := Host.Outcome State Fault Refusal

/-- The machine right after a hardware reset, with the default parameters (10_state.md R49, R50;
70_reset_and_hazards.md R500, R501). -/
def State.reset : State where
  params := Params.default
  mem := []
  cpc := 0
  startPc := 0
  lcnt := 0
  flags := { c := false, z := false, lt := false, gt := false, t := false }
  status := { busy := false, done := false, fault := false, hostErr := false }
  irqEn := false
  faultRec := FaultRecord.none
  cfg := ConfigRegs.reset
  inbox := []
  reply := none
  powerOns := 0
  freeCtr := 0

end Sys2Proof.Machine
end

