-- ==== Sys2Proof/Machine/Ops.lean ====
section
/-! DEFINITION. The named operations over memory and registers: the byte memory, slots and command
words, the program counter, the faults (spec 60_exceptions.md R450-R458), START and the resets. -/

namespace Sys2Proof.Machine

/-! ## Loops -/

/-- `f 0`, then `f 1`, ..., then `f (n - 1)`: the pseudocode's `for i from 0 to n - 1`. -/
def iter {σ : Type} : Nat → (Nat → σ → σ) → σ → σ
  | 0, _, s => s
  | n + 1, f, s => f n (iter n f s)

/-- `f (n - 1)`, ..., then `f 0`: the pseudocode's `for i from n - 1 down to 0`. -/
def iterDown {σ : Type} : Nat → (Nat → σ → σ) → σ → σ
  | 0, _, s => s
  | n + 1, f, s => iterDown n f (f n s)

/-! ## The byte memory (20_memory.md R81, R82) -/

/-- The byte written last at offset `a`, if one was. -/
def Memory.get : Memory → Nat → Option Byte
  | [], _ => none
  | (k, b) :: m, a => if a = k then some b else Memory.get m a

/-- Writes one byte, keeping the offsets rising. -/
def Memory.set : Memory → Nat → Byte → Memory
  | [], a, b => [(a, b)]
  | (k, c) :: m, a, b =>
    if a < k then (a, b) :: (k, c) :: m
    else if a = k then (a, b) :: m
    else (k, c) :: Memory.set m a b

/-- The canonical form: offsets strictly rise. An unlisted offset reads as no value (unwritten), so
no entry equals what an unlisted offset reads as. -/
def Memory.wf (m : Memory) : Bool := decide (List.Pairwise (fun x y => x.1 < y.1) m)

/-- Writes a byte string from offset `a` upwards. -/
def Memory.writeBytes : Memory → Nat → List Byte → Memory
  | m, _, [] => m
  | m, a, b :: bs => Memory.writeBytes (m.set a b) (a + 1) bs

/-- Window offset of operand slot `i` (20_memory.md R81). -/
def slotOffset (i : Nat) : Nat := 0x200000 + 32 * i

/-- Window offset of command word `i` (20_memory.md R81). -/
def cmdOffset (i : Nat) : Nat := 0x080000 + 8 * i

/-- The byte at a window offset of OPM or CMDM: what was written last, else what power-on left there
(93_implementation_defined.md U2; log 3). -/
def State.byteAt (s : State) (off : Nat) : Byte :=
  (s.mem.get off).getD (Config.powerOnByte s.powerOns off)

/-- `n` bytes from a window offset upwards. -/
def State.bytesAt (s : State) : Nat → Nat → List Byte
  | _, 0 => []
  | off, n + 1 => s.byteAt off :: s.bytesAt (off + 1) n

/-- Replaces the memory. -/
def State.setMem (s : State) (m : Memory) : State := { s with mem := m }

/-- Writes a byte string at a window offset. -/
def State.setBytes (s : State) (off : Nat) (bs : List Byte) : State :=
  s.setMem (s.mem.writeBytes off bs)

/-! ## Slots and command words (10_state.md R31, R34; 20_memory.md R91) -/

/-- The value of operand slot `i`. -/
def State.slot (s : State) (i : Nat) : Word256 :=
  BitVec.ofNat 256 (leNat (s.bytesAt (slotOffset i) 32))

/-- The value of operand slot `i` as an integer: `x[i]` of 00_scope.md R17. -/
def State.x (s : State) (i : Nat) : Nat := (s.slot i).toNat

/-- `x[i] <- v`. -/
def State.setSlot (s : State) (i : Nat) (v : Word256) : State :=
  s.setBytes (slotOffset i) (leBytes 32 v.toNat)

/-- `x[i] <- v` for an integer `v < 2^256`. -/
def State.setX (s : State) (i v : Nat) : State := s.setSlot i (BitVec.ofNat 256 v)

/-- The values of the `n` slots from `b` upwards. -/
def State.slots (s : State) : Nat → Nat → List Word256
  | _, 0 => []
  | b, n + 1 => s.slot b :: s.slots (b + 1) n

/-- Writes a run of slots from `b` upwards, in increasing order. -/
def State.setSlots : State → Nat → List Word256 → State
  | s, _, [] => s
  | s, b, v :: vs => State.setSlots (s.setSlot b v) (b + 1) vs

/-- Writes a run of integers below `2^256` from slot `b` upwards, in increasing order. -/
def State.setXs (s : State) (b : Nat) (vs : List Nat) : State :=
  s.setSlots b (vs.map (BitVec.ofNat 256))

/-- Writes `f i` to each slot `i` of the range `(b, w)`. -/
def State.fillSlots (s : State) (f : Nat → Word256) (b w : Nat) : State :=
  iter w (fun i st => st.setSlot (b + i) (f (b + i))) s

/-- Command word `i` of CMDM. -/
def State.command (s : State) (i : Nat) : CmdWord :=
  BitVec.ofNat 64 (leNat (s.bytesAt (cmdOffset i) 8))

/-- Writes command word `i` of CMDM. -/
def State.setCommand (s : State) (i : Nat) (w : CmdWord) : State :=
  s.setBytes (cmdOffset i) (leBytes 8 w.toNat)

/-! ## The sequencer's registers (40_sequencer.md R162) -/

/-- `pc <- target`. -/
def State.goto (s : State) (t : BitVec 17) : State := { s with cpc := t }

/-- `pc <- pc + 1`, a 17-bit value (R162). -/
def State.advance (s : State) : State := s.goto (s.cpc + 1)

/-- A taken branch: `pc <- zext_17(RA)` (R162). -/
def State.branch (s : State) (target : BitVec 16) : State := s.goto (target.setWidth 17)

/-- `LCNT <- v` (10_state.md R45). -/
def State.setLcnt (s : State) (v : BitVec 16) : State := { s with lcnt := v }

/-- Replaces FLAGS (10_state.md R39). -/
def State.setFlags (s : State) (f : Flags) : State := { s with flags := f }

/-- Replaces STATUS (10_state.md R38). -/
def State.setStatus (s : State) (t : Status) : State := { s with status := t }

/-- Replaces CTRL.IRQ_EN (10_state.md R37). -/
def State.setIrqEn (s : State) (b : Bool) : State := { s with irqEn := b }

/-- Replaces the fault registers (10_state.md R46). -/
def State.setFaultRec (s : State) (r : FaultRecord) : State := { s with faultRec := r }

/-- Replaces START_PC (10_state.md R36). -/
def State.setStartPc (s : State) (v : BitVec 16) : State := { s with startPc := v }

/-- Replaces the configuration registers (10_state.md R40, R42, R44). -/
def State.setCfg (s : State) (c : ConfigRegs) : State := { s with cfg := c }

/-- Replaces the host's coming turns (log 4). -/
def State.setInbox (s : State) (ts : List HostTurn) : State := { s with inbox := ts }

/-- Records the host port's answer (log 4). -/
def State.setReply (s : State) (r : Option HostReply) : State := { s with reply := r }

/-- Counts one draw of free values (log 6). -/
def State.countDraw (s : State) : State := { s with freeCtr := s.freeCtr + 1 }

/-- The registers of context `c` (10_state.md R40). -/
def State.ctx (s : State) : FieldCtx → Ctx
  | .fq => s.cfg.ctx0
  | .fr => s.cfg.ctx1

/-- The interrupt output, and STATUS.IRQ: `IRQ_EN and (DONE or FAULT)` (60_exceptions.md R470). -/
def State.irq (s : State) : Bool := s.irqEn && (s.status.done || s.status.fault)

/-- The end of a run by HALT: DONE set, BUSY cleared, pc unchanged (40_sequencer.md R164). -/
def State.finish (s : State) : State := s.setStatus { s.status with done := true, busy := false }

/-! ## Taking a fault (60_exceptions.md R450-R457) -/

/-- The fault causes (60_exceptions.md R450). -/
inductive Cause where
  | fetchRange
  | illegalOpcode
  | reservedField
  | ctxInvalid
  | operandRange
  | badDescriptor
  | domain
  | overlap
  | badTag
  | noncanonical
deriving DecidableEq, Repr

/-- The value of FAULT_CAUSE for a cause (60_exceptions.md R450). -/
def Cause.code : Cause → BitVec 8
  | .fetchRange => 1
  | .illegalOpcode => 2
  | .reservedField => 3
  | .ctxInvalid => 4
  | .operandRange => 5
  | .badDescriptor => 6
  | .domain => 7
  | .overlap => 8
  | .badTag => 9
  | .noncanonical => 10

/-- A failed check: its cause and its FAULT_INFO value (60_exceptions.md R450, R457). -/
structure Trap where
  cause : Cause
  info  : BitVec 32
deriving DecidableEq, Repr

/-- Fault entry (60_exceptions.md R456): the record is written, FAULT set, BUSY cleared; CPC, FLAGS,
LCNT and memory stay (R454). `w` is the fetched command word, 0 for FETCH_RANGE. -/
def State.takeFault (s : State) (w : CmdWord) (t : Trap) : State :=
  (s.setFaultRec { cause := t.cause.code, pc := s.cpc, cmd := w, info := t.info }).setStatus
    { s.status with fault := true, busy := false }

/-- START, the only way on after a fault (60_exceptions.md R466, R458): CPC from START_PC, DONE, FAULT
and the fault record cleared, BUSY set. -/
def State.start (s : State) : State :=
  ((s.goto (s.startPc.setWidth 17)).setFaultRec FaultRecord.none).setStatus
    { s.status with done := false, fault := false, busy := true }

/-- One check of a command: the fault it raises in a state, if it fails there (00_scope.md R19). -/
abbrev Check := State → Option Trap

/-- The first check that fails (60_exceptions.md R454, R455). -/
def firstTrap : List Check → State → Option Trap
  | [], _ => none
  | c :: cs, s =>
    match c s with
    | some t => some t
    | none => firstTrap cs s

/-- One command: the first failing check raises its fault and nothing else is written (60_exceptions.md
R454); otherwise the command's effect (40_sequencer.md R160). `encode i` is the fetched word: every
accepted word is the encoding of what it decodes to (log 11). -/
def command (i : Instr) (checks : List Check) (eff : State → State) (s : State) : Outcome :=
  match firstTrap checks s with
  | some t => .next (s.takeFault (encode i) t)
  | none => .next (eff s)

/-! ## Fetch (40_sequencer.md R161) -/

/-- The word at CPC, or nothing where CPC lies beyond command memory. -/
def State.fetchWord (s : State) : Option CmdWord :=
  if s.cpc.toNat < s.params.cmdmWords then some (s.command s.cpc.toNat) else none

/-- The fault of a fetch beyond command memory (40_sequencer.md R161). -/
def fetchTrap : Trap := { cause := .fetchRange, info := 0 }

/-- The fault of a word the decoder rejects (60_exceptions.md R450, R451). The engine decodes whole
words, so it never meets `truncated`. -/
def decodeTrap : DecodeError → Trap
  | .illegalOpcode => { cause := .illegalOpcode, info := 0 }
  | .reservedField => { cause := .reservedField, info := 0 }
  | .truncated => { cause := .illegalOpcode, info := 0 }

/-! ## Resets (70_reset_and_hazards.md R500-R502) -/

/-- Every CSR at its reset value (10_state.md R49); OPM and CMDM stay (R502). -/
def State.resetCsrs (s : State) : State :=
  { s with
    cpc := State.reset.cpc
    startPc := State.reset.startPc
    lcnt := State.reset.lcnt
    flags := State.reset.flags
    status := State.reset.status
    irqEn := State.reset.irqEn
    faultRec := State.reset.faultRec
    cfg := State.reset.cfg }

/-- The hardware reset: every CSR at its reset value, OPM and CMDM unwritten, with new unspecified
contents (10_state.md R49, R50; 70_reset_and_hazards.md R500; log 17). -/
def State.hardwareReset (s : State) : State :=
  { s.resetCsrs with mem := [], reply := none, powerOns := s.powerOns + 1 }

end Sys2Proof.Machine
end

