-- ==== Sys2Proof/Machine/Flags.lean ====
section
/-! DEFINITION. Every flag computation of the spec: the table of 41_limb.md R200. -/

namespace Sys2Proof.Machine

/-- C, Z of LADD: the carry out of bit 255, and the result is 0 (41_limb.md R202). -/
def Flags.ofAdd (f : Flags) (a b : Word256) : Flags :=
  { f with c := decide (2 ^ 256 ≤ a.toNat + b.toNat), z := decide (a + b = 0) }

/-- C, Z of LSUB: the borrow, and the result is 0 (41_limb.md R203). -/
def Flags.ofSub (f : Flags) (a b : Word256) : Flags :=
  { f with c := decide (a.toNat < b.toNat), z := decide (a - b = 0) }

/-- LT, GT, Z of LCMP: the unsigned comparison (41_limb.md R204). -/
def Flags.ofCmp (f : Flags) (a b : Word256) : Flags :=
  { f with lt := decide (a.toNat < b.toNat), gt := decide (b.toNat < a.toNat), z := decide (a = b) }

/-- Z alone (41_limb.md R200). -/
def Flags.setZ (f : Flags) (z : Bool) : Flags := { f with z := z }

/-- T alone (41_limb.md R200). -/
def Flags.setT (f : Flags) (t : Bool) : Flags := { f with t := t }

/-- Whether BRF's condition holds (40_sequencer.md R166). -/
def Flags.holds (f : Flags) : Cond → Bool
  | .c => f.c
  | .nc => !f.c
  | .z => f.z
  | .nz => !f.z
  | .lt => f.lt
  | .nlt => !f.lt
  | .gt => f.gt
  | .ngt => !f.gt
  | .t => f.t
  | .nt => !f.t

/-- FLAGS as the register reads: C [0], Z [1], LT [2], GT [3], T [4] (10_state.md R36). -/
def Flags.word (f : Flags) : Limb :=
  (BitVec.ofBool f.t ++ BitVec.ofBool f.gt ++ BitVec.ofBool f.lt ++ BitVec.ofBool f.z ++
    BitVec.ofBool f.c).setWidth 64

/-- FLAGS from a written word; the upper bits are ignored (10_state.md R36). -/
def Flags.ofWord (v : Limb) : Flags where
  c := v.getLsbD 0
  z := v.getLsbD 1
  lt := v.getLsbD 2
  gt := v.getLsbD 3
  t := v.getLsbD 4

end Sys2Proof.Machine
end

