-- ==== Sys2Proof/Machine/Operands.lean ====
section
/-! DEFINITION. Every operand form of the spec and the checks the commands share: slot ranges, canonical
field elements, field-element records, MSM descriptors. -/

namespace Sys2Proof.Machine

/-- `limb(v, j)` (00_scope.md R16). -/
def limb (v j : Nat) : Nat := v / 2 ^ (64 * j) % 2 ^ 64

/-- `v[hi:lo]` (00_scope.md R15). -/
def bits (v hi lo : Nat) : Nat := v / 2 ^ lo % 2 ^ (hi + 1 - lo)

/-! ## Ranges (20_memory.md R92, R93) -/

/-- InRange(b, w) (20_memory.md R92). -/
def State.inRange (s : State) (b w : Nat) : Bool :=
  decide (w = 0 ∨ b + w ≤ s.params.opmSlots)

/-- Overlap((b1, w1), (b2, w2)) (20_memory.md R93). -/
def overlap (b1 w1 b2 w2 : Nat) : Bool :=
  decide (0 < w1 ∧ 0 < w2 ∧ b1 < b2 + w2 ∧ b2 < b1 + w1)

/-- FAULT_INFO for a slot (60_exceptions.md R450, R457). -/
def slotInfo (i : Nat) : BitVec 32 := BitVec.ofNat 32 i

/-- FAULT_INFO for a configuration register (42_montgomery.md R245). -/
def registerInfo : BitVec 32 := 0xFFFFFFFF

/-- OPERAND_RANGE unless the range lies in OPM (20_memory.md R92). -/
def checkRange (b w : Nat) : Check := fun s =>
  if s.inRange b w then none else some { cause := .operandRange, info := slotInfo b }

/-- OVERLAP if the two ranges overlap (20_memory.md R93; 60_exceptions.md R450). -/
def checkApart (b1 w1 b2 w2 : Nat) : Check := fun _ =>
  if overlap b1 w1 b2 w2 then some { cause := .overlap, info := 0 } else none

/-! ## Contexts and canonical elements -/

/-- CtxValid (10_state.md R41). -/
def Ctx.valid (k : Ctx) : Bool :=
  decide (k.q.toNat % 2 = 1 ∧ 3 ≤ k.q.toNat ∧ k.r2.toNat = 2 ^ 512 % k.q.toNat ∧
    k.np.toNat * k.q.toNat % 2 ^ 64 = 1)

/-- The modulus of context `c` (10_state.md R40). -/
def State.q (s : State) (c : FieldCtx) : Nat := (s.ctx c).q.toNat

/-- The number of a context (00_scope.md R13), the FAULT_INFO of CTX_INVALID. -/
def ctxNum : FieldCtx → BitVec 32
  | .fq => 0
  | .fr => 1

/-- CTX_INVALID unless context `c` is valid (42_montgomery.md R244). -/
def checkCtx (c : FieldCtx) : Check := fun s =>
  if (s.ctx c).valid then none else some { cause := .ctxInvalid, info := ctxNum c }

/-- The first slot of the range `(b, w)` with property `p`, in increasing order. -/
def findSlot (p : Nat → Bool) : Nat → Nat → Option Nat
  | _, 0 => none
  | b, w + 1 => if p b then some b else findSlot p (b + 1) w

/-- NONCANONICAL for the first slot of `(b, w)` that is not below the modulus of `c` (42_montgomery.md
R245). -/
def checkCanon (c : FieldCtx) (b w : Nat) : Check := fun s =>
  (findSlot (fun i => decide (s.q c ≤ s.x i)) b w).map
    (fun i => { cause := .noncanonical, info := slotInfo i })

/-- NONCANONICAL(0xFFFFFFFF) for a configuration register that is not below the modulus of context FQ
(42_montgomery.md R245). -/
def checkReg (r : ConfigRegs → Word256) : Check := fun s =>
  if (r s.cfg).toNat < s.q .fq then none
  else some { cause := .noncanonical, info := registerInfo }

/-- NONCANONICAL(0xFFFFFFFF) if BETA is not canonical (44_fq2.md R318). -/
def checkBeta : Check := checkReg (·.beta)

/-! ## Field-element records (43_field_facade.md R285) -/

/-- The three legal types of a record. -/
inductive Tag where
  | short
  | longNormal
  | longMont
deriving DecidableEq, Repr

/-- The type of a record with header value `h`: bits [63:32] of limb 0 (R285). -/
def recordTag (h : Nat) : Option Tag :=
  if bits h 63 32 = 0 then some .short
  else if bits h 63 32 = 0x80000000 then some .longNormal
  else if bits h 63 32 = 0xC0000000 then some .longMont
  else none

/-- The short value: bits [31:0] of limb 0, signed (R285). -/
def shortValue (h : Nat) : Int := (BitVec.ofNat 32 h).toInt

/-- BAD_TAG for an illegal tag (R285). -/
def checkTag (hdr : Nat) : Check := fun s =>
  match recordTag (s.x hdr) with
  | some _ => none
  | none => some { cause := .badTag, info := slotInfo hdr }

/-- NONCANONICAL for the value slot of a long record; a short record does not read it (R288). -/
def checkRecordValue (c : FieldCtx) (hdr : Nat) : Check := fun s =>
  match recordTag (s.x hdr) with
  | some .longNormal => checkCanon c (hdr + 1) 1 s
  | some .longMont => checkCanon c (hdr + 1) 1 s
  | _ => none

/-! ## Widths of curve operands (45_curve.md R341) -/

/-- Slots of one coordinate: 1 in G1, 2 in G2 (10_state.md R33). -/
def coordWidth : Group → Nat
  | .g1 => 1
  | .g2 => 2

/-- JW_g, the slots of a Jacobian point. -/
def jw (g : Group) : Nat := 3 * coordWidth g

/-- AW_g, the slots of an affine point. -/
def aw (g : Group) : Nat := 2 * coordWidth g

/-- NONCANONICAL(0xFFFFFFFF) if BETA is not canonical, for G2 alone (45_curve.md R350). -/
def checkBetaG2 (g : Group) : Check := fun s =>
  match g with
  | .g1 => none
  | .g2 => checkBeta s

/-! ## MSM descriptors (46_msm.md R390-R392) -/

/-- The fields of a descriptor. -/
structure Desc where
  n  : Nat
  pb : Nat
  sb : Nat
  bb : Nat
  c  : Nat
deriving DecidableEq, Repr

/-- The fields of the descriptor value `v` (R390). -/
def Desc.ofValue (v : Nat) : Desc where
  n := limb v 0
  pb := bits (limb v 1) 15 0
  sb := bits (limb v 1) 31 16
  bb := bits (limb v 1) 47 32
  c := bits (limb v 1) 52 48

/-- The descriptor in slot `i`. -/
def State.desc (s : State) (i : Nat) : Desc := Desc.ofValue (s.x i)

/-- A descriptor value no rule allows: c = 0, c > 16, or a non-zero must-be-0 bit (R390). -/
def badDescriptor (v : Nat) : Bool :=
  decide ((Desc.ofValue v).c = 0 ∨ 16 < (Desc.ofValue v).c ∨ bits (limb v 1) 63 53 ≠ 0 ∨
    limb v 2 ≠ 0 ∨ limb v 3 ≠ 0)

/-- NB, the number of buckets (R391). -/
def Desc.nb (d : Desc) : Nat := 2 ^ d.c - 1

/-- W, the number of windows (R391). -/
def Desc.windows (d : Desc) : Nat := (256 + d.c - 1) / d.c

/-- `chunk_w(k)` (R391). -/
def Desc.chunk (d : Desc) (w k : Nat) : Nat := k / 2 ^ (w * d.c) % 2 ^ d.c

/-- BAD_DESCRIPTOR (R390). -/
def checkDesc (i : Nat) : Check := fun s =>
  if badDescriptor (s.x i) then some { cause := .badDescriptor, info := slotInfo i } else none

/-- BAD_DESCRIPTOR also for a window index beyond the last window (R396). -/
def checkWindow (i w : Nat) : Check := fun s =>
  if (s.desc i).windows ≤ w then some { cause := .badDescriptor, info := slotInfo i } else none

/-- OPERAND_RANGE of the points (R392). -/
def checkPoints (g : Group) (i : Nat) : Check := fun s =>
  checkRange (s.desc i).pb ((s.desc i).n * aw g) s

/-- OPERAND_RANGE of the scalars (R392). -/
def checkScalars (i : Nat) : Check := fun s => checkRange (s.desc i).sb (s.desc i).n s

/-- OPERAND_RANGE of the bucket array (R392). -/
def checkBuckets (g : Group) (i : Nat) : Check := fun s =>
  checkRange (s.desc i).bb ((s.desc i).nb * jw g) s

/-- OVERLAP of the bucket array with the descriptor slot (R392). -/
def checkBucketsDesc (g : Group) (i : Nat) : Check := fun s =>
  checkApart (s.desc i).bb ((s.desc i).nb * jw g) i 1 s

/-- OVERLAP of the bucket array with the points (R392). -/
def checkBucketsPoints (g : Group) (i : Nat) : Check := fun s =>
  checkApart (s.desc i).bb ((s.desc i).nb * jw g) (s.desc i).pb ((s.desc i).n * aw g) s

/-- OVERLAP of the bucket array with the scalars (R392). -/
def checkBucketsScalars (g : Group) (i : Nat) : Check := fun s =>
  checkApart (s.desc i).bb ((s.desc i).nb * jw g) (s.desc i).sb (s.desc i).n s

/-- NONCANONICAL for the point slots (R396, R398). -/
def checkPointsCanon (g : Group) (i : Nat) : Check := fun s =>
  checkCanon .fq (s.desc i).pb ((s.desc i).n * aw g) s

/-- NONCANONICAL for the bucket slots (R396, R397). -/
def checkBucketsCanon (g : Group) (i : Nat) : Check := fun s =>
  checkCanon .fq (s.desc i).bb ((s.desc i).nb * jw g) s

end Sys2Proof.Machine
end

