-- ==== Sys2Proof/Machine/Field.lean ====
section
/-! DEFINITION. The arithmetic primitives on values: the Montgomery product (spec 42_montgomery.md), the
additive field primitives (43_field_facade.md), Fq2 (44_fq2.md) and the group law (45_curve.md). They
are functions on integers; the commands narrow to slots. -/

namespace Sys2Proof.Machine

/-! ## The Montgomery product (42_montgomery.md R241, R242) -/

/-- One pass of the multiplier's loop: multiply-accumulate limb `i` of `a`, one REDC step (R242). -/
def redcStep (k : Ctx) (a b i t : Nat) : Nat :=
  let t1 := t + limb a i * b
  let npn := (2 ^ 64 - k.np.toNat) % 2 ^ 64
  let m := limb t1 0 * npn % 2 ^ 64
  (t1 + m * k.q.toNat) / 2 ^ 64

/-- `mont_c(a, b)`: four passes and the final conditional subtraction (R242). -/
def mont (k : Ctx) (a b : Nat) : Nat :=
  let t := iter 4 (redcStep k a b) 0
  if k.q.toNat ≤ t then t - k.q.toNat else t

/-- `ONE_c`, the Montgomery form of 1 (R246). -/
def oneOf (k : Ctx) : Nat := mont k k.r2.toNat 1

/-! ## Additive primitives (43_field_facade.md R280-R282) -/

/-- `addq_c` (R280). -/
def addq (q a b : Nat) : Nat := if q ≤ a + b then a + b - q else a + b

/-- `subq_c` (R281). -/
def subq (q a b : Nat) : Nat := if a < b then a + q - b else a - b

/-- `negq_c` (R282). -/
def negq (q a : Nat) : Nat := if a = 0 then 0 else q - a

/-! ## Fq2 (44_fq2.md R310-R314) -/

/-- The classes of the non-residue (10_state.md R43). -/
inductive BetaClass where
  | zero
  | one
  | negone
  | other
deriving DecidableEq, Repr

/-- The class of BETA against context FQ (10_state.md R43). -/
def betaClass (k : Ctx) (beta : Nat) : BetaClass :=
  if beta = 0 then .zero
  else if 2 ≤ k.q.toNat ∧ beta = 2 ^ 256 % k.q.toNat then .one
  else if 2 ≤ k.q.toNat ∧ beta = (k.q.toNat - 2 ^ 256 % k.q.toNat) % k.q.toNat then .negone
  else .other

/-- BETA_CLASS as the register reads (10_state.md R43). -/
def betaClassCode : BetaClass → BitVec 2
  | .zero => 0
  | .one => 1
  | .negone => 2
  | .other => 3

/-- An element `c0 + c1·x` of Fq2 (R310). -/
structure Fq2 where
  c0 : Nat
  c1 : Nat
deriving DecidableEq, Repr

/-- `mulβ(v)`, by the class of β (R311). -/
def mulBeta (k : Ctx) (beta v : Nat) : Nat :=
  match betaClass k beta with
  | .zero => 0
  | .one => v
  | .negone => negq k.q.toNat v
  | .other => mont k beta v

/-- `add2` (R312). -/
def add2 (q : Nat) (a b : Fq2) : Fq2 := { c0 := addq q a.c0 b.c0, c1 := addq q a.c1 b.c1 }

/-- `sub2` (R312). -/
def sub2 (q : Nat) (a b : Fq2) : Fq2 := { c0 := subq q a.c0 b.c0, c1 := subq q a.c1 b.c1 }

/-- `neg2` (R312). -/
def neg2 (q : Nat) (a : Fq2) : Fq2 := { c0 := negq q a.c0, c1 := negq q a.c1 }

/-- `mul2`, the three-multiplication product (R313). -/
def mul2 (k : Ctx) (beta : Nat) (a b : Fq2) : Fq2 :=
  let q := k.q.toNat
  let aa := mont k a.c0 b.c0
  let bb := mont k a.c1 b.c1
  let cross := mont k (addq q a.c0 a.c1) (addq q b.c0 b.c1)
  { c0 := addq q aa (mulBeta k beta bb), c1 := subq q (subq q cross aa) bb }

/-- `sqr2`, with the complex-squaring form in class NEGONE (R314). -/
def sqr2 (k : Ctx) (beta : Nat) (a : Fq2) : Fq2 :=
  let q := k.q.toNat
  let t := mont k a.c0 a.c1
  match betaClass k beta with
  | .negone => { c0 := mont k (addq q a.c0 a.c1) (subq q a.c0 a.c1), c1 := addq q t t }
  | _ => { c0 := addq q (mont k a.c0 a.c0) (mulBeta k beta (mont k a.c1 a.c1)), c1 := addq q t t }

/-! ## Coordinate fields and points (45_curve.md R340-R344) -/

/-- The operations of the coordinate field K of a group, its layout in slots and the curve constant
(R340). -/
structure CoordField (α : Type) where
  /-- slots of one element -/
  width : Nat
  add   : α → α → α
  sub   : α → α → α
  neg   : α → α
  mul   : α → α → α
  zero  : α
  one   : α
  /-- the curve constant b_g -/
  b     : α
  /-- every component of b_g is below q; only then does R344's equation name a curve (log 8) -/
  bCanonical : Bool
  /-- the element whose lowest component is in slot `i` of the operand memory `x` -/
  read  : (Nat → Nat) → Nat → α
  /-- the components, lowest slot first -/
  slots : α → List Nat

/-- K = Fq (R340, column G1). -/
def g1Field (s : State) : CoordField Nat where
  width := 1
  add := addq (s.q .fq)
  sub := subq (s.q .fq)
  neg := negq (s.q .fq)
  mul := mont (s.ctx .fq)
  zero := 0
  one := oneOf (s.ctx .fq)
  b := s.cfg.b1.toNat
  bCanonical := decide (s.cfg.b1.toNat < s.q .fq)
  read := fun x i => x i
  slots := fun v => [v]

/-- K = Fq2 (R340, column G2). -/
def g2Field (s : State) : CoordField Fq2 where
  width := 2
  add := add2 (s.q .fq)
  sub := sub2 (s.q .fq)
  neg := neg2 (s.q .fq)
  mul := mul2 (s.ctx .fq) s.cfg.beta.toNat
  zero := { c0 := 0, c1 := 0 }
  one := { c0 := oneOf (s.ctx .fq), c1 := 0 }
  b := { c0 := s.cfg.b2c0.toNat, c1 := s.cfg.b2c1.toNat }
  bCanonical := decide (s.cfg.b2c0.toNat < s.q .fq ∧ s.cfg.b2c1.toNat < s.q .fq)
  read := fun x i => { c0 := x i, c1 := x (i + 1) }
  slots := fun v => [v.c0, v.c1]

/-- A Jacobian point (R341). -/
structure Jac (α : Type) where
  x : α
  y : α
  z : α
deriving DecidableEq, Repr

/-- An affine point (R341). -/
structure Aff (α : Type) where
  x : α
  y : α
deriving DecidableEq, Repr

section GroupLaw

variable {α : Type} [DecidableEq α] (K : CoordField α)

/-- `u²` (R340). -/
def ksq (u : α) : α := K.mul u u

/-- `2u` (R340). -/
def kdbl (u : α) : α := K.add u u

/-- `3u` (R340). -/
def ktpl (u : α) : α := K.add (K.add u u) u

/-- A Jacobian point is at infinity iff Z is zero (R342). -/
def atInfinity (p : Jac α) : Bool := decide (p.z = K.zero)

/-- The affine sentinel for infinity (R342). -/
def isSentinel (p : Aff α) : Bool := decide (p.x = K.zero ∧ p.y = K.zero)

/-- `INF_g` (R343). -/
def infPoint : Jac α := { x := K.one, y := K.one, z := K.zero }

/-- `Canon_g` (R343). -/
def canonPoint (p : Jac α) : Jac α := if p.z = K.zero then infPoint K else p

/-- `JDBL_g` (R345). -/
def jdbl (p : Jac α) : Jac α :=
  if p.z = K.zero then infPoint K
  else
    let a := ksq K p.x
    let b := ksq K p.y
    let c := ksq K b
    let d := kdbl K (K.sub (K.sub (ksq K (K.add p.x b)) a) c)
    let e := ktpl K a
    let f := ksq K e
    let x3 := K.sub f (kdbl K d)
    let y3 := K.sub (K.mul e (K.sub d x3)) (kdbl K (kdbl K (kdbl K c)))
    let z3 := kdbl K (K.mul p.y p.z)
    canonPoint K { x := x3, y := y3, z := z3 }

/-- `JADD_g` (R346). -/
def jadd (p1 p2 : Jac α) : Jac α :=
  if p1.z = K.zero then canonPoint K p2
  else if p2.z = K.zero then p1
  else
    let z1z1 := ksq K p1.z
    let z2z2 := ksq K p2.z
    let u1 := K.mul p1.x z2z2
    let u2 := K.mul p2.x z1z1
    let s1 := K.mul (K.mul p1.y p2.z) z2z2
    let s2 := K.mul (K.mul p2.y p1.z) z1z1
    if u1 = u2 then
      if s1 = s2 then jdbl K p1 else infPoint K
    else
      let h := K.sub u2 u1
      let i := ksq K (kdbl K h)
      let j := K.mul h i
      let r := kdbl K (K.sub s2 s1)
      let v := K.mul u1 i
      let x3 := K.sub (K.sub (ksq K r) j) (kdbl K v)
      let y3 := K.sub (K.mul r (K.sub v x3)) (kdbl K (K.mul s1 j))
      let z3 := K.mul (K.sub (K.sub (ksq K (K.add p1.z p2.z)) z1z1) z2z2) h
      canonPoint K { x := x3, y := y3, z := z3 }

/-- `JADDA_g` (R347). -/
def jadda (p1 : Jac α) (a2 : Aff α) : Jac α :=
  if a2.x = K.zero ∧ a2.y = K.zero then canonPoint K p1
  else if p1.z = K.zero then { x := a2.x, y := a2.y, z := K.one }
  else
    let z1z1 := ksq K p1.z
    let u2 := K.mul a2.x z1z1
    let s2 := K.mul (K.mul a2.y p1.z) z1z1
    if p1.x = u2 then
      if p1.y = s2 then jdbl K p1 else infPoint K
    else
      let h := K.sub u2 p1.x
      let hh := ksq K h
      let i := kdbl K (kdbl K hh)
      let j := K.mul h i
      let r := kdbl K (K.sub s2 p1.y)
      let v := K.mul p1.x i
      let x3 := K.sub (K.sub (ksq K r) j) (kdbl K v)
      let y3 := K.sub (K.mul r (K.sub v x3)) (kdbl K (K.mul p1.y j))
      let z3 := K.sub (K.sub (ksq K (K.add p1.z h)) z1z1) hh
      canonPoint K { x := x3, y := y3, z := z3 }

/-- PNEG's value, `Canon_g((X, −Y, Z))` (R354). -/
def jneg (p : Jac α) : Jac α := canonPoint K { x := p.x, y := K.neg p.y, z := p.z }

/-- `fromAffine` (R357). -/
def fromAffine (p : Aff α) : Jac α :=
  if p.x = K.zero ∧ p.y = K.zero then infPoint K else { x := p.x, y := p.y, z := K.one }

/-- PONC's predicate: at infinity, or `Y² = X³ + b_g·Z⁶` with `Z⁶ = (Z²)²·Z²` (R356). -/
def onCurve (p : Jac α) : Bool :=
  decide (p.z = K.zero) ||
    decide (ksq K p.y =
      K.add (K.mul (ksq K p.x) p.x) (K.mul K.b (K.mul (ksq K (ksq K p.z)) (ksq K p.z))))

/-- PEQ's predicate (R358). -/
def pointEq (p1 p2 : Jac α) : Bool :=
  if p1.z = K.zero ∨ p2.z = K.zero then decide (p1.z = K.zero ∧ p2.z = K.zero)
  else
    decide (K.mul p1.x (ksq K p2.z) = K.mul p2.x (ksq K p1.z) ∧
      K.mul p1.y (K.mul (ksq K p2.z) p2.z) = K.mul p2.y (K.mul (ksq K p1.z) p1.z))

/-- A valid Jacobian point (R344). The equation without a division also judges a Z that is not 0 and has no
inverse: over a modulus that is not prime, and in G2 where β is 0 or a square (log 7). `b_g` is what B1 or
B2 holds now, whatever curve the program means (log 23), and names no curve if it is not below q (log 8). -/
def validJac (p : Jac α) : Bool := !K.bCanonical || onCurve K p

/-- A valid affine point: the sentinel, or `y² = x³ + b_g` (R344; log 8, log 23). -/
def validAff (p : Aff α) : Bool :=
  !K.bCanonical || isSentinel K p ||
    decide (ksq K p.y = K.add (K.mul (ksq K p.x) p.x) K.b)

/-- PMUL's value: double-and-add over the low `8·nb` bits of `k`, the most significant first (R359). -/
def scalarMul (p : Jac α) (k nb : Nat) : Jac α :=
  iterDown (8 * nb)
    (fun i acc => if k.testBit i then jadd K (jdbl K acc) p else jdbl K acc) (infPoint K)

/-- The Jacobian point in the slots from `i` upwards (10_state.md R33). -/
def readJac (s : State) (i : Nat) : Jac α where
  x := K.read s.x i
  y := K.read s.x (i + K.width)
  z := K.read s.x (i + 2 * K.width)

/-- The affine point in the slots from `i` upwards (10_state.md R33). -/
def readAff (s : State) (i : Nat) : Aff α where
  x := K.read s.x i
  y := K.read s.x (i + K.width)

/-- Writes a Jacobian point to the slots from `i` upwards, in layout order (10_state.md R33). -/
def writeJac (s : State) (i : Nat) (p : Jac α) : State :=
  s.setXs i (K.slots p.x ++ K.slots p.y ++ K.slots p.z)

end GroupLaw

/-- Runs `f` over the coordinate field of group `g` (R340). -/
def onGroup {β : Type} (g : Group) (s : State)
    (f : (α : Type) → [DecidableEq α] → CoordField α → β) : β :=
  match g with
  | .g1 => f Nat (g1Field s)
  | .g2 => f Fq2 (g2Field s)

/-- The result of a group-law command on a point that is not valid: every slot of the ranges holds an
unspecified value below the modulus (45_curve.md R349; 93_implementation_defined.md U1; log 6). -/
def State.offCurve (s : State) (ranges : List (Nat × Nat)) : State :=
  (ranges.foldl (fun st r =>
    st.fillSlots (fun i => BitVec.ofNat 256 (Config.offCurveSlot s.freeCtr i % s.q .fq)) r.1 r.2)
    s).countDraw

end Sys2Proof.Machine
end

