-- ==== Sys2Proof/Machine/Curve.lean ====
section
/-! DEFINITION. The meanings of the curve commands (spec 45_curve.md). Their checks are in the order
of R350. -/

namespace Sys2Proof.Machine

section Effects

variable {α : Type} [DecidableEq α] (K : CoordField α)

/-- Writes the group-law result `v` to the point at `d`, or, if some input is not valid, unspecified
values below the modulus (R349). -/
def storePoint (valid : Bool) (d : Nat) (v : Jac α) (s : State) : State :=
  if valid then writeJac K s d v else s.offCurve [(d, 3 * K.width)]

/-- PADD's destination (R351). -/
def paddEffect (d a b : Nat) (s : State) : State :=
  let p1 := readJac K s a
  let p2 := readJac K s b
  storePoint K (validJac K p1 && validJac K p2) d (jadd K p1 p2) s

/-- PADDA's destination (R352). -/
def paddaEffect (d a b : Nat) (s : State) : State :=
  let p1 := readJac K s a
  let a2 := readAff K s b
  storePoint K (validJac K p1 && validAff K a2) d (jadda K p1 a2) s

/-- PDBL's destination (R353). -/
def pdblEffect (d a : Nat) (s : State) : State :=
  let p := readJac K s a
  storePoint K (validJac K p) d (jdbl K p) s

/-- PMUL's destination (R359). -/
def pmulEffect (d a k nb : Nat) (s : State) : State :=
  let p := readJac K s a
  storePoint K (validJac K p) d (scalarMul K p (s.x k) nb) s

end Effects

/-- PADD (R351). -/
def execPadd (g : Group) (rd ra rb : SlotIx) (s : State) : Outcome :=
  command (.padd g rd ra rb)
    [checkCtx .fq, checkRange ra.toNat (jw g), checkRange rb.toNat (jw g),
      checkRange rd.toNat (jw g), checkCanon .fq ra.toNat (jw g), checkCanon .fq rb.toNat (jw g),
      checkBetaG2 g]
    (fun s => (onGroup g s (fun _ _ K =>
      paddEffect K rd.toNat ra.toNat rb.toNat s)).advance) s

/-- PADDA (R352). -/
def execPadda (g : Group) (rd ra rb : SlotIx) (s : State) : Outcome :=
  command (.padda g rd ra rb)
    [checkCtx .fq, checkRange ra.toNat (jw g), checkRange rb.toNat (aw g),
      checkRange rd.toNat (jw g), checkCanon .fq ra.toNat (jw g), checkCanon .fq rb.toNat (aw g),
      checkBetaG2 g]
    (fun s => (onGroup g s (fun _ _ K =>
      paddaEffect K rd.toNat ra.toNat rb.toNat s)).advance) s

/-- PDBL (R353). -/
def execPdbl (g : Group) (rd ra : SlotIx) (s : State) : Outcome :=
  command (.pdbl g rd ra)
    [checkCtx .fq, checkRange ra.toNat (jw g), checkRange rd.toNat (jw g),
      checkCanon .fq ra.toNat (jw g), checkBetaG2 g]
    (fun s => (onGroup g s (fun _ _ K => pdblEffect K rd.toNat ra.toNat s)).advance) s

/-- PNEG: defined for every canonical input; BETA is not read (R354, R349, R350). -/
def execPneg (g : Group) (rd ra : SlotIx) (s : State) : Outcome :=
  command (.pneg g rd ra)
    [checkCtx .fq, checkRange ra.toNat (jw g), checkRange rd.toNat (jw g),
      checkCanon .fq ra.toNat (jw g)]
    (fun s => (onGroup g s (fun _ _ K =>
      writeJac K s rd.toNat (jneg K (readJac K s ra.toNat)))).advance) s

/-- PISZ (R355). -/
def execPisz (g : Group) (ra : SlotIx) (s : State) : Outcome :=
  command (.pisz g ra)
    [checkCtx .fq, checkRange ra.toNat (jw g), checkCanon .fq ra.toNat (jw g)]
    (fun s => (s.setFlags (s.flags.setT (onGroup g s (fun _ _ K =>
      atInfinity K (readJac K s ra.toNat))))).advance) s

/-- NONCANONICAL(0xFFFFFFFF) if a component of b_g is not below q (R350). -/
def checkCurveConst (g : Group) : Check := fun s =>
  match g with
  | .g1 => checkReg (·.b1) s
  | .g2 => firstTrap [checkReg (·.b2c0), checkReg (·.b2c1)] s

/-- PONC (R356). -/
def execPonc (g : Group) (ra : SlotIx) (s : State) : Outcome :=
  command (.ponc g ra)
    [checkCtx .fq, checkRange ra.toNat (jw g), checkCanon .fq ra.toNat (jw g), checkBetaG2 g,
      checkCurveConst g]
    (fun s => (s.setFlags (s.flags.setT (onGroup g s (fun _ _ K =>
      onCurve K (readJac K s ra.toNat))))).advance) s

/-- PFROMA: the curve equation is not checked (R357). -/
def execPfroma (g : Group) (rd ra : SlotIx) (s : State) : Outcome :=
  command (.pfroma g rd ra)
    [checkCtx .fq, checkRange ra.toNat (aw g), checkRange rd.toNat (jw g),
      checkCanon .fq ra.toNat (aw g)]
    (fun s => (onGroup g s (fun _ _ K =>
      writeJac K s rd.toNat (fromAffine K (readAff K s ra.toNat)))).advance) s

/-- PEQ (R358). -/
def execPeq (g : Group) (ra rb : SlotIx) (s : State) : Outcome :=
  command (.peq g ra rb)
    [checkCtx .fq, checkRange ra.toNat (jw g), checkRange rb.toNat (jw g),
      checkCanon .fq ra.toNat (jw g), checkCanon .fq rb.toNat (jw g), checkBetaG2 g]
    (fun s => (s.setFlags (s.flags.setT (onGroup g s (fun _ _ K =>
      pointEq K (readJac K s ra.toNat) (readJac K s rb.toNat))))).advance) s

/-- RESERVED_FIELD for a byte count of 0 or above 32 (30_encoding.md R129). The decoder has refused
such words; the check keeps the meaning right on ill-formed syntax too. -/
def checkNbytes (nb : BitVec 7) : Check := fun _ =>
  if nbytesOk nb then none else some { cause := .reservedField, info := 0 }

/-- PMUL (R359). -/
def execPmul (g : Group) (rd ra rb : SlotIx) (nb : BitVec 7) (s : State) : Outcome :=
  command (.pmul g rd ra rb nb)
    [checkNbytes nb, checkCtx .fq, checkRange ra.toNat (jw g), checkRange rb.toNat 1,
      checkRange rd.toNat (jw g), checkCanon .fq ra.toNat (jw g), checkBetaG2 g]
    (fun s => (onGroup g s (fun _ _ K =>
      pmulEffect K rd.toNat ra.toNat rb.toNat nb.toNat s)).advance) s

end Sys2Proof.Machine
end

