-- ==== Sys2Proof/Machine/Montgomery.lean ====
section
/-! DEFINITION. The meanings of the five multiplier commands (spec 42_montgomery.md R248-R254). -/

namespace Sys2Proof.Machine

/-- The checks of R248 for one source. -/
def fieldChecks1 (c : FieldCtx) (rd ra : SlotIx) : List Check :=
  [checkCtx c, checkRange ra.toNat 1, checkRange rd.toNat 1, checkCanon c ra.toNat 1]

/-- The checks of R248 for two sources, both field elements. -/
def fieldChecks2 (c : FieldCtx) (rd ra rb : SlotIx) : List Check :=
  [checkCtx c, checkRange ra.toNat 1, checkRange rb.toNat 1, checkRange rd.toNat 1,
    checkCanon c ra.toNat 1, checkCanon c rb.toNat 1]

/-- `x[d] <- v`, no flag written (R248). -/
def storeElement (rd : SlotIx) (v : State → Nat) (s : State) : State :=
  (s.setX rd.toNat (v s)).advance

/-- FMUL (R249). -/
def execFmul (c : FieldCtx) (rd ra rb : SlotIx) (s : State) : Outcome :=
  command (.fmul c rd ra rb) (fieldChecks2 c rd ra rb)
    (storeElement rd (fun s => mont (s.ctx c) (s.x ra.toNat) (s.x rb.toNat))) s

/-- FSQR (R250). -/
def execFsqr (c : FieldCtx) (rd ra : SlotIx) (s : State) : Outcome :=
  command (.fsqr c rd ra) (fieldChecks1 c rd ra)
    (storeElement rd (fun s => mont (s.ctx c) (s.x ra.toNat) (s.x ra.toNat))) s

/-- FMULW: the word is limb 0 of slot RB, neither checked nor taken with its upper limbs (R252). -/
def execFmulw (c : FieldCtx) (rd ra rb : SlotIx) (s : State) : Outcome :=
  command (.fmulw c rd ra rb)
    [checkCtx c, checkRange ra.toNat 1, checkRange rb.toNat 1, checkRange rd.toNat 1,
      checkCanon c ra.toNat 1]
    (storeElement rd (fun s => mont (s.ctx c) (s.x ra.toNat) (limb (s.x rb.toNat) 0 % s.q c))) s

/-- FTOM (R253). -/
def execFtom (c : FieldCtx) (rd ra : SlotIx) (s : State) : Outcome :=
  command (.ftom c rd ra) (fieldChecks1 c rd ra)
    (storeElement rd (fun s => mont (s.ctx c) (s.x ra.toNat) (s.ctx c).r2.toNat)) s

/-- FFROMM (R254). -/
def execFfromm (c : FieldCtx) (rd ra : SlotIx) (s : State) : Outcome :=
  command (.ffromm c rd ra) (fieldChecks1 c rd ra)
    (storeElement rd (fun s => mont (s.ctx c) (s.x ra.toNat) 1)) s

end Sys2Proof.Machine
end

