-- ==== Sys2Proof/Machine/Facade.lean ====
section
/-! DEFINITION. The meanings of the field-element façade commands: the additive commands and the
normalizer (spec 43_field_facade.md). -/

namespace Sys2Proof.Machine

/-- FADD (R283). -/
def execFadd (c : FieldCtx) (rd ra rb : SlotIx) (s : State) : Outcome :=
  command (.fadd c rd ra rb) (fieldChecks2 c rd ra rb)
    (storeElement rd (fun s => addq (s.q c) (s.x ra.toNat) (s.x rb.toNat))) s

/-- FSUB (R284). -/
def execFsub (c : FieldCtx) (rd ra rb : SlotIx) (s : State) : Outcome :=
  command (.fsub c rd ra rb) (fieldChecks2 c rd ra rb)
    (storeElement rd (fun s => subq (s.q c) (s.x ra.toNat) (s.x rb.toNat))) s

/-- FNEG (R286). -/
def execFneg (c : FieldCtx) (rd ra : SlotIx) (s : State) : Outcome :=
  command (.fneg c rd ra) (fieldChecks1 c rd ra)
    (storeElement rd (fun s => negq (s.q c) (s.x ra.toNat))) s

/-- The short value as a residue, `sv mod q` (R287). -/
def shortResidue (q h : Nat) : Nat := (shortValue h % (q : Int)).toNat

/-- NORM's result for a record with header value `h` and value slot `v` (R288). An illegal tag has
faulted before. -/
def normValue (k : Ctx) (m : NormForm) (h v : Nat) : Nat :=
  match recordTag h, m with
  | some .short, .normal => shortResidue k.q.toNat h
  | some .short, .montgomery => mont k (shortResidue k.q.toNat h) k.r2.toNat
  | some .longNormal, .normal => v
  | some .longNormal, .montgomery => mont k v k.r2.toNat
  | some .longMont, .normal => mont k v 1
  | some .longMont, .montgomery => v
  | none, _ => 0

/-- `Val_c(h)`, the record's value as a normal-form residue (R287). -/
def recordValue (k : Ctx) (h v : Nat) : Nat := normValue k .normal h v

/-- NORM (R288). -/
def execNorm (c : FieldCtx) (rd hdr : SlotIx) (m : NormForm) (s : State) : Outcome :=
  command (.norm c rd hdr m)
    [checkCtx c, checkRange hdr.toNat 2, checkRange rd.toNat 1, checkTag hdr.toNat,
      checkRecordValue c hdr.toNat]
    (storeElement rd
      (fun s => normValue (s.ctx c) m (s.x hdr.toNat) (s.x (hdr.toNat + 1)))) s

/-- FEISZ (R289; log 18). -/
def execFeisz (c : FieldCtx) (hdr : SlotIx) (s : State) : Outcome :=
  command (.feisz c hdr)
    [checkCtx c, checkRange hdr.toNat 2, checkTag hdr.toNat, checkRecordValue c hdr.toNat]
    (fun s =>
      (s.setFlags (s.flags.setZ
        (decide (recordValue (s.ctx c) (s.x hdr.toNat) (s.x (hdr.toNat + 1)) = 0)))).advance) s

end Sys2Proof.Machine
end

