-- ==== Sys2Proof/Machine/Fft.lean ====
section
/-! DEFINITION. The meanings of the FFT commands (spec 47_fft.md). -/

namespace Sys2Proof.Machine

/-- One butterfly on the slots `a`, `b` with the twiddle in slot `w`: all reads, then `x[a]`, then
`x[b]` (R425). -/
def butterfly (a b w : Nat) (s : State) : State :=
  let u := s.x a
  let t := mont (s.ctx .fr) (s.x w) (s.x b)
  (s.setX a (addq (s.q .fr) u t)).setX b (subq (s.q .fr) u t)

/-- `rev_k(i)`: bit `b` goes to bit `k - 1 - b` (R423). -/
def revBits : Nat → Nat → Nat
  | 0, _ => 0
  | k + 1, i => i % 2 * 2 ^ k + revBits k (i / 2)

/-- One iteration of the bit reversal: each pair is swapped once (R427; 90_conflicts.md C2). -/
def bitrevStep (base k i : Nat) (s : State) : State :=
  let r := revBits k i
  if i < r then (s.setX (base + i) (s.x (base + r))).setX (base + r) (s.x (base + i)) else s

/-- The bit reversal of the vector `(base, 2^k)` (R427). -/
def bitReverse (base k : Nat) (s : State) : State := iter (2 ^ k) (bitrevStep base k) s

/-- The slot of `root_T(s, j)` (R421). -/
def rootSlot (t stage j : Nat) : Nat := t + 2 ^ stage - 1 + j

/-- Stage `stage` of a transform of log2 size `k`: blocks of `2^(stage + 1)` elements, `2^stage`
butterflies each (R428). -/
def fftStage (base k t stage : Nat) (s : State) : State :=
  iter (2 ^ (k - 1 - stage)) (fun blk st =>
    iter (2 ^ stage) (fun j st =>
      butterfly (base + blk * 2 ^ (stage + 1) + j) (base + blk * 2 ^ (stage + 1) + j + 2 ^ stage)
        (rootSlot t stage j) st) st) s

/-- `FFTCORE(base, k, T)` (R428). -/
def fftCore (base k t : Nat) (s : State) : State := iter k (fftStage base k t) (bitReverse base k s)

/-- Halving modulo q (R429). -/
def halve (q v : Nat) : Nat := if v % 2 = 0 then v / 2 else (v + q) / 2

/-- NINV, the Montgomery form of `n⁻¹` (R429). -/
def ninv (kx : Ctx) (k : Nat) : Nat := iter k (fun _ v => halve kx.q.toNat v) (oneOf kx)

/-- The scaling of IFFT (R429). -/
def scaleVector (base k v : Nat) (s : State) : State :=
  iter (2 ^ k) (fun i st => st.setX (base + i) (mont (st.ctx .fr) (st.x (base + i)) v)) s

/-- DOMAIN for a size beyond the root tables (R422). -/
def checkDomain (k : BitVec 7) : Check := fun s =>
  if s.cfg.rootMaxlog.toNat < k.toNat then some { cause := .domain, info := k.setWidth 32 }
  else none

/-- The checks of a transform with the root table at register `t` (R428). -/
def fftChecks (base : SlotIx) (k : BitVec 7) (t : ConfigRegs → BitVec 16) : List Check :=
  [checkCtx .fr, checkDomain k, checkRange base.toNat (2 ^ k.toNat),
    fun s => checkRange (t s.cfg).toNat (2 ^ k.toNat - 1) s,
    fun s => checkApart base.toNat (2 ^ k.toNat) (t s.cfg).toNat (2 ^ k.toNat - 1) s,
    checkCanon .fr base.toNat (2 ^ k.toNat),
    fun s => checkCanon .fr (t s.cfg).toNat (2 ^ k.toNat - 1) s]

/-- BFLY (R425). -/
def execBfly (rd ra rb : SlotIx) (s : State) : Outcome :=
  command (.bfly rd ra rb)
    [checkCtx .fr, checkRange rd.toNat 1, checkRange ra.toNat 1, checkRange rb.toNat 1,
      checkCanon .fr rd.toNat 1, checkCanon .fr ra.toNat 1, checkCanon .fr rb.toNat 1]
    (fun s => (butterfly rd.toNat ra.toNat rb.toNat s).advance) s

/-- BITREV: no context and no canonical check (R427). -/
def execBitrev (base : SlotIx) (k : BitVec 7) (s : State) : Outcome :=
  command (.bitrev base k) [checkRange base.toNat (2 ^ k.toNat)]
    (fun s => (bitReverse base.toNat k.toNat s).advance) s

/-- FFT (R428). -/
def execFft (base : SlotIx) (k : BitVec 7) (s : State) : Outcome :=
  command (.fft base k) (fftChecks base k (·.rootBase))
    (fun s => (fftCore base.toNat k.toNat s.cfg.rootBase.toNat s).advance) s

/-- IFFT (R429). -/
def execIfft (base : SlotIx) (k : BitVec 7) (s : State) : Outcome :=
  command (.ifft base k) (fftChecks base k (·.irootBase))
    (fun s => (scaleVector base.toNat k.toNat (ninv (s.ctx .fr) k.toNat)
      (fftCore base.toNat k.toNat s.cfg.irootBase.toNat s)).advance) s

end Sys2Proof.Machine
end

