-- ==== Sys2Proof/Machine/Limb.lean ====
section
/-! DEFINITION. The meanings of the limb vector commands (spec 41_limb.md). -/

namespace Sys2Proof.Machine

/-- A two-source limb command: checks RA, RB, RD (R201), then the result and the flags. -/
def limb2 (i : Instr) (rd ra rb : SlotIx) (f : Word256 → Word256 → Word256)
    (g : Flags → Word256 → Word256 → Flags) (s : State) : Outcome :=
  command i [checkRange ra.toNat 1, checkRange rb.toNat 1, checkRange rd.toNat 1]
    (fun s =>
      let a := s.slot ra.toNat
      let b := s.slot rb.toNat
      ((s.setSlot rd.toNat (f a b)).setFlags (g s.flags a b)).advance) s

/-- A one-source limb command: checks RA, RD (R201), then the result and Z. -/
def limb1 (i : Instr) (rd ra : SlotIx) (f : Word256 → Word256) (s : State) : Outcome :=
  command i [checkRange ra.toNat 1, checkRange rd.toNat 1]
    (fun s =>
      let v := f (s.slot ra.toNat)
      ((s.setSlot rd.toNat v).setFlags (s.flags.setZ (decide (v = 0)))).advance) s

/-- Z of a bitwise command: the result is 0 (R200). -/
def zeroFlag (f : Word256 → Word256 → Word256) (fl : Flags) (a b : Word256) : Flags :=
  fl.setZ (decide (f a b = 0))

/-- LADD (R202). -/
def execLadd (rd ra rb : SlotIx) (s : State) : Outcome :=
  limb2 (.ladd rd ra rb) rd ra rb (fun a b => a + b) Flags.ofAdd s

/-- LSUB (R203). -/
def execLsub (rd ra rb : SlotIx) (s : State) : Outcome :=
  limb2 (.lsub rd ra rb) rd ra rb (fun a b => a - b) Flags.ofSub s

/-- LCMP (R204). -/
def execLcmp (ra rb : SlotIx) (s : State) : Outcome :=
  command (.lcmp ra rb) [checkRange ra.toNat 1, checkRange rb.toNat 1]
    (fun s => (s.setFlags (s.flags.ofCmp (s.slot ra.toNat) (s.slot rb.toNat))).advance) s

/-- LISZ (R205). -/
def execLisz (ra : SlotIx) (s : State) : Outcome :=
  command (.lisz ra) [checkRange ra.toNat 1]
    (fun s => (s.setFlags (s.flags.setZ (decide (s.slot ra.toNat = 0)))).advance) s

/-- LSHL: RB is the amount, no slot (R206). -/
def execLshl (rd ra : SlotIx) (amt : BitVec 16) (s : State) : Outcome :=
  limb1 (.lshl rd ra amt) rd ra (fun a => a <<< amt.toNat) s

/-- LSHR, logical (R207). -/
def execLshr (rd ra : SlotIx) (amt : BitVec 16) (s : State) : Outcome :=
  limb1 (.lshr rd ra amt) rd ra (fun a => a >>> amt.toNat) s

/-- LAND (R208). -/
def execLand (rd ra rb : SlotIx) (s : State) : Outcome :=
  limb2 (.land rd ra rb) rd ra rb (fun a b => a &&& b) (zeroFlag (fun a b => a &&& b)) s

/-- LOR (R209). -/
def execLor (rd ra rb : SlotIx) (s : State) : Outcome :=
  limb2 (.lor rd ra rb) rd ra rb (fun a b => a ||| b) (zeroFlag (fun a b => a ||| b)) s

/-- LXOR (R210). -/
def execLxor (rd ra rb : SlotIx) (s : State) : Outcome :=
  limb2 (.lxor rd ra rb) rd ra rb (fun a b => a ^^^ b) (zeroFlag (fun a b => a ^^^ b)) s

/-- LNOT (R211). -/
def execLnot (rd ra : SlotIx) (s : State) : Outcome :=
  limb1 (.lnot rd ra) rd ra (fun a => ~~~a) s

end Sys2Proof.Machine
end

