-- ==== Sys2Proof/Machine/Msm.lean ====
section
/-! DEFINITION. The meanings of the multi-scalar multiplication commands (spec 46_msm.md). The bucket
array is operand memory, read and written as the pseudocode does. -/

namespace Sys2Proof.Machine

section Effects

variable {α : Type} [DecidableEq α] (K : CoordField α)

/-- The first slot of bucket `b` (R391). -/
def bucketSlot (d : Desc) (b : Nat) : Nat := d.bb + b * (3 * K.width)

/-- Point `i` (R391). -/
def msmPoint (d : Desc) (s : State) (i : Nat) : Aff α := readAff K s (d.pb + i * (2 * K.width))

/-- Clears the bucket array (R395). -/
def clearBuckets (d : Desc) (s : State) : State :=
  iter d.nb (fun b st => writeJac K st (bucketSlot K d b) (infPoint K)) s

/-- One iteration of ACC_g(w): adds point `i` into the bucket of its chunk, if that is not 0 (R393). -/
def accPoint (d : Desc) (w i : Nat) (s : State) : State :=
  let ch := d.chunk w (s.x (d.sb + i))
  if ch = 0 then s
  else
    let b := bucketSlot K d (ch - 1)
    writeJac K s b (jadda K (readJac K s b) (msmPoint K d s i))

/-- `ACC_g(w)` (R393). -/
def accWindow (d : Desc) (w : Nat) (s : State) : State := iter d.n (accPoint K d w) s

/-- The running pair of RED_g() after one bucket (R394). -/
def reduceStep (d : Desc) (s : State) (b : Nat) (rs : Jac α × Jac α) : Jac α × Jac α :=
  let running := jadd K rs.1 (readJac K s (bucketSlot K d b))
  (running, jadd K rs.2 running)

/-- `RED_g()`, the weighted sum of the buckets (R394). -/
def reduceBuckets (d : Desc) (s : State) : Jac α :=
  (iterDown d.nb (reduceStep K d s) (infPoint K, infPoint K)).2

/-- One window of MSM: clear, accumulate, reduce, shift the accumulator, add (R398). -/
def msmWindow (d : Desc) (w : Nat) (sa : State × Jac α) : State × Jac α :=
  let s := accWindow K d w (clearBuckets K d sa.1)
  (s, jadd K (iter d.c (fun _ a => jdbl K a) sa.2) (reduceBuckets K d s))

/-- MSM: all windows, the most significant first (R398). -/
def msmWindows (d : Desc) (s : State) : State × Jac α :=
  iterDown d.windows (msmWindow K d) (s, infPoint K)

/-- Every point of the descriptor is valid (R349; 45_curve.md R344). -/
def pointsValid (d : Desc) (s : State) : Bool :=
  iter d.n (fun i ok => ok && validAff K (msmPoint K d s i)) true

/-- Every bucket is valid (R349; 45_curve.md R344). -/
def bucketsValid (d : Desc) (s : State) : Bool :=
  iter d.nb (fun b ok => ok && validJac K (readJac K s (bucketSlot K d b))) true

/-- The slots of the bucket array (R391). -/
def bucketRange (d : Desc) : Nat × Nat := (d.bb, d.nb * (3 * K.width))

/-- BKTACC's buckets; with no point, none is an input (R396; log 9). -/
def bktaccEffect (d : Desc) (w : Nat) (s : State) : State :=
  if d.n = 0 then s
  else if pointsValid K d s && bucketsValid K d s then accWindow K d w s
  else s.offCurve [bucketRange K d]

/-- BKTRED's destination (R397). -/
def bktredEffect (d : Desc) (rd : Nat) (s : State) : State :=
  if bucketsValid K d s then writeJac K s rd (reduceBuckets K d s)
  else s.offCurve [(rd, 3 * K.width)]

/-- MSM's buckets and destination, the destination last (R398). -/
def msmEffect (d : Desc) (rd : Nat) (s : State) : State :=
  if pointsValid K d s then
    let sa := msmWindows K d s
    writeJac K sa.1 rd sa.2
  else s.offCurve [bucketRange K d, (rd, 3 * K.width)]

end Effects

/-- BKTCLR (R395). -/
def execBktclr (g : Group) (desc : SlotIx) (s : State) : Outcome :=
  command (.bktclr g desc)
    [checkCtx .fq, checkRange desc.toNat 1, checkDesc desc.toNat, checkBuckets g desc.toNat,
      checkBucketsDesc g desc.toNat]
    (fun s => (onGroup g s (fun _ _ K => clearBuckets K (s.desc desc.toNat) s)).advance) s

/-- BKTACC (R396). -/
def execBktacc (g : Group) (desc : SlotIx) (w : BitVec 16) (s : State) : Outcome :=
  command (.bktacc g desc w)
    [checkCtx .fq, checkRange desc.toNat 1, checkDesc desc.toNat, checkWindow desc.toNat w.toNat,
      checkPoints g desc.toNat, checkScalars desc.toNat, checkBuckets g desc.toNat,
      checkBucketsDesc g desc.toNat, checkBucketsPoints g desc.toNat,
      checkBucketsScalars g desc.toNat, checkPointsCanon g desc.toNat,
      checkBucketsCanon g desc.toNat, checkBetaG2 g]
    (fun s => (onGroup g s (fun _ _ K =>
      bktaccEffect K (s.desc desc.toNat) w.toNat s)).advance) s

/-- BKTRED (R397). -/
def execBktred (g : Group) (rd desc : SlotIx) (s : State) : Outcome :=
  command (.bktred g rd desc)
    [checkCtx .fq, checkRange desc.toNat 1, checkRange rd.toNat (jw g), checkDesc desc.toNat,
      checkBuckets g desc.toNat, checkBucketsDesc g desc.toNat, checkBucketsCanon g desc.toNat,
      checkBetaG2 g]
    (fun s => (onGroup g s (fun _ _ K =>
      bktredEffect K (s.desc desc.toNat) rd.toNat s)).advance) s

/-- MSM (R398). -/
def execMsm (g : Group) (rd desc : SlotIx) (s : State) : Outcome :=
  command (.msm g rd desc)
    [checkCtx .fq, checkRange desc.toNat 1, checkRange rd.toNat (jw g), checkDesc desc.toNat,
      checkPoints g desc.toNat, checkScalars desc.toNat, checkBuckets g desc.toNat,
      checkBucketsDesc g desc.toNat, checkBucketsPoints g desc.toNat,
      checkBucketsScalars g desc.toNat, checkPointsCanon g desc.toNat, checkBetaG2 g]
    (fun s => (onGroup g s (fun _ _ K =>
      msmEffect K (s.desc desc.toNat) rd.toNat s)).advance) s

end Sys2Proof.Machine
end

