-- ==== Sys2Proof/Machine/Quadratic.lean ====
section
/-! DEFINITION. The meanings of the Fq2 commands (spec 44_fq2.md). -/

namespace Sys2Proof.Machine

/-- The Fq2 element in slots `i` and `i + 1` (R310). -/
def State.fq2 (s : State) (i : Nat) : Fq2 := { c0 := s.x i, c1 := s.x (i + 1) }

/-- Writes an Fq2 element, the constant term first (R310, R315). -/
def State.setFq2 (s : State) (i : Nat) (v : Fq2) : State := s.setXs i [v.c0, v.c1]

/-- The checks of R315, up to BETA. -/
def fq2Checks2 (rd ra rb : SlotIx) : List Check :=
  [checkCtx .fq, checkRange ra.toNat 2, checkRange rb.toNat 2, checkRange rd.toNat 2,
    checkCanon .fq ra.toNat 2, checkCanon .fq rb.toNat 2]

/-- The checks of R317, up to BETA. -/
def fq2Checks1 (rd ra : SlotIx) : List Check :=
  [checkCtx .fq, checkRange ra.toNat 2, checkRange rd.toNat 2, checkCanon .fq ra.toNat 2]

/-- E2ADD (R315). -/
def execE2add (rd ra rb : SlotIx) (s : State) : Outcome :=
  command (.e2add rd ra rb) (fq2Checks2 rd ra rb)
    (fun s => (s.setFq2 rd.toNat (add2 (s.q .fq) (s.fq2 ra.toNat) (s.fq2 rb.toNat))).advance) s

/-- E2SUB (R316). -/
def execE2sub (rd ra rb : SlotIx) (s : State) : Outcome :=
  command (.e2sub rd ra rb) (fq2Checks2 rd ra rb)
    (fun s => (s.setFq2 rd.toNat (sub2 (s.q .fq) (s.fq2 ra.toNat) (s.fq2 rb.toNat))).advance) s

/-- E2NEG (R317). -/
def execE2neg (rd ra : SlotIx) (s : State) : Outcome :=
  command (.e2neg rd ra) (fq2Checks1 rd ra)
    (fun s => (s.setFq2 rd.toNat (neg2 (s.q .fq) (s.fq2 ra.toNat))).advance) s

/-- E2MUL (R318). -/
def execE2mul (rd ra rb : SlotIx) (s : State) : Outcome :=
  command (.e2mul rd ra rb) (fq2Checks2 rd ra rb ++ [checkBeta])
    (fun s => (s.setFq2 rd.toNat
      (mul2 (s.ctx .fq) s.cfg.beta.toNat (s.fq2 ra.toNat) (s.fq2 rb.toNat))).advance) s

/-- E2SQR (R319). -/
def execE2sqr (rd ra : SlotIx) (s : State) : Outcome :=
  command (.e2sqr rd ra) (fq2Checks1 rd ra ++ [checkBeta])
    (fun s => (s.setFq2 rd.toNat
      (sqr2 (s.ctx .fq) s.cfg.beta.toNat (s.fq2 ra.toNat))).advance) s

/-- E2EQ (R320). -/
def execE2eq (ra rb : SlotIx) (s : State) : Outcome :=
  command (.e2eq ra rb)
    [checkCtx .fq, checkRange ra.toNat 2, checkRange rb.toNat 2, checkCanon .fq ra.toNat 2,
      checkCanon .fq rb.toNat 2]
    (fun s => (s.setFlags (s.flags.setZ
      (decide (s.fq2 ra.toNat = s.fq2 rb.toNat)))).advance) s

/-- E2ISZ (R321). -/
def execE2isz (ra : SlotIx) (s : State) : Outcome :=
  command (.e2isz ra) [checkCtx .fq, checkRange ra.toNat 2, checkCanon .fq ra.toNat 2]
    (fun s => (s.setFlags (s.flags.setZ
      (decide (s.fq2 ra.toNat = { c0 := 0, c1 := 0 })))).advance) s

end Sys2Proof.Machine
end

