-- ==== Sys2Proof/Machine/Sequencer.lean ====
section
/-! DEFINITION. The meanings of the sequencer and data-movement commands (spec 40_sequencer.md). The
decoder has made the RESERVED_FIELD checks (30_encoding.md R122, R129). -/

namespace Sys2Proof.Machine

/-- NOP (R163). -/
def execNop (s : State) : Outcome := command .nop [] (fun s => s.advance) s

/-- HALT: the run ends, the pc stays (R164). -/
def execHalt (s : State) : Outcome := command .halt [] (fun s => s.finish) s

/-- JMP (R165). -/
def execJmp (target : BitVec 16) (s : State) : Outcome :=
  command (.jmp target) [] (fun s => s.branch target) s

/-- BRF: branch if the flag condition holds (R166). -/
def execBrf (cond : Cond) (target : BitVec 16) (s : State) : Outcome :=
  command (.brf cond target) []
    (fun s => if s.flags.holds cond then s.branch target else s.advance) s

/-- SETLC (R167). -/
def execSetlc (imm : BitVec 16) (s : State) : Outcome :=
  command (.setlc imm) [] (fun s => (s.setLcnt imm).advance) s

/-- DJNZ: decrement first, branch if the new count is not zero (R168). -/
def execDjnz (target : BitVec 16) (s : State) : Outcome :=
  command (.djnz target) []
    (fun s =>
      let n := s.lcnt - 1
      if n = 0 then (s.setLcnt n).advance else (s.setLcnt n).branch target) s

/-- MOV: all reads before the first write (R169; 20_memory.md R95). -/
def execMov (rd ra : SlotIx) (m7 : BitVec 7) (s : State) : Outcome :=
  command (.mov rd ra m7)
    [checkRange ra.toNat (m7.toNat + 1), checkRange rd.toNat (m7.toNat + 1)]
    (fun s => (s.setSlots rd.toNat (s.slots ra.toNat (m7.toNat + 1))).advance) s

/-- LIMM (R170). -/
def execLimm (rd : SlotIx) (imm : BitVec 32) (s : State) : Outcome :=
  command (.limm rd imm) [checkRange rd.toNat 1]
    (fun s => (s.setSlot rd.toNat (imm.setWidth 256)).advance) s

end Sys2Proof.Machine
end

