-- ==== Sys2Proof/Machine/Dispatch.lean ====
section
/-! DEFINITION. exec: one arm per command of spec 30_encoding.md R126. -/

namespace Sys2Proof.Machine

def exec (i : Instr) (s : State) : Host.Outcome State Fault Refusal :=
  match i with
  | .nop => Sys2Proof.Machine.execNop s
  | .halt => Sys2Proof.Machine.execHalt s
  | .jmp target => Sys2Proof.Machine.execJmp target s
  | .brf cc target => Sys2Proof.Machine.execBrf cc target s
  | .setlc imm => Sys2Proof.Machine.execSetlc imm s
  | .djnz target => Sys2Proof.Machine.execDjnz target s
  | .mov rd ra m7 => Sys2Proof.Machine.execMov rd ra m7 s
  | .limm rd imm => Sys2Proof.Machine.execLimm rd imm s
  | .ladd rd ra rb => Sys2Proof.Machine.execLadd rd ra rb s
  | .lsub rd ra rb => Sys2Proof.Machine.execLsub rd ra rb s
  | .lcmp ra rb => Sys2Proof.Machine.execLcmp ra rb s
  | .lisz ra => Sys2Proof.Machine.execLisz ra s
  | .lshl rd ra amt => Sys2Proof.Machine.execLshl rd ra amt s
  | .lshr rd ra amt => Sys2Proof.Machine.execLshr rd ra amt s
  | .land rd ra rb => Sys2Proof.Machine.execLand rd ra rb s
  | .lor rd ra rb => Sys2Proof.Machine.execLor rd ra rb s
  | .lxor rd ra rb => Sys2Proof.Machine.execLxor rd ra rb s
  | .lnot rd ra => Sys2Proof.Machine.execLnot rd ra s
  | .fadd c rd ra rb => Sys2Proof.Machine.execFadd c rd ra rb s
  | .fsub c rd ra rb => Sys2Proof.Machine.execFsub c rd ra rb s
  | .fneg c rd ra => Sys2Proof.Machine.execFneg c rd ra s
  | .fmul c rd ra rb => Sys2Proof.Machine.execFmul c rd ra rb s
  | .fsqr c rd ra => Sys2Proof.Machine.execFsqr c rd ra s
  | .fmulw c rd ra rb => Sys2Proof.Machine.execFmulw c rd ra rb s
  | .ftom c rd ra => Sys2Proof.Machine.execFtom c rd ra s
  | .ffromm c rd ra => Sys2Proof.Machine.execFfromm c rd ra s
  | .norm c rd hdr mode => Sys2Proof.Machine.execNorm c rd hdr mode s
  | .feisz c hdr => Sys2Proof.Machine.execFeisz c hdr s
  | .e2add rd ra rb => Sys2Proof.Machine.execE2add rd ra rb s
  | .e2sub rd ra rb => Sys2Proof.Machine.execE2sub rd ra rb s
  | .e2neg rd ra => Sys2Proof.Machine.execE2neg rd ra s
  | .e2mul rd ra rb => Sys2Proof.Machine.execE2mul rd ra rb s
  | .e2sqr rd ra => Sys2Proof.Machine.execE2sqr rd ra s
  | .e2eq ra rb => Sys2Proof.Machine.execE2eq ra rb s
  | .e2isz ra => Sys2Proof.Machine.execE2isz ra s
  | .padd g rd ra rb => Sys2Proof.Machine.execPadd g rd ra rb s
  | .padda g rd ra rb => Sys2Proof.Machine.execPadda g rd ra rb s
  | .pdbl g rd ra => Sys2Proof.Machine.execPdbl g rd ra s
  | .pneg g rd ra => Sys2Proof.Machine.execPneg g rd ra s
  | .pisz g ra => Sys2Proof.Machine.execPisz g ra s
  | .ponc g ra => Sys2Proof.Machine.execPonc g ra s
  | .pfroma g rd ra => Sys2Proof.Machine.execPfroma g rd ra s
  | .peq g ra rb => Sys2Proof.Machine.execPeq g ra rb s
  | .pmul g rd ra rb nbytes => Sys2Proof.Machine.execPmul g rd ra rb nbytes s
  | .bktclr g desc => Sys2Proof.Machine.execBktclr g desc s
  | .bktacc g desc w => Sys2Proof.Machine.execBktacc g desc w s
  | .bktred g rd desc => Sys2Proof.Machine.execBktred g rd desc s
  | .msm g rd desc => Sys2Proof.Machine.execMsm g rd desc s
  | .bfly rd ra rb => Sys2Proof.Machine.execBfly rd ra rb s
  | .bitrev base k => Sys2Proof.Machine.execBitrev base k s
  | .fft base k => Sys2Proof.Machine.execFft base k s
  | .ifft base k => Sys2Proof.Machine.execIfft base k s

end Sys2Proof.Machine
end

