-- ==== Sys2Proof/Machine/Footprint.lean ====
section
/-! DEFINITION. The destination slots of every command (spec 40_sequencer.md to 47_fft.md): what the
command may write, and so what an abort may leave unspecified (70_reset_and_hazards.md R503). -/

namespace Sys2Proof.Machine

/-- The slot ranges (base, width) that a command writes if it completes in state `s`. -/
def destRanges (i : Instr) (s : State) : List (Nat × Nat) :=
  match i with
  | .nop => []
  | .halt => []
  | .jmp _ => []
  | .brf _ _ => []
  | .setlc _ => []
  | .djnz _ => []
  | .mov rd _ m7 => [(rd.toNat, m7.toNat + 1)]
  | .limm rd _ => [(rd.toNat, 1)]
  | .ladd rd _ _ => [(rd.toNat, 1)]
  | .lsub rd _ _ => [(rd.toNat, 1)]
  | .lcmp _ _ => []
  | .lisz _ => []
  | .lshl rd _ _ => [(rd.toNat, 1)]
  | .lshr rd _ _ => [(rd.toNat, 1)]
  | .land rd _ _ => [(rd.toNat, 1)]
  | .lor rd _ _ => [(rd.toNat, 1)]
  | .lxor rd _ _ => [(rd.toNat, 1)]
  | .lnot rd _ => [(rd.toNat, 1)]
  | .fadd _ rd _ _ => [(rd.toNat, 1)]
  | .fsub _ rd _ _ => [(rd.toNat, 1)]
  | .fneg _ rd _ => [(rd.toNat, 1)]
  | .fmul _ rd _ _ => [(rd.toNat, 1)]
  | .fsqr _ rd _ => [(rd.toNat, 1)]
  | .fmulw _ rd _ _ => [(rd.toNat, 1)]
  | .ftom _ rd _ => [(rd.toNat, 1)]
  | .ffromm _ rd _ => [(rd.toNat, 1)]
  | .norm _ rd _ _ => [(rd.toNat, 1)]
  | .feisz _ _ => []
  | .e2add rd _ _ => [(rd.toNat, 2)]
  | .e2sub rd _ _ => [(rd.toNat, 2)]
  | .e2neg rd _ => [(rd.toNat, 2)]
  | .e2mul rd _ _ => [(rd.toNat, 2)]
  | .e2sqr rd _ => [(rd.toNat, 2)]
  | .e2eq _ _ => []
  | .e2isz _ => []
  | .padd g rd _ _ => [(rd.toNat, jw g)]
  | .padda g rd _ _ => [(rd.toNat, jw g)]
  | .pdbl g rd _ => [(rd.toNat, jw g)]
  | .pneg g rd _ => [(rd.toNat, jw g)]
  | .pisz _ _ => []
  | .ponc _ _ => []
  | .pfroma g rd _ => [(rd.toNat, jw g)]
  | .peq _ _ _ => []
  | .pmul g rd _ _ _ => [(rd.toNat, jw g)]
  | .bktclr g d => [((s.desc d.toNat).bb, (s.desc d.toNat).nb * jw g)]
  | .bktacc g d _ => [((s.desc d.toNat).bb, (s.desc d.toNat).nb * jw g)]
  | .bktred g rd _ => [(rd.toNat, jw g)]
  | .msm g rd d => [((s.desc d.toNat).bb, (s.desc d.toNat).nb * jw g), (rd.toNat, jw g)]
  | .bfly rd ra _ => [(rd.toNat, 1), (ra.toNat, 1)]
  | .bitrev base k => [(base.toNat, 2 ^ k.toNat)]
  | .fft base k => [(base.toNat, 2 ^ k.toNat)]
  | .ifft base k => [(base.toNat, 2 ^ k.toNat)]

/-- Slot `i` lies in one of the ranges. -/
def inRanges (rs : List (Nat × Nat)) (i : Nat) : Bool :=
  rs.any (fun r => decide (r.1 ≤ i ∧ i < r.1 + r.2))

end Sys2Proof.Machine
end

