-- ==== Sys2Proof/Machine/Window.lean ====
section
/-! DEFINITION. The host's side: the register window (spec 20_memory.md R80-R90), the CSRs (10_state.md
R36-R46), CTRL, soft reset and abort (70_reset_and_hazards.md R502, R503). -/

namespace Sys2Proof.Machine

/-- The CSR words (10_state.md R36); a 256-bit register is four words, `j` the limb. -/
inductive Csr where
  | id | params | ctrl | status | startPc | cpc | flags | lcnt
  | faultCause | faultPc | faultCmd | faultInfo
  | rootBase | irootBase | rootMaxlog | betaClass
  | ctxQ (c : FieldCtx) (j : Nat)
  | ctxR2 (c : FieldCtx) (j : Nat)
  | ctxNp (c : FieldCtx)
  | beta (j : Nat)
  | b1 (j : Nat)
  | b2c0 (j : Nat)
  | b2c1 (j : Nat)
deriving DecidableEq, Repr

/-- The four words of a 256-bit register from offset `o`. -/
def csrWords (o : Nat) (r : Nat → Csr) : List (Nat × Csr) :=
  [(o, r 0), (o + 8, r 1), (o + 16, r 2), (o + 24, r 3)]

/-- The CSR map (10_state.md R36). -/
def csrMap : List (Nat × Csr) :=
  [ (0x000, .id), (0x008, .params), (0x010, .ctrl), (0x018, .status)
  , (0x020, .startPc), (0x028, .cpc), (0x030, .flags), (0x038, .lcnt)
  , (0x040, .faultCause), (0x048, .faultPc), (0x050, .faultCmd), (0x058, .faultInfo)
  , (0x060, .rootBase), (0x068, .irootBase), (0x070, .rootMaxlog), (0x078, .betaClass) ]
  ++ csrWords 0x100 (.ctxQ .fq) ++ csrWords 0x120 (.ctxR2 .fq) ++ [(0x140, .ctxNp .fq)]
  ++ csrWords 0x180 (.ctxQ .fr) ++ csrWords 0x1A0 (.ctxR2 .fr) ++ [(0x1C0, .ctxNp .fr)]
  ++ csrWords 0x200 .beta ++ csrWords 0x220 .b1 ++ csrWords 0x240 .b2c0 ++ csrWords 0x260 .b2c1

/-- The CSR at a window offset; the other offsets of the CSR region are reserved (10_state.md R36). -/
def csrAt (off : Nat) : Option Csr := (csrMap.find? (fun r => r.1 == off)).map (·.2)

/-- Limb `j` of a 256-bit register (00_scope.md R16). -/
def getLimb (v : Word256) (j : Nat) : Limb := v.extractLsb' (64 * j) 64

/-- The register with limb `j` replaced (10_state.md R36). -/
def setLimb (v : Word256) (j : Nat) (x : Limb) : Word256 :=
  let l := fun i => if i = j then x else getLimb v i
  l 3 ++ (l 2 ++ (l 1 ++ l 0))

/-- ID (00_scope.md R2). -/
def idValue : Limb := 0x45524F4343444552

/-- PARAMS: OPM_LOG [7:0], CMDM_LOG [15:8], LANES [23:16], REV = 1 [31:24] (10_state.md R36). -/
def paramsValue (p : Params) : Limb :=
  BitVec.ofNat 32 0 ++ (BitVec.ofNat 8 1 ++ (BitVec.ofNat 8 p.lanes ++
    (BitVec.ofNat 8 p.cmdmLog ++ BitVec.ofNat 8 p.opmLog)))

/-- STATUS: BUSY [0], DONE [1], FAULT [2], HOST_ERR [3], IRQ [4] (10_state.md R36, R38). -/
def statusValue (s : State) : Limb :=
  (BitVec.ofBool s.irq ++ BitVec.ofBool s.status.hostErr ++ BitVec.ofBool s.status.fault ++
    BitVec.ofBool s.status.done ++ BitVec.ofBool s.status.busy).setWidth 64

/-- CTRL reads IRQ_EN in bit 2 and 0 elsewhere (10_state.md R37). -/
def ctrlValue (s : State) : Limb := (BitVec.ofBool s.irqEn ++ BitVec.ofNat 2 0).setWidth 64

/-- What a CSR word reads (10_state.md R36; 20_memory.md R90). -/
def csrRead (s : State) : Csr → Limb
  | .id => idValue
  | .params => paramsValue s.params
  | .ctrl => ctrlValue s
  | .status => statusValue s
  | .startPc => s.startPc.setWidth 64
  | .cpc => s.cpc.setWidth 64
  | .flags => s.flags.word
  | .lcnt => s.lcnt.setWidth 64
  | .faultCause => s.faultRec.cause.setWidth 64
  | .faultPc => s.faultRec.pc.setWidth 64
  | .faultCmd => s.faultRec.cmd
  | .faultInfo => s.faultRec.info.setWidth 64
  | .rootBase => s.cfg.rootBase.setWidth 64
  | .irootBase => s.cfg.irootBase.setWidth 64
  | .rootMaxlog => s.cfg.rootMaxlog.setWidth 64
  | .betaClass => (betaClassCode (betaClass s.cfg.ctx0 s.cfg.beta.toNat)).setWidth 64
  | .ctxQ c j => getLimb (s.ctx c).q j
  | .ctxR2 c j => getLimb (s.ctx c).r2 j
  | .ctxNp c => (s.ctx c).np
  | .beta j => getLimb s.cfg.beta j
  | .b1 j => getLimb s.cfg.b1 j
  | .b2c0 j => getLimb s.cfg.b2c0 j
  | .b2c1 j => getLimb s.cfg.b2c1 j

/-- Read-only registers (10_state.md R36). -/
def Csr.readOnly : Csr → Bool
  | .id => true
  | .params => true
  | .status => true
  | .cpc => true
  | .faultCause => true
  | .faultPc => true
  | .faultCmd => true
  | .faultInfo => true
  | .betaClass => true
  | _ => false

/-- Replaces the registers of one context (10_state.md R40). -/
def ConfigRegs.setCtx (r : ConfigRegs) (c : FieldCtx) (k : Ctx) : ConfigRegs :=
  match c with
  | .fq => { r with ctx0 := k }
  | .fr => { r with ctx1 := k }

/-- The write of `v` to a RW-idle register while the engine is idle; upper bits of a narrow field are
ignored (10_state.md R36). The other registers are unchanged by it. -/
def csrStore (s : State) (v : Limb) : Csr → State
  | .startPc => s.setStartPc (v.setWidth 16)
  | .flags => s.setFlags (Flags.ofWord v)
  | .lcnt => s.setLcnt (v.setWidth 16)
  | .rootBase => s.setCfg { s.cfg with rootBase := v.setWidth 16 }
  | .irootBase => s.setCfg { s.cfg with irootBase := v.setWidth 16 }
  | .rootMaxlog => s.setCfg { s.cfg with rootMaxlog := v.setWidth 7 }
  | .ctxQ c j => s.setCfg (s.cfg.setCtx c { s.ctx c with q := setLimb (s.ctx c).q j v })
  | .ctxR2 c j => s.setCfg (s.cfg.setCtx c { s.ctx c with r2 := setLimb (s.ctx c).r2 j v })
  | .ctxNp c => s.setCfg (s.cfg.setCtx c { s.ctx c with np := v })
  | .beta j => s.setCfg { s.cfg with beta := setLimb s.cfg.beta j v }
  | .b1 j => s.setCfg { s.cfg with b1 := setLimb s.cfg.b1 j v }
  | .b2c0 j => s.setCfg { s.cfg with b2c0 := setLimb s.cfg.b2c0 j v }
  | .b2c1 j => s.setCfg { s.cfg with b2c1 := setLimb s.cfg.b2c1 j v }
  | _ => s

/-- A refused access: HOST_ERR set, nothing else (20_memory.md R88, R89). -/
def State.refuseHost (s : State) : State := s.setStatus { s.status with hostErr := true }

/-- The destination slots of the command in progress take unspecified values (70_reset_and_hazards.md
R503; 93_implementation_defined.md U3; log 10). A command whose checks fail writes nothing, and none
is in progress where no word can be fetched or decoded. -/
def State.abandonCommand (s : State) : State :=
  match s.fetchWord with
  | none => s
  | some w =>
    match decode w with
    | .error _ => s
    | .ok i =>
      match exec i s with
      | .next t =>
        if t.status.fault then s
        else
          ((destRanges i s).foldl
            (fun st r => st.fillSlots (Config.abortedSlot s.freeCtr) r.1 r.2) s).countDraw
      | _ => s

/-- The soft reset (70_reset_and_hazards.md R502), which while BUSY is an abort (R503). -/
def State.softReset (s : State) : State :=
  if s.status.busy then s.abandonCommand.resetCsrs else s.resetCsrs

/-- A write of CTRL (10_state.md R37). -/
def ctrlWrite (s : State) (v : Limb) : State :=
  if v.getLsbD 1 then s.softReset
  else if s.status.busy then s.refuseHost
  else
    let s1 := s.setIrqEn (v.getLsbD 2)
    let s2 :=
      if v.getLsbD 3 then
        s1.setStatus { s1.status with done := false, fault := false, hostErr := false }
      else s1
    if v.getLsbD 0 then s2.start else s2

/-- A write of a CSR word (10_state.md R36, R37; 20_memory.md R89). -/
def csrWrite (s : State) (v : Limb) (r : Csr) : State :=
  if r = .ctrl then ctrlWrite s v
  else if r.readOnly then s
  else if s.status.busy then s.refuseHost
  else csrStore s v r

/-- The regions of the window (20_memory.md R81). -/
inductive Region where
  | csr
  | memory
  | unmapped
deriving DecidableEq, Repr

/-- The region of a window offset: the CSRs, the populated parts of the CMDM and OPM windows, and the
rest, which is unmapped or unpopulated (20_memory.md R81). -/
def regionAt (p : Params) (off : Nat) : Region :=
  if off < 0x1000 then .csr
  else if cmdOffset 0 ≤ off ∧ off < cmdOffset p.cmdmWords then .memory
  else if slotOffset 0 ≤ off ∧ off < slotOffset p.opmSlots then .memory
  else .unmapped

/-- The one access size and alignment of the host port (20_memory.md R84). -/
def accessOk (off size : Nat) : Bool := decide (size = 8 ∧ off % 8 = 0)

/-- The 64-bit word at a window offset of OPM or CMDM (20_memory.md R82). -/
def State.memWord (s : State) (off : Nat) : Limb := BitVec.ofNat 64 (leNat (s.bytesAt off 8))

/-- A host read at a window offset (20_memory.md R84-R90). The bus error of R84 and R85 comes first, BUSY or
not: R88's refusal of a busy engine is for an access that could otherwise be served (log 22). -/
def hostRead (off size : Nat) (s : State) : State :=
  if !accessOk off size then s.setReply (some .busError)
  else
    match regionAt s.params off with
    | .unmapped => s.setReply (some .busError)
    | .csr =>
      match csrAt off with
      | some r => s.setReply (some (.data (csrRead s r)))
      | none => s.setReply (some (.data 0))
    | .memory =>
      if s.status.busy then s.refuseHost.setReply (some (.data 0))
      else s.setReply (some (.data (s.memWord off)))

/-- A host write at a window offset (20_memory.md R84-R89); the bus error comes first here too (log 22). -/
def hostWrite (off size : Nat) (v : Limb) (s : State) : State :=
  if !accessOk off size then s.setReply (some .busError)
  else
    match regionAt s.params off with
    | .unmapped => s.setReply (some .busError)
    | .csr =>
      match csrAt off with
      | some r => (csrWrite s v r).setReply (some .done)
      | none => s.setReply (some .done)
    | .memory =>
      if s.status.busy then s.refuseHost.setReply (some .done)
      else (s.setBytes off (leBytes 8 v.toNat)).setReply (some .done)

/-- The window offset of a bus address, if it lies in the 4 MiB from BLOCK_BASE on (20_memory.md R81). -/
def windowOffset (p : Params) (addr : Nat) : Option Nat :=
  if p.blockBase ≤ addr ∧ addr < p.blockBase + 0x400000 then some (addr - p.blockBase) else none

/-- One access of the host. One outside the window is not the block's: it answers nothing (20_memory.md R81,
R94; log 14). -/
def hostAccess (a : HostAccess) (s : State) : State :=
  match a with
  | .read addr size =>
    match windowOffset s.params addr with
    | some off => hostRead off size s
    | none => s.setReply none
  | .write addr size v =>
    match windowOffset s.params addr with
    | some off => hostWrite off size v s
    | none => s.setReply none

/-- The engine's step: while BUSY, fetch, decode, execute; a failing fetch or decode takes its fault
(40_sequencer.md R160, R161). While idle it keeps all state (60_exceptions.md R480; log 13). -/
def engineStep (s : State) : Outcome :=
  if s.status.busy then
    match s.fetchWord with
    | none => .next (s.takeFault 0 fetchTrap)
    | some w =>
      match decode w with
      | .error e => .next (s.takeFault w (decodeTrap e))
      | .ok i => exec i s
  else .next s

end Sys2Proof.Machine
end

