-- ==== Sys2Proof/Machine/Step.lean ====
section
/-! DEFINITION. One step of the machine: the host's next turn, or the engine's step (spec 10_state.md R30,
20_memory.md R98; log 4). -/

namespace Sys2Proof.Machine

/-- The step. The host's turns are taken in order; where the host does nothing, the engine moves. -/
def step (s : State) : Host.Outcome State Fault Refusal :=
  if s.params.legal then
    match s.inbox with
    | [] => engineStep s
    | .engine :: ts => engineStep (s.setInbox ts)
    | .access a :: ts => .next (hostAccess a (s.setInbox ts))
    | .blockReset :: ts => .next (s.setInbox ts).hardwareReset
  else .fault .illegalParameters

/-- `s` with the instruction whose bits are `w` where the next step fetches: in CMDM at CPC (at index 0
if CPC lies beyond command memory), BUSY set and no host turn pending (log 5). -/
def State.withFetchWord (s : State) (nbits w : Nat) : State :=
  let pc := if s.cpc.toNat < s.params.cmdmWords then s.cpc else 0
  (((s.setCommand pc.toNat (BitVec.ofNat 64 (tableWord nbits w))).goto pc).setInbox []).setStatus
    { s.status with busy := true }

end Sys2Proof.Machine
end

