-- ==== Sys2Proof/Safety.lean ====
section
/-! DEFINITION. What counts as a sound state and a sound step, in the terms the statements use: the
invariant that every step keeps, the frame of a command, the conditions on operands, and the spec's tables
and sums written a second time, apart from the machine's own code. -/

namespace Sys2Proof.Machine

/-- The invariant of the machine. -/
structure State.Inv (s : State) : Prop where
  /-- the parameters are legal (00_scope.md R12) -/
  params : s.params.legal = true
  /-- the memory keeps its canonical form (log 2) -/
  memory : s.mem.wf = true
  /-- only bytes of populated memory are listed (20_memory.md R81) -/
  populated : ∀ a, (s.mem.get a).isSome = true → regionAt s.params a = .memory
  /-- CPC holds at most 65536 (40_sequencer.md R162) -/
  pc : s.cpc.toNat ≤ 65536
  /-- at most one of BUSY, DONE, FAULT is set, and a busy engine has no fault record (60_exceptions.md
  R466, R467) -/
  busy : s.status.busy = true →
    s.status.done = false ∧ s.status.fault = false ∧ s.faultRec = FaultRecord.none
  /-- a run ends in DONE or in FAULT, not in both (60_exceptions.md R467) -/
  ended : ¬ (s.status.done = true ∧ s.status.fault = true)
  /-- FAULT stands with the record of a cause, at CPC (60_exceptions.md R456) -/
  fault : s.status.fault = true → s.faultRec.cause ≠ 0 ∧ s.faultRec.pc = s.cpc
  /-- FAULT_CAUSE is one of the codes 0 to 10 (60_exceptions.md R450) -/
  cause : s.faultRec.cause.toNat ≤ 10

/-- Every byte of memory outside the slots of `rs` reads in `t` as in `s`. -/
def State.SameOutside (s t : State) (rs : List (Nat × Nat)) : Prop :=
  ∀ a : Nat, (∀ r ∈ rs, a < slotOffset r.1 ∨ slotOffset (r.1 + r.2) ≤ a) → t.byteAt a = s.byteAt a

/-- `t` is `s` after a command that wrote slots of `rs` and no register but CPC, which moved on. -/
def State.Wrote (s t : State) (rs : List (Nat × Nat)) : Prop :=
  s.SameOutside t rs ∧ t = { s with mem := t.mem, cpc := s.cpc + 1 }

/-- As `Wrote`, with FLAGS now `f`. -/
def State.WroteFlags (s t : State) (rs : List (Nat × Nat)) (f : Flags) : Prop :=
  s.SameOutside t rs ∧ t = { s with mem := t.mem, cpc := s.cpc + 1, flags := f }

/-- Every slot of the range `(b, w)` is below the modulus of context `c` (00_scope.md R18). -/
def State.Canonical (s : State) (c : FieldCtx) (b w : Nat) : Prop :=
  ∀ i, b ≤ i → i < b + w → s.x i < s.q c

/-- `t` is `s` after the fault of `cause` with `info` on the command word `w`: the record, FAULT and
BUSY change and nothing else (60_exceptions.md R454, R456). -/
def State.Faulted (s t : State) (w : CmdWord) (cause : BitVec 8) (info : BitVec 32) : Prop :=
  t = { s with
    status := { s.status with fault := true, busy := false }
    faultRec := { cause := cause, pc := s.cpc, cmd := w, info := info } }

/-! ## The checks of a command, as a list in their order (60_exceptions.md R450, R455, R457) -/

/-- One check: when it fails, and the FAULT_CAUSE and FAULT_INFO it then raises. -/
structure FaultRow where
  fails : Prop
  cause : BitVec 8
  info  : BitVec 32

/-- `t` is `s` after the fault of the first of the checks that fails, or, where none does, has no fault
that `s` has not. -/
def State.FirstFault (s t : State) (w : CmdWord) : List FaultRow → Prop
  | [] => t.status = s.status ∧ t.faultRec = s.faultRec
  | r :: rs => (r.fails → s.Faulted t w r.cause r.info) ∧ (¬ r.fails → s.FirstFault t w rs)

/-- In `s` the command `i` raises the fault of the first of the checks that fails and, where none does,
completes without fault. -/
def State.ChecksInOrder (s : State) (i : Instr) (rs : List FaultRow) : Prop :=
  ∃ t, exec i s = .next t ∧ s.FirstFault t (encode i) rs

/-- CtxValid of three context registers: the modulus odd and at least 3, R² and np those of the modulus
(10_state.md R41). -/
def Ctx.Meets (k : Ctx) : Prop :=
  k.q.toNat % 2 = 1 ∧ 3 ≤ k.q.toNat ∧ k.r2.toNat = 2 ^ 512 % k.q.toNat ∧
    k.np.toNat * k.q.toNat % 2 ^ 64 = 1

/-- CTX_INVALID, of the registers CTX0 for FQ and CTX1 for FR (42_montgomery.md R244; 10_state.md R40). -/
def State.ctxRow (s : State) : FieldCtx → FaultRow
  | .fq => { fails := ¬ s.cfg.ctx0.Meets, cause := 4, info := 0 }
  | .fr => { fails := ¬ s.cfg.ctx1.Meets, cause := 4, info := 1 }

/-- OPERAND_RANGE: the range `(b, w)` does not lie in OPM (20_memory.md R92). -/
def State.rangeRow (s : State) (b w : Nat) : FaultRow :=
  { fails := 0 < w ∧ s.params.opmSlots < b + w, cause := 5, info := BitVec.ofNat 32 b }

/-- OVERLAP: the two ranges share a slot (20_memory.md R93). -/
def overlapRow (b1 w1 b2 w2 : Nat) : FaultRow :=
  { fails := 0 < w1 ∧ 0 < w2 ∧ b1 < b2 + w2 ∧ b2 < b1 + w1, cause := 8, info := 0 }

/-- NONCANONICAL, slot by slot of the range `(b, w)` (42_montgomery.md R245). -/
def State.canonRows (s : State) (c : FieldCtx) (b w : Nat) : List FaultRow :=
  (List.range w).map (fun j =>
    { fails := s.q c ≤ s.x (b + j), cause := 10, info := BitVec.ofNat 32 (b + j) })

/-- NONCANONICAL of a configuration register (42_montgomery.md R245). -/
def State.registerRow (s : State) (v : Word256) : FaultRow :=
  { fails := s.q .fq ≤ v.toNat, cause := 10, info := 0xFFFFFFFF }

/-- NONCANONICAL of BETA, which G2 alone reads (45_curve.md R350). -/
def State.betaRows (s : State) : Group → List FaultRow
  | .g1 => []
  | .g2 => [s.registerRow s.cfg.beta]

/-- NONCANONICAL of the curve constant of a group (45_curve.md R350). -/
def State.constantRows (s : State) : Group → List FaultRow
  | .g1 => [s.registerRow s.cfg.b1]
  | .g2 => [s.registerRow s.cfg.b2c0, s.registerRow s.cfg.b2c1]

/-- BAD_TAG of the record at `hdr`, then NONCANONICAL of the value slot of a long one (43_field_facade.md
R285, R288). -/
def State.recordRows (s : State) (c : FieldCtx) (hdr : Nat) : List FaultRow :=
  let tag := s.x hdr / 2 ^ 32 % 2 ^ 32
  [{ fails := tag ∉ [0, 0x80000000, 0xC0000000], cause := 9, info := BitVec.ofNat 32 hdr },
    { fails := tag ≠ 0 ∧ s.q c ≤ s.x (hdr + 1), cause := 10, info := BitVec.ofNat 32 (hdr + 1) }]

/-- BAD_DESCRIPTOR of the descriptor in slot `i`: c = 0, c > 16 or a non-zero must-be-0 bit (46_msm.md
R390). -/
def State.descriptorRow (s : State) (i : Nat) : FaultRow where
  fails := s.x i / 2 ^ 112 % 32 = 0 ∨ 16 < s.x i / 2 ^ 112 % 32 ∨ s.x i / 2 ^ 117 ≠ 0
  cause := 6
  info := BitVec.ofNat 32 i

/-! ## Plain arithmetic of Fq[x]/(x² − b), without Montgomery form (44_fq2.md R310) -/

/-- The product. -/
def Fq2.times (b : Nat) (u v : Fq2) : Fq2 :=
  { c0 := u.c0 * v.c0 + b * (u.c1 * v.c1), c1 := u.c0 * v.c1 + u.c1 * v.c0 }

/-- The `n`-th power. -/
def Fq2.power (b : Nat) (u : Fq2) : Nat → Fq2
  | 0 => { c0 := 1, c1 := 0 }
  | n + 1 => Fq2.times b (Fq2.power b u n) u

/-- The sum. -/
def Fq2.plus (u v : Fq2) : Fq2 := { c0 := u.c0 + v.c0, c1 := u.c1 + v.c1 }

/-- The multiple by an integer. -/
def Fq2.scale (n : Nat) (u : Fq2) : Fq2 := { c0 := n * u.c0, c1 := n * u.c1 }

/-- Congruence modulo `q`, component by component. -/
def Fq2.Congruent (q : Nat) (u v : Fq2) : Prop := u.c0 % q = v.c0 % q ∧ u.c1 % q = v.c1 % q

/-- Both components are below `q`. -/
def Fq2.Below (q : Nat) (u : Fq2) : Prop := u.c0 < q ∧ u.c1 < q

/-! ## The group law as equations (45_curve.md R345-R348) -/

section

variable {A : Type} [CommRing A]

/-- The canonical infinity (45_curve.md R343), `R` the Montgomery form of 1. -/
def infAt (R : A) : Jac A := { x := R, y := R, z := 0 }

/-- `d` is the double of `p` by dbl-2009-l, all in Montgomery form with factor `R`: x = X/R and so on in the
formulas X = 9x⁴ − 8xy², Y = 3x²(4xy² − X) − 8y⁴, Z = 2yz (45_curve.md R345). -/
def IsDouble (R : A) (p d : Jac A) : Prop :=
  (p.y * p.z = 0 → d = infAt R) ∧
    (p.y * p.z ≠ 0 →
      d.x * R ^ 3 = 9 * p.x ^ 4 - 8 * p.x * p.y ^ 2 * R ∧
      d.y * R ^ 4 = 3 * p.x ^ 2 * (4 * p.x * p.y ^ 2 - d.x * R ^ 2) - 8 * p.y ^ 4 * R ∧
      d.z * R = 2 * p.y * p.z)

/-- `d` is the sum of `p1` and `p2` by add-2007-bl, all in Montgomery form with factor `R`, with the cases of
infinity, equal and opposite points (45_curve.md R346). `u`, `h`, `s`, `k` stand for U1, H, S1 and
S2 − S1 before the powers of `R` are divided out. -/
def IsSum (R : A) (p1 p2 d : Jac A) : Prop :=
  let u := p1.x * p2.z ^ 2
  let h := p2.x * p1.z ^ 2 - u
  let s := p1.y * p2.z ^ 3
  let k := p2.y * p1.z ^ 3 - s
  (p1.z = 0 → p2.z = 0 → d = infAt R) ∧ (p1.z = 0 → p2.z ≠ 0 → d = p2) ∧
    (p1.z ≠ 0 → p2.z = 0 → d = p1) ∧
    (p1.z ≠ 0 → p2.z ≠ 0 →
      (h = 0 → k = 0 → IsDouble R p1 d) ∧ (h = 0 → k ≠ 0 → d = infAt R) ∧
      (h ≠ 0 → p1.z * p2.z * h = 0 → d = infAt R) ∧
      (p1.z * p2.z * h ≠ 0 →
        d.x * R ^ 8 = 4 * k ^ 2 * R - 4 * h ^ 3 - 8 * u * h ^ 2 ∧
        d.y * R ^ 12 = 2 * k * (4 * u * h ^ 2 - d.x * R ^ 8) - 8 * s * h ^ 3 ∧
        d.z * R ^ 4 = 2 * p1.z * p2.z * h))

/-- `d` is the mixed sum of `p1` and the affine point `a`: the sum with `(x, y, 1)`, or with infinity where
`a` is the sentinel (45_curve.md R347, R342). madd-2007-bl gives the slots of add-2007-bl with Z2 = 1. -/
def IsMixedSum (R : A) (p1 : Jac A) (a : Aff A) (d : Jac A) : Prop :=
  (a.x = 0 ∧ a.y = 0 → IsSum R p1 (infAt R) d) ∧
    (¬ (a.x = 0 ∧ a.y = 0) → IsSum R p1 { x := a.x, y := a.y, z := R } d)

/-- Slots of a coordinate (10_state.md R33). -/
def coordSlots : Group → Nat
  | .g1 => 1
  | .g2 => 2

/-- The curve constant of the group is no element: a component is not below q (log 8). -/
def State.NoConstant (s : State) : Group → Prop
  | .g1 => s.q .fq ≤ s.cfg.b1.toNat
  | .g2 => s.q .fq ≤ s.cfg.b2c0.toNat ∨ s.q .fq ≤ s.cfg.b2c1.toNat

/-- The Jacobian point in the slots from `i` up is valid: on the curve whose constant B1 or B2 holds now
(45_curve.md R344; log 7, log 8, log 23). -/
def State.ValidPoint (s : State) (g : Group) (i : Nat) : Prop :=
  s.NoConstant g ∨ onGroup g s (fun _ _ K => onCurve K (readJac K s i) = true)

/-- The affine point in the slots from `i` up is valid: the Jacobian point it stands for is (45_curve.md R344,
R342; log 7, log 8, log 23). -/
def State.ValidAffine (s : State) (g : Group) (i : Nat) : Prop :=
  s.NoConstant g ∨ onGroup g s (fun _ _ K => onCurve K (fromAffine K (readAff K s i)) = true)

/-- The Jacobian point in the slots of `t` from `i` up, with coordinates of `w` slots read by `e`. -/
def jacAt (e : State → Nat → A) (w : Nat) (t : State) (i : Nat) : Jac A :=
  { x := e t i, y := e t (i + w), z := e t (i + 2 * w) }

/-- The affine point in the slots of `t` from `i` up. -/
def affAt (e : State → Nat → A) (w : Nat) (t : State) (i : Nat) : Aff A :=
  { x := e t i, y := e t (i + w) }

end

/-- `P` of the ring in which the coordinates of group `g` lie, with the reading of a coordinate from slots:
in G1 the integers modulo q; in G2 c0 + c1·x with x² = b over them, b the value whose Montgomery form
BETA holds (45_curve.md R340; 44_fq2.md R310). An equation there is a congruence modulo q of every
component. -/
def State.inRing (s : State) (g : Group)
    (P : (A : Type) → [CommRing A] → (State → Nat → A) → Prop) : Prop :=
  match g with
  | .g1 => P (ZMod (s.q .fq)) (fun t i => (t.x i : ZMod (s.q .fq)))
  | .g2 => ∀ b : Nat, b * 2 ^ 256 % s.q .fq = s.cfg.beta.toNat →
      P (QuadraticAlgebra (ZMod (s.q .fq)) (b : ZMod (s.q .fq)) 0)
        (fun t i => ⟨(t.x i : ZMod (s.q .fq)), (t.x (i + 1) : ZMod (s.q .fq))⟩)

/-- Every slot of the range `(b, w)` of `t` is below the modulus of context FQ of `s`. -/
def State.Below (s t : State) (b w : Nat) : Prop := ∀ j, j < w → t.x (b + j) < s.q .fq

/-- Component `j` of the infinity's coordinates X and Y: 1 in Montgomery form, then 0 (45_curve.md R343). -/
def State.oneSlot (s : State) (j : Nat) : Nat := if j = 0 then 2 ^ 256 % s.q .fq else 0

/-! ## The registers, offset by offset (10_state.md R36, R37, R43) -/

/-- The four words of a 256-bit register from offset `o` up. -/
def limbWords (o : Nat) (v : Word256) : List (Nat × Nat) :=
  (List.range 4).map (fun j => (o + 8 * j, v.toNat / 2 ^ (64 * j) % 2 ^ 64))

/-- The three registers of a context: Q at `o`, R2 32 bytes on, NP 64 bytes on. -/
def ctxWords (o : Nat) (k : Ctx) : List (Nat × Nat) :=
  limbWords o k.q ++ limbWords (o + 0x20) k.r2 ++ [(o + 0x40, k.np.toNat)]

/-- The class of BETA against context FQ (10_state.md R43). -/
def classNumber (q beta : Nat) : Nat :=
  if beta = 0 then 0
  else if 2 ≤ q ∧ beta = 2 ^ 256 % q then 1
  else if 2 ≤ q ∧ beta = (q - 2 ^ 256 % q) % q then 2
  else 3

/-- The read-only registers (10_state.md R36): ID, PARAMS, STATUS, CPC, the fault record, BETA_CLASS. -/
def readOnlyOffsets : List Nat := [0x000, 0x008, 0x018, 0x028, 0x040, 0x048, 0x050, 0x058, 0x078]

/-- How many bits of a write the RW-idle register at an offset takes: START_PC, LCNT, ROOT_BASE and
IROOT_BASE 16, FLAGS 5, ROOT_MAXLOG 7, the others 64 (10_state.md R36). -/
def writtenBits (off : Nat) : Nat :=
  if off ∈ [0x020, 0x038, 0x060, 0x068] then 16
  else if off = 0x030 then 5
  else if off = 0x070 then 7
  else 64

/-- What the host reads at the offset of every register. -/
def State.registerTable (s : State) : List (Nat × Nat) :=
  [ (0x000, 0x45524F4343444552)
  , (0x008, s.params.opmLog + 2 ^ 8 * s.params.cmdmLog + 2 ^ 16 * s.params.lanes + 2 ^ 24)
  , (0x010, 4 * s.irqEn.toNat)
  , (0x018, s.status.busy.toNat + 2 * s.status.done.toNat + 4 * s.status.fault.toNat +
      8 * s.status.hostErr.toNat + 16 * (s.irqEn && (s.status.done || s.status.fault)).toNat)
  , (0x020, s.startPc.toNat), (0x028, s.cpc.toNat)
  , (0x030, s.flags.c.toNat + 2 * s.flags.z.toNat + 4 * s.flags.lt.toNat + 8 * s.flags.gt.toNat +
      16 * s.flags.t.toNat)
  , (0x038, s.lcnt.toNat), (0x040, s.faultRec.cause.toNat), (0x048, s.faultRec.pc.toNat)
  , (0x050, s.faultRec.cmd.toNat), (0x058, s.faultRec.info.toNat)
  , (0x060, s.cfg.rootBase.toNat), (0x068, s.cfg.irootBase.toNat), (0x070, s.cfg.rootMaxlog.toNat)
  , (0x078, classNumber s.cfg.ctx0.q.toNat s.cfg.beta.toNat) ]
  ++ ctxWords 0x100 s.cfg.ctx0 ++ ctxWords 0x180 s.cfg.ctx1 ++ limbWords 0x200 s.cfg.beta
  ++ limbWords 0x220 s.cfg.b1 ++ limbWords 0x240 s.cfg.b2c0 ++ limbWords 0x260 s.cfg.b2c1

/-! ## The encoding tables, on the numbers of a word's fields (30_encoding.md R121, R126) -/

/-- The field of `w` with `n` bits from bit `lo` up, as a number. -/
def wordField (w : CmdWord) (lo n : Nat) : Nat := w.toNat / 2 ^ lo % 2 ^ n

/-- The illegal opcodes (30_encoding.md R128). -/
def illegalOpcode (o : Nat) : Prop :=
  o = 0x06 ∨ o = 0x07 ∨ (0x0A ≤ o ∧ o ≤ 0x0F) ∨ (0x1A ≤ o ∧ o ≤ 0x1F) ∨ (0x2A ≤ o ∧ o ≤ 0x2F) ∨
    (0x37 ≤ o ∧ o ≤ 0x3F) ∨ (0x49 ≤ o ∧ o ≤ 0x4F) ∨ (0x54 ≤ o ∧ o ≤ 0x5F) ∨ 0x64 ≤ o

/-- The opcodes that use S (30_encoding.md R125, R126). -/
def usesS (o : Nat) : Prop := (0x20 ≤ o ∧ o ≤ 0x29) ∨ (0x40 ≤ o ∧ o ≤ 0x48) ∨ (0x50 ≤ o ∧ o ≤ 0x53)

/-- The opcodes that use M7 (30_encoding.md R126). -/
def usesM7 (o : Nat) : Prop := o ∈ [0x03, 0x08, 0x28, 0x48, 0x61, 0x62, 0x63]

/-- The opcodes that use RD (30_encoding.md R126). -/
def usesRd (o : Nat) : Prop :=
  o ∈ [0x08, 0x09, 0x10, 0x11, 0x14, 0x15, 0x16, 0x17, 0x18, 0x19, 0x20, 0x21, 0x22, 0x23, 0x24, 0x25,
    0x26, 0x27, 0x28, 0x30, 0x31, 0x32, 0x33, 0x34, 0x40, 0x41, 0x42, 0x43, 0x46, 0x48, 0x52, 0x53,
    0x60, 0x61, 0x62, 0x63]

/-- The opcodes that use RA (30_encoding.md R126): all legal ones but NOP, HALT, BITREV, FFT, IFFT. -/
def usesRa (o : Nat) : Prop := ¬ illegalOpcode o ∧ o ∉ [0x00, 0x01, 0x61, 0x62, 0x63]

/-- The opcodes that use RB (30_encoding.md R126). -/
def usesRb (o : Nat) : Prop :=
  o ∈ [0x09, 0x10, 0x11, 0x12, 0x14, 0x15, 0x16, 0x17, 0x18, 0x20, 0x21, 0x23, 0x25, 0x30, 0x31, 0x33,
    0x35, 0x40, 0x41, 0x47, 0x48, 0x51, 0x60]

/-- A word with a non-zero field that its opcode does not use (30_encoding.md R122). -/
def unusedFieldSet (w : CmdWord) : Prop :=
  let o := wordField w 0 8
  (¬ usesS o ∧ wordField w 8 1 ≠ 0) ∨ (¬ usesM7 o ∧ wordField w 9 7 ≠ 0) ∨
    (¬ usesRd o ∧ wordField w 16 16 ≠ 0) ∨ (¬ usesRa o ∧ wordField w 32 16 ≠ 0) ∨
    (¬ usesRb o ∧ wordField w 48 16 ≠ 0)

/-- A word with a reserved value in M7 (30_encoding.md R129): BRF with cond 10-15 or M7[6:4] set, NORM
with mode 2-127, PMUL with nbytes 0 or 33-127. -/
def reservedValue (w : CmdWord) : Prop :=
  (wordField w 0 8 = 0x03 ∧ 10 ≤ wordField w 9 7) ∨ (wordField w 0 8 = 0x28 ∧ 2 ≤ wordField w 9 7) ∨
    (wordField w 0 8 = 0x48 ∧ (wordField w 9 7 = 0 ∨ 33 ≤ wordField w 9 7))

/-! ## The sequencer's tables -/

/-- The pc after a command that completes in `s` (40_sequencer.md R162). -/
def nextPc (i : Instr) (s : State) : BitVec 17 :=
  match i with
  | .jmp a => a.setWidth 17
  | .brf cc a => if s.flags.holds cc then a.setWidth 17 else s.cpc + 1
  | .djnz a => if s.lcnt - 1 ≠ 0 then a.setWidth 17 else s.cpc + 1
  | .halt => s.cpc
  | _ => s.cpc + 1

/-- Commands that write C (41_limb.md R200). -/
def writesC : Instr → Bool
  | .ladd _ _ _ => true
  | .lsub _ _ _ => true
  | _ => false

/-- Commands that write LT and GT (41_limb.md R200). -/
def writesOrder : Instr → Bool
  | .lcmp _ _ => true
  | _ => false

/-- Commands that write Z (41_limb.md R200). -/
def writesZ : Instr → Bool
  | .ladd _ _ _ => true
  | .lsub _ _ _ => true
  | .lcmp _ _ => true
  | .lisz _ => true
  | .lshl _ _ _ => true
  | .lshr _ _ _ => true
  | .land _ _ _ => true
  | .lor _ _ _ => true
  | .lxor _ _ _ => true
  | .lnot _ _ => true
  | .feisz _ _ => true
  | .e2eq _ _ => true
  | .e2isz _ => true
  | _ => false

/-- Commands that write T (41_limb.md R200). -/
def writesT : Instr → Bool
  | .pisz _ _ => true
  | .ponc _ _ => true
  | .peq _ _ _ => true
  | _ => false

/-! ## Multi-scalar multiplication without a memory (46_msm.md R393, R394, R398) -/

section

variable {α : Type} [DecidableEq α] (K : CoordField α)

/-- The descriptor with value `v`, its fields by their bits (46_msm.md R390). -/
def descriptorOf (v : Nat) : Desc where
  n := v % 2 ^ 64
  pb := v / 2 ^ 64 % 2 ^ 16
  sb := v / 2 ^ 80 % 2 ^ 16
  bb := v / 2 ^ 96 % 2 ^ 16
  c := v / 2 ^ 112 % 32

/-- What bucket `b` holds after ACC_g(w) if it held `start`: the points whose chunk is `b + 1`, added in
the order of `i` (46_msm.md R393). -/
def bucketFold (d : Desc) (s : State) (w b : Nat) (start : Jac α) : Jac α :=
  (List.range d.n).foldl
    (fun acc i =>
      if s.x (d.sb + i) / 2 ^ (w * d.c) % 2 ^ d.c = b + 1 then
        jadda K acc (readAff K s (d.pb + i * (2 * K.width)))
      else acc) start

/-- RED_g() of the buckets `bk 0` to `bk (nb - 1)` (46_msm.md R394). -/
def bucketSum (nb : Nat) (bk : Nat → Jac α) : Jac α :=
  (iterDown nb (fun b rs => (jadd K rs.1 (bk b), jadd K rs.2 (jadd K rs.1 (bk b))))
    (infPoint K, infPoint K)).2

/-- The result of MSM (46_msm.md R398). -/
def msmValue (d : Desc) (s : State) : Jac α :=
  iterDown ((256 + d.c - 1) / d.c)
    (fun w acc => jadd K (iter d.c (fun _ a => jdbl K a) acc)
      (bucketSum K d.nb (fun b => bucketFold K d s w b (infPoint K)))) (infPoint K)

end

/-! ## The transform as a recursion (47_fft.md R428) -/

/-- Element `i` of the radix-2 decimation-in-time transform of log2 size `k` of `v`, with the twiddles
`root stage j`: the transforms of the even and of the odd elements, joined by one butterfly. -/
def radix2 (kx : Ctx) (root : Nat → Nat → Nat) : Nat → (Nat → Nat) → Nat → Nat
  | 0, v, _ => v 0
  | k + 1, v, i =>
    let j := i % 2 ^ k
    let e := radix2 kx root k (fun n => v (2 * n)) j
    let t := mont kx (root k j) (radix2 kx root k (fun n => v (2 * n + 1)) j)
    if i < 2 ^ k then addq kx.q.toNat e t else subq kx.q.toNat e t

end Sys2Proof.Machine
end

