-- ==== Sys2Proof/Certificates/Slice0/Obligations.lean ====
section
/-! DEFINITION. The statements for the provers. `R<n>` names a rule of spec/, `log <n>` a row of
notes/assumptions/. -/

section Statements

open Sys2Proof Sys2Proof.Machine

/-! ## Encoding -/

/-- A few command words of 96_test_vectors_units.md section 3.2 decode to the commands it names. -/
def Obligations.SpecWordsDecode : Prop :=
  decode 0x0000000b00001203 = .ok (.brf .nt 11) ∧
  decode 0x0000001000200408 = .ok (.mov 0x20 0x10 2) ∧
  decode 0xdeadbeef00400009 = .ok (.limm 0x40 0xdeadbeef) ∧
  decode 0x0020000100010014 = .ok (.lshl 1 1 32) ∧
  decode 0x0011001100120123 = .ok (.fmul .fr 0x12 0x11 0x11) ∧
  decode 0x0000000100030228 = .ok (.norm .fq 3 1 .montgomery) ∧
  decode 0x0012001000200033 = .ok (.e2mul 0x20 0x10 0x12) ∧
  decode 0x0050003000604148 = .ok (.pmul .g2 0x60 0x30 0x50 32) ∧
  decode 0x007f000000000051 = .ok (.bktacc .g1 0 127) ∧
  decode 0x0000000001000462 = .ok (.fft 0x100 2)

/-- Decoding the encoding of a well-formed command gives the command back, and so does decoding its eight
bytes, the lowest bits at the lowest address, with the bytes after them left (R121-R126, R133, R82,
R83). -/
def Obligations.DecodeEncodeRoundTrip : Prop :=
  ∀ i : Instr, i.wf = true → decode (encode i) = .ok i ∧
    ∀ rest : List Byte, decodeBytes (encodeBytes i ++ rest) = .ok (i, rest)

/-- Every word that decodes is the encoding of what it decodes to, and that is well formed (R122,
R126: no two words mean one command). -/
def Obligations.EncodeDecodeRoundTrip : Prop :=
  ∀ (w : CmdWord) (i : Instr), decode w = .ok i → i.wf = true ∧ encode i = w

/-- A word is refused as ILLEGAL_OPCODE exactly when its opcode is one that R128 lists, whatever its
other fields hold; and as RESERVED_FIELD exactly when its opcode is legal and it has a non-zero unused
field (R122) or a reserved value in a used one (R129). -/
def Obligations.RefusedWords : Prop :=
  ∀ w : CmdWord,
    (decode w = .error .illegalOpcode ↔ illegalOpcode (wordField w 0 8)) ∧
    (decode w = .error .reservedField ↔
      ¬ illegalOpcode (wordField w 0 8) ∧ (unusedFieldSet w ∨ reservedValue w))

/-! ## The step -/

/-- A busy engine with a command at CPC runs it: the step is `exec` of what the word decodes to. Where
the host's next turn is to do nothing, that turn is taken first (log 4). -/
def Obligations.StepRunsTheDecodedCommand : Prop :=
  ∀ (s : State) (i : Instr), s.params.legal = true → s.status.busy = true →
    s.cpc.toNat < s.params.cmdmWords → decode (s.command s.cpc.toNat) = .ok i →
    (s.inbox = [] → step s = exec i s) ∧
    (∀ ts, s.inbox = .engine :: ts → step s = exec i (s.setInbox ts))

/-- A fetch beyond command memory takes FETCH_RANGE with FAULT_PC the pc and FAULT_CMD and FAULT_INFO 0
(R161); a fetched word the decoder refuses takes ILLEGAL_OPCODE or RESERVED_FIELD with FAULT_CMD the
word and FAULT_INFO 0 (R450, R451, R456). -/
def Obligations.FetchAndDecodeFaults : Prop :=
  ∀ s : State, s.params.legal = true → s.inbox = [] → s.status.busy = true →
    (s.params.cmdmWords ≤ s.cpc.toNat → ∃ t, step s = .next t ∧ s.Faulted t 0 1 0) ∧
    (∀ w : CmdWord, s.cpc.toNat < s.params.cmdmWords → s.command s.cpc.toNat = w →
      (decode w = .error .illegalOpcode → ∃ t, step s = .next t ∧ s.Faulted t w 2 0) ∧
      (decode w = .error .reservedField → ∃ t, step s = .next t ∧ s.Faulted t w 3 0))

/-- With legal parameters no step stops: every command, every fault and every host turn has a next
state, and an idle engine keeps all its state (R480). With illegal parameters the model stops by name
(log 12). The legal parameters are those of R12. -/
def Obligations.StepAlwaysAnswers : Prop :=
  ∀ s : State,
    (s.params.legal = true ↔ 1 ≤ s.params.opmLog ∧ s.params.opmLog ≤ 16 ∧ 1 ≤ s.params.cmdmLog ∧
      s.params.cmdmLog ≤ 16 ∧ 1 ≤ s.params.lanes ∧ s.params.lanes ≤ 255) ∧
    (s.params.legal = true → ∃ t, step s = .next t) ∧
    (s.params.legal = true → s.inbox = [] → s.status.busy = false → step s = .next s) ∧
    (s.params.legal = false → step s = .fault .illegalParameters)

/-- The state after reset meets the invariant. -/
def Obligations.ResetMeetsInvariant : Prop := State.reset.Inv

/-- Every step keeps the invariant: legal parameters, canonical and populated memory, CPC at most
65536, one of BUSY, DONE, FAULT, a fault record that fits. -/
def Obligations.StepKeepsInvariant : Prop := ∀ s t : State, s.Inv → step s = .next t → t.Inv

/-- A command that faults writes no slot, no flag, no LCNT and no pc: its next state is the state
before with the fault record, and the cause is one that a decoded command can raise (R454). -/
def Obligations.FaultsArePrecise : Prop :=
  ∀ (i : Instr) (s t : State), i.wf = true → s.status.fault = false → exec i s = .next t →
    t.status.fault = true → ∃ (cause : BitVec 8) (info : BitVec 32),
      4 ≤ cause.toNat ∧ cause.toNat ≤ 10 ∧ s.Faulted t (encode i) cause info

/-- The frame of every command: no byte of memory outside the slots that the command's rule names as its
destination changes, so no command word changes (R101), and no configuration register (R512), START_PC,
IRQ_EN or HOST_ERR, and nothing of the host's. -/
def Obligations.CommandsKeepTheRest : Prop :=
  ∀ (i : Instr) (s t : State), exec i s = .next t →
    s.SameOutside t (destRanges i s) ∧ (∀ k, k < 65536 → t.command k = s.command k) ∧
    t.cfg = s.cfg ∧ t.startPc = s.startPc ∧ t.irqEn = s.irqEn ∧
    t.status.hostErr = s.status.hostErr ∧ t.params = s.params ∧ t.inbox = s.inbox ∧
    t.reply = s.reply ∧ t.powerOns = s.powerOns

/-- The flags a command does not write, by the table of R200, are unchanged by it, and a command that
faults writes none; LCNT is written by SETLC and DJNZ alone (R45). -/
def Obligations.FlagsAreWrittenByTheTable : Prop :=
  ∀ (i : Instr) (s t : State), exec i s = .next t →
    (writesC i = false → t.flags.c = s.flags.c) ∧ (writesZ i = false → t.flags.z = s.flags.z) ∧
    (writesOrder i = false → t.flags.lt = s.flags.lt ∧ t.flags.gt = s.flags.gt) ∧
    (writesT i = false → t.flags.t = s.flags.t) ∧
    (s.status.fault = false → t.status.fault = true → t.flags = s.flags) ∧
    ((∀ n, i ≠ .setlc n) → (∀ a, i ≠ .djnz a) → t.lcnt = s.lcnt)

/-- A command that completes leaves CPC at the branch target, at its own index (HALT) or one further
(R162). -/
def Obligations.NextPc : Prop :=
  ∀ (i : Instr) (s t : State), s.status.fault = false → exec i s = .next t →
    t.status.fault = false → t.cpc = nextPc i s

/-! ## Sequencer and data movement -/

/-- NOP, HALT, JMP, BRF (each condition), SETLC and DJNZ complete in every state, with the next state
that R163 to R168 give. -/
def Obligations.ControlCommands : Prop :=
  ∀ s : State,
    exec .nop s = .next { s with cpc := s.cpc + 1 } ∧
    exec .halt s = .next { s with status := { s.status with done := true, busy := false } } ∧
    (∀ a : BitVec 16, exec (.jmp a) s = .next { s with cpc := a.setWidth 17 }) ∧
    (∀ (p : Cond × Bool) (a : BitVec 16),
      p ∈ [(.c, s.flags.c), (.nc, !s.flags.c), (.z, s.flags.z), (.nz, !s.flags.z), (.lt, s.flags.lt),
        (.nlt, !s.flags.lt), (.gt, s.flags.gt), (.ngt, !s.flags.gt), (.t, s.flags.t),
        (.nt, !s.flags.t)] →
      exec (.brf p.1 a) s =
        .next { s with cpc := bif p.2 then a.setWidth 17 else s.cpc + 1 }) ∧
    (∀ n : BitVec 16, exec (.setlc n) s = .next { s with lcnt := n, cpc := s.cpc + 1 }) ∧
    (∀ a : BitVec 16, exec (.djnz a) s =
      .next { s with
        lcnt := s.lcnt - 1
        cpc := if s.lcnt = 1 then s.cpc + 1 else a.setWidth 17 })

/-- MOV copies the source slots as they were before it, however source and destination overlap (R169,
R95); LIMM writes its zero-extended immediate (R170). Nothing else changes but CPC. -/
def Obligations.DataMovement : Prop :=
  ∀ s : State,
    (∀ (rd ra : SlotIx) (m7 : BitVec 7), s.inRange ra.toNat (m7.toNat + 1) = true →
      s.inRange rd.toNat (m7.toNat + 1) = true →
      ∃ t, exec (.mov rd ra m7) s = .next t ∧ s.Wrote t [(rd.toNat, m7.toNat + 1)] ∧
        ∀ j, j ≤ m7.toNat → t.x (rd.toNat + j) = s.x (ra.toNat + j)) ∧
    (∀ (rd : SlotIx) (imm : BitVec 32), s.inRange rd.toNat 1 = true →
      ∃ t, exec (.limm rd imm) s = .next t ∧ s.Wrote t [(rd.toNat, 1)] ∧ t.x rd.toNat = imm.toNat)

/-! ## Limb vector -/

/-- LADD and LSUB: the sum and the difference modulo 2^256, C the carry or the borrow, Z the zero test
(R202, R203). -/
def Obligations.LimbAddSubtract : Prop :=
  ∀ (s : State) (rd ra rb : SlotIx), s.inRange ra.toNat 1 = true → s.inRange rb.toNat 1 = true →
    s.inRange rd.toNat 1 = true →
    (∃ t, exec (.ladd rd ra rb) s = .next t ∧
      t.x rd.toNat = (s.x ra.toNat + s.x rb.toNat) % 2 ^ 256 ∧
      s.WroteFlags t [(rd.toNat, 1)]
        { s.flags with c := decide (2 ^ 256 ≤ s.x ra.toNat + s.x rb.toNat),
                       z := decide (t.x rd.toNat = 0) }) ∧
    (∃ t, exec (.lsub rd ra rb) s = .next t ∧
      t.x rd.toNat = (s.x ra.toNat + (2 ^ 256 - s.x rb.toNat)) % 2 ^ 256 ∧
      s.WroteFlags t [(rd.toNat, 1)]
        { s.flags with c := decide (s.x ra.toNat < s.x rb.toNat), z := decide (t.x rd.toNat = 0) })

/-- LCMP and LISZ write their flags and nothing else but CPC (R204, R205). -/
def Obligations.LimbCompareAndTest : Prop :=
  ∀ (s : State) (ra rb : SlotIx), s.inRange ra.toNat 1 = true →
    (s.inRange rb.toNat 1 = true → exec (.lcmp ra rb) s = .next { s with
      cpc := s.cpc + 1
      flags := { s.flags with
        lt := decide (s.x ra.toNat < s.x rb.toNat)
        gt := decide (s.x rb.toNat < s.x ra.toNat)
        z := decide (s.x ra.toNat = s.x rb.toNat) } }) ∧
    exec (.lisz ra) s = .next { s with
      cpc := s.cpc + 1
      flags := { s.flags with z := decide (s.x ra.toNat = 0) } }

/-- LSHL and LSHR shift by any amount of 16 bits, an amount of 256 or more giving 0, and write Z (R206,
R207). -/
def Obligations.LimbShifts : Prop :=
  ∀ (s : State) (rd ra : SlotIx) (amt : BitVec 16), s.inRange ra.toNat 1 = true →
    s.inRange rd.toNat 1 = true →
    (∃ t, exec (.lshl rd ra amt) s = .next t ∧
      t.x rd.toNat = s.x ra.toNat * 2 ^ amt.toNat % 2 ^ 256 ∧
      s.WroteFlags t [(rd.toNat, 1)] { s.flags with z := decide (t.x rd.toNat = 0) }) ∧
    (∃ t, exec (.lshr rd ra amt) s = .next t ∧ t.x rd.toNat = s.x ra.toNat / 2 ^ amt.toNat ∧
      s.WroteFlags t [(rd.toNat, 1)] { s.flags with z := decide (t.x rd.toNat = 0) })

/-- LAND, LOR, LXOR and LNOT act bit by bit and write Z (R208-R211). -/
def Obligations.LimbBitwise : Prop :=
  ∀ (s : State) (rd ra rb : SlotIx), s.inRange ra.toNat 1 = true → s.inRange rd.toNat 1 = true →
    (∀ (i : Instr) (f : Bool → Bool → Bool),
      (i, f) ∈ [(Instr.land rd ra rb, and), (Instr.lor rd ra rb, or), (Instr.lxor rd ra rb, xor)] →
      s.inRange rb.toNat 1 = true →
      ∃ t, exec i s = .next t ∧
        (∀ j, j < 256 → (t.x rd.toNat).testBit j =
          f ((s.x ra.toNat).testBit j) ((s.x rb.toNat).testBit j)) ∧
        s.WroteFlags t [(rd.toNat, 1)] { s.flags with z := decide (t.x rd.toNat = 0) }) ∧
    (∃ t, exec (.lnot rd ra) s = .next t ∧ t.x rd.toNat = 2 ^ 256 - 1 - s.x ra.toNat ∧
      s.WroteFlags t [(rd.toNat, 1)] { s.flags with z := decide (t.x rd.toNat = 0) })

/-! ## Montgomery multiplier and field façade -/

/-- The multiplier's loop computes the one integer below q that is a·b·R⁻¹ modulo q (R241, R242). -/
def Obligations.MontgomeryProduct : Prop :=
  ∀ (k : Ctx) (a b : Nat), k.valid = true → a < k.q.toNat → b < k.q.toNat →
    mont k a b < k.q.toNat ∧ mont k a b * 2 ^ 256 % k.q.toNat = a * b % k.q.toNat ∧
    ∀ r, r < k.q.toNat → r * 2 ^ 256 % k.q.toNat = a * b % k.q.toNat → r = mont k a b

/-- The properties R243 asks of the Montgomery product. -/
def Obligations.MontgomeryProperties : Prop :=
  ∀ (k : Ctx) (a b : Nat), k.valid = true → a < k.q.toNat → b < k.q.toNat →
    mont k a b = mont k b a ∧
    mont k (a * 2 ^ 256 % k.q.toNat) (b * 2 ^ 256 % k.q.toNat) = a * b % k.q.toNat * 2 ^ 256 % k.q.toNat ∧
    mont k a k.r2.toNat = a * 2 ^ 256 % k.q.toNat ∧
    mont k a 1 * 2 ^ 256 % k.q.toNat = a ∧ mont k a 1 < k.q.toNat ∧
    mont k (mont k a k.r2.toNat) 1 = a

/-- FMUL, FSQR, FMULW, FTOM and FFROMM complete on canonical operands with the residue their rules
give (R249-R254): the Montgomery product, the square, the product with limb 0 of slot RB, the
Montgomery form, the normal form. No flag changes (R248). -/
def Obligations.FieldMultiplies : Prop :=
  ∀ (s : State) (c : FieldCtx) (rd ra rb : SlotIx), (s.ctx c).valid = true →
    s.inRange ra.toNat 1 = true → s.inRange rd.toNat 1 = true → s.Canonical c ra.toNat 1 →
    (s.inRange rb.toNat 1 = true → s.Canonical c rb.toNat 1 →
      ∃ t, exec (.fmul c rd ra rb) s = .next t ∧ s.Wrote t [(rd.toNat, 1)] ∧ t.x rd.toNat < s.q c ∧
        t.x rd.toNat * 2 ^ 256 % s.q c = s.x ra.toNat * s.x rb.toNat % s.q c) ∧
    (∃ t, exec (.fsqr c rd ra) s = .next t ∧ s.Wrote t [(rd.toNat, 1)] ∧ t.x rd.toNat < s.q c ∧
      t.x rd.toNat * 2 ^ 256 % s.q c = s.x ra.toNat * s.x ra.toNat % s.q c) ∧
    (s.inRange rb.toNat 1 = true →
      ∃ t, exec (.fmulw c rd ra rb) s = .next t ∧ s.Wrote t [(rd.toNat, 1)] ∧ t.x rd.toNat < s.q c ∧
        t.x rd.toNat * 2 ^ 256 % s.q c = s.x ra.toNat * (s.x rb.toNat % 2 ^ 64) % s.q c) ∧
    (∃ t, exec (.ftom c rd ra) s = .next t ∧ s.Wrote t [(rd.toNat, 1)] ∧
      t.x rd.toNat = s.x ra.toNat * 2 ^ 256 % s.q c) ∧
    (∃ t, exec (.ffromm c rd ra) s = .next t ∧ s.Wrote t [(rd.toNat, 1)] ∧ t.x rd.toNat < s.q c ∧
      t.x rd.toNat * 2 ^ 256 % s.q c = s.x ra.toNat)

/-- FADD, FSUB and FNEG complete on canonical operands with the residues of R283, R284 and R286; no
flag changes. -/
def Obligations.FieldAddsSubtractsNegates : Prop :=
  ∀ (s : State) (c : FieldCtx) (rd ra rb : SlotIx), (s.ctx c).valid = true →
    s.inRange ra.toNat 1 = true → s.inRange rd.toNat 1 = true → s.Canonical c ra.toNat 1 →
    (s.inRange rb.toNat 1 = true → s.Canonical c rb.toNat 1 →
      (∃ t, exec (.fadd c rd ra rb) s = .next t ∧ s.Wrote t [(rd.toNat, 1)] ∧
        t.x rd.toNat = (s.x ra.toNat + s.x rb.toNat) % s.q c) ∧
      (∃ t, exec (.fsub c rd ra rb) s = .next t ∧ s.Wrote t [(rd.toNat, 1)] ∧
        t.x rd.toNat = (s.x ra.toNat + s.q c - s.x rb.toNat) % s.q c)) ∧
    (∃ t, exec (.fneg c rd ra) s = .next t ∧ s.Wrote t [(rd.toNat, 1)] ∧
      t.x rd.toNat = (s.q c - s.x ra.toNat) % s.q c)

/-- The additive primitives are the residues of R280, R281 and R282. -/
def Obligations.AdditivePrimitives : Prop :=
  ∀ q a b : Nat, a < q → b < q →
    addq q a b = (a + b) % q ∧ (subq q a b : Int) = ((a : Int) - b) % q ∧
    (negq q a : Int) = (-(a : Int)) % q ∧ negq q 0 = 0

/-- NORM completes on every record with a legal tag: the short value as a residue, the long value, or
its other form (R288); a short record's value slot is not read. -/
def Obligations.NormResult : Prop :=
  ∀ (s : State) (c : FieldCtx) (rd hdr : SlotIx), (s.ctx c).valid = true →
    s.inRange hdr.toNat 2 = true → s.inRange rd.toNat 1 = true →
    ∀ (tag : Nat) (low short : Int), tag = s.x hdr.toNat / 2 ^ 32 % 2 ^ 32 →
    low = (s.x hdr.toNat % 2 ^ 32 : Nat) → short = (if low < 2 ^ 31 then low else low - 2 ^ 32) →
    (tag = 0 → ∃ v : Nat, v < s.q c ∧ (v : Int) = short % (s.q c : Int) ∧
      (∃ t, exec (.norm c rd hdr .normal) s = .next t ∧ s.Wrote t [(rd.toNat, 1)] ∧
        t.x rd.toNat = v) ∧
      (∃ t, exec (.norm c rd hdr .montgomery) s = .next t ∧ s.Wrote t [(rd.toNat, 1)] ∧
        t.x rd.toNat = v * 2 ^ 256 % s.q c)) ∧
    (tag = 0x80000000 → s.Canonical c (hdr.toNat + 1) 1 →
      (∃ t, exec (.norm c rd hdr .normal) s = .next t ∧ s.Wrote t [(rd.toNat, 1)] ∧
        t.x rd.toNat = s.x (hdr.toNat + 1)) ∧
      (∃ t, exec (.norm c rd hdr .montgomery) s = .next t ∧ s.Wrote t [(rd.toNat, 1)] ∧
        t.x rd.toNat = s.x (hdr.toNat + 1) * 2 ^ 256 % s.q c)) ∧
    (tag = 0xC0000000 → s.Canonical c (hdr.toNat + 1) 1 →
      (∃ t, exec (.norm c rd hdr .normal) s = .next t ∧ s.Wrote t [(rd.toNat, 1)] ∧
        t.x rd.toNat < s.q c ∧ t.x rd.toNat * 2 ^ 256 % s.q c = s.x (hdr.toNat + 1)) ∧
      (∃ t, exec (.norm c rd hdr .montgomery) s = .next t ∧ s.Wrote t [(rd.toNat, 1)] ∧
        t.x rd.toNat = s.x (hdr.toNat + 1)))

/-- FEISZ completes on every record with a legal tag and writes Z alone: whether the short value is 0
modulo q, or the long value is 0 (R289; for short values of a small modulus, log 18). -/
def Obligations.FeiszResult : Prop :=
  ∀ (s : State) (c : FieldCtx) (hdr : SlotIx), (s.ctx c).valid = true →
    s.inRange hdr.toNat 2 = true →
    ∀ (tag : Nat) (low short : Int), tag = s.x hdr.toNat / 2 ^ 32 % 2 ^ 32 →
    low = (s.x hdr.toNat % 2 ^ 32 : Nat) → short = (if low < 2 ^ 31 then low else low - 2 ^ 32) →
    (tag = 0 → exec (.feisz c hdr) s = .next { s with
      cpc := s.cpc + 1
      flags := { s.flags with z := decide ((s.q c : Int) ∣ short) } }) ∧
    (tag = 0x80000000 ∨ tag = 0xC0000000 → s.Canonical c (hdr.toNat + 1) 1 →
      exec (.feisz c hdr) s = .next { s with
        cpc := s.cpc + 1
        flags := { s.flags with z := decide (s.x (hdr.toNat + 1) = 0) } })

/-- The checks of the field, Fq2, limb and data-movement commands, each in its order, with their FAULT_INFO:
the context, the ranges of the sources, the range of RD, the values of the sources in slot order, BETA
(R244, R245, R248-R254, R283-R289, R315-R321, R201, R169, R170, R455). FMULW checks the range of its word
slot and not its value. -/
def Obligations.OperandChecksInOrder : Prop :=
  ∀ (s : State) (c : FieldCtx) (rd ra rb : SlotIx) (f : NormForm) (n : BitVec 7) (m : BitVec 16)
    (imm : BitVec 32),
    (∀ i ∈ [Instr.fmul c rd ra rb, .fadd c rd ra rb, .fsub c rd ra rb],
      s.ChecksInOrder i ([s.ctxRow c, s.rangeRow ra.toNat 1, s.rangeRow rb.toNat 1,
        s.rangeRow rd.toNat 1] ++ s.canonRows c ra.toNat 1 ++ s.canonRows c rb.toNat 1)) ∧
    s.ChecksInOrder (.fmulw c rd ra rb) ([s.ctxRow c, s.rangeRow ra.toNat 1, s.rangeRow rb.toNat 1,
      s.rangeRow rd.toNat 1] ++ s.canonRows c ra.toNat 1) ∧
    (∀ i ∈ [Instr.fsqr c rd ra, .fneg c rd ra, .ftom c rd ra, .ffromm c rd ra],
      s.ChecksInOrder i ([s.ctxRow c, s.rangeRow ra.toNat 1, s.rangeRow rd.toNat 1] ++
        s.canonRows c ra.toNat 1)) ∧
    s.ChecksInOrder (.norm c rd ra f) ([s.ctxRow c, s.rangeRow ra.toNat 2, s.rangeRow rd.toNat 1] ++
      s.recordRows c ra.toNat) ∧
    s.ChecksInOrder (.feisz c ra) ([s.ctxRow c, s.rangeRow ra.toNat 2] ++ s.recordRows c ra.toNat) ∧
    (∀ i ∈ [Instr.e2add rd ra rb, .e2sub rd ra rb],
      s.ChecksInOrder i ([s.ctxRow .fq, s.rangeRow ra.toNat 2, s.rangeRow rb.toNat 2,
        s.rangeRow rd.toNat 2] ++ s.canonRows .fq ra.toNat 2 ++ s.canonRows .fq rb.toNat 2)) ∧
    s.ChecksInOrder (.e2mul rd ra rb) ([s.ctxRow .fq, s.rangeRow ra.toNat 2, s.rangeRow rb.toNat 2,
      s.rangeRow rd.toNat 2] ++ s.canonRows .fq ra.toNat 2 ++ s.canonRows .fq rb.toNat 2 ++
      [s.registerRow s.cfg.beta]) ∧
    s.ChecksInOrder (.e2neg rd ra) ([s.ctxRow .fq, s.rangeRow ra.toNat 2, s.rangeRow rd.toNat 2] ++
      s.canonRows .fq ra.toNat 2) ∧
    s.ChecksInOrder (.e2sqr rd ra) ([s.ctxRow .fq, s.rangeRow ra.toNat 2, s.rangeRow rd.toNat 2] ++
      s.canonRows .fq ra.toNat 2 ++ [s.registerRow s.cfg.beta]) ∧
    s.ChecksInOrder (.e2eq ra rb) ([s.ctxRow .fq, s.rangeRow ra.toNat 2, s.rangeRow rb.toNat 2] ++
      s.canonRows .fq ra.toNat 2 ++ s.canonRows .fq rb.toNat 2) ∧
    s.ChecksInOrder (.e2isz ra) ([s.ctxRow .fq, s.rangeRow ra.toNat 2] ++
      s.canonRows .fq ra.toNat 2) ∧
    (∀ i ∈ [Instr.ladd rd ra rb, .lsub rd ra rb, .land rd ra rb, .lor rd ra rb, .lxor rd ra rb],
      s.ChecksInOrder i
        [s.rangeRow ra.toNat 1, s.rangeRow rb.toNat 1, s.rangeRow rd.toNat 1]) ∧
    s.ChecksInOrder (.lcmp ra rb) [s.rangeRow ra.toNat 1, s.rangeRow rb.toNat 1] ∧
    (∀ i ∈ [Instr.lshl rd ra m, .lshr rd ra m, .lnot rd ra],
      s.ChecksInOrder i [s.rangeRow ra.toNat 1, s.rangeRow rd.toNat 1]) ∧
    s.ChecksInOrder (.lisz ra) [s.rangeRow ra.toNat 1] ∧
    s.ChecksInOrder (.mov rd ra n)
      [s.rangeRow ra.toNat (n.toNat + 1), s.rangeRow rd.toNat (n.toNat + 1)] ∧
    s.ChecksInOrder (.limm rd imm) [s.rangeRow rd.toNat 1]

/-- NORM and FEISZ take BAD_TAG on a tag other than the three of R285, with FAULT_INFO the header slot. -/
def Obligations.IllegalTagsFault : Prop :=
  ∀ (s : State) (c : FieldCtx) (rd hdr : SlotIx) (m : NormForm), (s.ctx c).valid = true →
    s.inRange hdr.toNat 2 = true →
    s.x hdr.toNat / 2 ^ 32 % 2 ^ 32 ∉ [0, 0x80000000, 0xC0000000] →
    (s.inRange rd.toNat 1 = true → ∃ t, exec (.norm c rd hdr m) s = .next t ∧
      s.Faulted t (encode (.norm c rd hdr m)) 9 (hdr.setWidth 32)) ∧
    (∃ t, exec (.feisz c hdr) s = .next t ∧
      s.Faulted t (encode (.feisz c hdr)) 9 (hdr.setWidth 32))

/-! ## Quadratic extension -/

/-- The multiply-by-β routine, by the class of BETA: 0, v, -v mod q or the Montgomery product with BETA; in
every class it is that product (R311). The classes are those of R43. -/
def Obligations.MultiplyByBeta : Prop :=
  ∀ (k : Ctx) (beta v : Nat), k.valid = true → v < k.q.toNat →
    (betaClass k beta = .zero ↔ beta = 0) ∧
    (betaClass k beta = .one ↔ beta ≠ 0 ∧ beta = 2 ^ 256 % k.q.toNat) ∧
    (betaClass k beta = .negone ↔ beta = k.q.toNat - 2 ^ 256 % k.q.toNat) ∧
    (betaClass k beta = .zero → mulBeta k beta v = 0) ∧
    (betaClass k beta = .one → mulBeta k beta v = v) ∧
    (betaClass k beta = .negone → mulBeta k beta v = negq k.q.toNat v) ∧
    (betaClass k beta = .other → mulBeta k beta v = mont k beta v) ∧
    (beta < k.q.toNat → mulBeta k beta v = mont k beta v)

/-- E2ADD, E2SUB and E2NEG complete on canonical operands, component by component, the sources read
before the destination is written (R312, R315-R317). -/
def Obligations.Fq2Additive : Prop :=
  ∀ (s : State) (rd ra rb : SlotIx), (s.ctx .fq).valid = true →
    s.inRange ra.toNat 2 = true → s.inRange rd.toNat 2 = true → s.Canonical .fq ra.toNat 2 →
    (s.inRange rb.toNat 2 = true → s.Canonical .fq rb.toNat 2 →
      (∃ t, exec (.e2add rd ra rb) s = .next t ∧ s.Wrote t [(rd.toNat, 2)] ∧
        ∀ j, j < 2 → t.x (rd.toNat + j) = (s.x (ra.toNat + j) + s.x (rb.toNat + j)) % s.q .fq) ∧
      (∃ t, exec (.e2sub rd ra rb) s = .next t ∧ s.Wrote t [(rd.toNat, 2)] ∧
        ∀ j, j < 2 →
          t.x (rd.toNat + j) = (s.x (ra.toNat + j) + s.q .fq - s.x (rb.toNat + j)) % s.q .fq)) ∧
    (∃ t, exec (.e2neg rd ra) s = .next t ∧ s.Wrote t [(rd.toNat, 2)] ∧
      ∀ j, j < 2 → t.x (rd.toNat + j) = (s.q .fq - s.x (ra.toNat + j)) % s.q .fq)

/-- E2MUL and E2SQR complete on canonical operands and give the schoolbook product and square in every
class of BETA: with R = 2^256, R²·c0 ≡ R·a0·b0 + β·a1·b1 and R·c1 ≡ a0·b1 + a1·b0 (R313, R314, R318,
R319). -/
def Obligations.Fq2Product : Prop :=
  ∀ (s : State) (rd ra rb : SlotIx), (s.ctx .fq).valid = true →
    s.inRange ra.toNat 2 = true → s.inRange rd.toNat 2 = true → s.Canonical .fq ra.toNat 2 →
    s.cfg.beta.toNat < s.q .fq →
    ∀ product : State → Nat → Nat → Nat → Nat → Prop,
    (product = fun t a0 a1 b0 b1 =>
      t.x rd.toNat < s.q .fq ∧ t.x (rd.toNat + 1) < s.q .fq ∧
      t.x rd.toNat * 2 ^ 512 % s.q .fq =
        (a0 * b0 * 2 ^ 256 + s.cfg.beta.toNat * (a1 * b1)) % s.q .fq ∧
      t.x (rd.toNat + 1) * 2 ^ 256 % s.q .fq = (a0 * b1 + a1 * b0) % s.q .fq) →
    (s.inRange rb.toNat 2 = true → s.Canonical .fq rb.toNat 2 →
      ∃ t, exec (.e2mul rd ra rb) s = .next t ∧ s.Wrote t [(rd.toNat, 2)] ∧
        product t (s.x ra.toNat) (s.x (ra.toNat + 1)) (s.x rb.toNat) (s.x (rb.toNat + 1))) ∧
    (∃ t, exec (.e2sqr rd ra) s = .next t ∧ s.Wrote t [(rd.toNat, 2)] ∧
      product t (s.x ra.toNat) (s.x (ra.toNat + 1)) (s.x ra.toNat) (s.x (ra.toNat + 1)))

/-- E2EQ and E2ISZ complete on canonical operands and write Z alone (R320, R321). -/
def Obligations.Fq2Predicates : Prop :=
  ∀ (s : State) (ra rb : SlotIx), (s.ctx .fq).valid = true →
    s.inRange ra.toNat 2 = true → s.Canonical .fq ra.toNat 2 →
    (s.inRange rb.toNat 2 = true → s.Canonical .fq rb.toNat 2 →
      exec (.e2eq ra rb) s = .next { s with
        cpc := s.cpc + 1
        flags := { s.flags with z := decide (s.x ra.toNat = s.x rb.toNat ∧
          s.x (ra.toNat + 1) = s.x (rb.toNat + 1)) } }) ∧
    exec (.e2isz ra) s = .next { s with
      cpc := s.cpc + 1
      flags := { s.flags with z := decide (s.x ra.toNat = 0 ∧ s.x (ra.toNat + 1) = 0) } }

/-! ## Curve -/

/-- PADD, PADDA, PDBL and PMUL complete on canonical operands and valid points, and leave in slots below q the
representative that JADD, JADDA, JDBL and double-and-add give (R351-R353, R359). For PADD, PADDA and PDBL
the slots meet the equations of the formulas modulo q, every case of them, up to the powers of R = 2^256
that Montgomery form brings in (R345-R348); PMUL is tied to these by GroupLawDegenerateCases. Which points
the model takes for valid: log 7, log 8, log 23. -/
def Obligations.GroupLawCommands : Prop :=
  ∀ (g : Group) (s : State) (rd ra rb : SlotIx), (s.ctx .fq).valid = true →
    s.inRange ra.toNat (jw g) = true → s.inRange rd.toNat (jw g) = true →
    s.Canonical .fq ra.toNat (jw g) → (g = .g2 → s.cfg.beta.toNat < s.q .fq) →
    s.ValidPoint g ra.toNat →
    (s.inRange rb.toNat (jw g) = true → s.Canonical .fq rb.toNat (jw g) → s.ValidPoint g rb.toNat →
      ∃ t, exec (.padd g rd ra rb) s = .next t ∧ s.Wrote t [(rd.toNat, jw g)] ∧
        onGroup g s (fun _ _ K =>
          readJac K t rd.toNat = jadd K (readJac K s ra.toNat) (readJac K s rb.toNat)) ∧
        s.Below t rd.toNat (jw g) ∧
        s.inRing g (fun A _ e =>
          IsSum (2 ^ 256 : A) (jacAt e (coordSlots g) s ra.toNat) (jacAt e (coordSlots g) s rb.toNat)
            (jacAt e (coordSlots g) t rd.toNat))) ∧
    (s.inRange rb.toNat (aw g) = true → s.Canonical .fq rb.toNat (aw g) →
      s.ValidAffine g rb.toNat →
      ∃ t, exec (.padda g rd ra rb) s = .next t ∧ s.Wrote t [(rd.toNat, jw g)] ∧
        onGroup g s (fun _ _ K =>
          readJac K t rd.toNat = jadda K (readJac K s ra.toNat) (readAff K s rb.toNat)) ∧
        s.Below t rd.toNat (jw g) ∧
        s.inRing g (fun A _ e =>
          IsMixedSum (2 ^ 256 : A) (jacAt e (coordSlots g) s ra.toNat)
            (affAt e (coordSlots g) s rb.toNat) (jacAt e (coordSlots g) t rd.toNat))) ∧
    (∃ t, exec (.pdbl g rd ra) s = .next t ∧ s.Wrote t [(rd.toNat, jw g)] ∧
      onGroup g s (fun _ _ K => readJac K t rd.toNat = jdbl K (readJac K s ra.toNat)) ∧
      s.Below t rd.toNat (jw g) ∧
      s.inRing g (fun A _ e =>
        IsDouble (2 ^ 256 : A) (jacAt e (coordSlots g) s ra.toNat)
          (jacAt e (coordSlots g) t rd.toNat))) ∧
    (∀ nb : BitVec 7, 1 ≤ nb.toNat → nb.toNat ≤ 32 → s.inRange rb.toNat 1 = true →
      ∃ t, exec (.pmul g rd ra rb nb) s = .next t ∧ s.Wrote t [(rd.toNat, jw g)] ∧
        s.Below t rd.toNat (jw g) ∧ onGroup g s (fun _ _ K => readJac K t rd.toNat =
          scalarMul K (readJac K s ra.toNat) (s.x rb.toNat) nb.toNat))

/-- PADD, PADDA, PDBL, PMUL, BKTACC, BKTRED and MSM with an input point that is not valid (either operand,
a point or a bucket) complete without fault and leave in every destination slot some value below q,
whatever the free values are; nothing else changes but CPC and the count of draws (R349; which points the
model holds to be valid, which of them are inputs, and that a draw is counted: log 6 to log 9, log 23). -/
def Obligations.OffCurveCommandsComplete : Prop :=
  ∀ (g : Group) (s : State) (rd ra rb desc : SlotIx) (d : Desc) (i : Instr) (dests : List (Nat × Nat)),
    (s.ctx .fq).valid = true → (g = .g2 → s.cfg.beta.toNat < s.q .fq) → d = descriptorOf (s.x desc.toNat) →
    (s.inRange ra.toNat (jw g) = true ∧ s.Canonical .fq ra.toNat (jw g) ∧
      s.inRange rd.toNat (jw g) = true ∧ dests = [(rd.toNat, jw g)] ∧
      ((i = .padd g rd ra rb ∧ s.inRange rb.toNat (jw g) = true ∧ s.Canonical .fq rb.toNat (jw g) ∧
          (¬ s.ValidPoint g ra.toNat ∨ ¬ s.ValidPoint g rb.toNat)) ∨
        (i = .padda g rd ra rb ∧ s.inRange rb.toNat (aw g) = true ∧ s.Canonical .fq rb.toNat (aw g) ∧
          (¬ s.ValidPoint g ra.toNat ∨ ¬ s.ValidAffine g rb.toNat)) ∨
        (¬ s.ValidPoint g ra.toNat ∧
          (i = .pdbl g rd ra ∨
            ∃ nb : BitVec 7, i = .pmul g rd ra rb nb ∧ 1 ≤ nb.toNat ∧ nb.toNat ≤ 32 ∧
              s.inRange rb.toNat 1 = true)))) ∨
    (s.inRange desc.toNat 1 = true ∧ badDescriptor (s.x desc.toNat) = false ∧
      s.inRange d.bb (d.nb * jw g) = true ∧ overlap d.bb (d.nb * jw g) desc.toNat 1 = false ∧
      (((s.inRange d.pb (d.n * aw g) = true ∧ s.inRange d.sb d.n = true ∧
          overlap d.bb (d.nb * jw g) d.pb (d.n * aw g) = false ∧
          overlap d.bb (d.nb * jw g) d.sb d.n = false ∧ s.Canonical .fq d.pb (d.n * aw g)) ∧
        ((∃ w : BitVec 16, i = .bktacc g desc w ∧ w.toNat * d.c < 256 ∧
            dests = [(d.bb, d.nb * jw g)] ∧ s.Canonical .fq d.bb (d.nb * jw g) ∧ 0 < d.n ∧
            ((∃ j, j < d.n ∧ ¬ s.ValidAffine g (d.pb + j * aw g)) ∨
              ∃ b, b < d.nb ∧ ¬ s.ValidPoint g (d.bb + b * jw g))) ∨
          (i = .msm g rd desc ∧ s.inRange rd.toNat (jw g) = true ∧
            dests = [(d.bb, d.nb * jw g), (rd.toNat, jw g)] ∧
            ∃ j, j < d.n ∧ ¬ s.ValidAffine g (d.pb + j * aw g)))) ∨
        (i = .bktred g rd desc ∧ s.inRange rd.toNat (jw g) = true ∧ dests = [(rd.toNat, jw g)] ∧
          s.Canonical .fq d.bb (d.nb * jw g) ∧
          ∃ b, b < d.nb ∧ ¬ s.ValidPoint g (d.bb + b * jw g)))) →
    ∃ t, exec i s = .next t ∧ s.SameOutside t dests ∧
      t = { s with mem := t.mem, cpc := s.cpc + 1, freeCtr := s.freeCtr + 1 } ∧
      ∀ r ∈ dests, ∀ j, j < r.2 → t.x (r.1 + j) < s.q .fq

/-- PNEG and PFROMA complete on canonical operands: (X, −Y, Z) and (x, y, 1), or the canonical infinity
for a point at infinity and for the sentinel (R354, R357, R343). The slots are spelt out, component by
component, `w` components to a coordinate. -/
def Obligations.NegateAndLift : Prop :=
  ∀ (g : Group) (s : State) (rd ra : SlotIx) (w : Nat), w = coordSlots g →
    (s.ctx .fq).valid = true → s.inRange rd.toNat (jw g) = true →
    ∀ infinityAt : State → Prop, (infinityAt = fun t => ∀ j, j < w →
      t.x (rd.toNat + j) = s.oneSlot j ∧ t.x (rd.toNat + w + j) = s.oneSlot j ∧
      t.x (rd.toNat + 2 * w + j) = 0) →
    (s.inRange ra.toNat (jw g) = true → s.Canonical .fq ra.toNat (jw g) →
      ∃ t, exec (.pneg g rd ra) s = .next t ∧ s.Wrote t [(rd.toNat, jw g)] ∧
        onGroup g s (fun _ _ K => readJac K t rd.toNat = jneg K (readJac K s ra.toNat)) ∧
        ((∃ j, j < w ∧ s.x (ra.toNat + 2 * w + j) ≠ 0) → ∀ j, j < w →
          t.x (rd.toNat + j) = s.x (ra.toNat + j) ∧
          t.x (rd.toNat + w + j) = (s.q .fq - s.x (ra.toNat + w + j)) % s.q .fq ∧
          t.x (rd.toNat + 2 * w + j) = s.x (ra.toNat + 2 * w + j)) ∧
        ((∀ j, j < w → s.x (ra.toNat + 2 * w + j) = 0) → infinityAt t)) ∧
    (s.inRange ra.toNat (aw g) = true → s.Canonical .fq ra.toNat (aw g) →
      ∃ t, exec (.pfroma g rd ra) s = .next t ∧ s.Wrote t [(rd.toNat, jw g)] ∧
        onGroup g s (fun _ _ K => readJac K t rd.toNat = fromAffine K (readAff K s ra.toNat)) ∧
        ((∃ j, j < 2 * w ∧ s.x (ra.toNat + j) ≠ 0) → ∀ j, j < w →
          t.x (rd.toNat + j) = s.x (ra.toNat + j) ∧
          t.x (rd.toNat + w + j) = s.x (ra.toNat + w + j) ∧
          t.x (rd.toNat + 2 * w + j) = s.oneSlot j) ∧
        ((∀ j, j < 2 * w → s.x (ra.toNat + j) = 0) → infinityAt t))

/-- PISZ, PONC and PEQ complete on canonical operands of both groups and write T alone (R355, R356,
R358). -/
def Obligations.PointPredicates : Prop :=
  ∀ (g : Group) (s : State) (ra rb : SlotIx), (s.ctx .fq).valid = true →
    s.inRange ra.toNat (jw g) = true → s.Canonical .fq ra.toNat (jw g) →
    exec (.pisz g ra) s = .next { s with
      cpc := s.cpc + 1
      flags := { s.flags with t := onGroup g s (fun _ _ K => atInfinity K (readJac K s ra.toNat)) } } ∧
    ((g = .g2 → s.cfg.beta.toNat < s.q .fq) →
      ((g = .g1 → s.cfg.b1.toNat < s.q .fq) →
        (g = .g2 → s.cfg.b2c0.toNat < s.q .fq ∧ s.cfg.b2c1.toNat < s.q .fq) →
        exec (.ponc g ra) s = .next { s with
          cpc := s.cpc + 1
          flags := { s.flags with
            t := onGroup g s (fun _ _ K => onCurve K (readJac K s ra.toNat)) } }) ∧
      (s.inRange rb.toNat (jw g) = true → s.Canonical .fq rb.toNat (jw g) →
        exec (.peq g ra rb) s = .next { s with
          cpc := s.cpc + 1
          flags := { s.flags with t := onGroup g s (fun _ _ K =>
            pointEq K (readJac K s ra.toNat) (readJac K s rb.toNat)) } }))

/-- In both groups the predicates are equations modulo q: PISZ tests Z = 0; PONC tests Y² = X³ + b·Z⁶ and PEQ
tests X1·Z2² = X2·Z1² and Y1·Z2³ = Y2·Z1³, up to the powers of R = 2^256 that Montgomery form brings in;
in G2 the products are those of Fq[x]/(x² − β), β the value whose Montgomery form BETA holds (R355, R356,
R358, R310). -/
def Obligations.PointPredicatesAreEquations : Prop :=
  ∀ (s : State) (q : Nat), (s.ctx .fq).valid = true → q = s.q .fq →
    (∀ p1 p2 : Jac Nat, p1.x < q → p1.y < q → p1.z < q → p2.x < q → p2.y < q → p2.z < q →
      (atInfinity (g1Field s) p1 = true ↔ p1.z = 0) ∧
      (s.cfg.b1.toNat < q → (onCurve (g1Field s) p1 = true ↔ p1.z = 0 ∨
        p1.y ^ 2 * (2 ^ 256) ^ 5 % q =
          (p1.x ^ 3 * (2 ^ 256) ^ 4 + s.cfg.b1.toNat * p1.z ^ 6) % q)) ∧
      (pointEq (g1Field s) p1 p2 = true ↔ (p1.z = 0 ∧ p2.z = 0) ∨
        (p1.z ≠ 0 ∧ p2.z ≠ 0 ∧ p1.x * p2.z ^ 2 % q = p2.x * p1.z ^ 2 % q ∧
          p1.y * p2.z ^ 3 % q = p2.y * p1.z ^ 3 % q))) ∧
    (∀ (b : Nat) (zero : Fq2) (p1 p2 : Jac Fq2), b * 2 ^ 256 % q = s.cfg.beta.toNat →
      zero = { c0 := 0, c1 := 0 } → p1.x.Below q → p1.y.Below q → p1.z.Below q →
      p2.x.Below q → p2.y.Below q → p2.z.Below q →
      (atInfinity (g2Field s) p1 = true ↔ p1.z = zero) ∧
      (∀ b2 : Fq2, b2 = { c0 := s.cfg.b2c0.toNat, c1 := s.cfg.b2c1.toNat } → b2.Below q →
        (onCurve (g2Field s) p1 = true ↔ p1.z = zero ∨
          Fq2.Congruent q (Fq2.scale ((2 ^ 256) ^ 5) (Fq2.power b p1.y 2))
            (Fq2.plus (Fq2.scale ((2 ^ 256) ^ 4) (Fq2.power b p1.x 3))
              (Fq2.times b b2 (Fq2.power b p1.z 6))))) ∧
      (pointEq (g2Field s) p1 p2 = true ↔ (p1.z = zero ∧ p2.z = zero) ∨
        (p1.z ≠ zero ∧ p2.z ≠ zero ∧
          Fq2.Congruent q (Fq2.times b p1.x (Fq2.power b p2.z 2))
            (Fq2.times b p2.x (Fq2.power b p1.z 2)) ∧
          Fq2.Congruent q (Fq2.times b p1.y (Fq2.power b p2.z 3))
            (Fq2.times b p2.y (Fq2.power b p1.z 3)))))

/-- The degenerate cases of the group law in both groups: a point at infinity on either side gives the
other point, P + P is the double, the double of a point at infinity is the canonical infinity (R346-R348).
PMUL's scalar: bits at 8·nbytes and above are ignored, 0 and a point at infinity give the canonical
infinity, 1 gives Canon(P), 2k gives the double of k·P and 2k + 1 that double plus P (R359, R453). In G1
over a prime field P + (−P) is the canonical infinity. -/
def Obligations.GroupLawDegenerateCases : Prop :=
  ∀ (s : State),
    (∀ g : Group, onGroup g s (fun _ _ K => ∀ (p1 p2 : Jac _) (a : Aff _) (k nb : Nat),
      (p1.z = K.zero → jadd K p1 p2 = canonPoint K p2 ∧ jdbl K p1 = infPoint K ∧
        scalarMul K p1 k nb = infPoint K) ∧
      (p1.z ≠ K.zero → p2.z = K.zero → jadd K p1 p2 = p1) ∧
      jadd K p1 p1 = jdbl K p1 ∧
      (a.x = K.zero → a.y = K.zero → jadda K p1 a = canonPoint K p1) ∧
      (p1.z = K.zero → ¬ (a.x = K.zero ∧ a.y = K.zero) →
        jadda K p1 a = { x := a.x, y := a.y, z := K.one }) ∧
      scalarMul K p1 k nb = scalarMul K p1 (k % 2 ^ (8 * nb)) nb ∧
      scalarMul K p1 0 nb = infPoint K ∧
      (1 ≤ nb → scalarMul K p1 1 nb = canonPoint K p1) ∧
      (2 * k + 1 < 2 ^ (8 * nb) → scalarMul K p1 (2 * k) nb = jdbl K (scalarMul K p1 k nb) ∧
        scalarMul K p1 (2 * k + 1) nb = jadd K (jdbl K (scalarMul K p1 k nb)) p1))) ∧
    ((s.ctx .fq).valid = true → Nat.Prime (s.q .fq) →
      ∀ p : Jac Nat, p.x < s.q .fq → p.y < s.q .fq → p.z < s.q .fq →
        jadd (g1Field s) p (jneg (g1Field s) p) = infPoint (g1Field s))

/-- The group law keeps points on the curve: sums, mixed sums, doubles, negatives and scalar multiples
of points of y² = x³ + b satisfy the equation again, in G1, for every valid context (R344-R348). -/
def Obligations.GroupLawStaysOnCurve : Prop :=
  ∀ (s : State) (p1 p2 : Jac Nat) (a : Aff Nat) (k nb : Nat), (s.ctx .fq).valid = true →
    s.cfg.b1.toNat < s.q .fq →
    p1.x < s.q .fq → p1.y < s.q .fq → p1.z < s.q .fq →
    p2.x < s.q .fq → p2.y < s.q .fq → p2.z < s.q .fq → a.x < s.q .fq → a.y < s.q .fq →
    onCurve (g1Field s) p1 = true →
    onCurve (g1Field s) (jdbl (g1Field s) p1) = true ∧
    onCurve (g1Field s) (jneg (g1Field s) p1) = true ∧
    onCurve (g1Field s) (scalarMul (g1Field s) p1 k nb) = true ∧
    (onCurve (g1Field s) p2 = true → onCurve (g1Field s) (jadd (g1Field s) p1 p2) = true) ∧
    (onCurve (g1Field s) (fromAffine (g1Field s) a) = true →
      onCurve (g1Field s) (jadda (g1Field s) p1 a) = true)

/-- The checks of the nine curve commands, each in its order, with their FAULT_INFO: the context, the ranges
of the sources and of RD, the coordinates of the sources in slot order, then BETA in G2 where the command
reads it, then PONC's curve constant (R350-R359, R455, R457). -/
def Obligations.CurveChecksInOrder : Prop :=
  ∀ (g : Group) (s : State) (rd ra rb : SlotIx),
    s.ChecksInOrder (.padd g rd ra rb) ([s.ctxRow .fq, s.rangeRow ra.toNat (jw g),
      s.rangeRow rb.toNat (jw g), s.rangeRow rd.toNat (jw g)] ++ s.canonRows .fq ra.toNat (jw g) ++
      s.canonRows .fq rb.toNat (jw g) ++ s.betaRows g) ∧
    s.ChecksInOrder (.padda g rd ra rb) ([s.ctxRow .fq, s.rangeRow ra.toNat (jw g),
      s.rangeRow rb.toNat (aw g), s.rangeRow rd.toNat (jw g)] ++ s.canonRows .fq ra.toNat (jw g) ++
      s.canonRows .fq rb.toNat (aw g) ++ s.betaRows g) ∧
    s.ChecksInOrder (.pdbl g rd ra) ([s.ctxRow .fq, s.rangeRow ra.toNat (jw g),
      s.rangeRow rd.toNat (jw g)] ++ s.canonRows .fq ra.toNat (jw g) ++ s.betaRows g) ∧
    s.ChecksInOrder (.pneg g rd ra) ([s.ctxRow .fq, s.rangeRow ra.toNat (jw g),
      s.rangeRow rd.toNat (jw g)] ++ s.canonRows .fq ra.toNat (jw g)) ∧
    s.ChecksInOrder (.pisz g ra) ([s.ctxRow .fq, s.rangeRow ra.toNat (jw g)] ++
      s.canonRows .fq ra.toNat (jw g)) ∧
    s.ChecksInOrder (.ponc g ra) ([s.ctxRow .fq, s.rangeRow ra.toNat (jw g)] ++
      s.canonRows .fq ra.toNat (jw g) ++ s.betaRows g ++ s.constantRows g) ∧
    s.ChecksInOrder (.pfroma g rd ra) ([s.ctxRow .fq, s.rangeRow ra.toNat (aw g),
      s.rangeRow rd.toNat (jw g)] ++ s.canonRows .fq ra.toNat (aw g)) ∧
    s.ChecksInOrder (.peq g ra rb) ([s.ctxRow .fq, s.rangeRow ra.toNat (jw g),
      s.rangeRow rb.toNat (jw g)] ++ s.canonRows .fq ra.toNat (jw g) ++
      s.canonRows .fq rb.toNat (jw g) ++ s.betaRows g) ∧
    (∀ nb : BitVec 7, 1 ≤ nb.toNat → nb.toNat ≤ 32 →
      s.ChecksInOrder (.pmul g rd ra rb nb) ([s.ctxRow .fq, s.rangeRow ra.toNat (jw g),
        s.rangeRow rb.toNat 1, s.rangeRow rd.toNat (jw g)] ++ s.canonRows .fq ra.toNat (jw g) ++
        s.betaRows g))

/-! ## Multi-scalar multiplication -/

/-- BKTCLR completes and leaves every bucket at the canonical infinity, slot by slot (R395, R391, R343). -/
def Obligations.BucketsCleared : Prop :=
  ∀ (g : Group) (s : State) (desc : SlotIx) (d : Desc), d = descriptorOf (s.x desc.toNat) →
    (s.ctx .fq).valid = true → s.inRange desc.toNat 1 = true →
    badDescriptor (s.x desc.toNat) = false → s.inRange d.bb (d.nb * jw g) = true →
    overlap d.bb (d.nb * jw g) desc.toNat 1 = false →
    ∃ t, exec (.bktclr g desc) s = .next t ∧ s.Wrote t [(d.bb, d.nb * jw g)] ∧
      ∀ b, b < d.nb → onGroup g s (fun _ _ K => readJac K t (d.bb + b * jw g) = infPoint K) ∧
        ∀ j, j < coordSlots g →
          t.x (d.bb + b * jw g + j) = s.oneSlot j ∧
          t.x (d.bb + b * jw g + coordSlots g + j) = s.oneSlot j ∧
          t.x (d.bb + b * jw g + 2 * coordSlots g + j) = 0

/-- BKTACC completes on canonical operands and valid points, and every bucket then holds what it held
plus, in the order of i, the points whose chunk of window w selects it (R393, R396); with no point the
buckets need not be valid (log 9). -/
def Obligations.BucketsAccumulate : Prop :=
  ∀ (g : Group) (s : State) (desc : SlotIx) (w : BitVec 16) (d : Desc), d = descriptorOf (s.x desc.toNat) →
    (s.ctx .fq).valid = true → s.inRange desc.toNat 1 = true →
    badDescriptor (s.x desc.toNat) = false → w.toNat * d.c < 256 →
    s.inRange d.pb (d.n * aw g) = true → s.inRange d.sb d.n = true →
    s.inRange d.bb (d.nb * jw g) = true →
    overlap d.bb (d.nb * jw g) desc.toNat 1 = false →
    overlap d.bb (d.nb * jw g) d.pb (d.n * aw g) = false →
    overlap d.bb (d.nb * jw g) d.sb d.n = false →
    s.Canonical .fq d.pb (d.n * aw g) → s.Canonical .fq d.bb (d.nb * jw g) →
    (g = .g2 → s.cfg.beta.toNat < s.q .fq) →
    d.n = 0 ∨ (∀ i, i < d.n → s.ValidAffine g (d.pb + i * aw g)) ∧
      (∀ b, b < d.nb → s.ValidPoint g (d.bb + b * jw g)) →
    ∃ t, exec (.bktacc g desc w) s = .next t ∧ s.Wrote t [(d.bb, d.nb * jw g)] ∧
      ∀ b, b < d.nb → onGroup g s (fun _ _ K => readJac K t (d.bb + b * jw g) =
        bucketFold K d s w.toNat b (readJac K s (d.bb + b * jw g)))

/-- BKTRED completes on canonical, valid buckets and leaves their weighted sum at RD, the buckets
unchanged where RD does not overlap them (R394, R397). -/
def Obligations.BucketsReduce : Prop :=
  ∀ (g : Group) (s : State) (rd desc : SlotIx) (d : Desc), d = descriptorOf (s.x desc.toNat) →
    (s.ctx .fq).valid = true → s.inRange desc.toNat 1 = true → s.inRange rd.toNat (jw g) = true →
    badDescriptor (s.x desc.toNat) = false → s.inRange d.bb (d.nb * jw g) = true →
    overlap d.bb (d.nb * jw g) desc.toNat 1 = false → s.Canonical .fq d.bb (d.nb * jw g) →
    (g = .g2 → s.cfg.beta.toNat < s.q .fq) →
    (∀ b, b < d.nb → s.ValidPoint g (d.bb + b * jw g)) →
    ∃ t, exec (.bktred g rd desc) s = .next t ∧ s.Wrote t [(rd.toNat, jw g)] ∧
      onGroup g s (fun _ _ K => readJac K t rd.toNat =
        bucketSum K d.nb (fun b => readJac K s (d.bb + b * jw g)))

/-- MSM completes on canonical, valid points and leaves at RD the result of the bucket method and, where
RD does not overlap them, in the buckets those of window 0; with no point the result is the canonical
infinity (R398). -/
def Obligations.MultiScalarMultiplication : Prop :=
  ∀ (g : Group) (s : State) (rd desc : SlotIx) (d : Desc), d = descriptorOf (s.x desc.toNat) →
    (s.ctx .fq).valid = true → s.inRange desc.toNat 1 = true → s.inRange rd.toNat (jw g) = true →
    badDescriptor (s.x desc.toNat) = false →
    s.inRange d.pb (d.n * aw g) = true → s.inRange d.sb d.n = true →
    s.inRange d.bb (d.nb * jw g) = true →
    overlap d.bb (d.nb * jw g) desc.toNat 1 = false →
    overlap d.bb (d.nb * jw g) d.pb (d.n * aw g) = false →
    overlap d.bb (d.nb * jw g) d.sb d.n = false →
    s.Canonical .fq d.pb (d.n * aw g) → (g = .g2 → s.cfg.beta.toNat < s.q .fq) →
    (∀ i, i < d.n → s.ValidAffine g (d.pb + i * aw g)) →
    ∃ t, exec (.msm g rd desc) s = .next t ∧
      s.Wrote t [(d.bb, d.nb * jw g), (rd.toNat, jw g)] ∧
      onGroup g s (fun _ _ K => readJac K t rd.toNat = msmValue K d s ∧
        (d.n = 0 → readJac K t rd.toNat = infPoint K) ∧
        ∀ b, b < d.nb → overlap (d.bb + b * jw g) (jw g) rd.toNat (jw g) = false →
          readJac K t (d.bb + b * jw g) = bucketFold K d s 0 b (infPoint K))

/-- The checks of BKTCLR, BKTACC, BKTRED and MSM, each in its order, with their FAULT_INFO, on the fields n,
PB, SB, BB and c of the descriptor: the context, the descriptor slot and RD, the descriptor and BKTACC's
window (w is beyond the last window exactly where w·c is 256 or more), the ranges of the points, the scalars
and the buckets, the overlaps of the buckets with the descriptor, the points and the scalars, the values,
BETA in G2 (R390-R392, R395-R398, R455). -/
def Obligations.DescriptorChecksInOrder : Prop :=
  ∀ (g : Group) (s : State) (rd desc : SlotIx) (w : BitVec 16) (v n pb sb bb c nb : Nat),
    v = s.x desc.toNat → n = v % 2 ^ 64 → pb = v / 2 ^ 64 % 2 ^ 16 → sb = v / 2 ^ 80 % 2 ^ 16 →
    bb = v / 2 ^ 96 % 2 ^ 16 → c = v / 2 ^ 112 % 32 → nb = 2 ^ c - 1 →
    s.ChecksInOrder (.bktclr g desc) [s.ctxRow .fq, s.rangeRow desc.toNat 1,
      s.descriptorRow desc.toNat, s.rangeRow bb (nb * jw g),
      overlapRow bb (nb * jw g) desc.toNat 1] ∧
    s.ChecksInOrder (.bktacc g desc w) ([s.ctxRow .fq, s.rangeRow desc.toNat 1,
      s.descriptorRow desc.toNat,
      { fails := 256 ≤ w.toNat * c, cause := 6, info := desc.setWidth 32 },
      s.rangeRow pb (n * aw g), s.rangeRow sb n, s.rangeRow bb (nb * jw g),
      overlapRow bb (nb * jw g) desc.toNat 1, overlapRow bb (nb * jw g) pb (n * aw g),
      overlapRow bb (nb * jw g) sb n] ++ s.canonRows .fq pb (n * aw g) ++
      s.canonRows .fq bb (nb * jw g) ++ s.betaRows g) ∧
    s.ChecksInOrder (.bktred g rd desc) ([s.ctxRow .fq, s.rangeRow desc.toNat 1,
      s.rangeRow rd.toNat (jw g), s.descriptorRow desc.toNat, s.rangeRow bb (nb * jw g),
      overlapRow bb (nb * jw g) desc.toNat 1] ++ s.canonRows .fq bb (nb * jw g) ++ s.betaRows g) ∧
    s.ChecksInOrder (.msm g rd desc) ([s.ctxRow .fq, s.rangeRow desc.toNat 1,
      s.rangeRow rd.toNat (jw g), s.descriptorRow desc.toNat,
      s.rangeRow pb (n * aw g), s.rangeRow sb n, s.rangeRow bb (nb * jw g),
      overlapRow bb (nb * jw g) desc.toNat 1, overlapRow bb (nb * jw g) pb (n * aw g),
      overlapRow bb (nb * jw g) sb n] ++ s.canonRows .fq pb (n * aw g) ++ s.betaRows g)

/-! ## FFT -/

/-- BFLY completes on canonical operands: with T = w·v·R⁻¹, the upper element becomes u + T and the lower
one u − T modulo q, where the two are one slot the second write wins (R425). -/
def Obligations.ButterflyResult : Prop :=
  ∀ (s : State) (rd ra rb : SlotIx), (s.ctx .fr).valid = true →
    s.inRange rd.toNat 1 = true → s.inRange ra.toNat 1 = true → s.inRange rb.toNat 1 = true →
    s.Canonical .fr rd.toNat 1 → s.Canonical .fr ra.toNat 1 → s.Canonical .fr rb.toNat 1 →
    ∃ t, exec (.bfly rd ra rb) s = .next t ∧ s.Wrote t [(rd.toNat, 1), (ra.toNat, 1)] ∧
      ∃ p, p < s.q .fr ∧ p * 2 ^ 256 % s.q .fr = s.x rb.toNat * s.x ra.toNat % s.q .fr ∧
        (rd ≠ ra → t.x rd.toNat = (s.x rd.toNat + p) % s.q .fr) ∧
        t.x ra.toNat = (s.x rd.toNat + s.q .fr - p) % s.q .fr

/-- Bit `b` of `rev_k(i)` is bit `k - 1 - b` of `i`, and the reversal is an involution (R423). -/
def Obligations.BitReversalOfIndices : Prop :=
  ∀ k i : Nat, i < 2 ^ k → revBits k i < 2 ^ k ∧
    (∀ b, b < k → (revBits k i).testBit b = i.testBit (k - 1 - b)) ∧ revBits k (revBits k i) = i

/-- BITREV completes for every vector in range, whatever it holds, and leaves at index i what stood at
the reversed index (R427). -/
def Obligations.BitReversalPermutes : Prop :=
  ∀ (s : State) (base : SlotIx) (k : BitVec 7), s.inRange base.toNat (2 ^ k.toNat) = true →
    ∃ t, exec (.bitrev base k) s = .next t ∧ s.Wrote t [(base.toNat, 2 ^ k.toNat)] ∧
      ∀ i, i < 2 ^ k.toNat → t.x (base.toNat + i) = s.x (base.toNat + revBits k.toNat i)

/-- FFT and IFFT complete on a canonical vector and table and compute the radix-2 transform of the
vector with the table's twiddles, IFFT times the inverse of the size (R428, R429, R421). -/
def Obligations.TransformsAreRadix2 : Prop :=
  ∀ (s : State) (base : SlotIx) (k : BitVec 7) (n : Nat), n = 2 ^ k.toNat →
    (s.ctx .fr).valid = true → k.toNat ≤ s.cfg.rootMaxlog.toNat →
    s.inRange base.toNat n = true → s.Canonical .fr base.toNat n →
    (s.inRange s.cfg.rootBase.toNat (n - 1) = true →
      overlap base.toNat n s.cfg.rootBase.toNat (n - 1) = false →
      s.Canonical .fr s.cfg.rootBase.toNat (n - 1) →
      ∃ t, exec (.fft base k) s = .next t ∧ s.Wrote t [(base.toNat, n)] ∧
        ∀ i, i < n → t.x (base.toNat + i) =
          radix2 (s.ctx .fr) (fun st j => s.x (s.cfg.rootBase.toNat + 2 ^ st - 1 + j)) k.toNat
            (fun m => s.x (base.toNat + m)) i) ∧
    (s.inRange s.cfg.irootBase.toNat (n - 1) = true →
      overlap base.toNat n s.cfg.irootBase.toNat (n - 1) = false →
      s.Canonical .fr s.cfg.irootBase.toNat (n - 1) →
      ∃ t, exec (.ifft base k) s = .next t ∧ s.Wrote t [(base.toNat, n)] ∧
        ∀ i, i < n → t.x (base.toNat + i) < s.q .fr ∧
          t.x (base.toNat + i) * n % s.q .fr =
            radix2 (s.ctx .fr) (fun st j => s.x (s.cfg.irootBase.toNat + 2 ^ st - 1 + j)) k.toNat
              (fun m => s.x (base.toNat + m)) i)

/-- With the forward table built as R421 asks, FFT leaves in slot base + i the value
Σ_j a_j·ω_k^(i·j) mod q (R430). -/
def Obligations.FftIsTheFourierTransform : Prop :=
  ∀ (s : State) (base : SlotIx) (k : BitVec 7) (n : Nat) (om : Nat → Nat), n = 2 ^ k.toNat →
    (s.ctx .fr).valid = true → k.toNat ≤ s.cfg.rootMaxlog.toNat →
    s.inRange base.toNat n = true → s.Canonical .fr base.toNat n →
    s.inRange s.cfg.rootBase.toNat (n - 1) = true →
    overlap base.toNat n s.cfg.rootBase.toNat (n - 1) = false →
    om 1 = s.q .fr - 1 → (∀ m, 1 ≤ m → m < k.toNat → om (m + 1) ^ 2 % s.q .fr = om m) →
    (∀ st j, st < k.toNat → j < 2 ^ st →
      s.x (s.cfg.rootBase.toNat + 2 ^ st - 1 + j) = om (st + 1) ^ j * 2 ^ 256 % s.q .fr) →
    ∃ t, exec (.fft base k) s = .next t ∧
      ∀ i, i < n → t.x (base.toNat + i) =
        (∑ j ∈ Finset.range n, s.x (base.toNat + j) * om k.toNat ^ (i * j)) % s.q .fr

/-- The checks of BFLY, BITREV, FFT and IFFT, each in its order, with their FAULT_INFO. For the transforms: the
context, the domain, the vector's range, the table's range, their overlap, then the values of the vector and
of the table in slot order (R422, R424, R425, R427-R429, R455). -/
def Obligations.TransformChecksInOrder : Prop :=
  ∀ (s : State) (base rd ra rb : SlotIx) (k : BitVec 7) (n : Nat), n = 2 ^ k.toNat →
    s.ChecksInOrder (.bfly rd ra rb) ([s.ctxRow .fr, s.rangeRow rd.toNat 1, s.rangeRow ra.toNat 1,
      s.rangeRow rb.toNat 1] ++ s.canonRows .fr rd.toNat 1 ++ s.canonRows .fr ra.toNat 1 ++
      s.canonRows .fr rb.toNat 1) ∧
    s.ChecksInOrder (.bitrev base k) [s.rangeRow base.toNat n] ∧
    ∀ (i : Instr) (table : BitVec 16),
      (i, table) ∈ [(Instr.fft base k, s.cfg.rootBase), (Instr.ifft base k, s.cfg.irootBase)] →
      s.ChecksInOrder i ([s.ctxRow .fr,
        { fails := s.cfg.rootMaxlog.toNat < k.toNat, cause := 7, info := k.setWidth 32 },
        s.rangeRow base.toNat n, s.rangeRow table.toNat (n - 1),
        overlapRow base.toNat n table.toNat (n - 1)] ++ s.canonRows .fr base.toNat n ++
        s.canonRows .fr table.toNat (n - 1))

/-! ## The host -/

/-- Every register at its reset value: what the host reads right after a hardware reset (R36, R49,
R501), with the default parameters (log 1). -/
def Obligations.ResetValues : Prop :=
  (∀ p ∈ State.reset.registerTable, p.1 ≠ 0x000 → p.1 ≠ 0x008 → p.2 = 0) ∧
  (0x000, 0x45524F4343444552) ∈ State.reset.registerTable ∧
  (0x008, 0x0000000001010C10) ∈ State.reset.registerTable ∧
  (∀ c, (State.reset.ctx c).valid = false) ∧ State.reset.irq = false

/-- A write of CTRL with SRESET clear, while idle: IRQ_EN takes bit 2, then CLRSTAT clears DONE, FAULT and
HOST_ERR, then START begins a run: CPC from START_PC, DONE, FAULT and the fault registers cleared, BUSY
set (R37, R466). Nothing else changes. -/
def Obligations.ControlWrites : Prop :=
  ∀ (s : State) (v : Limb) (ts : List HostTurn) (st : Status), s.params.legal = true →
    s.status.busy = false → s.inbox = .access (.write (s.params.blockBase + 0x10) 8 v) :: ts →
    v.getLsbD 1 = false →
    st = (if v.getLsbD 3 = true then
      { s.status with done := false, fault := false, hostErr := false } else s.status) →
    (v.getLsbD 0 = true → step s = .next { s with
      inbox := ts
      reply := some .done
      irqEn := v.getLsbD 2
      cpc := s.startPc.setWidth 17
      faultRec := { cause := 0, pc := 0, cmd := 0, info := 0 }
      status := { st with busy := true, done := false, fault := false } }) ∧
    (v.getLsbD 0 = false → step s = .next { s with
      inbox := ts, reply := some .done, irqEn := v.getLsbD 2, status := st })

/-- The soft reset, while idle, puts every CSR at its reset value and leaves OPM and CMDM unchanged
(R502); the hardware reset does so in any state and leaves no byte of OPM and CMDM known (R500; that
the contents are free values, new at each reset, and what becomes of the host's fields: log 3, log 17). -/
def Obligations.Resets : Prop :=
  ∀ (s : State) (ts : List HostTurn), s.params.legal = true →
    (∀ v : Limb, s.status.busy = false →
      s.inbox = .access (.write (s.params.blockBase + 0x10) 8 v) :: ts → v.getLsbD 1 = true →
      ∃ t, step s = .next t ∧ t.mem = s.mem ∧ t.powerOns = s.powerOns ∧ t.inbox = ts ∧
        t.reply = some .done ∧ t.params = s.params ∧
        ∀ p ∈ t.registerTable, p.1 ≠ 0x008 → p ∈ State.reset.registerTable) ∧
    (s.inbox = .blockReset :: ts →
      ∃ t, step s = .next t ∧ t.mem = [] ∧ t.powerOns = s.powerOns + 1 ∧ t.params = s.params ∧
        t.inbox = ts ∧ ∀ p ∈ t.registerTable, p.1 ≠ 0x008 → p ∈ State.reset.registerTable)

/-- The abort, a soft reset while busy: every CSR at its reset value, no fault recorded, and no byte of
memory changed outside the destination slots of the command at CPC, if there is one (R503; what those
slots hold: log 10). -/
def Obligations.AbortedRun : Prop :=
  ∀ (s : State) (v : Limb) (ts : List HostTurn), s.params.legal = true → s.status.busy = true →
    s.status.fault = false →
    s.inbox = .access (.write (s.params.blockBase + 0x10) 8 v) :: ts → v.getLsbD 1 = true →
    ∃ t, step s = .next t ∧ t.inbox = ts ∧ t.params = s.params ∧ t.powerOns = s.powerOns ∧
      (∀ p ∈ t.registerTable, p.1 ≠ 0x008 → p ∈ State.reset.registerTable) ∧
      (∀ i, decode (s.command s.cpc.toNat) = .ok i → s.SameOutside t (destRanges i s)) ∧
      (∀ e, decode (s.command s.cpc.toNat) = .error e → s.SameOutside t [])

/-- While busy the host's accesses of OPM and CMDM and its writes of RW-idle registers and of CTRL
without SRESET are refused: a read returns 0, HOST_ERR is set, nothing else changes (R88, R89, R37). -/
def Obligations.BusyEngineRefusesTheHost : Prop :=
  ∀ (s t : State) (off : Nat) (v : Limb) (ts : List HostTurn), s.params.legal = true →
    s.status.busy = true → off % 8 = 0 →
    t = { s with inbox := ts, status := { s.status with hostErr := true } } →
    ((0x80000 ≤ off ∧ off < 0x80000 + 8 * s.params.cmdmWords) ∨
        (0x200000 ≤ off ∧ off < 0x200000 + 32 * s.params.opmSlots) →
      (s.inbox = .access (.read (s.params.blockBase + off) 8) :: ts →
        step s = .next { t with reply := some (.data 0) }) ∧
      (s.inbox = .access (.write (s.params.blockBase + off) 8 v) :: ts →
        step s = .next { t with reply := some .done })) ∧
    (∀ value, (off, value) ∈ s.registerTable → off ∉ readOnlyOffsets →
      (off = 0x010 → v.getLsbD 1 = false) →
      s.inbox = .access (.write (s.params.blockBase + off) 8 v) :: ts →
      step s = .next { t with reply := some .done })

/-- A host access of a size other than 8, at an offset that is no multiple of 8, or at an unmapped or
unpopulated offset gets a bus error and changes no state; a reserved CSR offset reads 0 and ignores
writes, in every state (R84, R85). That the bus error stands, without HOST_ERR, while the engine is busy
too is the model's choice (log 22). -/
def Obligations.BusErrorsChangeNothing : Prop :=
  ∀ (s : State) (off size : Nat) (v : Limb) (ts : List HostTurn) (a : HostAccess),
    s.params.legal = true → s.inbox = .access a :: ts → off < 0x400000 →
    (a = .read (s.params.blockBase + off) size ∨ a = .write (s.params.blockBase + off) size v →
      size ≠ 8 ∨ off % 8 ≠ 0 ∨ (0x1000 ≤ off ∧ off < 0x80000) ∨
        (0x80000 + 8 * s.params.cmdmWords ≤ off ∧ off < 0x200000) ∨
        0x200000 + 32 * s.params.opmSlots ≤ off →
      step s = .next { s with inbox := ts, reply := some .busError }) ∧
    (off < 0x1000 → off % 8 = 0 → (∀ value, (off, value) ∉ s.registerTable) →
      (a = .read (s.params.blockBase + off) 8 →
        step s = .next { s with inbox := ts, reply := some (.data 0) }) ∧
      (a = .write (s.params.blockBase + off) 8 v →
        step s = .next { s with inbox := ts, reply := some .done }))

/-- While idle the host reads and writes limb j of slot i at BLOCK_BASE + 0x200000 + 32·i + 8·j and command
word i at BLOCK_BASE + 0x080000 + 8·i; a read changes nothing, a write no other byte (R81-R83, R87, R88). A
bus address outside the 4 MiB from BLOCK_BASE on is not the block's: nothing of it changes, busy or not (that
the model takes such an access and answers nothing: log 14). -/
def Obligations.HostAccessesMemory : Prop :=
  ∀ (s : State) (off : Nat) (v : Limb) (ts : List HostTurn), s.params.legal = true →
    (s.status.busy = false →
      (∀ i j, i < s.params.opmSlots → j < 4 → off = 0x200000 + 32 * i + 8 * j →
        (s.inbox = .access (.read (s.params.blockBase + off) 8) :: ts → step s = .next { s with
          inbox := ts, reply := some (.data (BitVec.ofNat 64 (s.x i / 2 ^ (64 * j)))) }) ∧
        (s.inbox = .access (.write (s.params.blockBase + off) 8 v) :: ts →
          ∃ t, step s = .next t ∧ t = { s with mem := t.mem, inbox := ts, reply := some .done } ∧
            (∀ a, a < off ∨ off + 8 ≤ a → t.byteAt a = s.byteAt a) ∧
            t.x i / 2 ^ (64 * j) % 2 ^ 64 = v.toNat ∧
            ∀ j', j' < 4 → j' ≠ j → t.x i / 2 ^ (64 * j') % 2 ^ 64 = s.x i / 2 ^ (64 * j') % 2 ^ 64)) ∧
      (∀ i, i < s.params.cmdmWords → off = 0x80000 + 8 * i →
        (s.inbox = .access (.read (s.params.blockBase + off) 8) :: ts →
          step s = .next { s with inbox := ts, reply := some (.data (s.command i)) }) ∧
        (s.inbox = .access (.write (s.params.blockBase + off) 8 v) :: ts →
          ∃ t, step s = .next t ∧ t = { s with mem := t.mem, inbox := ts, reply := some .done } ∧
            (∀ a, a < off ∨ off + 8 ≤ a → t.byteAt a = s.byteAt a) ∧ t.command i = v))) ∧
    (∀ addr size : Nat, addr < s.params.blockBase ∨ s.params.blockBase + 0x400000 ≤ addr →
      s.inbox = .access (.read addr size) :: ts ∨ s.inbox = .access (.write addr size v) :: ts →
      step s = .next { s with inbox := ts, reply := none })

/-- In every state, busy or idle, a read of a register's offset answers the value that R36, R37 and R43 give
the register there and changes nothing else, and a write of a read-only register changes nothing (R87, R89,
R90); `csrRead` is that value. While idle a RW-idle register but CTRL takes what was written, cut to its
width, and no other register changes but BETA_CLASS, which follows BETA and CTX0 (R36, R43, R89). -/
def Obligations.RegistersReadBack : Prop :=
  ∀ (s : State) (off : Nat) (v : Limb) (ts : List HostTurn), s.params.legal = true →
    (s.inbox = .access (.read (s.params.blockBase + off) 8) :: ts →
      (∀ value : Nat, (off, value) ∈ s.registerTable →
        step s = .next { s with inbox := ts, reply := some (.data (BitVec.ofNat 64 value)) }) ∧
      (∀ r, csrAt off = some r →
        step s = .next { s with inbox := ts, reply := some (.data (csrRead s r)) })) ∧
    (s.inbox = .access (.write (s.params.blockBase + off) 8 v) :: ts →
      (off ∈ readOnlyOffsets → step s = .next { s with inbox := ts, reply := some .done }) ∧
      (s.status.busy = false → ∀ value : Nat, (off, value) ∈ s.registerTable → off ∉ readOnlyOffsets →
        off ≠ 0x010 →
        ∃ t, step s = .next t ∧
          t = { s with
            startPc := t.startPc
            flags := t.flags
            lcnt := t.lcnt
            cfg := t.cfg
            inbox := ts
            reply := some .done } ∧
          (off, v.toNat % 2 ^ writtenBits off) ∈ t.registerTable ∧
          ∀ p ∈ s.registerTable, p.1 ≠ off → p.1 ≠ 0x078 → p ∈ t.registerTable))

/-- The interrupt output is IRQ_EN and (DONE or FAULT), and STATUS reads BUSY, DONE, FAULT, HOST_ERR and
IRQ in bits 0 to 4 and 0 above (R38, R470). -/
def Obligations.StatusAndInterrupt : Prop :=
  ∀ s : State, (s.irq = true ↔ s.irqEn = true ∧ (s.status.done = true ∨ s.status.fault = true)) ∧
    (csrRead s .status).toNat = s.status.busy.toNat + 2 * s.status.done.toNat +
      4 * s.status.fault.toNat + 8 * s.status.hostErr.toNat + 16 * s.irq.toNat

end Statements
end

