-- ==== Sys2Proof/Laws/State.lean ====
section
/-! SUPPORT. What each update of State leaves in each field: one lemma per field per update. -/

namespace Sys2Proof.Machine

variable (s : State)

/-! ### setMem -/

@[simp] theorem State.setMem_params (m : Memory) : (s.setMem m).params = s.params := rfl
@[simp] theorem State.setMem_mem (m : Memory) : (s.setMem m).mem = m := rfl
@[simp] theorem State.setMem_cpc (m : Memory) : (s.setMem m).cpc = s.cpc := rfl
@[simp] theorem State.setMem_startPc (m : Memory) : (s.setMem m).startPc = s.startPc := rfl
@[simp] theorem State.setMem_lcnt (m : Memory) : (s.setMem m).lcnt = s.lcnt := rfl
@[simp] theorem State.setMem_flags (m : Memory) : (s.setMem m).flags = s.flags := rfl
@[simp] theorem State.setMem_status (m : Memory) : (s.setMem m).status = s.status := rfl
@[simp] theorem State.setMem_irqEn (m : Memory) : (s.setMem m).irqEn = s.irqEn := rfl
@[simp] theorem State.setMem_faultRec (m : Memory) : (s.setMem m).faultRec = s.faultRec := rfl
@[simp] theorem State.setMem_cfg (m : Memory) : (s.setMem m).cfg = s.cfg := rfl
@[simp] theorem State.setMem_inbox (m : Memory) : (s.setMem m).inbox = s.inbox := rfl
@[simp] theorem State.setMem_reply (m : Memory) : (s.setMem m).reply = s.reply := rfl
@[simp] theorem State.setMem_powerOns (m : Memory) : (s.setMem m).powerOns = s.powerOns := rfl
@[simp] theorem State.setMem_freeCtr (m : Memory) : (s.setMem m).freeCtr = s.freeCtr := rfl

/-! ### goto -/

@[simp] theorem State.goto_params (v : BitVec 17) : (s.goto v).params = s.params := rfl
@[simp] theorem State.goto_mem (v : BitVec 17) : (s.goto v).mem = s.mem := rfl
@[simp] theorem State.goto_cpc (v : BitVec 17) : (s.goto v).cpc = v := rfl
@[simp] theorem State.goto_startPc (v : BitVec 17) : (s.goto v).startPc = s.startPc := rfl
@[simp] theorem State.goto_lcnt (v : BitVec 17) : (s.goto v).lcnt = s.lcnt := rfl
@[simp] theorem State.goto_flags (v : BitVec 17) : (s.goto v).flags = s.flags := rfl
@[simp] theorem State.goto_status (v : BitVec 17) : (s.goto v).status = s.status := rfl
@[simp] theorem State.goto_irqEn (v : BitVec 17) : (s.goto v).irqEn = s.irqEn := rfl
@[simp] theorem State.goto_faultRec (v : BitVec 17) : (s.goto v).faultRec = s.faultRec := rfl
@[simp] theorem State.goto_cfg (v : BitVec 17) : (s.goto v).cfg = s.cfg := rfl
@[simp] theorem State.goto_inbox (v : BitVec 17) : (s.goto v).inbox = s.inbox := rfl
@[simp] theorem State.goto_reply (v : BitVec 17) : (s.goto v).reply = s.reply := rfl
@[simp] theorem State.goto_powerOns (v : BitVec 17) : (s.goto v).powerOns = s.powerOns := rfl
@[simp] theorem State.goto_freeCtr (v : BitVec 17) : (s.goto v).freeCtr = s.freeCtr := rfl

/-! ### setLcnt -/

@[simp] theorem State.setLcnt_params (v : BitVec 16) : (s.setLcnt v).params = s.params := rfl
@[simp] theorem State.setLcnt_mem (v : BitVec 16) : (s.setLcnt v).mem = s.mem := rfl
@[simp] theorem State.setLcnt_cpc (v : BitVec 16) : (s.setLcnt v).cpc = s.cpc := rfl
@[simp] theorem State.setLcnt_startPc (v : BitVec 16) : (s.setLcnt v).startPc = s.startPc := rfl
@[simp] theorem State.setLcnt_lcnt (v : BitVec 16) : (s.setLcnt v).lcnt = v := rfl
@[simp] theorem State.setLcnt_flags (v : BitVec 16) : (s.setLcnt v).flags = s.flags := rfl
@[simp] theorem State.setLcnt_status (v : BitVec 16) : (s.setLcnt v).status = s.status := rfl
@[simp] theorem State.setLcnt_irqEn (v : BitVec 16) : (s.setLcnt v).irqEn = s.irqEn := rfl
@[simp] theorem State.setLcnt_faultRec (v : BitVec 16) :
    (s.setLcnt v).faultRec = s.faultRec := rfl
@[simp] theorem State.setLcnt_cfg (v : BitVec 16) : (s.setLcnt v).cfg = s.cfg := rfl
@[simp] theorem State.setLcnt_inbox (v : BitVec 16) : (s.setLcnt v).inbox = s.inbox := rfl
@[simp] theorem State.setLcnt_reply (v : BitVec 16) : (s.setLcnt v).reply = s.reply := rfl
@[simp] theorem State.setLcnt_powerOns (v : BitVec 16) :
    (s.setLcnt v).powerOns = s.powerOns := rfl
@[simp] theorem State.setLcnt_freeCtr (v : BitVec 16) : (s.setLcnt v).freeCtr = s.freeCtr := rfl

/-! ### setFlags -/

@[simp] theorem State.setFlags_params (f : Flags) : (s.setFlags f).params = s.params := rfl
@[simp] theorem State.setFlags_mem (f : Flags) : (s.setFlags f).mem = s.mem := rfl
@[simp] theorem State.setFlags_cpc (f : Flags) : (s.setFlags f).cpc = s.cpc := rfl
@[simp] theorem State.setFlags_startPc (f : Flags) : (s.setFlags f).startPc = s.startPc := rfl
@[simp] theorem State.setFlags_lcnt (f : Flags) : (s.setFlags f).lcnt = s.lcnt := rfl
@[simp] theorem State.setFlags_flags (f : Flags) : (s.setFlags f).flags = f := rfl
@[simp] theorem State.setFlags_status (f : Flags) : (s.setFlags f).status = s.status := rfl
@[simp] theorem State.setFlags_irqEn (f : Flags) : (s.setFlags f).irqEn = s.irqEn := rfl
@[simp] theorem State.setFlags_faultRec (f : Flags) : (s.setFlags f).faultRec = s.faultRec := rfl
@[simp] theorem State.setFlags_cfg (f : Flags) : (s.setFlags f).cfg = s.cfg := rfl
@[simp] theorem State.setFlags_inbox (f : Flags) : (s.setFlags f).inbox = s.inbox := rfl
@[simp] theorem State.setFlags_reply (f : Flags) : (s.setFlags f).reply = s.reply := rfl
@[simp] theorem State.setFlags_powerOns (f : Flags) : (s.setFlags f).powerOns = s.powerOns := rfl
@[simp] theorem State.setFlags_freeCtr (f : Flags) : (s.setFlags f).freeCtr = s.freeCtr := rfl

/-! ### setStatus -/

@[simp] theorem State.setStatus_params (t : Status) : (s.setStatus t).params = s.params := rfl
@[simp] theorem State.setStatus_mem (t : Status) : (s.setStatus t).mem = s.mem := rfl
@[simp] theorem State.setStatus_cpc (t : Status) : (s.setStatus t).cpc = s.cpc := rfl
@[simp] theorem State.setStatus_startPc (t : Status) : (s.setStatus t).startPc = s.startPc := rfl
@[simp] theorem State.setStatus_lcnt (t : Status) : (s.setStatus t).lcnt = s.lcnt := rfl
@[simp] theorem State.setStatus_flags (t : Status) : (s.setStatus t).flags = s.flags := rfl
@[simp] theorem State.setStatus_status (t : Status) : (s.setStatus t).status = t := rfl
@[simp] theorem State.setStatus_irqEn (t : Status) : (s.setStatus t).irqEn = s.irqEn := rfl
@[simp] theorem State.setStatus_faultRec (t : Status) :
    (s.setStatus t).faultRec = s.faultRec := rfl
@[simp] theorem State.setStatus_cfg (t : Status) : (s.setStatus t).cfg = s.cfg := rfl
@[simp] theorem State.setStatus_inbox (t : Status) : (s.setStatus t).inbox = s.inbox := rfl
@[simp] theorem State.setStatus_reply (t : Status) : (s.setStatus t).reply = s.reply := rfl
@[simp] theorem State.setStatus_powerOns (t : Status) :
    (s.setStatus t).powerOns = s.powerOns := rfl
@[simp] theorem State.setStatus_freeCtr (t : Status) : (s.setStatus t).freeCtr = s.freeCtr := rfl

/-! ### setIrqEn -/

@[simp] theorem State.setIrqEn_params (b : Bool) : (s.setIrqEn b).params = s.params := rfl
@[simp] theorem State.setIrqEn_mem (b : Bool) : (s.setIrqEn b).mem = s.mem := rfl
@[simp] theorem State.setIrqEn_cpc (b : Bool) : (s.setIrqEn b).cpc = s.cpc := rfl
@[simp] theorem State.setIrqEn_startPc (b : Bool) : (s.setIrqEn b).startPc = s.startPc := rfl
@[simp] theorem State.setIrqEn_lcnt (b : Bool) : (s.setIrqEn b).lcnt = s.lcnt := rfl
@[simp] theorem State.setIrqEn_flags (b : Bool) : (s.setIrqEn b).flags = s.flags := rfl
@[simp] theorem State.setIrqEn_status (b : Bool) : (s.setIrqEn b).status = s.status := rfl
@[simp] theorem State.setIrqEn_irqEn (b : Bool) : (s.setIrqEn b).irqEn = b := rfl
@[simp] theorem State.setIrqEn_faultRec (b : Bool) : (s.setIrqEn b).faultRec = s.faultRec := rfl
@[simp] theorem State.setIrqEn_cfg (b : Bool) : (s.setIrqEn b).cfg = s.cfg := rfl
@[simp] theorem State.setIrqEn_inbox (b : Bool) : (s.setIrqEn b).inbox = s.inbox := rfl
@[simp] theorem State.setIrqEn_reply (b : Bool) : (s.setIrqEn b).reply = s.reply := rfl
@[simp] theorem State.setIrqEn_powerOns (b : Bool) : (s.setIrqEn b).powerOns = s.powerOns := rfl
@[simp] theorem State.setIrqEn_freeCtr (b : Bool) : (s.setIrqEn b).freeCtr = s.freeCtr := rfl

/-! ### setFaultRec -/

@[simp] theorem State.setFaultRec_params (r : FaultRecord) :
    (s.setFaultRec r).params = s.params := rfl
@[simp] theorem State.setFaultRec_mem (r : FaultRecord) : (s.setFaultRec r).mem = s.mem := rfl
@[simp] theorem State.setFaultRec_cpc (r : FaultRecord) : (s.setFaultRec r).cpc = s.cpc := rfl
@[simp] theorem State.setFaultRec_startPc (r : FaultRecord) :
    (s.setFaultRec r).startPc = s.startPc := rfl
@[simp] theorem State.setFaultRec_lcnt (r : FaultRecord) : (s.setFaultRec r).lcnt = s.lcnt := rfl
@[simp] theorem State.setFaultRec_flags (r : FaultRecord) :
    (s.setFaultRec r).flags = s.flags := rfl
@[simp] theorem State.setFaultRec_status (r : FaultRecord) :
    (s.setFaultRec r).status = s.status := rfl
@[simp] theorem State.setFaultRec_irqEn (r : FaultRecord) :
    (s.setFaultRec r).irqEn = s.irqEn := rfl
@[simp] theorem State.setFaultRec_faultRec (r : FaultRecord) :
    (s.setFaultRec r).faultRec = r := rfl
@[simp] theorem State.setFaultRec_cfg (r : FaultRecord) : (s.setFaultRec r).cfg = s.cfg := rfl
@[simp] theorem State.setFaultRec_inbox (r : FaultRecord) :
    (s.setFaultRec r).inbox = s.inbox := rfl
@[simp] theorem State.setFaultRec_reply (r : FaultRecord) :
    (s.setFaultRec r).reply = s.reply := rfl
@[simp] theorem State.setFaultRec_powerOns (r : FaultRecord) :
    (s.setFaultRec r).powerOns = s.powerOns := rfl
@[simp] theorem State.setFaultRec_freeCtr (r : FaultRecord) :
    (s.setFaultRec r).freeCtr = s.freeCtr := rfl

/-! ### setStartPc -/

@[simp] theorem State.setStartPc_params (v : BitVec 16) :
    (s.setStartPc v).params = s.params := rfl
@[simp] theorem State.setStartPc_mem (v : BitVec 16) : (s.setStartPc v).mem = s.mem := rfl
@[simp] theorem State.setStartPc_cpc (v : BitVec 16) : (s.setStartPc v).cpc = s.cpc := rfl
@[simp] theorem State.setStartPc_startPc (v : BitVec 16) : (s.setStartPc v).startPc = v := rfl
@[simp] theorem State.setStartPc_lcnt (v : BitVec 16) : (s.setStartPc v).lcnt = s.lcnt := rfl
@[simp] theorem State.setStartPc_flags (v : BitVec 16) : (s.setStartPc v).flags = s.flags := rfl
@[simp] theorem State.setStartPc_status (v : BitVec 16) :
    (s.setStartPc v).status = s.status := rfl
@[simp] theorem State.setStartPc_irqEn (v : BitVec 16) : (s.setStartPc v).irqEn = s.irqEn := rfl
@[simp] theorem State.setStartPc_faultRec (v : BitVec 16) :
    (s.setStartPc v).faultRec = s.faultRec := rfl
@[simp] theorem State.setStartPc_cfg (v : BitVec 16) : (s.setStartPc v).cfg = s.cfg := rfl
@[simp] theorem State.setStartPc_inbox (v : BitVec 16) : (s.setStartPc v).inbox = s.inbox := rfl
@[simp] theorem State.setStartPc_reply (v : BitVec 16) : (s.setStartPc v).reply = s.reply := rfl
@[simp] theorem State.setStartPc_powerOns (v : BitVec 16) :
    (s.setStartPc v).powerOns = s.powerOns := rfl
@[simp] theorem State.setStartPc_freeCtr (v : BitVec 16) :
    (s.setStartPc v).freeCtr = s.freeCtr := rfl

/-! ### setCfg -/

@[simp] theorem State.setCfg_params (c : ConfigRegs) : (s.setCfg c).params = s.params := rfl
@[simp] theorem State.setCfg_mem (c : ConfigRegs) : (s.setCfg c).mem = s.mem := rfl
@[simp] theorem State.setCfg_cpc (c : ConfigRegs) : (s.setCfg c).cpc = s.cpc := rfl
@[simp] theorem State.setCfg_startPc (c : ConfigRegs) : (s.setCfg c).startPc = s.startPc := rfl
@[simp] theorem State.setCfg_lcnt (c : ConfigRegs) : (s.setCfg c).lcnt = s.lcnt := rfl
@[simp] theorem State.setCfg_flags (c : ConfigRegs) : (s.setCfg c).flags = s.flags := rfl
@[simp] theorem State.setCfg_status (c : ConfigRegs) : (s.setCfg c).status = s.status := rfl
@[simp] theorem State.setCfg_irqEn (c : ConfigRegs) : (s.setCfg c).irqEn = s.irqEn := rfl
@[simp] theorem State.setCfg_faultRec (c : ConfigRegs) : (s.setCfg c).faultRec = s.faultRec := rfl
@[simp] theorem State.setCfg_cfg (c : ConfigRegs) : (s.setCfg c).cfg = c := rfl
@[simp] theorem State.setCfg_inbox (c : ConfigRegs) : (s.setCfg c).inbox = s.inbox := rfl
@[simp] theorem State.setCfg_reply (c : ConfigRegs) : (s.setCfg c).reply = s.reply := rfl
@[simp] theorem State.setCfg_powerOns (c : ConfigRegs) : (s.setCfg c).powerOns = s.powerOns := rfl
@[simp] theorem State.setCfg_freeCtr (c : ConfigRegs) : (s.setCfg c).freeCtr = s.freeCtr := rfl

/-! ### setInbox -/

@[simp] theorem State.setInbox_params (ts : List HostTurn) :
    (s.setInbox ts).params = s.params := rfl
@[simp] theorem State.setInbox_mem (ts : List HostTurn) : (s.setInbox ts).mem = s.mem := rfl
@[simp] theorem State.setInbox_cpc (ts : List HostTurn) : (s.setInbox ts).cpc = s.cpc := rfl
@[simp] theorem State.setInbox_startPc (ts : List HostTurn) :
    (s.setInbox ts).startPc = s.startPc := rfl
@[simp] theorem State.setInbox_lcnt (ts : List HostTurn) : (s.setInbox ts).lcnt = s.lcnt := rfl
@[simp] theorem State.setInbox_flags (ts : List HostTurn) : (s.setInbox ts).flags = s.flags := rfl
@[simp] theorem State.setInbox_status (ts : List HostTurn) :
    (s.setInbox ts).status = s.status := rfl
@[simp] theorem State.setInbox_irqEn (ts : List HostTurn) : (s.setInbox ts).irqEn = s.irqEn := rfl
@[simp] theorem State.setInbox_faultRec (ts : List HostTurn) :
    (s.setInbox ts).faultRec = s.faultRec := rfl
@[simp] theorem State.setInbox_cfg (ts : List HostTurn) : (s.setInbox ts).cfg = s.cfg := rfl
@[simp] theorem State.setInbox_inbox (ts : List HostTurn) : (s.setInbox ts).inbox = ts := rfl
@[simp] theorem State.setInbox_reply (ts : List HostTurn) : (s.setInbox ts).reply = s.reply := rfl
@[simp] theorem State.setInbox_powerOns (ts : List HostTurn) :
    (s.setInbox ts).powerOns = s.powerOns := rfl
@[simp] theorem State.setInbox_freeCtr (ts : List HostTurn) :
    (s.setInbox ts).freeCtr = s.freeCtr := rfl

/-! ### setReply -/

@[simp] theorem State.setReply_params (r : Option HostReply) :
    (s.setReply r).params = s.params := rfl
@[simp] theorem State.setReply_mem (r : Option HostReply) : (s.setReply r).mem = s.mem := rfl
@[simp] theorem State.setReply_cpc (r : Option HostReply) : (s.setReply r).cpc = s.cpc := rfl
@[simp] theorem State.setReply_startPc (r : Option HostReply) :
    (s.setReply r).startPc = s.startPc := rfl
@[simp] theorem State.setReply_lcnt (r : Option HostReply) : (s.setReply r).lcnt = s.lcnt := rfl
@[simp] theorem State.setReply_flags (r : Option HostReply) :
    (s.setReply r).flags = s.flags := rfl
@[simp] theorem State.setReply_status (r : Option HostReply) :
    (s.setReply r).status = s.status := rfl
@[simp] theorem State.setReply_irqEn (r : Option HostReply) :
    (s.setReply r).irqEn = s.irqEn := rfl
@[simp] theorem State.setReply_faultRec (r : Option HostReply) :
    (s.setReply r).faultRec = s.faultRec := rfl
@[simp] theorem State.setReply_cfg (r : Option HostReply) : (s.setReply r).cfg = s.cfg := rfl
@[simp] theorem State.setReply_inbox (r : Option HostReply) :
    (s.setReply r).inbox = s.inbox := rfl
@[simp] theorem State.setReply_reply (r : Option HostReply) : (s.setReply r).reply = r := rfl
@[simp] theorem State.setReply_powerOns (r : Option HostReply) :
    (s.setReply r).powerOns = s.powerOns := rfl
@[simp] theorem State.setReply_freeCtr (r : Option HostReply) :
    (s.setReply r).freeCtr = s.freeCtr := rfl

/-! ### countDraw -/

@[simp] theorem State.countDraw_params : (s.countDraw).params = s.params := rfl
@[simp] theorem State.countDraw_mem : (s.countDraw).mem = s.mem := rfl
@[simp] theorem State.countDraw_cpc : (s.countDraw).cpc = s.cpc := rfl
@[simp] theorem State.countDraw_startPc : (s.countDraw).startPc = s.startPc := rfl
@[simp] theorem State.countDraw_lcnt : (s.countDraw).lcnt = s.lcnt := rfl
@[simp] theorem State.countDraw_flags : (s.countDraw).flags = s.flags := rfl
@[simp] theorem State.countDraw_status : (s.countDraw).status = s.status := rfl
@[simp] theorem State.countDraw_irqEn : (s.countDraw).irqEn = s.irqEn := rfl
@[simp] theorem State.countDraw_faultRec : (s.countDraw).faultRec = s.faultRec := rfl
@[simp] theorem State.countDraw_cfg : (s.countDraw).cfg = s.cfg := rfl
@[simp] theorem State.countDraw_inbox : (s.countDraw).inbox = s.inbox := rfl
@[simp] theorem State.countDraw_reply : (s.countDraw).reply = s.reply := rfl
@[simp] theorem State.countDraw_powerOns : (s.countDraw).powerOns = s.powerOns := rfl
@[simp] theorem State.countDraw_freeCtr : (s.countDraw).freeCtr = s.freeCtr + 1 := rfl

/-! ### setBytes -/

@[simp] theorem State.setBytes_params (a : Nat) (bs : List Byte) :
    (s.setBytes a bs).params = s.params := rfl
@[simp] theorem State.setBytes_mem (a : Nat) (bs : List Byte) :
    (s.setBytes a bs).mem = s.mem.writeBytes a bs := rfl
@[simp] theorem State.setBytes_cpc (a : Nat) (bs : List Byte) :
    (s.setBytes a bs).cpc = s.cpc := rfl
@[simp] theorem State.setBytes_startPc (a : Nat) (bs : List Byte) :
    (s.setBytes a bs).startPc = s.startPc := rfl
@[simp] theorem State.setBytes_lcnt (a : Nat) (bs : List Byte) :
    (s.setBytes a bs).lcnt = s.lcnt := rfl
@[simp] theorem State.setBytes_flags (a : Nat) (bs : List Byte) :
    (s.setBytes a bs).flags = s.flags := rfl
@[simp] theorem State.setBytes_status (a : Nat) (bs : List Byte) :
    (s.setBytes a bs).status = s.status := rfl
@[simp] theorem State.setBytes_irqEn (a : Nat) (bs : List Byte) :
    (s.setBytes a bs).irqEn = s.irqEn := rfl
@[simp] theorem State.setBytes_faultRec (a : Nat) (bs : List Byte) :
    (s.setBytes a bs).faultRec = s.faultRec := rfl
@[simp] theorem State.setBytes_cfg (a : Nat) (bs : List Byte) :
    (s.setBytes a bs).cfg = s.cfg := rfl
@[simp] theorem State.setBytes_inbox (a : Nat) (bs : List Byte) :
    (s.setBytes a bs).inbox = s.inbox := rfl
@[simp] theorem State.setBytes_reply (a : Nat) (bs : List Byte) :
    (s.setBytes a bs).reply = s.reply := rfl
@[simp] theorem State.setBytes_powerOns (a : Nat) (bs : List Byte) :
    (s.setBytes a bs).powerOns = s.powerOns := rfl
@[simp] theorem State.setBytes_freeCtr (a : Nat) (bs : List Byte) :
    (s.setBytes a bs).freeCtr = s.freeCtr := rfl

/-! ### setSlot -/

@[simp] theorem State.setSlot_params (i : Nat) (v : Word256) :
    (s.setSlot i v).params = s.params := by rw [State.setSlot, State.setBytes_params]
@[simp] theorem State.setSlot_mem (i : Nat) (v : Word256) :
    (s.setSlot i v).mem = s.mem.writeBytes (slotOffset i) (leBytes 32 v.toNat) := by rw [State.setSlot, State.setBytes_mem]
@[simp] theorem State.setSlot_cpc (i : Nat) (v : Word256) :
    (s.setSlot i v).cpc = s.cpc := by rw [State.setSlot, State.setBytes_cpc]
@[simp] theorem State.setSlot_startPc (i : Nat) (v : Word256) :
    (s.setSlot i v).startPc = s.startPc := by rw [State.setSlot, State.setBytes_startPc]
@[simp] theorem State.setSlot_lcnt (i : Nat) (v : Word256) :
    (s.setSlot i v).lcnt = s.lcnt := by rw [State.setSlot, State.setBytes_lcnt]
@[simp] theorem State.setSlot_flags (i : Nat) (v : Word256) :
    (s.setSlot i v).flags = s.flags := by rw [State.setSlot, State.setBytes_flags]
@[simp] theorem State.setSlot_status (i : Nat) (v : Word256) :
    (s.setSlot i v).status = s.status := by rw [State.setSlot, State.setBytes_status]
@[simp] theorem State.setSlot_irqEn (i : Nat) (v : Word256) :
    (s.setSlot i v).irqEn = s.irqEn := by rw [State.setSlot, State.setBytes_irqEn]
@[simp] theorem State.setSlot_faultRec (i : Nat) (v : Word256) :
    (s.setSlot i v).faultRec = s.faultRec := by rw [State.setSlot, State.setBytes_faultRec]
@[simp] theorem State.setSlot_cfg (i : Nat) (v : Word256) :
    (s.setSlot i v).cfg = s.cfg := by rw [State.setSlot, State.setBytes_cfg]
@[simp] theorem State.setSlot_inbox (i : Nat) (v : Word256) :
    (s.setSlot i v).inbox = s.inbox := by rw [State.setSlot, State.setBytes_inbox]
@[simp] theorem State.setSlot_reply (i : Nat) (v : Word256) :
    (s.setSlot i v).reply = s.reply := by rw [State.setSlot, State.setBytes_reply]
@[simp] theorem State.setSlot_powerOns (i : Nat) (v : Word256) :
    (s.setSlot i v).powerOns = s.powerOns := by rw [State.setSlot, State.setBytes_powerOns]
@[simp] theorem State.setSlot_freeCtr (i : Nat) (v : Word256) :
    (s.setSlot i v).freeCtr = s.freeCtr := by rw [State.setSlot, State.setBytes_freeCtr]

/-! ### setX -/

@[simp] theorem State.setX_params (i v : Nat) :
    (s.setX i v).params = s.params := by rw [State.setX, State.setSlot_params]
@[simp] theorem State.setX_mem (i v : Nat) :
    (s.setX i v).mem = s.mem.writeBytes (slotOffset i) (leBytes 32 (BitVec.ofNat 256 v).toNat) := by rw [State.setX, State.setSlot_mem]
@[simp] theorem State.setX_cpc (i v : Nat) :
    (s.setX i v).cpc = s.cpc := by rw [State.setX, State.setSlot_cpc]
@[simp] theorem State.setX_startPc (i v : Nat) :
    (s.setX i v).startPc = s.startPc := by rw [State.setX, State.setSlot_startPc]
@[simp] theorem State.setX_lcnt (i v : Nat) :
    (s.setX i v).lcnt = s.lcnt := by rw [State.setX, State.setSlot_lcnt]
@[simp] theorem State.setX_flags (i v : Nat) :
    (s.setX i v).flags = s.flags := by rw [State.setX, State.setSlot_flags]
@[simp] theorem State.setX_status (i v : Nat) :
    (s.setX i v).status = s.status := by rw [State.setX, State.setSlot_status]
@[simp] theorem State.setX_irqEn (i v : Nat) :
    (s.setX i v).irqEn = s.irqEn := by rw [State.setX, State.setSlot_irqEn]
@[simp] theorem State.setX_faultRec (i v : Nat) :
    (s.setX i v).faultRec = s.faultRec := by rw [State.setX, State.setSlot_faultRec]
@[simp] theorem State.setX_cfg (i v : Nat) :
    (s.setX i v).cfg = s.cfg := by rw [State.setX, State.setSlot_cfg]
@[simp] theorem State.setX_inbox (i v : Nat) :
    (s.setX i v).inbox = s.inbox := by rw [State.setX, State.setSlot_inbox]
@[simp] theorem State.setX_reply (i v : Nat) :
    (s.setX i v).reply = s.reply := by rw [State.setX, State.setSlot_reply]
@[simp] theorem State.setX_powerOns (i v : Nat) :
    (s.setX i v).powerOns = s.powerOns := by rw [State.setX, State.setSlot_powerOns]
@[simp] theorem State.setX_freeCtr (i v : Nat) :
    (s.setX i v).freeCtr = s.freeCtr := by rw [State.setX, State.setSlot_freeCtr]

/-! ### setCommand -/

@[simp] theorem State.setCommand_params (i : Nat) (w : CmdWord) :
    (s.setCommand i w).params = s.params := by rw [State.setCommand, State.setBytes_params]
@[simp] theorem State.setCommand_mem (i : Nat) (w : CmdWord) :
    (s.setCommand i w).mem = s.mem.writeBytes (cmdOffset i) (leBytes 8 w.toNat) := by rw [State.setCommand, State.setBytes_mem]
@[simp] theorem State.setCommand_cpc (i : Nat) (w : CmdWord) :
    (s.setCommand i w).cpc = s.cpc := by rw [State.setCommand, State.setBytes_cpc]
@[simp] theorem State.setCommand_startPc (i : Nat) (w : CmdWord) :
    (s.setCommand i w).startPc = s.startPc := by rw [State.setCommand, State.setBytes_startPc]
@[simp] theorem State.setCommand_lcnt (i : Nat) (w : CmdWord) :
    (s.setCommand i w).lcnt = s.lcnt := by rw [State.setCommand, State.setBytes_lcnt]
@[simp] theorem State.setCommand_flags (i : Nat) (w : CmdWord) :
    (s.setCommand i w).flags = s.flags := by rw [State.setCommand, State.setBytes_flags]
@[simp] theorem State.setCommand_status (i : Nat) (w : CmdWord) :
    (s.setCommand i w).status = s.status := by rw [State.setCommand, State.setBytes_status]
@[simp] theorem State.setCommand_irqEn (i : Nat) (w : CmdWord) :
    (s.setCommand i w).irqEn = s.irqEn := by rw [State.setCommand, State.setBytes_irqEn]
@[simp] theorem State.setCommand_faultRec (i : Nat) (w : CmdWord) :
    (s.setCommand i w).faultRec = s.faultRec := by rw [State.setCommand, State.setBytes_faultRec]
@[simp] theorem State.setCommand_cfg (i : Nat) (w : CmdWord) :
    (s.setCommand i w).cfg = s.cfg := by rw [State.setCommand, State.setBytes_cfg]
@[simp] theorem State.setCommand_inbox (i : Nat) (w : CmdWord) :
    (s.setCommand i w).inbox = s.inbox := by rw [State.setCommand, State.setBytes_inbox]
@[simp] theorem State.setCommand_reply (i : Nat) (w : CmdWord) :
    (s.setCommand i w).reply = s.reply := by rw [State.setCommand, State.setBytes_reply]
@[simp] theorem State.setCommand_powerOns (i : Nat) (w : CmdWord) :
    (s.setCommand i w).powerOns = s.powerOns := by rw [State.setCommand, State.setBytes_powerOns]
@[simp] theorem State.setCommand_freeCtr (i : Nat) (w : CmdWord) :
    (s.setCommand i w).freeCtr = s.freeCtr := by rw [State.setCommand, State.setBytes_freeCtr]

/-! ### advance -/

@[simp] theorem State.advance_params : (s.advance).params = s.params := rfl
@[simp] theorem State.advance_mem : (s.advance).mem = s.mem := rfl
@[simp] theorem State.advance_cpc : (s.advance).cpc = s.cpc + 1 := rfl
@[simp] theorem State.advance_startPc : (s.advance).startPc = s.startPc := rfl
@[simp] theorem State.advance_lcnt : (s.advance).lcnt = s.lcnt := rfl
@[simp] theorem State.advance_flags : (s.advance).flags = s.flags := rfl
@[simp] theorem State.advance_status : (s.advance).status = s.status := rfl
@[simp] theorem State.advance_irqEn : (s.advance).irqEn = s.irqEn := rfl
@[simp] theorem State.advance_faultRec : (s.advance).faultRec = s.faultRec := rfl
@[simp] theorem State.advance_cfg : (s.advance).cfg = s.cfg := rfl
@[simp] theorem State.advance_inbox : (s.advance).inbox = s.inbox := rfl
@[simp] theorem State.advance_reply : (s.advance).reply = s.reply := rfl
@[simp] theorem State.advance_powerOns : (s.advance).powerOns = s.powerOns := rfl
@[simp] theorem State.advance_freeCtr : (s.advance).freeCtr = s.freeCtr := rfl

/-! ### branch -/

@[simp] theorem State.branch_params (a : BitVec 16) : (s.branch a).params = s.params := rfl
@[simp] theorem State.branch_mem (a : BitVec 16) : (s.branch a).mem = s.mem := rfl
@[simp] theorem State.branch_cpc (a : BitVec 16) : (s.branch a).cpc = a.setWidth 17 := rfl
@[simp] theorem State.branch_startPc (a : BitVec 16) : (s.branch a).startPc = s.startPc := rfl
@[simp] theorem State.branch_lcnt (a : BitVec 16) : (s.branch a).lcnt = s.lcnt := rfl
@[simp] theorem State.branch_flags (a : BitVec 16) : (s.branch a).flags = s.flags := rfl
@[simp] theorem State.branch_status (a : BitVec 16) : (s.branch a).status = s.status := rfl
@[simp] theorem State.branch_irqEn (a : BitVec 16) : (s.branch a).irqEn = s.irqEn := rfl
@[simp] theorem State.branch_faultRec (a : BitVec 16) : (s.branch a).faultRec = s.faultRec := rfl
@[simp] theorem State.branch_cfg (a : BitVec 16) : (s.branch a).cfg = s.cfg := rfl
@[simp] theorem State.branch_inbox (a : BitVec 16) : (s.branch a).inbox = s.inbox := rfl
@[simp] theorem State.branch_reply (a : BitVec 16) : (s.branch a).reply = s.reply := rfl
@[simp] theorem State.branch_powerOns (a : BitVec 16) : (s.branch a).powerOns = s.powerOns := rfl
@[simp] theorem State.branch_freeCtr (a : BitVec 16) : (s.branch a).freeCtr = s.freeCtr := rfl

/-! ### finish -/

@[simp] theorem State.finish_params : (s.finish).params = s.params := rfl
@[simp] theorem State.finish_mem : (s.finish).mem = s.mem := rfl
@[simp] theorem State.finish_cpc : (s.finish).cpc = s.cpc := rfl
@[simp] theorem State.finish_startPc : (s.finish).startPc = s.startPc := rfl
@[simp] theorem State.finish_lcnt : (s.finish).lcnt = s.lcnt := rfl
@[simp] theorem State.finish_flags : (s.finish).flags = s.flags := rfl
@[simp] theorem State.finish_status :
    (s.finish).status = { s.status with done := true, busy := false } := rfl
@[simp] theorem State.finish_irqEn : (s.finish).irqEn = s.irqEn := rfl
@[simp] theorem State.finish_faultRec : (s.finish).faultRec = s.faultRec := rfl
@[simp] theorem State.finish_cfg : (s.finish).cfg = s.cfg := rfl
@[simp] theorem State.finish_inbox : (s.finish).inbox = s.inbox := rfl
@[simp] theorem State.finish_reply : (s.finish).reply = s.reply := rfl
@[simp] theorem State.finish_powerOns : (s.finish).powerOns = s.powerOns := rfl
@[simp] theorem State.finish_freeCtr : (s.finish).freeCtr = s.freeCtr := rfl

/-! ### takeFault -/

@[simp] theorem State.takeFault_params (w : CmdWord) (t : Trap) :
    (s.takeFault w t).params = s.params := rfl
@[simp] theorem State.takeFault_mem (w : CmdWord) (t : Trap) :
    (s.takeFault w t).mem = s.mem := rfl
@[simp] theorem State.takeFault_cpc (w : CmdWord) (t : Trap) :
    (s.takeFault w t).cpc = s.cpc := rfl
@[simp] theorem State.takeFault_startPc (w : CmdWord) (t : Trap) :
    (s.takeFault w t).startPc = s.startPc := rfl
@[simp] theorem State.takeFault_lcnt (w : CmdWord) (t : Trap) :
    (s.takeFault w t).lcnt = s.lcnt := rfl
@[simp] theorem State.takeFault_flags (w : CmdWord) (t : Trap) :
    (s.takeFault w t).flags = s.flags := rfl
@[simp] theorem State.takeFault_status (w : CmdWord) (t : Trap) :
    (s.takeFault w t).status = { s.status with fault := true, busy := false } := rfl
@[simp] theorem State.takeFault_irqEn (w : CmdWord) (t : Trap) :
    (s.takeFault w t).irqEn = s.irqEn := rfl
@[simp] theorem State.takeFault_faultRec (w : CmdWord) (t : Trap) :
    (s.takeFault w t).faultRec = { cause := t.cause.code, pc := s.cpc, cmd := w, info := t.info } := rfl
@[simp] theorem State.takeFault_cfg (w : CmdWord) (t : Trap) :
    (s.takeFault w t).cfg = s.cfg := rfl
@[simp] theorem State.takeFault_inbox (w : CmdWord) (t : Trap) :
    (s.takeFault w t).inbox = s.inbox := rfl
@[simp] theorem State.takeFault_reply (w : CmdWord) (t : Trap) :
    (s.takeFault w t).reply = s.reply := rfl
@[simp] theorem State.takeFault_powerOns (w : CmdWord) (t : Trap) :
    (s.takeFault w t).powerOns = s.powerOns := rfl
@[simp] theorem State.takeFault_freeCtr (w : CmdWord) (t : Trap) :
    (s.takeFault w t).freeCtr = s.freeCtr := rfl

/-! ### start -/

@[simp] theorem State.start_params : (s.start).params = s.params := rfl
@[simp] theorem State.start_mem : (s.start).mem = s.mem := rfl
@[simp] theorem State.start_cpc : (s.start).cpc = s.startPc.setWidth 17 := rfl
@[simp] theorem State.start_startPc : (s.start).startPc = s.startPc := rfl
@[simp] theorem State.start_lcnt : (s.start).lcnt = s.lcnt := rfl
@[simp] theorem State.start_flags : (s.start).flags = s.flags := rfl
@[simp] theorem State.start_status :
    (s.start).status = { s.status with done := false, fault := false, busy := true } := rfl
@[simp] theorem State.start_irqEn : (s.start).irqEn = s.irqEn := rfl
@[simp] theorem State.start_faultRec : (s.start).faultRec = FaultRecord.none := rfl
@[simp] theorem State.start_cfg : (s.start).cfg = s.cfg := rfl
@[simp] theorem State.start_inbox : (s.start).inbox = s.inbox := rfl
@[simp] theorem State.start_reply : (s.start).reply = s.reply := rfl
@[simp] theorem State.start_powerOns : (s.start).powerOns = s.powerOns := rfl
@[simp] theorem State.start_freeCtr : (s.start).freeCtr = s.freeCtr := rfl

/-! ### resetCsrs -/

@[simp] theorem State.resetCsrs_params : (s.resetCsrs).params = s.params := rfl
@[simp] theorem State.resetCsrs_mem : (s.resetCsrs).mem = s.mem := rfl
@[simp] theorem State.resetCsrs_cpc : (s.resetCsrs).cpc = State.reset.cpc := rfl
@[simp] theorem State.resetCsrs_startPc : (s.resetCsrs).startPc = State.reset.startPc := rfl
@[simp] theorem State.resetCsrs_lcnt : (s.resetCsrs).lcnt = State.reset.lcnt := rfl
@[simp] theorem State.resetCsrs_flags : (s.resetCsrs).flags = State.reset.flags := rfl
@[simp] theorem State.resetCsrs_status : (s.resetCsrs).status = State.reset.status := rfl
@[simp] theorem State.resetCsrs_irqEn : (s.resetCsrs).irqEn = State.reset.irqEn := rfl
@[simp] theorem State.resetCsrs_faultRec : (s.resetCsrs).faultRec = State.reset.faultRec := rfl
@[simp] theorem State.resetCsrs_cfg : (s.resetCsrs).cfg = State.reset.cfg := rfl
@[simp] theorem State.resetCsrs_inbox : (s.resetCsrs).inbox = s.inbox := rfl
@[simp] theorem State.resetCsrs_reply : (s.resetCsrs).reply = s.reply := rfl
@[simp] theorem State.resetCsrs_powerOns : (s.resetCsrs).powerOns = s.powerOns := rfl
@[simp] theorem State.resetCsrs_freeCtr : (s.resetCsrs).freeCtr = s.freeCtr := rfl

/-! ### hardwareReset -/

@[simp] theorem State.hardwareReset_params : (s.hardwareReset).params = s.params := rfl
@[simp] theorem State.hardwareReset_mem : (s.hardwareReset).mem = [] := rfl
@[simp] theorem State.hardwareReset_cpc : (s.hardwareReset).cpc = State.reset.cpc := rfl
@[simp] theorem State.hardwareReset_startPc :
    (s.hardwareReset).startPc = State.reset.startPc := rfl
@[simp] theorem State.hardwareReset_lcnt : (s.hardwareReset).lcnt = State.reset.lcnt := rfl
@[simp] theorem State.hardwareReset_flags : (s.hardwareReset).flags = State.reset.flags := rfl
@[simp] theorem State.hardwareReset_status : (s.hardwareReset).status = State.reset.status := rfl
@[simp] theorem State.hardwareReset_irqEn : (s.hardwareReset).irqEn = State.reset.irqEn := rfl
@[simp] theorem State.hardwareReset_faultRec :
    (s.hardwareReset).faultRec = State.reset.faultRec := rfl
@[simp] theorem State.hardwareReset_cfg : (s.hardwareReset).cfg = State.reset.cfg := rfl
@[simp] theorem State.hardwareReset_inbox : (s.hardwareReset).inbox = s.inbox := rfl
@[simp] theorem State.hardwareReset_reply : (s.hardwareReset).reply = none := rfl
@[simp] theorem State.hardwareReset_powerOns : (s.hardwareReset).powerOns = s.powerOns + 1 := rfl
@[simp] theorem State.hardwareReset_freeCtr : (s.hardwareReset).freeCtr = s.freeCtr := rfl

/-! ### refuseHost -/

@[simp] theorem State.refuseHost_params : (s.refuseHost).params = s.params := rfl
@[simp] theorem State.refuseHost_mem : (s.refuseHost).mem = s.mem := rfl
@[simp] theorem State.refuseHost_cpc : (s.refuseHost).cpc = s.cpc := rfl
@[simp] theorem State.refuseHost_startPc : (s.refuseHost).startPc = s.startPc := rfl
@[simp] theorem State.refuseHost_lcnt : (s.refuseHost).lcnt = s.lcnt := rfl
@[simp] theorem State.refuseHost_flags : (s.refuseHost).flags = s.flags := rfl
@[simp] theorem State.refuseHost_status :
    (s.refuseHost).status = { s.status with hostErr := true } := rfl
@[simp] theorem State.refuseHost_irqEn : (s.refuseHost).irqEn = s.irqEn := rfl
@[simp] theorem State.refuseHost_faultRec : (s.refuseHost).faultRec = s.faultRec := rfl
@[simp] theorem State.refuseHost_cfg : (s.refuseHost).cfg = s.cfg := rfl
@[simp] theorem State.refuseHost_inbox : (s.refuseHost).inbox = s.inbox := rfl
@[simp] theorem State.refuseHost_reply : (s.refuseHost).reply = s.reply := rfl
@[simp] theorem State.refuseHost_powerOns : (s.refuseHost).powerOns = s.powerOns := rfl
@[simp] theorem State.refuseHost_freeCtr : (s.refuseHost).freeCtr = s.freeCtr := rfl

end Sys2Proof.Machine
end

