-- ==== Sys2Proof/Laws/Memory.lean ====
section
/-! SUPPORT. The laws of the byte memory: reads after writes, the canonical form, slots and command words. -/

namespace Sys2Proof

/-! ### Byte strings -/

@[simp] theorem leBytes_length (n v : Nat) : (leBytes n v).length = n := by
  induction n generalizing v with
  | zero => rfl
  | succ n ih => simp [leBytes, ih]

theorem leNat_lt (bs : List Byte) : leNat bs < 256 ^ bs.length := by
  induction bs with
  | nil => simp [leNat]
  | cons b bs ih =>
    have hb : b.toNat < 256 := b.isLt
    simp only [leNat, List.length_cons, Nat.pow_succ]
    omega

theorem leNat_leBytes (n v : Nat) : leNat (leBytes n v) = v % 256 ^ n := by
  induction n generalizing v with
  | zero => simp [leBytes, leNat, Nat.mod_one]
  | succ n ih =>
    have h : v % 256 ^ (n + 1) = v % 256 + 256 * (v / 256 % 256 ^ n) := by
      rw [Nat.pow_succ', Nat.mod_mul]
    rw [leBytes, leNat, ih, BitVec.toNat_ofNat, h]

theorem leBytes_leNat (bs : List Byte) : leBytes bs.length (leNat bs) = bs := by
  induction bs with
  | nil => rfl
  | cons b bs ih =>
    have hb : b.toNat < 256 := b.isLt
    have h : (b.toNat + 256 * leNat bs) / 256 = leNat bs := by omega
    rw [List.length_cons, leNat, leBytes, h, ih]
    congr 1
    apply BitVec.eq_of_toNat_eq
    rw [BitVec.toNat_ofNat]
    omega

namespace Machine

/-! ### The memory -/

theorem Memory.get_set_same (m : Memory) (a : Nat) (b : Byte) : (m.set a b).get a = some b := by
  induction m with
  | nil => simp [Memory.set, Memory.get]
  | cons x m ih =>
    obtain ⟨k, c⟩ := x
    simp only [Memory.set]
    split
    · simp [Memory.get]
    · split
      · simp [Memory.get]
      · rename_i h2
        simp [Memory.get, h2, ih]

theorem Memory.get_set_ne (m : Memory) {a x : Nat} (b : Byte) (h : x ≠ a) :
    (m.set a b).get x = m.get x := by
  induction m with
  | nil => simp [Memory.set, Memory.get, h]
  | cons y m ih =>
    obtain ⟨k, c⟩ := y
    simp only [Memory.set]
    split
    · simp [Memory.get, h]
    · split
      · rename_i h2
        subst h2
        simp [Memory.get, h]
      · simp [Memory.get, ih]

theorem Memory.mem_set {m : Memory} {a : Nat} {b : Byte} {y : Nat × Byte} (h : y ∈ m.set a b) :
    y = (a, b) ∨ y ∈ m := by
  induction m with
  | nil => simpa [Memory.set] using h
  | cons x m ih =>
    obtain ⟨k, c⟩ := x
    simp only [Memory.set] at h
    split at h
    · simpa using h
    · split at h
      · rcases List.mem_cons.1 h with h | h
        · exact .inl h
        · exact .inr (List.mem_cons_of_mem _ h)
      · rcases List.mem_cons.1 h with h | h
        · exact .inr (by simp [h])
        · exact (ih h).imp id (List.mem_cons_of_mem _)

/-- Writing a byte keeps the canonical form. -/
theorem Memory.set_wf {m : Memory} (a : Nat) (b : Byte) (h : m.wf = true) : (m.set a b).wf = true := by
  simp only [Memory.wf, decide_eq_true_eq] at h ⊢
  induction m with
  | nil => simp [Memory.set]
  | cons x m ih =>
    obtain ⟨k, c⟩ := x
    obtain ⟨h1, h2⟩ := List.pairwise_cons.1 h
    simp only [Memory.set]
    split
    · rename_i hk
      refine List.pairwise_cons.2 ⟨?_, h⟩
      intro y hy
      rcases List.mem_cons.1 hy with rfl | hy
      · exact hk
      · exact Nat.lt_trans hk (h1 y hy)
    · split
      · rename_i hk
        subst hk
        exact List.pairwise_cons.2 ⟨h1, h2⟩
      · rename_i hk hk'
        refine List.pairwise_cons.2 ⟨?_, ih h2⟩
        intro y hy
        rcases Memory.mem_set hy with rfl | hy
        · show k < a
          omega
        · exact h1 y hy

/-- Writing a byte string keeps the canonical form. -/
theorem Memory.writeBytes_wf {m : Memory} (a : Nat) (bs : List Byte) (h : m.wf = true) :
    (m.writeBytes a bs).wf = true := by
  induction bs generalizing m a with
  | nil => exact h
  | cons b bs ih => exact ih (a + 1) (Memory.set_wf a b h)

/-- Bytes outside a written string are unchanged. -/
theorem Memory.get_writeBytes_out (m : Memory) (a x : Nat) (bs : List Byte)
    (h : x < a ∨ a + bs.length ≤ x) : (m.writeBytes a bs).get x = m.get x := by
  induction bs generalizing m a with
  | nil => rfl
  | cons b bs ih =>
    simp only [List.length_cons] at h
    rw [Memory.writeBytes, ih _ _ (by omega), Memory.get_set_ne _ _ (by omega)]

/-- Byte `j` of a written string reads back. -/
theorem Memory.get_writeBytes_in (m : Memory) (a j : Nat) (bs : List Byte) (h : j < bs.length) :
    (m.writeBytes a bs).get (a + j) = bs[j]? := by
  induction bs generalizing m a j with
  | nil => simp at h
  | cons b bs ih =>
    rw [Memory.writeBytes]
    cases j with
    | zero =>
      rw [Memory.get_writeBytes_out _ _ _ _ (by omega)]
      simpa using Memory.get_set_same m a b
    | succ j =>
      have := ih (m.set a b) (a + 1) j (by simpa using h)
      rw [show a + (j + 1) = a + 1 + j by omega, this]
      simp

/-! ### Bytes of the state -/

theorem State.byteAt_setBytes_out (s : State) (a x : Nat) (bs : List Byte)
    (h : x < a ∨ a + bs.length ≤ x) : (s.setBytes a bs).byteAt x = s.byteAt x := by
  simp [State.byteAt, Memory.get_writeBytes_out _ _ _ _ h]

theorem State.byteAt_setBytes_in (s : State) (a j : Nat) (bs : List Byte) (h : j < bs.length) :
    (s.setBytes a bs).byteAt (a + j) = bs[j] := by
  simp [State.byteAt, Memory.get_writeBytes_in _ _ _ _ h, h]

theorem State.bytesAt_congr {s t : State} {a n : Nat}
    (h : ∀ j, j < n → t.byteAt (a + j) = s.byteAt (a + j)) : t.bytesAt a n = s.bytesAt a n := by
  induction n generalizing a with
  | zero => rfl
  | succ n ih =>
    rw [State.bytesAt, State.bytesAt, ih, show t.byteAt a = s.byteAt a from by simpa using h 0 (by omega)]
    intro j hj
    have := h (j + 1) (by omega)
    rwa [show a + (j + 1) = a + 1 + j by omega] at this

@[simp] theorem State.bytesAt_length (s : State) (a n : Nat) : (s.bytesAt a n).length = n := by
  induction n generalizing a with
  | zero => rfl
  | succ n ih => simp [State.bytesAt, ih]

theorem State.bytesAt_get (s : State) (a n j : Nat) (h : j < n) :
    (s.bytesAt a n)[j]? = some (s.byteAt (a + j)) := by
  induction n generalizing a j with
  | zero => omega
  | succ n ih =>
    cases j with
    | zero => simp [State.bytesAt]
    | succ j =>
      rw [State.bytesAt, List.getElem?_cons_succ, ih _ _ (by omega)]
      congr 2
      omega

/-- A written byte string reads back whole. -/
theorem State.bytesAt_setBytes (s : State) (a : Nat) (bs : List Byte) :
    (s.setBytes a bs).bytesAt a bs.length = bs := by
  apply List.ext_getElem?
  intro j
  by_cases h : j < bs.length
  · rw [State.bytesAt_get _ _ _ _ h, State.byteAt_setBytes_in _ _ _ _ h, List.getElem?_eq_getElem h]
  · rw [List.getElem?_eq_none (by simpa using h), List.getElem?_eq_none (by simpa using h)]

/-! ### Slots and command words -/

theorem State.slot_congr {s t : State} {i : Nat}
    (h : ∀ a, slotOffset i ≤ a → a < slotOffset (i + 1) → t.byteAt a = s.byteAt a) :
    t.slot i = s.slot i := by
  rw [State.slot, State.slot, State.bytesAt_congr]
  intro j hj
  apply h <;> simp only [slotOffset] <;> omega

theorem State.x_congr {s t : State} {i : Nat}
    (h : ∀ a, slotOffset i ≤ a → a < slotOffset (i + 1) → t.byteAt a = s.byteAt a) : t.x i = s.x i := by
  rw [State.x, State.x, State.slot_congr h]

theorem State.x_lt (s : State) (i : Nat) : s.x i < 2 ^ 256 := by
  unfold State.x
  exact BitVec.isLt _

/-- A written slot reads back. -/
theorem State.slot_setSlot_same (s : State) (i : Nat) (v : Word256) : (s.setSlot i v).slot i = v := by
  have h := State.bytesAt_setBytes s (slotOffset i) (leBytes 32 v.toNat)
  rw [leBytes_length] at h
  rw [State.slot, State.setSlot, h, leNat_leBytes, show (256 : Nat) ^ 32 = 2 ^ 256 by norm_num,
    Nat.mod_eq_of_lt v.isLt]
  simp

/-- A slot write leaves every byte outside the slot alone. -/
theorem State.byteAt_setSlot (s : State) (i a : Nat) (v : Word256)
    (h : a < slotOffset i ∨ slotOffset (i + 1) ≤ a) : (s.setSlot i v).byteAt a = s.byteAt a := by
  rw [State.setSlot, State.byteAt_setBytes_out]
  simp only [leBytes_length, slotOffset] at h ⊢
  omega

/-- A slot write leaves every other slot alone. -/
theorem State.slot_setSlot_ne (s : State) {i j : Nat} (v : Word256) (h : j ≠ i) :
    (s.setSlot i v).slot j = s.slot j := by
  apply State.slot_congr
  intro a h1 h2
  apply State.byteAt_setSlot
  simp only [slotOffset] at h1 h2 ⊢
  omega

theorem State.x_setX_same (s : State) (i : Nat) {v : Nat} (h : v < 2 ^ 256) : (s.setX i v).x i = v := by
  rw [State.x, State.setX, State.slot_setSlot_same, BitVec.toNat_ofNat, Nat.mod_eq_of_lt h]

theorem State.x_setX_ne (s : State) {i j : Nat} (v : Nat) (h : j ≠ i) : (s.setX i v).x j = s.x j := by
  unfold State.x State.setX
  rw [State.slot_setSlot_ne _ _ h]

/-- Reads see through an update that keeps memory and power-ons. -/
theorem State.byteAt_of_mem {s t : State} (hm : t.mem = s.mem) (hp : t.powerOns = s.powerOns) (a : Nat) :
    t.byteAt a = s.byteAt a := by rw [State.byteAt, State.byteAt, hm, hp]

theorem State.bytesAt_of_mem {s t : State} (hm : t.mem = s.mem) (hp : t.powerOns = s.powerOns)
    (a n : Nat) : t.bytesAt a n = s.bytesAt a n :=
  State.bytesAt_congr (fun _ _ => State.byteAt_of_mem hm hp _)

theorem State.slot_of_mem {s t : State} (hm : t.mem = s.mem) (hp : t.powerOns = s.powerOns) (i : Nat) :
    t.slot i = s.slot i := State.slot_congr (fun a _ _ => State.byteAt_of_mem hm hp a)

theorem State.x_of_mem {s t : State} (hm : t.mem = s.mem) (hp : t.powerOns = s.powerOns) (i : Nat) :
    t.x i = s.x i := State.x_congr (fun a _ _ => State.byteAt_of_mem hm hp a)

theorem State.command_of_mem {s t : State} (hm : t.mem = s.mem) (hp : t.powerOns = s.powerOns) (i : Nat) :
    t.command i = s.command i := by
  rw [State.command, State.command, State.bytesAt_of_mem hm hp]

@[simp] theorem State.x_goto (s : State) (v : BitVec 17) (i : Nat) : (s.goto v).x i = s.x i :=
  State.x_of_mem rfl rfl i

@[simp] theorem State.x_advance (s : State) (i : Nat) : s.advance.x i = s.x i :=
  State.x_of_mem rfl rfl i

@[simp] theorem State.x_setFlags (s : State) (f : Flags) (i : Nat) : (s.setFlags f).x i = s.x i :=
  State.x_of_mem rfl rfl i

@[simp] theorem State.slot_advance (s : State) (i : Nat) : s.advance.slot i = s.slot i :=
  State.slot_of_mem rfl rfl i

@[simp] theorem State.slot_setFlags (s : State) (f : Flags) (i : Nat) : (s.setFlags f).slot i = s.slot i :=
  State.slot_of_mem rfl rfl i

@[simp] theorem State.byteAt_advance (s : State) (a : Nat) : s.advance.byteAt a = s.byteAt a := rfl

@[simp] theorem State.byteAt_setFlags (s : State) (f : Flags) (a : Nat) :
    (s.setFlags f).byteAt a = s.byteAt a := rfl

/-- A written command word reads back. -/
theorem State.command_setCommand_same (s : State) (i : Nat) (w : CmdWord) :
    (s.setCommand i w).command i = w := by
  have h := State.bytesAt_setBytes s (cmdOffset i) (leBytes 8 w.toNat)
  rw [leBytes_length] at h
  rw [State.command, State.setCommand, h, leNat_leBytes, show (256 : Nat) ^ 8 = 2 ^ 64 by norm_num,
    Nat.mod_eq_of_lt w.isLt]
  simp

/-- Command words lie below the operand memory: a slot write leaves them alone (20_memory.md R81). -/
theorem State.command_setSlot (s : State) (i : Nat) (v : Word256) {k : Nat} (hk : k < 0x30000) :
    (s.setSlot i v).command k = s.command k := by
  rw [State.command, State.command, State.bytesAt_congr]
  intro j hj
  apply State.byteAt_setSlot
  simp only [slotOffset, cmdOffset]
  omega

/-! ### Runs of slots -/

theorem State.setMem_setBytes (s : State) (a : Nat) (bs : List Byte) (m : Memory) :
    (s.setBytes a bs).setMem m = s.setMem m := rfl

theorem State.setMem_setSlot (s : State) (i : Nat) (v : Word256) (m : Memory) :
    (s.setSlot i v).setMem m = s.setMem m := by rw [State.setSlot, State.setMem_setBytes]

theorem State.setMem_setMem (s : State) (m n : Memory) : (s.setMem m).setMem n = s.setMem n := rfl

theorem State.setSlots_mem_only (s : State) (b : Nat) (vs : List Word256) :
    s.setSlots b vs = s.setMem (s.setSlots b vs).mem := by
  induction vs generalizing s b with
  | nil => rfl
  | cons v vs ih =>
    rw [State.setSlots, ih, State.setMem_setSlot, State.setMem_mem]

theorem State.byteAt_setSlots (s : State) (b a : Nat) (vs : List Word256)
    (h : a < slotOffset b ∨ slotOffset (b + vs.length) ≤ a) :
    (s.setSlots b vs).byteAt a = s.byteAt a := by
  induction vs generalizing s b with
  | nil => rfl
  | cons v vs ih =>
    simp only [List.length_cons, slotOffset] at h
    rw [State.setSlots, ih, State.byteAt_setSlot] <;> simp only [slotOffset] <;> omega

theorem State.slot_setSlots_out (s : State) (b i : Nat) (vs : List Word256)
    (h : i < b ∨ b + vs.length ≤ i) : (s.setSlots b vs).slot i = s.slot i := by
  apply State.slot_congr
  intro a h1 h2
  apply State.byteAt_setSlots
  simp only [slotOffset] at h1 h2 ⊢
  omega

theorem State.slot_setSlots_in (s : State) (b j : Nat) (vs : List Word256) (h : j < vs.length) :
    (s.setSlots b vs).slot (b + j) = vs[j] := by
  induction vs generalizing s b j with
  | nil => simp at h
  | cons v vs ih =>
    rw [State.setSlots]
    cases j with
    | zero =>
      rw [State.slot_setSlots_out _ _ _ _ (by omega)]
      exact State.slot_setSlot_same s b v
    | succ j =>
      have := ih (s.setSlot b v) (b + 1) j (by simpa using h)
      rw [show b + (j + 1) = b + 1 + j by omega, this]
      simp

@[simp] theorem State.slots_length (s : State) (b n : Nat) : (s.slots b n).length = n := by
  induction n generalizing b with
  | zero => rfl
  | succ n ih => simp [State.slots, ih]

theorem State.slots_get (s : State) (b n j : Nat) (h : j < n) :
    (s.slots b n)[j]'(by simpa using h) = s.slot (b + j) := by
  induction n generalizing b j with
  | zero => omega
  | succ n ih =>
    cases j with
    | zero => rfl
    | succ j =>
      have := ih (b + 1) j (by omega)
      simp only [State.slots, List.getElem_cons_succ]
      rw [this]
      congr 1
      omega

theorem State.setXs_mem_only (s : State) (b : Nat) (vs : List Nat) :
    s.setXs b vs = s.setMem (s.setXs b vs).mem := State.setSlots_mem_only _ _ _

theorem State.byteAt_setXs (s : State) (b a : Nat) (vs : List Nat)
    (h : a < slotOffset b ∨ slotOffset (b + vs.length) ≤ a) :
    (s.setXs b vs).byteAt a = s.byteAt a := State.byteAt_setSlots _ _ _ _ (by simpa using h)

theorem State.x_setXs_out (s : State) (b i : Nat) (vs : List Nat) (h : i < b ∨ b + vs.length ≤ i) :
    (s.setXs b vs).x i = s.x i := by
  unfold State.x State.setXs
  rw [State.slot_setSlots_out _ _ _ _ (by simpa using h)]

theorem State.x_setXs_in (s : State) (b j : Nat) (vs : List Nat) (h : j < vs.length)
    (hv : vs[j] < 2 ^ 256) : (s.setXs b vs).x (b + j) = vs[j] := by
  rw [State.x, State.setXs, State.slot_setSlots_in _ _ _ _ (by simpa using h), List.getElem_map,
    BitVec.toNat_ofNat, Nat.mod_eq_of_lt hv]

/-! ### Canonical form of the operations -/

theorem State.setSlot_wf {s : State} (i : Nat) (v : Word256) (h : s.mem.wf = true) :
    (s.setSlot i v).mem.wf = true := by
  rw [State.setSlot_mem]
  exact Memory.writeBytes_wf _ _ h

theorem State.setSlots_wf {s : State} (b : Nat) (vs : List Word256) (h : s.mem.wf = true) :
    (s.setSlots b vs).mem.wf = true := by
  induction vs generalizing s b with
  | nil => exact h
  | cons v vs ih =>
    rw [State.setSlots]
    exact ih (b + 1) (State.setSlot_wf b v h)

theorem State.setCommand_wf {s : State} (i : Nat) (w : CmdWord) (h : s.mem.wf = true) :
    (s.setCommand i w).mem.wf = true := by
  rw [State.setCommand_mem]
  exact Memory.writeBytes_wf _ _ h

theorem State.reset_mem_wf : State.reset.mem.wf = true := by decide

end Machine

end Sys2Proof
end

