-- ==== Sys2Proof/Laws/Operations.lean ====
section
/-! SUPPORT. What the shared operations can do, said once for each: loops, checks, `command`, fault entry,
runs of slots, and the footprint of a write. -/

namespace Sys2Proof.Machine

/-! ### Loops -/

/-- The induction of `iter`: what holds before and is kept by each round holds after. -/
theorem iter_induct {σ : Type} {f : Nat → σ → σ} (P : Nat → σ → Prop) {n : Nat} {s : σ} (h0 : P 0 s)
    (hs : ∀ i t, i < n → P i t → P (i + 1) (f i t)) : P n (iter n f s) := by
  induction n with
  | zero => exact h0
  | succ n ih => exact hs n _ (by omega) (ih (fun i t hi => hs i t (by omega)))

/-- The induction of `iterDown`: `P i` holds when the indices from `i` up are done. -/
theorem iterDown_induct {σ : Type} {f : Nat → σ → σ} (P : Nat → σ → Prop) {n : Nat} {s : σ} (h0 : P n s)
    (hs : ∀ i t, i < n → P (i + 1) t → P i (f i t)) : P 0 (iterDown n f s) := by
  induction n generalizing s with
  | zero => exact h0
  | succ n ih => exact ih (hs n s (by omega) h0) (fun i t hi => hs i t (by omega))

@[simp] theorem iter_zero {σ : Type} (f : Nat → σ → σ) (s : σ) : iter 0 f s = s := rfl

theorem iter_succ {σ : Type} (n : Nat) (f : Nat → σ → σ) (s : σ) :
    iter (n + 1) f s = f n (iter n f s) := rfl

@[simp] theorem iterDown_zero {σ : Type} (f : Nat → σ → σ) (s : σ) : iterDown 0 f s = s := rfl

theorem iterDown_succ {σ : Type} (n : Nat) (f : Nat → σ → σ) (s : σ) :
    iterDown (n + 1) f s = iterDown n f (f n s) := rfl

/-! ### Checks -/

@[simp] theorem firstTrap_nil (s : State) : firstTrap [] s = none := rfl

@[simp] theorem firstTrap_cons (c : Check) (cs : List Check) (s : State) :
    firstTrap (c :: cs) s = none ↔ c s = none ∧ firstTrap cs s = none := by
  rw [firstTrap]
  cases h : c s <;> simp

theorem firstTrap_fails (c : Check) (cs : List Check) (s : State) {t : Trap} (h : c s = some t) :
    firstTrap (c :: cs) s = some t := by rw [firstTrap, h]

theorem firstTrap_passes (c : Check) (cs : List Check) (s : State) (h : c s = none) :
    firstTrap (c :: cs) s = firstTrap cs s := by rw [firstTrap, h]

@[simp] theorem firstTrap_append (cs ds : List Check) (s : State) :
    firstTrap (cs ++ ds) s = none ↔ firstTrap cs s = none ∧ firstTrap ds s = none := by
  induction cs with
  | nil => simp
  | cons c cs ih => simp [ih, and_assoc]

theorem firstTrap_mem {cs : List Check} {s : State} {t : Trap} (h : firstTrap cs s = some t) :
    ∃ c ∈ cs, c s = some t := by
  induction cs with
  | nil => simp at h
  | cons c cs ih =>
    rw [firstTrap] at h
    cases hc : c s with
    | some u =>
      rw [hc] at h
      exact ⟨c, by simp, by rw [hc]; exact h⟩
    | none =>
      rw [hc] at h
      obtain ⟨d, hd, hs⟩ := ih h
      exact ⟨d, List.mem_cons_of_mem _ hd, hs⟩

theorem State.inRange_iff (s : State) (b w : Nat) :
    s.inRange b w = true ↔ w = 0 ∨ b + w ≤ s.params.opmSlots := by simp [State.inRange]

@[simp] theorem checkRange_none (b w : Nat) (s : State) :
    checkRange b w s = none ↔ s.inRange b w = true := by
  unfold checkRange
  split <;> simp_all

theorem overlap_iff (b1 w1 b2 w2 : Nat) :
    overlap b1 w1 b2 w2 = true ↔ 0 < w1 ∧ 0 < w2 ∧ b1 < b2 + w2 ∧ b2 < b1 + w1 := by simp [overlap]

@[simp] theorem checkApart_none (b1 w1 b2 w2 : Nat) (s : State) :
    checkApart b1 w1 b2 w2 s = none ↔ overlap b1 w1 b2 w2 = false := by
  unfold checkApart
  split <;> simp_all

@[simp] theorem checkCtx_none (c : FieldCtx) (s : State) :
    checkCtx c s = none ↔ (s.ctx c).valid = true := by
  unfold checkCtx
  split <;> simp_all

theorem findSlot_none {p : Nat → Bool} {b w : Nat} :
    findSlot p b w = none ↔ ∀ i, b ≤ i → i < b + w → p i = false := by
  induction w generalizing b with
  | zero => simp [findSlot]; omega
  | succ w ih =>
    rw [findSlot]
    split
    · rename_i h
      simp only [reduceCtorEq, false_iff]
      intro hall
      have := hall b (by omega) (by omega)
      rw [h] at this
      cases this
    · rename_i h
      rw [ih]
      constructor
      · intro hall i h1 h2
        by_cases hi : i = b
        · subst hi
          simpa using h
        · exact hall i (by omega) (by omega)
      · intro hall i h1 h2
        exact hall i (by omega) (by omega)

theorem findSlot_some {p : Nat → Bool} {b w i : Nat} (h : findSlot p b w = some i) :
    b ≤ i ∧ i < b + w ∧ p i = true ∧ ∀ j, b ≤ j → j < i → p j = false := by
  induction w generalizing b with
  | zero => simp [findSlot] at h
  | succ w ih =>
    rw [findSlot] at h
    split at h
    · rename_i hp
      simp only [Option.some.injEq] at h
      subst h
      exact ⟨by omega, by omega, hp, fun j h1 h2 => absurd h1 (by omega)⟩
    · rename_i hp
      obtain ⟨h1, h2, h3, h4⟩ := ih h
      refine ⟨by omega, by omega, h3, fun j hj hj' => ?_⟩
      by_cases he : j = b
      · subst he
        simpa using hp
      · exact h4 j (by omega) hj'

@[simp] theorem checkCanon_none (c : FieldCtx) (b w : Nat) (s : State) :
    checkCanon c b w s = none ↔ s.Canonical c b w := by
  rw [checkCanon, Option.map_eq_none_iff, findSlot_none]
  simp [State.Canonical]

theorem checkCanon_some {c : FieldCtx} {b w : Nat} {s : State} {t : Trap}
    (h : checkCanon c b w s = some t) :
    ∃ i, b ≤ i ∧ i < b + w ∧ s.q c ≤ s.x i ∧ (∀ j, b ≤ j → j < i → s.x j < s.q c) ∧
      t = { cause := .noncanonical, info := slotInfo i } := by
  rw [checkCanon, Option.map_eq_some_iff] at h
  obtain ⟨i, hi, rfl⟩ := h
  obtain ⟨h1, h2, h3, h4⟩ := findSlot_some hi
  exact ⟨i, h1, h2, by simpa using h3, by simpa using h4, rfl⟩

@[simp] theorem checkReg_none (r : ConfigRegs → Word256) (s : State) :
    checkReg r s = none ↔ (r s.cfg).toNat < s.q .fq := by
  unfold checkReg
  split <;> simp_all

@[simp] theorem checkBetaG2_none (g : Group) (s : State) :
    checkBetaG2 g s = none ↔ (g = .g2 → s.cfg.beta.toNat < s.q .fq) := by
  cases g <;> simp [checkBetaG2, checkBeta]

@[simp] theorem checkTag_none (h : Nat) (s : State) :
    checkTag h s = none ↔ (recordTag (s.x h)).isSome = true := by
  unfold checkTag
  split <;> simp_all

@[simp] theorem checkDesc_none (i : Nat) (s : State) :
    checkDesc i s = none ↔ badDescriptor (s.x i) = false := by
  unfold checkDesc
  split <;> simp_all

@[simp] theorem checkWindow_none (i w : Nat) (s : State) :
    checkWindow i w s = none ↔ w < (s.desc i).windows := by
  unfold checkWindow
  split <;> simp_all

/-! ### One command -/

/-- Everything `command` can do: the fault of the first failing check, or the effect. -/
theorem command_cases (i : Instr) (cs : List Check) (eff : State → State) (s : State) :
    (∃ t, firstTrap cs s = some t ∧ command i cs eff s = .next (s.takeFault (encode i) t)) ∨
      (firstTrap cs s = none ∧ command i cs eff s = .next (eff s)) := by
  unfold command
  cases h : firstTrap cs s <;> simp

theorem command_effect {i : Instr} {cs : List Check} {eff : State → State} {s : State}
    (h : firstTrap cs s = none) : command i cs eff s = .next (eff s) := by rw [command, h]

theorem command_fault {i : Instr} {cs : List Check} {eff : State → State} {s : State} {t : Trap}
    (h : firstTrap cs s = some t) : command i cs eff s = .next (s.takeFault (encode i) t) := by
  rw [command, h]

theorem State.takeFault_faulted (s : State) (w : CmdWord) (t : Trap) :
    s.Faulted (s.takeFault w t) w t.cause.code t.info := rfl

/-! ### The footprint of a write -/

/-- `t` is `s` with memory changed in the slots of `rs` alone, its canonical form kept. -/
structure Footprint (s t : State) (rs : List (Nat × Nat)) : Prop where
  regs : t = s.setMem t.mem
  same : s.SameOutside t rs
  wf : s.mem.wf = true → t.mem.wf = true
  listed : ∀ a, (t.mem.get a).isSome = true →
    (s.mem.get a).isSome = true ∨ ∃ r ∈ rs, slotOffset r.1 ≤ a ∧ a < slotOffset (r.1 + r.2)

theorem Footprint.refl (s : State) (rs : List (Nat × Nat)) : Footprint s s rs :=
  ⟨rfl, fun _ _ => rfl, id, fun _ h => .inl h⟩

theorem Footprint.trans {s t u : State} {rs : List (Nat × Nat)} (h1 : Footprint s t rs)
    (h2 : Footprint t u rs) : Footprint s u rs where
  regs := by
    have e2 := h2.regs
    rw [h1.regs, State.setMem_setMem] at e2
    exact e2
  same := fun a ha => (h2.same a ha).trans (h1.same a ha)
  wf := fun h => h2.wf (h1.wf h)
  listed := fun a h => by
    rcases h2.listed a h with h | h
    · exact h1.listed a h
    · exact .inr h

theorem Footprint.mono {s t : State} {rs qs : List (Nat × Nat)} (h : Footprint s t rs)
    (hsub : ∀ a, ∀ r ∈ rs, slotOffset r.1 ≤ a → a < slotOffset (r.1 + r.2) →
      ∃ r' ∈ qs, slotOffset r'.1 ≤ a ∧ a < slotOffset (r'.1 + r'.2)) : Footprint s t qs where
  regs := h.regs
  same := fun a ha => by
    apply h.same
    intro r hr
    by_contra hc
    obtain ⟨r', hr', h1, h2⟩ := hsub a r hr (by omega) (by omega)
    have := ha r' hr'
    omega
  wf := h.wf
  listed := fun a ha => by
    rcases h.listed a ha with h' | ⟨r, hr, h1, h2⟩
    · exact .inl h'
    · exact .inr (hsub a r hr h1 h2)

theorem Footprint.setSlot (s : State) {b w i : Nat} (v : Word256) (h1 : b ≤ i) (h2 : i < b + w)
    {rs : List (Nat × Nat)} (hr : (b, w) ∈ rs) : Footprint s (s.setSlot i v) rs where
  regs := by
    rw [State.setSlot_mem]
    rfl
  same := fun a ha => by
    have := ha (b, w) hr
    apply State.byteAt_setSlot
    simp only [slotOffset] at this ⊢
    omega
  wf := State.setSlot_wf i v
  listed := fun a ha => by
    by_cases hin : slotOffset i ≤ a ∧ a < slotOffset i + 32
    · refine .inr ⟨(b, w), hr, ?_, ?_⟩ <;> simp only [slotOffset] at hin ⊢ <;> omega
    · rw [State.setSlot_mem, Memory.get_writeBytes_out] at ha
      · exact .inl ha
      · rw [leBytes_length]
        omega

theorem Footprint.setX (s : State) {b w i : Nat} (v : Nat) (h1 : b ≤ i) (h2 : i < b + w)
    {rs : List (Nat × Nat)} (hr : (b, w) ∈ rs) : Footprint s (s.setX i v) rs :=
  Footprint.setSlot s _ h1 h2 hr

theorem Footprint.setSlots (s : State) {b w i : Nat} (vs : List Word256) (h1 : b ≤ i)
    (h2 : i + vs.length ≤ b + w) {rs : List (Nat × Nat)} (hr : (b, w) ∈ rs) :
    Footprint s (s.setSlots i vs) rs := by
  induction vs generalizing s i with
  | nil => exact Footprint.refl s rs
  | cons v vs ih =>
    simp only [List.length_cons] at h2
    rw [State.setSlots]
    exact (Footprint.setSlot s v h1 (by omega) hr).trans (ih _ (by omega) (by omega))

theorem Footprint.setXs (s : State) {b w i : Nat} (vs : List Nat) (h1 : b ≤ i)
    (h2 : i + vs.length ≤ b + w) {rs : List (Nat × Nat)} (hr : (b, w) ∈ rs) :
    Footprint s (s.setXs i vs) rs := Footprint.setSlots s _ h1 (by simpa using h2) hr

theorem Footprint.iter {s : State} {n : Nat} {f : Nat → State → State} {rs : List (Nat × Nat)}
    (h : ∀ i t, i < n → t = s.setMem t.mem → Footprint t (f i t) rs) : Footprint s (iter n f s) rs := by
  refine iter_induct (fun _ t => Footprint s t rs) (Footprint.refl s rs) ?_
  intro i t hi ht
  exact ht.trans (h i t hi ht.regs)

theorem Footprint.fillSlots (s : State) (f : Nat → Word256) {b w : Nat} {rs : List (Nat × Nat)}
    (hr : (b, w) ∈ rs) : Footprint s (s.fillSlots f b w) rs :=
  Footprint.iter (fun i t hi _ => Footprint.setSlot t _ (by omega) (by omega) hr)

/-- What `fillSlots` leaves in a slot of its range. -/
theorem State.slot_fillSlots_in (s : State) (f : Nat → Word256) {b w i : Nat} (h1 : b ≤ i)
    (h2 : i < b + w) : (s.fillSlots f b w).slot i = f i := by
  rw [State.fillSlots]
  induction w with
  | zero => omega
  | succ w ih =>
    rw [iter_succ]
    by_cases hi : i = b + w
    · rw [← hi]
      exact State.slot_setSlot_same _ _ _
    · rw [State.slot_setSlot_ne _ _ hi]
      exact ih (by omega)

/-- A footprint leaves every slot outside its ranges alone. -/
theorem Footprint.slot {s t : State} {rs : List (Nat × Nat)} (h : Footprint s t rs) {i : Nat}
    (hi : ∀ r ∈ rs, i < r.1 ∨ r.1 + r.2 ≤ i) : t.slot i = s.slot i := by
  apply State.slot_congr
  intro a h1 h2
  apply h.same
  intro r hr
  have := hi r hr
  simp only [slotOffset] at h1 h2 ⊢
  omega

theorem Footprint.x {s t : State} {rs : List (Nat × Nat)} (h : Footprint s t rs) {i : Nat}
    (hi : ∀ r ∈ rs, i < r.1 ∨ r.1 + r.2 ≤ i) : t.x i = s.x i := by
  unfold State.x
  rw [h.slot hi]

/-- Everything `State.offCurve` can do: one draw is counted, and every slot of the ranges is free. -/
theorem State.offCurve_footprint (s : State) (rs : List (Nat × Nat)) :
    Footprint s.countDraw (s.offCurve rs) rs := by
  have key : ∀ (f : Nat → Word256) (qs : List (Nat × Nat)) (t : State), (∀ r ∈ qs, r ∈ rs) →
      Footprint s.countDraw t.countDraw rs →
      Footprint s.countDraw ((qs.foldl (fun st r => st.fillSlots f r.1 r.2) t).countDraw) rs := by
    intro f qs
    induction qs with
    | nil => exact fun t _ ht => ht
    | cons r qs ih =>
      intro t hsub ht
      refine ih _ (fun r' hr' => hsub r' (List.mem_cons_of_mem _ hr')) (ht.trans ?_)
      have hf : Footprint t (t.fillSlots f r.1 r.2) rs :=
        Footprint.fillSlots t f (hsub r (by simp))
      have e := hf.regs
      exact ⟨congrArg State.countDraw e, hf.same, hf.wf, hf.listed⟩
  exact key _ rs s (fun _ h => h) (Footprint.refl _ _)

end Sys2Proof.Machine
end

