-- ==== Sys2Proof/Laws/Commands.lean ====
section
/-! SUPPORT. What one command can do, said once for all of them: `exec_cases`, with the footprint of every
effect that writes operand memory. -/

namespace Sys2Proof.Machine

/-! ### The footprints of the effects -/

section Jacobian

variable {α : Type} (K : CoordField α)

/-- The coordinate field lays every element out in `width` slots. -/
def CoordField.Laid : Prop := ∀ v : α, (K.slots v).length = K.width

theorem g1Field_laid (s : State) : (g1Field s).Laid := fun _ => rfl

theorem g2Field_laid (s : State) : (g2Field s).Laid := fun _ => rfl

variable {K}

theorem Footprint.writeJac (hK : K.Laid) (s : State) {b w i : Nat} (p : Jac α) (h1 : b ≤ i)
    (h2 : i + 3 * K.width ≤ b + w) {rs : List (Nat × Nat)} (hr : (b, w) ∈ rs) :
    Footprint s (writeJac K s i p) rs := by
  refine Footprint.setXs s _ h1 ?_ hr
  simp only [List.length_append, hK p.x, hK p.y, hK p.z]
  omega

theorem bucketSlot_le {d : Desc} {b : Nat} (hb : b < d.nb) :
    d.bb ≤ bucketSlot K d b ∧ bucketSlot K d b + 3 * K.width ≤ d.bb + d.nb * (3 * K.width) := by
  have h : b * (3 * K.width) + 3 * K.width ≤ d.nb * (3 * K.width) := by
    rw [← Nat.succ_mul]
    exact Nat.mul_le_mul_right _ hb
  unfold bucketSlot
  omega

variable [DecidableEq α]

omit [DecidableEq α] in
theorem Footprint.clearBuckets (hK : K.Laid) (d : Desc) (s : State) {rs : List (Nat × Nat)}
    (hr : bucketRange K d ∈ rs) : Footprint s (clearBuckets K d s) rs :=
  Footprint.iter (fun _ t hb _ =>
    Footprint.writeJac hK t _ (bucketSlot_le hb).1 (bucketSlot_le hb).2 hr)

theorem Desc.chunk_le (d : Desc) (w k : Nat) : d.chunk w k ≤ d.nb := by
  have : d.chunk w k < 2 ^ d.c := Nat.mod_lt _ (by positivity)
  unfold Desc.nb
  omega

theorem Footprint.accWindow (hK : K.Laid) (d : Desc) (w : Nat) (s : State) {rs : List (Nat × Nat)}
    (hr : bucketRange K d ∈ rs) : Footprint s (accWindow K d w s) rs := by
  refine Footprint.iter (fun i t _ _ => ?_)
  unfold accPoint
  dsimp only
  split
  · exact Footprint.refl _ _
  · have hc := Desc.chunk_le d w (t.x (d.sb + i))
    have hb : d.chunk w (t.x (d.sb + i)) - 1 < d.nb := by omega
    exact Footprint.writeJac hK t _ (bucketSlot_le hb).1 (bucketSlot_le hb).2 hr

theorem Footprint.msmWindows (hK : K.Laid) (d : Desc) (s : State) {rs : List (Nat × Nat)}
    (hr : bucketRange K d ∈ rs) : Footprint s (msmWindows K d s).1 rs := by
  refine iterDown_induct (fun _ (sa : State × Jac α) => Footprint s sa.1 rs) (Footprint.refl s rs) ?_
  intro w sa _ h
  exact (h.trans (Footprint.clearBuckets hK d sa.1 hr)).trans (Footprint.accWindow hK d w _ hr)

end Jacobian

theorem Footprint.butterfly (s : State) {b w i j k : Nat} {rs : List (Nat × Nat)} (hr : (b, w) ∈ rs)
    (h1 : b ≤ i) (h2 : i < b + w) (h3 : b ≤ j) (h4 : j < b + w) :
    Footprint s (butterfly i j k s) rs :=
  (Footprint.setX s _ h1 h2 hr).trans (Footprint.setX _ _ h3 h4 hr)

theorem revBits_lt (k i : Nat) : revBits k i < 2 ^ k := by
  induction k generalizing i with
  | zero => exact Nat.one_pos
  | succ k ih =>
    have := ih (i / 2)
    rw [revBits, pow_succ]
    have h2 : i % 2 < 2 := Nat.mod_lt _ (by omega)
    have h3 : i % 2 * 2 ^ k ≤ 1 * 2 ^ k := Nat.mul_le_mul_right _ (by omega)
    omega

theorem Footprint.bitReverse (base k : Nat) (s : State) {rs : List (Nat × Nat)}
    (hr : (base, 2 ^ k) ∈ rs) : Footprint s (bitReverse base k s) rs := by
  refine Footprint.iter (fun i t hi _ => ?_)
  have hl := revBits_lt k i
  unfold bitrevStep
  dsimp only
  split
  · exact (Footprint.setX t _ (by omega) (by omega) hr).trans
      (Footprint.setX _ _ (by omega) (by omega) hr)
  · exact Footprint.refl _ _

/-- The two elements of a butterfly of a stage lie in the vector. -/
theorem fftStage_index {k stage blk j : Nat} (hs : stage < k) (hb : blk < 2 ^ (k - 1 - stage))
    (hj : j < 2 ^ stage) : blk * 2 ^ (stage + 1) + j + 2 ^ stage < 2 ^ k := by
  have e : 2 ^ k = 2 ^ (k - 1 - stage) * 2 ^ (stage + 1) := by
    rw [← pow_add]
    congr 1
    omega
  have h : blk * 2 ^ (stage + 1) + 2 ^ (stage + 1) ≤ 2 ^ k := by
    rw [e, ← Nat.succ_mul]
    exact Nat.mul_le_mul_right _ hb
  rw [pow_succ] at h ⊢
  omega

theorem Footprint.fftStage (base k t stage : Nat) (s : State) (hs : stage < k)
    {rs : List (Nat × Nat)} (hr : (base, 2 ^ k) ∈ rs) : Footprint s (fftStage base k t stage s) rs := by
  refine Footprint.iter (fun blk u hb _ => Footprint.iter (fun j v hj _ => ?_))
  have h := fftStage_index hs hb hj
  have h2 := Nat.two_pow_pos stage
  exact Footprint.butterfly v hr (by omega) (by omega) (by omega) (by omega)

theorem Footprint.fftCore (base k t : Nat) (s : State) {rs : List (Nat × Nat)}
    (hr : (base, 2 ^ k) ∈ rs) : Footprint s (fftCore base k t s) rs :=
  (Footprint.bitReverse base k s hr).trans
    (Footprint.iter (fun stage u hs _ => Footprint.fftStage base k t stage u hs hr))

theorem Footprint.scaleVector (base k v : Nat) (s : State) {rs : List (Nat × Nat)}
    (hr : (base, 2 ^ k) ∈ rs) : Footprint s (scaleVector base k v s) rs :=
  Footprint.iter (fun _ u hi _ => Footprint.setX u _ (by omega) (by omega) hr)

/-! ### What a command that completes can do -/

/-- `t` is a next state that command `i` may leave from `s` when it completes. -/
structure Ran (i : Instr) (s t : State) : Prop where
  regs : t = { s with
    mem := t.mem, cpc := nextPc i s, flags := t.flags, lcnt := t.lcnt, status := t.status,
    freeCtr := t.freeCtr }
  foot : Footprint s (s.setMem t.mem) (destRanges i s)
  cFlag : writesC i = false → t.flags.c = s.flags.c
  zFlag : writesZ i = false → t.flags.z = s.flags.z
  orderFlags : writesOrder i = false → t.flags.lt = s.flags.lt ∧ t.flags.gt = s.flags.gt
  tFlag : writesT i = false → t.flags.t = s.flags.t
  lcnt : (∀ n, i ≠ .setlc n) → (∀ a, i ≠ .djnz a) → t.lcnt = s.lcnt
  status : i ≠ .halt → t.status = s.status
  halt : i = .halt → t.status = { s.status with done := true, busy := false }

/-- A command that writes memory alone, and moves on. -/
theorem Ran.write {i : Instr} {s u : State} (h : Footprint s u (destRanges i s))
    (hn : nextPc i s = s.cpc + 1) (hi : i ≠ .halt) : Ran i s u.advance where
  regs := by
    rw [h.regs, hn]
    rfl
  foot := by
    have e := h.regs
    rw [e] at h
    exact h
  cFlag := fun _ => by rw [h.regs]; rfl
  zFlag := fun _ => by rw [h.regs]; rfl
  orderFlags := fun _ => by rw [h.regs]; exact ⟨rfl, rfl⟩
  tFlag := fun _ => by rw [h.regs]; rfl
  lcnt := fun _ _ => by rw [h.regs]; rfl
  status := fun _ => by rw [h.regs]; rfl
  halt := fun e => absurd e hi

/-- A command that draws a free value, writes memory, and moves on. -/
theorem Ran.draw {i : Instr} {s u : State} (h : Footprint s.countDraw u (destRanges i s))
    (hn : nextPc i s = s.cpc + 1) (hi : i ≠ .halt) : Ran i s u.advance where
  regs := by
    rw [h.regs, hn]
    rfl
  foot := by
    have e := h.regs
    rw [e] at h
    exact ⟨rfl, h.same, h.wf, h.listed⟩
  cFlag := fun _ => by rw [h.regs]; rfl
  zFlag := fun _ => by rw [h.regs]; rfl
  orderFlags := fun _ => by rw [h.regs]; exact ⟨rfl, rfl⟩
  tFlag := fun _ => by rw [h.regs]; rfl
  lcnt := fun _ _ => by rw [h.regs]; rfl
  status := fun _ => by rw [h.regs]; rfl
  halt := fun e => absurd e hi

/-- A command that writes memory and flags, and moves on. -/
theorem Ran.flag {i : Instr} {s u : State} {f : Flags} (h : Footprint s u (destRanges i s))
    (hn : nextPc i s = s.cpc + 1) (hi : i ≠ .halt) (hc : writesC i = false → f.c = s.flags.c)
    (hz : writesZ i = false → f.z = s.flags.z)
    (ho : writesOrder i = false → f.lt = s.flags.lt ∧ f.gt = s.flags.gt)
    (ht : writesT i = false → f.t = s.flags.t) : Ran i s (u.setFlags f).advance where
  regs := by
    rw [h.regs, hn]
    rfl
  foot := by
    have e := h.regs
    rw [e] at h
    exact h
  cFlag := hc
  zFlag := hz
  orderFlags := ho
  tFlag := ht
  lcnt := fun _ _ => by rw [h.regs]; rfl
  status := fun _ => by rw [h.regs]; rfl
  halt := fun e => absurd e hi

/-- The causes that a check of a decoded command may raise. -/
def Cause.ofCommand (i : Instr) : Cause → Bool
  | .fetchRange => false
  | .illegalOpcode => false
  | .reservedField => !i.wf
  | _ => true

/-- What `exec` may answer: the fault of a check, or a next state that the command may leave. -/
def Does (i : Instr) (s : State) (o : Outcome) : Prop :=
  (∃ t : Trap, t.cause.ofCommand i = true ∧ o = .next (s.takeFault (encode i) t)) ∨
    ∃ u, o = .next u ∧ Ran i s u

/-- Every trap of the check is one a command may raise. -/
def Check.Sound (i : Instr) (c : Check) : Prop :=
  ∀ (s : State) (t : Trap), c s = some t → t.cause.ofCommand i = true

theorem command_does {i : Instr} {cs : List Check} {eff : State → State} {s : State}
    (hc : ∀ c ∈ cs, Check.Sound i c) (h : Ran i s (eff s)) : Does i s (command i cs eff s) := by
  rcases command_cases i cs eff s with ⟨t, ht, e⟩ | ⟨_, e⟩
  · obtain ⟨c, hm, hs⟩ := firstTrap_mem ht
    exact .inl ⟨t, hc c hm s t hs, e⟩
  · exact .inr ⟨_, e, h⟩

section Sound

variable (i : Instr)

theorem checkRange_sound (b w : Nat) : Check.Sound i (checkRange b w) := by
  intro s t h
  unfold checkRange at h
  split at h <;> simp only [reduceCtorEq, Option.some.injEq] at h
  subst h
  rfl

theorem checkApart_sound (b1 w1 b2 w2 : Nat) : Check.Sound i (checkApart b1 w1 b2 w2) := by
  intro s t h
  unfold checkApart at h
  split at h <;> simp only [reduceCtorEq, Option.some.injEq] at h
  subst h
  rfl

theorem checkCtx_sound (c : FieldCtx) : Check.Sound i (checkCtx c) := by
  intro s t h
  unfold checkCtx at h
  split at h <;> simp only [reduceCtorEq, Option.some.injEq] at h
  subst h
  rfl

theorem checkCanon_sound (c : FieldCtx) (b w : Nat) : Check.Sound i (checkCanon c b w) := by
  intro s t h
  obtain ⟨_, _, _, _, _, rfl⟩ := checkCanon_some h
  rfl

theorem checkReg_sound (r : ConfigRegs → Word256) : Check.Sound i (checkReg r) := by
  intro s t h
  unfold checkReg at h
  split at h <;> simp only [reduceCtorEq, Option.some.injEq] at h
  subst h
  rfl

theorem checkBetaG2_sound (g : Group) : Check.Sound i (checkBetaG2 g) := by
  intro s t h
  cases g
  · cases h
  · exact checkReg_sound i _ s t h

theorem checkCurveConst_sound (g : Group) : Check.Sound i (checkCurveConst g) := by
  intro s t h
  cases g
  · exact checkReg_sound i _ s t h
  · obtain ⟨c, hm, hs⟩ := firstTrap_mem h
    simp only [List.mem_cons, List.not_mem_nil, or_false] at hm
    rcases hm with rfl | rfl <;> exact checkReg_sound i _ s t hs

theorem checkTag_sound (h : Nat) : Check.Sound i (checkTag h) := by
  intro s t e
  unfold checkTag at e
  split at e <;> simp only [reduceCtorEq, Option.some.injEq] at e
  subst e
  rfl

theorem checkRecordValue_sound (c : FieldCtx) (h : Nat) : Check.Sound i (checkRecordValue c h) := by
  intro s t e
  unfold checkRecordValue at e
  split at e
  · exact checkCanon_sound i _ _ _ s t e
  · exact checkCanon_sound i _ _ _ s t e
  · cases e

theorem checkDesc_sound (j : Nat) : Check.Sound i (checkDesc j) := by
  intro s t h
  unfold checkDesc at h
  split at h <;> simp only [reduceCtorEq, Option.some.injEq] at h
  subst h
  rfl

theorem checkWindow_sound (j w : Nat) : Check.Sound i (checkWindow j w) := by
  intro s t h
  unfold checkWindow at h
  split at h <;> simp only [reduceCtorEq, Option.some.injEq] at h
  subst h
  rfl

theorem checkDomain_sound (k : BitVec 7) : Check.Sound i (checkDomain k) := by
  intro s t h
  unfold checkDomain at h
  split at h <;> simp only [reduceCtorEq, Option.some.injEq] at h
  subst h
  rfl

theorem checkNbytes_sound (g : Group) (rd ra rb : SlotIx) (nb : BitVec 7) :
    Check.Sound (.pmul g rd ra rb nb) (checkNbytes nb) := by
  intro s t h
  unfold checkNbytes at h
  split at h <;> simp only [reduceCtorEq, Option.some.injEq] at h
  rename_i hb
  subst h
  simp only [Cause.ofCommand, Instr.wf]
  simpa using hb

end Sound

/-! ### The flag updates -/

@[simp] theorem Flags.setZ_c (f : Flags) (b : Bool) : (f.setZ b).c = f.c := rfl
@[simp] theorem Flags.setZ_z (f : Flags) (b : Bool) : (f.setZ b).z = b := rfl
@[simp] theorem Flags.setZ_lt (f : Flags) (b : Bool) : (f.setZ b).lt = f.lt := rfl
@[simp] theorem Flags.setZ_gt (f : Flags) (b : Bool) : (f.setZ b).gt = f.gt := rfl
@[simp] theorem Flags.setZ_t (f : Flags) (b : Bool) : (f.setZ b).t = f.t := rfl
@[simp] theorem Flags.setT_c (f : Flags) (b : Bool) : (f.setT b).c = f.c := rfl
@[simp] theorem Flags.setT_z (f : Flags) (b : Bool) : (f.setT b).z = f.z := rfl
@[simp] theorem Flags.setT_lt (f : Flags) (b : Bool) : (f.setT b).lt = f.lt := rfl
@[simp] theorem Flags.setT_gt (f : Flags) (b : Bool) : (f.setT b).gt = f.gt := rfl
@[simp] theorem Flags.setT_t (f : Flags) (b : Bool) : (f.setT b).t = b := rfl
@[simp] theorem Flags.ofCmp_c (f : Flags) (a b : Word256) : (f.ofCmp a b).c = f.c := rfl
@[simp] theorem Flags.ofCmp_t (f : Flags) (a b : Word256) : (f.ofCmp a b).t = f.t := rfl

/-! ### One lemma per effect -/

section Effects

variable {α : Type} {K : CoordField α}

/-- A result stored to the point at `d`, or free values there. -/
theorem Ran.storePoint (hK : K.Laid) {i : Instr} {s : State} {d : Nat} (valid : Bool) (v : Jac α)
    (hd : (d, 3 * K.width) ∈ destRanges i s) (hr : destRanges i s = [(d, 3 * K.width)])
    (hn : nextPc i s = s.cpc + 1) (hi : i ≠ .halt) : Ran i s (storePoint K valid d v s).advance := by
  unfold Machine.storePoint
  split
  · exact Ran.write (Footprint.writeJac hK s v (le_refl _) (le_refl _) hd) hn hi
  · exact Ran.draw (hr ▸ State.offCurve_footprint s _) hn hi

end Effects

/-- A command that writes flags alone, and moves on. -/
theorem Ran.flagsOnly {i : Instr} {s : State} {f : Flags} (hn : nextPc i s = s.cpc + 1)
    (hi : i ≠ .halt) (hc : writesC i = false → f.c = s.flags.c)
    (hz : writesZ i = false → f.z = s.flags.z)
    (ho : writesOrder i = false → f.lt = s.flags.lt ∧ f.gt = s.flags.gt)
    (ht : writesT i = false → f.t = s.flags.t) : Ran i s (s.setFlags f).advance :=
  Ran.flag (Footprint.refl s _) hn hi hc hz ho ht

/-- A command that writes Z alone. -/
theorem Ran.zOnly {i : Instr} {s : State} (b : Bool) (hn : nextPc i s = s.cpc + 1) (hi : i ≠ .halt)
    (hz : writesZ i = true) : Ran i s (s.setFlags (s.flags.setZ b)).advance :=
  Ran.flagsOnly hn hi (fun _ => Flags.setZ_c _ _) (fun h => absurd hz (by simp [h]))
    (fun _ => ⟨Flags.setZ_lt _ _, Flags.setZ_gt _ _⟩) (fun _ => Flags.setZ_t _ _)

/-- A command that writes T alone. -/
theorem Ran.tOnly {i : Instr} {s : State} (b : Bool) (hn : nextPc i s = s.cpc + 1) (hi : i ≠ .halt)
    (ht : writesT i = true) : Ran i s (s.setFlags (s.flags.setT b)).advance :=
  Ran.flagsOnly hn hi (fun _ => Flags.setT_c _ _) (fun _ => Flags.setT_z _ _)
    (fun _ => ⟨Flags.setT_lt _ _, Flags.setT_gt _ _⟩) (fun h => absurd ht (by simp [h]))

/-- A command that moves the pc, the count or the status, and writes no memory. -/
theorem Ran.control {i : Instr} {s t : State} (h : t = { s with
      cpc := nextPc i s, lcnt := t.lcnt, status := t.status })
    (hl : (∀ n, i ≠ .setlc n) → (∀ a, i ≠ .djnz a) → t.lcnt = s.lcnt)
    (hs : i ≠ .halt → t.status = s.status)
    (hh : i = .halt → t.status = { s.status with done := true, busy := false }) : Ran i s t where
  regs := by
    rw [h]
  foot := by
    have : s.setMem t.mem = s := by
      rw [h]
      rfl
    rw [this]
    exact Footprint.refl s _
  cFlag := fun _ => by rw [h]
  zFlag := fun _ => by rw [h]
  orderFlags := fun _ => by rw [h]; exact ⟨rfl, rfl⟩
  tFlag := fun _ => by rw [h]
  lcnt := hl
  status := hs
  halt := hh

/-! ### All commands -/

theorem sounds_nil (i : Instr) : ∀ c ∈ ([] : List Check), Check.Sound i c := by simp

theorem sounds_cons {i : Instr} {c : Check} {cs : List Check} (h : Check.Sound i c)
    (hs : ∀ c ∈ cs, Check.Sound i c) : ∀ d ∈ c :: cs, Check.Sound i d := by
  intro d hd
  rcases List.mem_cons.1 hd with rfl | hd
  · exact h
  · exact hs d hd

theorem execNop_does (s : State) : Does .nop s (execNop s) :=
  command_does (sounds_nil _) (Ran.control rfl (fun _ _ => rfl) (fun _ => rfl) (fun h => nomatch h))

theorem execHalt_does (s : State) : Does .halt s (execHalt s) :=
  command_does (sounds_nil _) (Ran.control rfl (fun _ _ => rfl) (fun h => absurd rfl h) (fun _ => rfl))

theorem execJmp_does (a : BitVec 16) (s : State) : Does (.jmp a) s (execJmp a s) :=
  command_does (sounds_nil _) (Ran.control rfl (fun _ _ => rfl) (fun _ => rfl) (fun h => nomatch h))

theorem nextPc_brf (cc : Cond) (a : BitVec 16) (s : State) :
    nextPc (.brf cc a) s = if s.flags.holds cc then a.setWidth 17 else s.cpc + 1 := rfl

theorem nextPc_djnz (a : BitVec 16) (s : State) :
    nextPc (.djnz a) s = if s.lcnt - 1 ≠ 0 then a.setWidth 17 else s.cpc + 1 := rfl

theorem execBrf_does (cc : Cond) (a : BitVec 16) (s : State) : Does (.brf cc a) s (execBrf cc a s) := by
  refine command_does (sounds_nil _) ?_
  by_cases h : s.flags.holds cc = true
  · rw [if_pos h]
    exact Ran.control (by rw [nextPc_brf, if_pos h]; rfl) (fun _ _ => rfl) (fun _ => rfl) (fun h => nomatch h)
  · rw [if_neg h]
    exact Ran.control (by rw [nextPc_brf, if_neg h]; rfl) (fun _ _ => rfl) (fun _ => rfl) (fun h => nomatch h)

theorem execSetlc_does (n : BitVec 16) (s : State) : Does (.setlc n) s (execSetlc n s) :=
  command_does (sounds_nil _)
    (Ran.control rfl (fun h _ => absurd rfl (h n)) (fun _ => rfl) (fun h => nomatch h))

theorem execDjnz_does (a : BitVec 16) (s : State) : Does (.djnz a) s (execDjnz a s) := by
  refine command_does (sounds_nil _) ?_
  dsimp only
  by_cases h : s.lcnt - 1 = 0
  · rw [if_pos h]
    exact Ran.control (by rw [nextPc_djnz, if_neg (not_not.2 h)]; rfl) (fun _ h => absurd rfl (h a))
      (fun _ => rfl) (fun h => nomatch h)
  · rw [if_neg h]
    exact Ran.control (by rw [nextPc_djnz, if_pos h]; rfl) (fun _ h => absurd rfl (h a)) (fun _ => rfl)
      (fun h => nomatch h)

theorem execMov_does (rd ra : SlotIx) (m7 : BitVec 7) (s : State) :
    Does (.mov rd ra m7) s (execMov rd ra m7 s) :=
  command_does (sounds_cons (checkRange_sound _ _ _) (sounds_cons (checkRange_sound _ _ _) (sounds_nil _)))
    (Ran.write (u := s.setSlots rd.toNat (s.slots ra.toNat (m7.toNat + 1)))
      (Footprint.setSlots s _ (b := rd.toNat) (w := m7.toNat + 1) (le_refl _) (by rw [State.slots_length])
        (List.mem_singleton.2 rfl)) rfl (by simp))

theorem execLimm_does (rd : SlotIx) (imm : BitVec 32) (s : State) :
    Does (.limm rd imm) s (execLimm rd imm s) :=
  command_does (sounds_cons (checkRange_sound _ _ _) (sounds_nil _))
    (Ran.write (u := s.setSlot rd.toNat (imm.setWidth 256))
      (Footprint.setSlot s _ (b := rd.toNat) (w := 1) (le_refl _) (by omega) (List.mem_singleton.2 rfl)) rfl
      (by simp))

theorem limb2_does {i : Instr} {rd ra rb : SlotIx} {f : Word256 → Word256 → Word256}
    {g : Flags → Word256 → Word256 → Flags} (s : State) (hd : destRanges i s = [(rd.toNat, 1)])
    (hn : nextPc i s = s.cpc + 1) (hi : i ≠ .halt) (hz : writesZ i = true)
    (hg : ∀ fl a b, (writesC i = false → (g fl a b).c = fl.c) ∧ (g fl a b).lt = fl.lt ∧
      (g fl a b).gt = fl.gt ∧ (g fl a b).t = fl.t) : Does i s (limb2 i rd ra rb f g s) :=
  command_does (sounds_cons (checkRange_sound _ _ _) (sounds_cons (checkRange_sound _ _ _)
      (sounds_cons (checkRange_sound _ _ _) (sounds_nil _))))
    (Ran.flag (Footprint.setSlot s _ (le_refl _) (by omega) (hd ▸ List.mem_singleton.2 rfl)) hn hi
      (hg _ _ _).1 (fun h => absurd hz (by simp [h])) (fun _ => ⟨(hg _ _ _).2.1, (hg _ _ _).2.2.1⟩)
      (fun _ => (hg _ _ _).2.2.2))

theorem limb1_does {i : Instr} {rd ra : SlotIx} {f : Word256 → Word256} (s : State)
    (hd : destRanges i s = [(rd.toNat, 1)]) (hn : nextPc i s = s.cpc + 1) (hi : i ≠ .halt)
    (hz : writesZ i = true) : Does i s (limb1 i rd ra f s) :=
  command_does (sounds_cons (checkRange_sound _ _ _) (sounds_cons (checkRange_sound _ _ _) (sounds_nil _)))
    (Ran.flag (Footprint.setSlot s _ (le_refl _) (by omega) (hd ▸ List.mem_singleton.2 rfl)) hn hi
      (fun _ => rfl) (fun h => absurd hz (by simp [h])) (fun _ => ⟨rfl, rfl⟩) (fun _ => rfl))

theorem storeElement_ran {i : Instr} {rd : SlotIx} {v : State → Nat} {s : State}
    (hd : destRanges i s = [(rd.toNat, 1)]) (hn : nextPc i s = s.cpc + 1) (hi : i ≠ .halt) :
    Ran i s (storeElement rd v s) :=
  Ran.write (Footprint.setX s _ (le_refl _) (by omega) (hd ▸ List.mem_singleton.2 rfl)) hn hi

theorem setFq2_ran {i : Instr} {rd : SlotIx} {v : Fq2} {s : State}
    (hd : destRanges i s = [(rd.toNat, 2)]) (hn : nextPc i s = s.cpc + 1) (hi : i ≠ .halt) :
    Ran i s (s.setFq2 rd.toNat v).advance :=
  Ran.write (Footprint.setXs s _ (le_refl _) (by simp) (hd ▸ List.mem_singleton.2 rfl)) hn hi

section Msm

variable {α : Type} [DecidableEq α] {K : CoordField α}

theorem bktaccEffect_ran (hK : K.Laid) {i : Instr} {s : State} {d : Desc} {w : Nat}
    (hd : destRanges i s = [(d.bb, d.nb * (3 * K.width))]) (hn : nextPc i s = s.cpc + 1)
    (hi : i ≠ .halt) : Ran i s (bktaccEffect K d w s).advance := by
  unfold bktaccEffect
  split
  · exact Ran.write (Footprint.refl s _) hn hi
  · split
    · exact Ran.write (Footprint.accWindow hK d w s (hd ▸ List.mem_singleton.2 rfl)) hn hi
    · exact Ran.draw (hd ▸ State.offCurve_footprint s _) hn hi

theorem bktredEffect_ran (hK : K.Laid) {i : Instr} {s : State} {d : Desc} {rd : Nat}
    (hd : destRanges i s = [(rd, 3 * K.width)]) (hn : nextPc i s = s.cpc + 1) (hi : i ≠ .halt) :
    Ran i s (bktredEffect K d rd s).advance := by
  unfold bktredEffect
  split
  · exact Ran.write (Footprint.writeJac hK s _ (le_refl _) (le_refl _) (hd ▸ List.mem_singleton.2 rfl))
      hn hi
  · exact Ran.draw (hd ▸ State.offCurve_footprint s _) hn hi

theorem msmEffect_ran (hK : K.Laid) {i : Instr} {s : State} {d : Desc} {rd : Nat}
    (hd : destRanges i s = [(d.bb, d.nb * (3 * K.width)), (rd, 3 * K.width)])
    (hn : nextPc i s = s.cpc + 1) (hi : i ≠ .halt) : Ran i s (msmEffect K d rd s).advance := by
  unfold msmEffect
  split
  · exact Ran.write ((Footprint.msmWindows hK d s (by rw [hd]; exact List.mem_cons_self ..)).trans
      (Footprint.writeJac hK _ _ (le_refl _) (le_refl _)
        (by rw [hd]; exact List.mem_cons_of_mem _ (List.mem_singleton.2 rfl)))) hn hi
  · exact Ran.draw (hd ▸ State.offCurve_footprint s _) hn hi

end Msm

theorem execLadd_does (rd ra rb : SlotIx) (s : State) :
    Does (.ladd rd ra rb) s (execLadd rd ra rb s) :=
  limb2_does s rfl rfl (by simp) rfl (fun _ _ _ => ⟨(fun h => nomatch h), rfl, rfl, rfl⟩)

theorem execLsub_does (rd ra rb : SlotIx) (s : State) :
    Does (.lsub rd ra rb) s (execLsub rd ra rb s) :=
  limb2_does s rfl rfl (by simp) rfl (fun _ _ _ => ⟨(fun h => nomatch h), rfl, rfl, rfl⟩)

theorem execLcmp_does (ra rb : SlotIx) (s : State) :
    Does (.lcmp ra rb) s (execLcmp ra rb s) :=
  command_does
    (sounds_cons (checkRange_sound _ _ _) (sounds_cons (checkRange_sound _ _ _) (sounds_nil _)))
    (Ran.flagsOnly rfl (by simp) (fun _ => Flags.ofCmp_c _ _ _) (fun h => nomatch h) (fun h => nomatch h)
      (fun _ => Flags.ofCmp_t _ _ _))

theorem execLisz_does (ra : SlotIx) (s : State) :
    Does (.lisz ra) s (execLisz ra s) :=
  command_does (sounds_cons (checkRange_sound _ _ _) (sounds_nil _))
    (Ran.zOnly _ rfl (by simp) rfl)

theorem execLshl_does (rd ra : SlotIx) (amt : BitVec 16) (s : State) :
    Does (.lshl rd ra amt) s (execLshl rd ra amt s) :=
  limb1_does s rfl rfl (by simp) rfl

theorem execLshr_does (rd ra : SlotIx) (amt : BitVec 16) (s : State) :
    Does (.lshr rd ra amt) s (execLshr rd ra amt s) :=
  limb1_does s rfl rfl (by simp) rfl

theorem execLand_does (rd ra rb : SlotIx) (s : State) :
    Does (.land rd ra rb) s (execLand rd ra rb s) :=
  limb2_does s rfl rfl (by simp) rfl (fun _ _ _ => ⟨fun _ => rfl, rfl, rfl, rfl⟩)

theorem execLor_does (rd ra rb : SlotIx) (s : State) :
    Does (.lor rd ra rb) s (execLor rd ra rb s) :=
  limb2_does s rfl rfl (by simp) rfl (fun _ _ _ => ⟨fun _ => rfl, rfl, rfl, rfl⟩)

theorem execLxor_does (rd ra rb : SlotIx) (s : State) :
    Does (.lxor rd ra rb) s (execLxor rd ra rb s) :=
  limb2_does s rfl rfl (by simp) rfl (fun _ _ _ => ⟨fun _ => rfl, rfl, rfl, rfl⟩)

theorem execLnot_does (rd ra : SlotIx) (s : State) :
    Does (.lnot rd ra) s (execLnot rd ra s) :=
  limb1_does s rfl rfl (by simp) rfl

theorem execFadd_does (c : FieldCtx) (rd ra rb : SlotIx) (s : State) :
    Does (.fadd c rd ra rb) s (execFadd c rd ra rb s) :=
  command_does
    (sounds_cons (checkCtx_sound _ _)
    (sounds_cons (checkRange_sound _ _ _)
    (sounds_cons (checkRange_sound _ _ _)
    (sounds_cons (checkRange_sound _ _ _)
    (sounds_cons (checkCanon_sound _ _ _ _) (sounds_cons (checkCanon_sound _ _ _ _) (sounds_nil _)))))))
    (storeElement_ran rfl rfl (by simp))

theorem execFsub_does (c : FieldCtx) (rd ra rb : SlotIx) (s : State) :
    Does (.fsub c rd ra rb) s (execFsub c rd ra rb s) :=
  command_does
    (sounds_cons (checkCtx_sound _ _)
    (sounds_cons (checkRange_sound _ _ _)
    (sounds_cons (checkRange_sound _ _ _)
    (sounds_cons (checkRange_sound _ _ _)
    (sounds_cons (checkCanon_sound _ _ _ _) (sounds_cons (checkCanon_sound _ _ _ _) (sounds_nil _)))))))
    (storeElement_ran rfl rfl (by simp))

theorem execFmul_does (c : FieldCtx) (rd ra rb : SlotIx) (s : State) :
    Does (.fmul c rd ra rb) s (execFmul c rd ra rb s) :=
  command_does
    (sounds_cons (checkCtx_sound _ _)
    (sounds_cons (checkRange_sound _ _ _)
    (sounds_cons (checkRange_sound _ _ _)
    (sounds_cons (checkRange_sound _ _ _)
    (sounds_cons (checkCanon_sound _ _ _ _) (sounds_cons (checkCanon_sound _ _ _ _) (sounds_nil _)))))))
    (storeElement_ran rfl rfl (by simp))

theorem execFneg_does (c : FieldCtx) (rd ra : SlotIx) (s : State) :
    Does (.fneg c rd ra) s (execFneg c rd ra s) :=
  command_does
    (sounds_cons (checkCtx_sound _ _)
    (sounds_cons (checkRange_sound _ _ _)
    (sounds_cons (checkRange_sound _ _ _) (sounds_cons (checkCanon_sound _ _ _ _) (sounds_nil _)))))
    (storeElement_ran rfl rfl (by simp))

theorem execFsqr_does (c : FieldCtx) (rd ra : SlotIx) (s : State) :
    Does (.fsqr c rd ra) s (execFsqr c rd ra s) :=
  command_does
    (sounds_cons (checkCtx_sound _ _)
    (sounds_cons (checkRange_sound _ _ _)
    (sounds_cons (checkRange_sound _ _ _) (sounds_cons (checkCanon_sound _ _ _ _) (sounds_nil _)))))
    (storeElement_ran rfl rfl (by simp))

theorem execFtom_does (c : FieldCtx) (rd ra : SlotIx) (s : State) :
    Does (.ftom c rd ra) s (execFtom c rd ra s) :=
  command_does
    (sounds_cons (checkCtx_sound _ _)
    (sounds_cons (checkRange_sound _ _ _)
    (sounds_cons (checkRange_sound _ _ _) (sounds_cons (checkCanon_sound _ _ _ _) (sounds_nil _)))))
    (storeElement_ran rfl rfl (by simp))

theorem execFfromm_does (c : FieldCtx) (rd ra : SlotIx) (s : State) :
    Does (.ffromm c rd ra) s (execFfromm c rd ra s) :=
  command_does
    (sounds_cons (checkCtx_sound _ _)
    (sounds_cons (checkRange_sound _ _ _)
    (sounds_cons (checkRange_sound _ _ _) (sounds_cons (checkCanon_sound _ _ _ _) (sounds_nil _)))))
    (storeElement_ran rfl rfl (by simp))

theorem execFmulw_does (c : FieldCtx) (rd ra rb : SlotIx) (s : State) :
    Does (.fmulw c rd ra rb) s (execFmulw c rd ra rb s) :=
  command_does
    (sounds_cons (checkCtx_sound _ _)
    (sounds_cons (checkRange_sound _ _ _)
    (sounds_cons (checkRange_sound _ _ _)
    (sounds_cons (checkRange_sound _ _ _) (sounds_cons (checkCanon_sound _ _ _ _) (sounds_nil _))))))
    (storeElement_ran rfl rfl (by simp))

theorem execNorm_does (c : FieldCtx) (rd hdr : SlotIx) (m : NormForm) (s : State) :
    Does (.norm c rd hdr m) s (execNorm c rd hdr m s) :=
  command_does
    (sounds_cons (checkCtx_sound _ _)
    (sounds_cons (checkRange_sound _ _ _)
    (sounds_cons (checkRange_sound _ _ _)
    (sounds_cons (checkTag_sound _ _) (sounds_cons (checkRecordValue_sound _ _ _) (sounds_nil _))))))
    (storeElement_ran rfl rfl (by simp))

theorem execFeisz_does (c : FieldCtx) (hdr : SlotIx) (s : State) :
    Does (.feisz c hdr) s (execFeisz c hdr s) :=
  command_does
    (sounds_cons (checkCtx_sound _ _)
    (sounds_cons (checkRange_sound _ _ _)
    (sounds_cons (checkTag_sound _ _) (sounds_cons (checkRecordValue_sound _ _ _) (sounds_nil _)))))
    (Ran.zOnly _ rfl (by simp) rfl)

theorem execE2add_does (rd ra rb : SlotIx) (s : State) :
    Does (.e2add rd ra rb) s (execE2add rd ra rb s) :=
  command_does
    (sounds_cons (checkCtx_sound _ _)
    (sounds_cons (checkRange_sound _ _ _)
    (sounds_cons (checkRange_sound _ _ _)
    (sounds_cons (checkRange_sound _ _ _)
    (sounds_cons (checkCanon_sound _ _ _ _) (sounds_cons (checkCanon_sound _ _ _ _) (sounds_nil _)))))))
    (setFq2_ran rfl rfl (by simp))

theorem execE2sub_does (rd ra rb : SlotIx) (s : State) :
    Does (.e2sub rd ra rb) s (execE2sub rd ra rb s) :=
  command_does
    (sounds_cons (checkCtx_sound _ _)
    (sounds_cons (checkRange_sound _ _ _)
    (sounds_cons (checkRange_sound _ _ _)
    (sounds_cons (checkRange_sound _ _ _)
    (sounds_cons (checkCanon_sound _ _ _ _) (sounds_cons (checkCanon_sound _ _ _ _) (sounds_nil _)))))))
    (setFq2_ran rfl rfl (by simp))

theorem execE2neg_does (rd ra : SlotIx) (s : State) :
    Does (.e2neg rd ra) s (execE2neg rd ra s) :=
  command_does
    (sounds_cons (checkCtx_sound _ _)
    (sounds_cons (checkRange_sound _ _ _)
    (sounds_cons (checkRange_sound _ _ _) (sounds_cons (checkCanon_sound _ _ _ _) (sounds_nil _)))))
    (setFq2_ran rfl rfl (by simp))

theorem execE2mul_does (rd ra rb : SlotIx) (s : State) :
    Does (.e2mul rd ra rb) s (execE2mul rd ra rb s) :=
  command_does
    (sounds_cons (checkCtx_sound _ _)
    (sounds_cons (checkRange_sound _ _ _)
    (sounds_cons (checkRange_sound _ _ _)
    (sounds_cons (checkRange_sound _ _ _)
    (sounds_cons (checkCanon_sound _ _ _ _)
    (sounds_cons (checkCanon_sound _ _ _ _) (sounds_cons (checkReg_sound _ _) (sounds_nil _))))))))
    (setFq2_ran rfl rfl (by simp))

theorem execE2sqr_does (rd ra : SlotIx) (s : State) :
    Does (.e2sqr rd ra) s (execE2sqr rd ra s) :=
  command_does
    (sounds_cons (checkCtx_sound _ _)
    (sounds_cons (checkRange_sound _ _ _)
    (sounds_cons (checkRange_sound _ _ _)
    (sounds_cons (checkCanon_sound _ _ _ _) (sounds_cons (checkReg_sound _ _) (sounds_nil _))))))
    (setFq2_ran rfl rfl (by simp))

theorem execE2eq_does (ra rb : SlotIx) (s : State) :
    Does (.e2eq ra rb) s (execE2eq ra rb s) :=
  command_does
    (sounds_cons (checkCtx_sound _ _)
    (sounds_cons (checkRange_sound _ _ _)
    (sounds_cons (checkRange_sound _ _ _)
    (sounds_cons (checkCanon_sound _ _ _ _) (sounds_cons (checkCanon_sound _ _ _ _) (sounds_nil _))))))
    (Ran.zOnly _ rfl (by simp) rfl)

theorem execE2isz_does (ra : SlotIx) (s : State) :
    Does (.e2isz ra) s (execE2isz ra s) :=
  command_does
    (sounds_cons (checkCtx_sound _ _)
    (sounds_cons (checkRange_sound _ _ _) (sounds_cons (checkCanon_sound _ _ _ _) (sounds_nil _))))
    (Ran.zOnly _ rfl (by simp) rfl)

theorem execPadd_does (g : Group) (rd ra rb : SlotIx) (s : State) :
    Does (.padd g rd ra rb) s (execPadd g rd ra rb s) :=
  command_does
    (sounds_cons (checkCtx_sound _ _)
    (sounds_cons (checkRange_sound _ _ _)
    (sounds_cons (checkRange_sound _ _ _)
    (sounds_cons (checkRange_sound _ _ _)
    (sounds_cons (checkCanon_sound _ _ _ _)
    (sounds_cons (checkCanon_sound _ _ _ _) (sounds_cons (checkBetaG2_sound _ _) (sounds_nil _))))))))
    (by cases g <;>
      exact Ran.storePoint (fun _ => rfl) _ _ (List.mem_singleton.2 rfl) rfl rfl (by simp))

theorem execPadda_does (g : Group) (rd ra rb : SlotIx) (s : State) :
    Does (.padda g rd ra rb) s (execPadda g rd ra rb s) :=
  command_does
    (sounds_cons (checkCtx_sound _ _)
    (sounds_cons (checkRange_sound _ _ _)
    (sounds_cons (checkRange_sound _ _ _)
    (sounds_cons (checkRange_sound _ _ _)
    (sounds_cons (checkCanon_sound _ _ _ _)
    (sounds_cons (checkCanon_sound _ _ _ _) (sounds_cons (checkBetaG2_sound _ _) (sounds_nil _))))))))
    (by cases g <;>
      exact Ran.storePoint (fun _ => rfl) _ _ (List.mem_singleton.2 rfl) rfl rfl (by simp))

theorem execPdbl_does (g : Group) (rd ra : SlotIx) (s : State) :
    Does (.pdbl g rd ra) s (execPdbl g rd ra s) :=
  command_does
    (sounds_cons (checkCtx_sound _ _)
    (sounds_cons (checkRange_sound _ _ _)
    (sounds_cons (checkRange_sound _ _ _)
    (sounds_cons (checkCanon_sound _ _ _ _) (sounds_cons (checkBetaG2_sound _ _) (sounds_nil _))))))
    (by cases g <;>
      exact Ran.storePoint (fun _ => rfl) _ _ (List.mem_singleton.2 rfl) rfl rfl (by simp))

theorem execPneg_does (g : Group) (rd ra : SlotIx) (s : State) :
    Does (.pneg g rd ra) s (execPneg g rd ra s) :=
  command_does
    (sounds_cons (checkCtx_sound _ _)
    (sounds_cons (checkRange_sound _ _ _)
    (sounds_cons (checkRange_sound _ _ _) (sounds_cons (checkCanon_sound _ _ _ _) (sounds_nil _)))))
    (by cases g <;>
      exact Ran.write (Footprint.writeJac (fun _ => rfl) s _ (le_refl _) (le_refl _) (List.mem_singleton.2 rfl))
          rfl (by simp))

theorem execPisz_does (g : Group) (ra : SlotIx) (s : State) :
    Does (.pisz g ra) s (execPisz g ra s) :=
  command_does
    (sounds_cons (checkCtx_sound _ _)
    (sounds_cons (checkRange_sound _ _ _) (sounds_cons (checkCanon_sound _ _ _ _) (sounds_nil _))))
    (Ran.tOnly _ rfl (by simp) rfl)

theorem execPonc_does (g : Group) (ra : SlotIx) (s : State) :
    Does (.ponc g ra) s (execPonc g ra s) :=
  command_does
    (sounds_cons (checkCtx_sound _ _)
    (sounds_cons (checkRange_sound _ _ _)
    (sounds_cons (checkCanon_sound _ _ _ _)
    (sounds_cons (checkBetaG2_sound _ _) (sounds_cons (checkCurveConst_sound _ _) (sounds_nil _))))))
    (Ran.tOnly _ rfl (by simp) rfl)

theorem execPfroma_does (g : Group) (rd ra : SlotIx) (s : State) :
    Does (.pfroma g rd ra) s (execPfroma g rd ra s) :=
  command_does
    (sounds_cons (checkCtx_sound _ _)
    (sounds_cons (checkRange_sound _ _ _)
    (sounds_cons (checkRange_sound _ _ _) (sounds_cons (checkCanon_sound _ _ _ _) (sounds_nil _)))))
    (by cases g <;>
      exact Ran.write (Footprint.writeJac (fun _ => rfl) s _ (le_refl _) (le_refl _) (List.mem_singleton.2 rfl))
          rfl (by simp))

theorem execPeq_does (g : Group) (ra rb : SlotIx) (s : State) :
    Does (.peq g ra rb) s (execPeq g ra rb s) :=
  command_does
    (sounds_cons (checkCtx_sound _ _)
    (sounds_cons (checkRange_sound _ _ _)
    (sounds_cons (checkRange_sound _ _ _)
    (sounds_cons (checkCanon_sound _ _ _ _)
    (sounds_cons (checkCanon_sound _ _ _ _) (sounds_cons (checkBetaG2_sound _ _) (sounds_nil _)))))))
    (Ran.tOnly _ rfl (by simp) rfl)

theorem execPmul_does (g : Group) (rd ra rb : SlotIx) (nb : BitVec 7) (s : State) :
    Does (.pmul g rd ra rb nb) s (execPmul g rd ra rb nb s) :=
  command_does
    (sounds_cons (checkNbytes_sound _ _ _ _ _)
    (sounds_cons (checkCtx_sound _ _)
    (sounds_cons (checkRange_sound _ _ _)
    (sounds_cons (checkRange_sound _ _ _)
    (sounds_cons (checkRange_sound _ _ _)
    (sounds_cons (checkCanon_sound _ _ _ _) (sounds_cons (checkBetaG2_sound _ _) (sounds_nil _))))))))
    (by cases g <;>
      exact Ran.storePoint (fun _ => rfl) _ _ (List.mem_singleton.2 rfl) rfl rfl (by simp))

theorem execBktclr_does (g : Group) (desc : SlotIx) (s : State) :
    Does (.bktclr g desc) s (execBktclr g desc s) :=
  command_does
    (sounds_cons (checkCtx_sound _ _)
    (sounds_cons (checkRange_sound _ _ _)
    (sounds_cons (checkDesc_sound _ _)
    (sounds_cons (fun s => checkRange_sound _ _ _ s)
    (sounds_cons (fun s => checkApart_sound _ _ _ _ _ s) (sounds_nil _))))))
    (by cases g <;>
      exact Ran.write (Footprint.clearBuckets (fun _ => rfl) _ s (List.mem_singleton.2 rfl)) rfl (by simp))

theorem execBktacc_does (g : Group) (desc : SlotIx) (w : BitVec 16) (s : State) :
    Does (.bktacc g desc w) s (execBktacc g desc w s) :=
  command_does
    (sounds_cons (checkCtx_sound _ _)
    (sounds_cons (checkRange_sound _ _ _)
    (sounds_cons (checkDesc_sound _ _)
    (sounds_cons (checkWindow_sound _ _ _)
    (sounds_cons (fun s => checkRange_sound _ _ _ s)
    (sounds_cons (fun s => checkRange_sound _ _ _ s)
    (sounds_cons (fun s => checkRange_sound _ _ _ s)
    (sounds_cons (fun s => checkApart_sound _ _ _ _ _ s)
    (sounds_cons (fun s => checkApart_sound _ _ _ _ _ s)
    (sounds_cons (fun s => checkApart_sound _ _ _ _ _ s)
    (sounds_cons (fun s => checkCanon_sound _ _ _ _ s)
    (sounds_cons (fun s => checkCanon_sound _ _ _ _ s) (sounds_cons (checkBetaG2_sound _ _) (sounds_nil _))))))))))))))
    (by cases g <;> exact bktaccEffect_ran (fun _ => rfl) rfl rfl (by simp))

theorem execBktred_does (g : Group) (rd desc : SlotIx) (s : State) :
    Does (.bktred g rd desc) s (execBktred g rd desc s) :=
  command_does
    (sounds_cons (checkCtx_sound _ _)
    (sounds_cons (checkRange_sound _ _ _)
    (sounds_cons (checkRange_sound _ _ _)
    (sounds_cons (checkDesc_sound _ _)
    (sounds_cons (fun s => checkRange_sound _ _ _ s)
    (sounds_cons (fun s => checkApart_sound _ _ _ _ _ s)
    (sounds_cons (fun s => checkCanon_sound _ _ _ _ s) (sounds_cons (checkBetaG2_sound _ _) (sounds_nil _)))))))))
    (by cases g <;> exact bktredEffect_ran (fun _ => rfl) rfl rfl (by simp))

theorem execMsm_does (g : Group) (rd desc : SlotIx) (s : State) :
    Does (.msm g rd desc) s (execMsm g rd desc s) :=
  command_does
    (sounds_cons (checkCtx_sound _ _)
    (sounds_cons (checkRange_sound _ _ _)
    (sounds_cons (checkRange_sound _ _ _)
    (sounds_cons (checkDesc_sound _ _)
    (sounds_cons (fun s => checkRange_sound _ _ _ s)
    (sounds_cons (fun s => checkRange_sound _ _ _ s)
    (sounds_cons (fun s => checkRange_sound _ _ _ s)
    (sounds_cons (fun s => checkApart_sound _ _ _ _ _ s)
    (sounds_cons (fun s => checkApart_sound _ _ _ _ _ s)
    (sounds_cons (fun s => checkApart_sound _ _ _ _ _ s)
    (sounds_cons (fun s => checkCanon_sound _ _ _ _ s) (sounds_cons (checkBetaG2_sound _ _) (sounds_nil _)))))))))))))
    (by cases g <;> exact msmEffect_ran (fun _ => rfl) rfl rfl (by simp))

theorem execBfly_does (rd ra rb : SlotIx) (s : State) :
    Does (.bfly rd ra rb) s (execBfly rd ra rb s) :=
  command_does
    (sounds_cons (checkCtx_sound _ _)
    (sounds_cons (checkRange_sound _ _ _)
    (sounds_cons (checkRange_sound _ _ _)
    (sounds_cons (checkRange_sound _ _ _)
    (sounds_cons (checkCanon_sound _ _ _ _)
    (sounds_cons (checkCanon_sound _ _ _ _) (sounds_cons (checkCanon_sound _ _ _ _) (sounds_nil _))))))))
    (Ran.write ((Footprint.setX s _ (le_refl _) (Nat.lt_succ_self _) (List.mem_cons_self ..)).trans
      (Footprint.setX _ _ (le_refl _) (Nat.lt_succ_self _)
        (List.mem_cons_of_mem _ (List.mem_singleton.2 rfl)))) rfl (by simp))

theorem execBitrev_does (base : SlotIx) (k : BitVec 7) (s : State) :
    Does (.bitrev base k) s (execBitrev base k s) :=
  command_does (sounds_cons (checkRange_sound _ _ _) (sounds_nil _))
    (Ran.write (Footprint.bitReverse _ _ s (List.mem_singleton.2 rfl)) rfl (by simp))

theorem execFft_does (base : SlotIx) (k : BitVec 7) (s : State) :
    Does (.fft base k) s (execFft base k s) :=
  command_does
    (sounds_cons (checkCtx_sound _ _)
    (sounds_cons (checkDomain_sound _ _)
    (sounds_cons (checkRange_sound _ _ _)
    (sounds_cons (fun s => checkRange_sound _ _ _ s)
    (sounds_cons (fun s => checkApart_sound _ _ _ _ _ s)
    (sounds_cons (checkCanon_sound _ _ _ _)
    (sounds_cons (fun s => checkCanon_sound _ _ _ _ s) (sounds_nil _))))))))
    (Ran.write (Footprint.fftCore _ _ _ s (List.mem_singleton.2 rfl)) rfl (by simp))

theorem execIfft_does (base : SlotIx) (k : BitVec 7) (s : State) :
    Does (.ifft base k) s (execIfft base k s) :=
  command_does
    (sounds_cons (checkCtx_sound _ _)
    (sounds_cons (checkDomain_sound _ _)
    (sounds_cons (checkRange_sound _ _ _)
    (sounds_cons (fun s => checkRange_sound _ _ _ s)
    (sounds_cons (fun s => checkApart_sound _ _ _ _ _ s)
    (sounds_cons (checkCanon_sound _ _ _ _)
    (sounds_cons (fun s => checkCanon_sound _ _ _ _ s) (sounds_nil _))))))))
    (Ran.write ((Footprint.fftCore _ _ _ s (List.mem_singleton.2 rfl)).trans
      (Footprint.scaleVector _ _ _ _ (List.mem_singleton.2 rfl))) rfl (by simp))

/-- Everything `exec` can do: the fault of a failing check, or the command's own effect, which writes
only the destination slots, the flags of R200, CPC, LCNT, STATUS (HALT) and the count of draws. -/
theorem exec_does (i : Instr) (s : State) : Does i s (exec i s) := by
  cases i
  case nop => exact execNop_does s
  case halt => exact execHalt_does s
  case jmp a => exact execJmp_does a s
  case brf cc a => exact execBrf_does cc a s
  case setlc n => exact execSetlc_does n s
  case djnz a => exact execDjnz_does a s
  case mov rd ra n => exact execMov_does rd ra n s
  case limm rd v => exact execLimm_does rd v s
  case ladd rd ra rb => exact execLadd_does rd ra rb s
  case lsub rd ra rb => exact execLsub_does rd ra rb s
  case lcmp ra rb => exact execLcmp_does ra rb s
  case lisz ra => exact execLisz_does ra s
  case lshl rd ra v => exact execLshl_does rd ra v s
  case lshr rd ra v => exact execLshr_does rd ra v s
  case land rd ra rb => exact execLand_does rd ra rb s
  case lor rd ra rb => exact execLor_does rd ra rb s
  case lxor rd ra rb => exact execLxor_does rd ra rb s
  case lnot rd ra => exact execLnot_does rd ra s
  case fadd c rd ra rb => exact execFadd_does c rd ra rb s
  case fsub c rd ra rb => exact execFsub_does c rd ra rb s
  case fmul c rd ra rb => exact execFmul_does c rd ra rb s
  case fneg c rd ra => exact execFneg_does c rd ra s
  case fsqr c rd ra => exact execFsqr_does c rd ra s
  case ftom c rd ra => exact execFtom_does c rd ra s
  case ffromm c rd ra => exact execFfromm_does c rd ra s
  case fmulw c rd ra rb => exact execFmulw_does c rd ra rb s
  case norm c rd h m => exact execNorm_does c rd h m s
  case feisz c h => exact execFeisz_does c h s
  case e2add rd ra rb => exact execE2add_does rd ra rb s
  case e2sub rd ra rb => exact execE2sub_does rd ra rb s
  case e2neg rd ra => exact execE2neg_does rd ra s
  case e2mul rd ra rb => exact execE2mul_does rd ra rb s
  case e2sqr rd ra => exact execE2sqr_does rd ra s
  case e2eq ra rb => exact execE2eq_does ra rb s
  case e2isz ra => exact execE2isz_does ra s
  case padd g rd ra rb => exact execPadd_does g rd ra rb s
  case padda g rd ra rb => exact execPadda_does g rd ra rb s
  case pdbl g rd ra => exact execPdbl_does g rd ra s
  case pneg g rd ra => exact execPneg_does g rd ra s
  case pisz g ra => exact execPisz_does g ra s
  case ponc g ra => exact execPonc_does g ra s
  case pfroma g rd ra => exact execPfroma_does g rd ra s
  case peq g ra rb => exact execPeq_does g ra rb s
  case pmul g rd ra rb n => exact execPmul_does g rd ra rb n s
  case bktclr g d => exact execBktclr_does g d s
  case bktacc g d w => exact execBktacc_does g d w s
  case bktred g rd d => exact execBktred_does g rd d s
  case msm g rd d => exact execMsm_does g rd d s
  case bfly rd ra rb => exact execBfly_does rd ra rb s
  case bitrev b k => exact execBitrev_does b k s
  case fft b k => exact execFft_does b k s
  case ifft b k => exact execIfft_does b k s

end Sys2Proof.Machine
end

