-- ==== Sys2Proof/Laws/Equations.lean ====
section
/-! SUPPORT. `exec` of each constructor as one `command`: its checks in order and its effect. Each
equation holds by unfolding; the lemmas at the end close a goal with it. -/

namespace Sys2Proof.Machine

/-! ### One equation per constructor -/

theorem exec_nop (s : State) : exec .nop s =
  command .nop [] (fun s => s.advance) s := rfl
theorem exec_halt (s : State) : exec .halt s =
  command .halt [] (fun s => s.finish) s := rfl
theorem exec_jmp (target : BitVec 16) (s : State) : exec (.jmp target) s =
  command (.jmp target) [] (fun s => s.branch target) s := rfl
theorem exec_brf (cond : Cond) (target : BitVec 16) (s : State) : exec (.brf cond target) s =
  command (.brf cond target) []
    (fun s => if s.flags.holds cond then s.branch target else s.advance) s := rfl
theorem exec_setlc (imm : BitVec 16) (s : State) : exec (.setlc imm) s =
  command (.setlc imm) [] (fun s => (s.setLcnt imm).advance) s := rfl
theorem exec_djnz (target : BitVec 16) (s : State) : exec (.djnz target) s =
  command (.djnz target) []
    (fun s =>
      let n := s.lcnt - 1
      if n = 0 then (s.setLcnt n).advance else (s.setLcnt n).branch target) s := rfl
theorem exec_mov (rd ra : SlotIx) (m7 : BitVec 7) (s : State) : exec (.mov rd ra m7) s =
  command (.mov rd ra m7)
    [checkRange ra.toNat (m7.toNat + 1), checkRange rd.toNat (m7.toNat + 1)]
    (fun s => (s.setSlots rd.toNat (s.slots ra.toNat (m7.toNat + 1))).advance) s := rfl
theorem exec_limm (rd : SlotIx) (imm : BitVec 32) (s : State) : exec (.limm rd imm) s =
  command (.limm rd imm) [checkRange rd.toNat 1]
    (fun s => (s.setSlot rd.toNat (imm.setWidth 256)).advance) s := rfl
theorem exec_ladd (rd ra rb : SlotIx) (s : State) : exec (.ladd rd ra rb) s =
  limb2 (.ladd rd ra rb) rd ra rb (fun a b => a + b) Flags.ofAdd s := rfl
theorem exec_lsub (rd ra rb : SlotIx) (s : State) : exec (.lsub rd ra rb) s =
  limb2 (.lsub rd ra rb) rd ra rb (fun a b => a - b) Flags.ofSub s := rfl
theorem exec_lcmp (ra rb : SlotIx) (s : State) : exec (.lcmp ra rb) s =
  command (.lcmp ra rb) [checkRange ra.toNat 1, checkRange rb.toNat 1]
    (fun s => (s.setFlags (s.flags.ofCmp (s.slot ra.toNat) (s.slot rb.toNat))).advance) s := rfl
theorem exec_lisz (ra : SlotIx) (s : State) : exec (.lisz ra) s =
  command (.lisz ra) [checkRange ra.toNat 1]
    (fun s => (s.setFlags (s.flags.setZ (decide (s.slot ra.toNat = 0)))).advance) s := rfl
theorem exec_lshl (rd ra : SlotIx) (amt : BitVec 16) (s : State) : exec (.lshl rd ra amt) s =
  limb1 (.lshl rd ra amt) rd ra (fun a => a <<< amt.toNat) s := rfl
theorem exec_lshr (rd ra : SlotIx) (amt : BitVec 16) (s : State) : exec (.lshr rd ra amt) s =
  limb1 (.lshr rd ra amt) rd ra (fun a => a >>> amt.toNat) s := rfl
theorem exec_land (rd ra rb : SlotIx) (s : State) : exec (.land rd ra rb) s =
  limb2 (.land rd ra rb) rd ra rb (fun a b => a &&& b) (zeroFlag (fun a b => a &&& b)) s := rfl
theorem exec_lor (rd ra rb : SlotIx) (s : State) : exec (.lor rd ra rb) s =
  limb2 (.lor rd ra rb) rd ra rb (fun a b => a ||| b) (zeroFlag (fun a b => a ||| b)) s := rfl
theorem exec_lxor (rd ra rb : SlotIx) (s : State) : exec (.lxor rd ra rb) s =
  limb2 (.lxor rd ra rb) rd ra rb (fun a b => a ^^^ b) (zeroFlag (fun a b => a ^^^ b)) s := rfl
theorem exec_lnot (rd ra : SlotIx) (s : State) : exec (.lnot rd ra) s =
  limb1 (.lnot rd ra) rd ra (fun a => ~~~a) s := rfl
theorem exec_fmul (c : FieldCtx) (rd ra rb : SlotIx) (s : State) : exec (.fmul c rd ra rb) s =
  command (.fmul c rd ra rb) (fieldChecks2 c rd ra rb)
    (storeElement rd (fun s => mont (s.ctx c) (s.x ra.toNat) (s.x rb.toNat))) s := rfl
theorem exec_fsqr (c : FieldCtx) (rd ra : SlotIx) (s : State) : exec (.fsqr c rd ra) s =
  command (.fsqr c rd ra) (fieldChecks1 c rd ra)
    (storeElement rd (fun s => mont (s.ctx c) (s.x ra.toNat) (s.x ra.toNat))) s := rfl
theorem exec_fmulw (c : FieldCtx) (rd ra rb : SlotIx) (s : State) : exec (.fmulw c rd ra rb) s =
  command (.fmulw c rd ra rb)
    [checkCtx c, checkRange ra.toNat 1, checkRange rb.toNat 1, checkRange rd.toNat 1,
      checkCanon c ra.toNat 1]
    (storeElement rd (fun s => mont (s.ctx c) (s.x ra.toNat) (limb (s.x rb.toNat) 0 % s.q c))) s := rfl
theorem exec_ftom (c : FieldCtx) (rd ra : SlotIx) (s : State) : exec (.ftom c rd ra) s =
  command (.ftom c rd ra) (fieldChecks1 c rd ra)
    (storeElement rd (fun s => mont (s.ctx c) (s.x ra.toNat) (s.ctx c).r2.toNat)) s := rfl
theorem exec_ffromm (c : FieldCtx) (rd ra : SlotIx) (s : State) : exec (.ffromm c rd ra) s =
  command (.ffromm c rd ra) (fieldChecks1 c rd ra)
    (storeElement rd (fun s => mont (s.ctx c) (s.x ra.toNat) 1)) s := rfl
theorem exec_fadd (c : FieldCtx) (rd ra rb : SlotIx) (s : State) : exec (.fadd c rd ra rb) s =
  command (.fadd c rd ra rb) (fieldChecks2 c rd ra rb)
    (storeElement rd (fun s => addq (s.q c) (s.x ra.toNat) (s.x rb.toNat))) s := rfl
theorem exec_fsub (c : FieldCtx) (rd ra rb : SlotIx) (s : State) : exec (.fsub c rd ra rb) s =
  command (.fsub c rd ra rb) (fieldChecks2 c rd ra rb)
    (storeElement rd (fun s => subq (s.q c) (s.x ra.toNat) (s.x rb.toNat))) s := rfl
theorem exec_fneg (c : FieldCtx) (rd ra : SlotIx) (s : State) : exec (.fneg c rd ra) s =
  command (.fneg c rd ra) (fieldChecks1 c rd ra)
    (storeElement rd (fun s => negq (s.q c) (s.x ra.toNat))) s := rfl
theorem exec_norm (c : FieldCtx) (rd hdr : SlotIx) (m : NormForm) (s : State) :
    exec (.norm c rd hdr m) s =
  command (.norm c rd hdr m)
    [checkCtx c, checkRange hdr.toNat 2, checkRange rd.toNat 1, checkTag hdr.toNat,
      checkRecordValue c hdr.toNat]
    (storeElement rd
      (fun s => normValue (s.ctx c) m (s.x hdr.toNat) (s.x (hdr.toNat + 1)))) s := rfl
theorem exec_feisz (c : FieldCtx) (hdr : SlotIx) (s : State) : exec (.feisz c hdr) s =
  command (.feisz c hdr)
    [checkCtx c, checkRange hdr.toNat 2, checkTag hdr.toNat, checkRecordValue c hdr.toNat]
    (fun s =>
      (s.setFlags (s.flags.setZ
        (decide (recordValue (s.ctx c) (s.x hdr.toNat) (s.x (hdr.toNat + 1)) = 0)))).advance) s := rfl
theorem exec_e2add (rd ra rb : SlotIx) (s : State) : exec (.e2add rd ra rb) s =
  command (.e2add rd ra rb) (fq2Checks2 rd ra rb)
    (fun s => (s.setFq2 rd.toNat (add2 (s.q .fq) (s.fq2 ra.toNat) (s.fq2 rb.toNat))).advance) s := rfl
theorem exec_e2sub (rd ra rb : SlotIx) (s : State) : exec (.e2sub rd ra rb) s =
  command (.e2sub rd ra rb) (fq2Checks2 rd ra rb)
    (fun s => (s.setFq2 rd.toNat (sub2 (s.q .fq) (s.fq2 ra.toNat) (s.fq2 rb.toNat))).advance) s := rfl
theorem exec_e2neg (rd ra : SlotIx) (s : State) : exec (.e2neg rd ra) s =
  command (.e2neg rd ra) (fq2Checks1 rd ra)
    (fun s => (s.setFq2 rd.toNat (neg2 (s.q .fq) (s.fq2 ra.toNat))).advance) s := rfl
theorem exec_e2mul (rd ra rb : SlotIx) (s : State) : exec (.e2mul rd ra rb) s =
  command (.e2mul rd ra rb) (fq2Checks2 rd ra rb ++ [checkBeta])
    (fun s => (s.setFq2 rd.toNat
      (mul2 (s.ctx .fq) s.cfg.beta.toNat (s.fq2 ra.toNat) (s.fq2 rb.toNat))).advance) s := rfl
theorem exec_e2sqr (rd ra : SlotIx) (s : State) : exec (.e2sqr rd ra) s =
  command (.e2sqr rd ra) (fq2Checks1 rd ra ++ [checkBeta])
    (fun s => (s.setFq2 rd.toNat
      (sqr2 (s.ctx .fq) s.cfg.beta.toNat (s.fq2 ra.toNat))).advance) s := rfl
theorem exec_e2eq (ra rb : SlotIx) (s : State) : exec (.e2eq ra rb) s =
  command (.e2eq ra rb)
    [checkCtx .fq, checkRange ra.toNat 2, checkRange rb.toNat 2, checkCanon .fq ra.toNat 2,
      checkCanon .fq rb.toNat 2]
    (fun s => (s.setFlags (s.flags.setZ
      (decide (s.fq2 ra.toNat = s.fq2 rb.toNat)))).advance) s := rfl
theorem exec_e2isz (ra : SlotIx) (s : State) : exec (.e2isz ra) s =
  command (.e2isz ra) [checkCtx .fq, checkRange ra.toNat 2, checkCanon .fq ra.toNat 2]
    (fun s => (s.setFlags (s.flags.setZ
      (decide (s.fq2 ra.toNat = { c0 := 0, c1 := 0 })))).advance) s := rfl
theorem exec_padd (g : Group) (rd ra rb : SlotIx) (s : State) : exec (.padd g rd ra rb) s =
  command (.padd g rd ra rb)
    [checkCtx .fq, checkRange ra.toNat (jw g), checkRange rb.toNat (jw g),
      checkRange rd.toNat (jw g), checkCanon .fq ra.toNat (jw g), checkCanon .fq rb.toNat (jw g),
      checkBetaG2 g]
    (fun s => (onGroup g s (fun _ _ K =>
      paddEffect K rd.toNat ra.toNat rb.toNat s)).advance) s := rfl
theorem exec_padda (g : Group) (rd ra rb : SlotIx) (s : State) : exec (.padda g rd ra rb) s =
  command (.padda g rd ra rb)
    [checkCtx .fq, checkRange ra.toNat (jw g), checkRange rb.toNat (aw g),
      checkRange rd.toNat (jw g), checkCanon .fq ra.toNat (jw g), checkCanon .fq rb.toNat (aw g),
      checkBetaG2 g]
    (fun s => (onGroup g s (fun _ _ K =>
      paddaEffect K rd.toNat ra.toNat rb.toNat s)).advance) s := rfl
theorem exec_pdbl (g : Group) (rd ra : SlotIx) (s : State) : exec (.pdbl g rd ra) s =
  command (.pdbl g rd ra)
    [checkCtx .fq, checkRange ra.toNat (jw g), checkRange rd.toNat (jw g),
      checkCanon .fq ra.toNat (jw g), checkBetaG2 g]
    (fun s => (onGroup g s (fun _ _ K => pdblEffect K rd.toNat ra.toNat s)).advance) s := rfl
theorem exec_pneg (g : Group) (rd ra : SlotIx) (s : State) : exec (.pneg g rd ra) s =
  command (.pneg g rd ra)
    [checkCtx .fq, checkRange ra.toNat (jw g), checkRange rd.toNat (jw g),
      checkCanon .fq ra.toNat (jw g)]
    (fun s => (onGroup g s (fun _ _ K =>
      writeJac K s rd.toNat (jneg K (readJac K s ra.toNat)))).advance) s := rfl
theorem exec_pisz (g : Group) (ra : SlotIx) (s : State) : exec (.pisz g ra) s =
  command (.pisz g ra)
    [checkCtx .fq, checkRange ra.toNat (jw g), checkCanon .fq ra.toNat (jw g)]
    (fun s => (s.setFlags (s.flags.setT (onGroup g s (fun _ _ K =>
      atInfinity K (readJac K s ra.toNat))))).advance) s := rfl
theorem exec_ponc (g : Group) (ra : SlotIx) (s : State) : exec (.ponc g ra) s =
  command (.ponc g ra)
    [checkCtx .fq, checkRange ra.toNat (jw g), checkCanon .fq ra.toNat (jw g), checkBetaG2 g,
      checkCurveConst g]
    (fun s => (s.setFlags (s.flags.setT (onGroup g s (fun _ _ K =>
      onCurve K (readJac K s ra.toNat))))).advance) s := rfl
theorem exec_pfroma (g : Group) (rd ra : SlotIx) (s : State) : exec (.pfroma g rd ra) s =
  command (.pfroma g rd ra)
    [checkCtx .fq, checkRange ra.toNat (aw g), checkRange rd.toNat (jw g),
      checkCanon .fq ra.toNat (aw g)]
    (fun s => (onGroup g s (fun _ _ K =>
      writeJac K s rd.toNat (fromAffine K (readAff K s ra.toNat)))).advance) s := rfl
theorem exec_peq (g : Group) (ra rb : SlotIx) (s : State) : exec (.peq g ra rb) s =
  command (.peq g ra rb)
    [checkCtx .fq, checkRange ra.toNat (jw g), checkRange rb.toNat (jw g),
      checkCanon .fq ra.toNat (jw g), checkCanon .fq rb.toNat (jw g), checkBetaG2 g]
    (fun s => (s.setFlags (s.flags.setT (onGroup g s (fun _ _ K =>
      pointEq K (readJac K s ra.toNat) (readJac K s rb.toNat))))).advance) s := rfl
theorem exec_pmul (g : Group) (rd ra rb : SlotIx) (nb : BitVec 7) (s : State) :
    exec (.pmul g rd ra rb nb) s =
  command (.pmul g rd ra rb nb)
    [checkNbytes nb, checkCtx .fq, checkRange ra.toNat (jw g), checkRange rb.toNat 1,
      checkRange rd.toNat (jw g), checkCanon .fq ra.toNat (jw g), checkBetaG2 g]
    (fun s => (onGroup g s (fun _ _ K =>
      pmulEffect K rd.toNat ra.toNat rb.toNat nb.toNat s)).advance) s := rfl
theorem exec_bktclr (g : Group) (desc : SlotIx) (s : State) : exec (.bktclr g desc) s =
  command (.bktclr g desc)
    [checkCtx .fq, checkRange desc.toNat 1, checkDesc desc.toNat, checkBuckets g desc.toNat,
      checkBucketsDesc g desc.toNat]
    (fun s => (onGroup g s (fun _ _ K => clearBuckets K (s.desc desc.toNat) s)).advance) s := rfl
theorem exec_bktacc (g : Group) (desc : SlotIx) (w : BitVec 16) (s : State) :
    exec (.bktacc g desc w) s =
  command (.bktacc g desc w)
    [checkCtx .fq, checkRange desc.toNat 1, checkDesc desc.toNat, checkWindow desc.toNat w.toNat,
      checkPoints g desc.toNat, checkScalars desc.toNat, checkBuckets g desc.toNat,
      checkBucketsDesc g desc.toNat, checkBucketsPoints g desc.toNat,
      checkBucketsScalars g desc.toNat, checkPointsCanon g desc.toNat,
      checkBucketsCanon g desc.toNat, checkBetaG2 g]
    (fun s => (onGroup g s (fun _ _ K =>
      bktaccEffect K (s.desc desc.toNat) w.toNat s)).advance) s := rfl
theorem exec_bktred (g : Group) (rd desc : SlotIx) (s : State) : exec (.bktred g rd desc) s =
  command (.bktred g rd desc)
    [checkCtx .fq, checkRange desc.toNat 1, checkRange rd.toNat (jw g), checkDesc desc.toNat,
      checkBuckets g desc.toNat, checkBucketsDesc g desc.toNat, checkBucketsCanon g desc.toNat,
      checkBetaG2 g]
    (fun s => (onGroup g s (fun _ _ K =>
      bktredEffect K (s.desc desc.toNat) rd.toNat s)).advance) s := rfl
theorem exec_msm (g : Group) (rd desc : SlotIx) (s : State) : exec (.msm g rd desc) s =
  command (.msm g rd desc)
    [checkCtx .fq, checkRange desc.toNat 1, checkRange rd.toNat (jw g), checkDesc desc.toNat,
      checkPoints g desc.toNat, checkScalars desc.toNat, checkBuckets g desc.toNat,
      checkBucketsDesc g desc.toNat, checkBucketsPoints g desc.toNat,
      checkBucketsScalars g desc.toNat, checkPointsCanon g desc.toNat, checkBetaG2 g]
    (fun s => (onGroup g s (fun _ _ K =>
      msmEffect K (s.desc desc.toNat) rd.toNat s)).advance) s := rfl
theorem exec_bfly (rd ra rb : SlotIx) (s : State) : exec (.bfly rd ra rb) s =
  command (.bfly rd ra rb)
    [checkCtx .fr, checkRange rd.toNat 1, checkRange ra.toNat 1, checkRange rb.toNat 1,
      checkCanon .fr rd.toNat 1, checkCanon .fr ra.toNat 1, checkCanon .fr rb.toNat 1]
    (fun s => (butterfly rd.toNat ra.toNat rb.toNat s).advance) s := rfl
theorem exec_bitrev (base : SlotIx) (k : BitVec 7) (s : State) : exec (.bitrev base k) s =
  command (.bitrev base k) [checkRange base.toNat (2 ^ k.toNat)]
    (fun s => (bitReverse base.toNat k.toNat s).advance) s := rfl
theorem exec_fft (base : SlotIx) (k : BitVec 7) (s : State) : exec (.fft base k) s =
  command (.fft base k) (fftChecks base k (·.rootBase))
    (fun s => (fftCore base.toNat k.toNat s.cfg.rootBase.toNat s).advance) s := rfl
theorem exec_ifft (base : SlotIx) (k : BitVec 7) (s : State) : exec (.ifft base k) s =
  command (.ifft base k) (fftChecks base k (·.irootBase))
    (fun s => (scaleVector base.toNat k.toNat (ninv (s.ctx .fr) k.toNat)
      (fftCore base.toNat k.toNat s.cfg.irootBase.toNat s)).advance) s := rfl

/-! ### Using an equation -/

/-- A command whose checks pass has its effect. -/
theorem command_runs {i : Instr} {cs : List Check} {eff : State → State} {s : State} {o : Outcome}
    (h : o = command i cs eff s) (hc : firstTrap cs s = none) : o = .next (eff s) :=
  h.trans (command_effect hc)

/-- A command with a failing check takes the fault of the first one. -/
theorem command_faults {i : Instr} {cs : List Check} {eff : State → State} {s : State} {o : Outcome}
    {t : Trap} (h : o = command i cs eff s) (hc : firstTrap cs s = some t) :
    ∃ u, o = .next u ∧ s.Faulted u (encode i) t.cause.code t.info :=
  ⟨_, h.trans (command_fault hc), rfl⟩

/-- A footprint followed by the pc's advance is `Wrote`. -/
theorem Footprint.wrote {s u : State} {rs : List (Nat × Nat)} (h : Footprint s u rs) :
    s.Wrote u.advance rs :=
  ⟨fun a ha => h.same a ha, by rw [h.regs]; rfl⟩

/-- The same with new flags. -/
theorem Footprint.wroteFlags {s u : State} {rs : List (Nat × Nat)} {f : Flags} (h : Footprint s u rs) :
    s.WroteFlags (u.setFlags f).advance rs f :=
  ⟨fun a ha => h.same a ha, by rw [h.regs]; rfl⟩

theorem State.slot_toNat (s : State) (i : Nat) : (s.slot i).toNat = s.x i := rfl

theorem limb2_eq (i : Instr) (rd ra rb : SlotIx) (f : Word256 → Word256 → Word256)
    (g : Flags → Word256 → Word256 → Flags) (s : State) : limb2 i rd ra rb f g s =
  command i [checkRange ra.toNat 1, checkRange rb.toNat 1, checkRange rd.toNat 1]
    (fun s => ((s.setSlot rd.toNat (f (s.slot ra.toNat) (s.slot rb.toNat))).setFlags
      (g s.flags (s.slot ra.toNat) (s.slot rb.toNat))).advance) s := rfl

theorem limb1_eq (i : Instr) (rd ra : SlotIx) (f : Word256 → Word256) (s : State) :
    limb1 i rd ra f s = command i [checkRange ra.toNat 1, checkRange rd.toNat 1]
      (fun s => ((s.setSlot rd.toNat (f (s.slot ra.toNat))).setFlags
        (s.flags.setZ (decide (f (s.slot ra.toNat) = 0)))).advance) s := rfl

/-! ### The checks that pass, one by one -/

theorem checkCanon_passes {s : State} {c : FieldCtx} {b w : Nat} (h : s.Canonical c b w) :
    checkCanon c b w s = none := (checkCanon_none c b w s).2 h

theorem checkCtx_passes {s : State} {c : FieldCtx} (h : (s.ctx c).valid = true) :
    checkCtx c s = none := by simp [h]

theorem checkRange_passes {s : State} {b w : Nat} (h : s.inRange b w = true) :
    checkRange b w s = none := by simp [h]

theorem checkRange_fails {s : State} {b w : Nat} (h : ¬ s.inRange b w = true) :
    checkRange b w s = some { cause := .operandRange, info := slotInfo b } := by
  rw [checkRange, if_neg h]

theorem slotInfo_slotIx (r : SlotIx) : slotInfo r.toNat = r.setWidth 32 := by
  unfold slotInfo
  simp

end Sys2Proof.Machine
end

