-- ==== Sys2Proof/Laws/Values.lean ====
section
/-! SUPPORT. What the arithmetic primitives and the operations that store their results can do, said once
for each: one pass of the multiplier's loop, the additive primitives, slots after a store, points after
`writeJac`, the group law's closure, the CSRs. -/

namespace Sys2Proof.Machine

/-! ### Contexts and the multiplier's loop (42_montgomery.md R241, R242) -/

theorem Ctx.valid_iff (k : Ctx) : k.valid = true ↔ k.q.toNat % 2 = 1 ∧ 3 ≤ k.q.toNat ∧
    k.r2.toNat = 2 ^ 512 % k.q.toNat ∧ k.np.toNat * k.q.toNat % 2 ^ 64 = 1 :=
  decide_eq_true_iff

theorem limb_lt (v j : Nat) : limb v j < 2 ^ 64 := Nat.mod_lt _ (by norm_num)

/-- A 256-bit value is the sum of its limbs. -/
theorem limb_sum (a : Nat) (h : a < 2 ^ 256) :
    a = limb a 0 + 2 ^ 64 * limb a 1 + 2 ^ 128 * limb a 2 + 2 ^ 192 * limb a 3 := by
  unfold limb
  norm_num at *
  omega

/-- One pass divides exactly: some multiple of q makes the sum a multiple of 2^64. -/
theorem redcStep_exact (k : Ctx) (hv : k.valid = true) (a b i t : Nat) :
    ∃ m, m < 2 ^ 64 ∧ 2 ^ 64 * redcStep k a b i t = t + limb a i * b + m * k.q.toNat := by
  obtain ⟨h1, h2, h3, h4⟩ := k.valid_iff.1 hv
  unfold redcStep
  dsimp only
  have hnp : k.np.toNat < 2 ^ 64 := k.np.isLt
  generalize k.q.toNat = q at *
  generalize k.np.toNat = np at *
  generalize t + limb a i * b = t1
  have hl : limb t1 0 = t1 % 2 ^ 64 := by simp [limb]
  rw [hl]
  refine ⟨t1 % 2 ^ 64 * ((2 ^ 64 - np) % 2 ^ 64) % 2 ^ 64, Nat.mod_lt _ (by norm_num), ?_⟩
  apply Nat.mul_div_cancel'
  have e : (t1 % 2 ^ 64 * ((2 ^ 64 - np) % 2 ^ 64) % 2 ^ 64 * q) % 2 ^ 64 =
      (t1 * ((2 ^ 64 - np) * q)) % 2 ^ 64 := by
    rw [Nat.mod_mul_mod, ← mul_assoc]
    conv_lhs => rw [Nat.mul_mod, Nat.mul_mod (t1 % 2 ^ 64)]
    conv_rhs => rw [Nat.mul_mod, Nat.mul_mod t1]
    simp
  apply Nat.dvd_of_mod_eq_zero
  rw [Nat.add_mod, e, ← Nat.add_mod]
  have e2 : t1 + t1 * ((2 ^ 64 - np) * q) = t1 * (1 + (2 ^ 64 - np) * q) := by ring
  rw [e2]
  have e3 : (1 + (2 ^ 64 - np) * q) % 2 ^ 64 = 0 := by
    have : (2 ^ 64 - np) * q + np * q = 2 ^ 64 * q := by
      rw [← add_mul]
      congr 1
      omega
    omega
  rw [Nat.mul_mod, e3]
  simp

/-- One pass keeps the running sum below 2q. -/
theorem redcStep_bound (k : Ctx) (hv : k.valid = true) (a b i t : Nat) (hb : b < k.q.toNat)
    (ht : t < 2 * k.q.toNat) : redcStep k a b i t < 2 * k.q.toNat := by
  obtain ⟨m, hm, e⟩ := redcStep_exact k hv a b i t
  have hl := limb_lt a i
  generalize k.q.toNat = q at *
  have h1 : limb a i * b ≤ (2 ^ 64 - 1) * q := Nat.mul_le_mul (by omega) (by omega)
  have h2 : m * q ≤ (2 ^ 64 - 1) * q := Nat.mul_le_mul_right _ (by omega)
  have h3 : 2 ^ 64 * redcStep k a b i t < 2 ^ 64 * (2 * q) := by
    rw [e]
    have h4 : (2 ^ 64 - 1) * q + (2 ^ 64 - 1) * q + 2 * q = 2 ^ 64 * (2 * q) := by
      have : (2 : Nat) ^ 64 = (2 ^ 64 - 1) + 1 := by norm_num
      rw [this]
      ring_nf
    omega
  exact Nat.lt_of_mul_lt_mul_left h3

/-- R = 2^256 is invertible modulo the modulus of a valid context. -/
theorem Ctx.coprime (k : Ctx) (hv : k.valid = true) : Nat.Coprime (2 ^ 256) k.q.toNat := by
  apply Nat.Coprime.pow_left
  rw [Nat.coprime_two_left]
  exact Nat.odd_iff.2 (k.valid_iff.1 hv).1

/-- Residues with equal products by R are equal. -/
theorem Ctx.r_injective (k : Ctx) (hv : k.valid = true) {x y : Nat} (hx : x < k.q.toNat)
    (hy : y < k.q.toNat) (h : x * 2 ^ 256 % k.q.toNat = y * 2 ^ 256 % k.q.toNat) : x = y := by
  have h1 : x ≡ y [MOD k.q.toNat] :=
    Nat.ModEq.cancel_right_of_coprime (by rw [Nat.gcd_comm]; exact k.coprime hv) h
  have h2 : x % k.q.toNat = y % k.q.toNat := h1
  rwa [Nat.mod_eq_of_lt hx, Nat.mod_eq_of_lt hy] at h2

theorem Ctx.lt_word (k : Ctx) {a : Nat} (h : a < k.q.toNat) : a < 2 ^ 256 := h.trans k.q.isLt

theorem State.q_lt (s : State) (c : FieldCtx) : s.q c < 2 ^ 256 := (s.ctx c).q.isLt

/-! ### The additive primitives stay below q (43_field_facade.md R280-R282) -/

theorem addq_lt {q a b : Nat} (ha : a < q) (hb : b < q) : addq q a b < q := by
  unfold addq
  split <;> omega

theorem subq_lt {q a b : Nat} (ha : a < q) (hb : b < q) : subq q a b < q := by
  unfold subq
  split <;> omega

theorem negq_lt {q a : Nat} (ha : a < q) : negq q a < q := by
  unfold negq
  split <;> omega

/-! ### Records (43_field_facade.md R285) -/

/-- The short value is the low 32 bits, read as a signed number. -/
theorem shortValue_eq (h : Nat) : shortValue h =
    if h % 2 ^ 32 < 2 ^ 31 then ((h % 2 ^ 32 : Nat) : Int) else ((h % 2 ^ 32 : Nat) : Int) - 2 ^ 32 := by
  rw [shortValue, BitVec.toInt_eq_toNat_cond, BitVec.toNat_ofNat]
  split <;> split <;> first | rfl | omega

/-! ### Results in slots -/

/-- What `storeElement` leaves: one slot written, the value there. -/
theorem storeElement_result {rd : SlotIx} {v : State → Nat} {s : State} (hv : v s < 2 ^ 256) :
    s.Wrote (storeElement rd v s) [(rd.toNat, 1)] ∧ (storeElement rd v s).x rd.toNat = v s := by
  refine ⟨(Footprint.setX s _ (le_refl _) (by omega) (List.mem_singleton.2 rfl)).wrote, ?_⟩
  unfold storeElement
  rw [State.x_advance, State.x_setX_same _ _ hv]

/-- What `setFq2` leaves: two slots written, the components there. -/
theorem setFq2_result {s : State} {rd : Nat} {v : Fq2} (h0 : v.c0 < s.q .fq) (h1 : v.c1 < s.q .fq) :
    s.Wrote (s.setFq2 rd v).advance [(rd, 2)] ∧ (s.setFq2 rd v).advance.x rd = v.c0 ∧
      (s.setFq2 rd v).advance.x (rd + 1) = v.c1 := by
  refine ⟨(Footprint.setXs s _ (le_refl _) (by simp) (List.mem_singleton.2 rfl)).wrote, ?_, ?_⟩
  · rw [State.x_advance]
    exact State.x_setXs_in s rd 0 [v.c0, v.c1] (by simp) (h0.trans (s.q_lt _))
  · rw [State.x_advance]
    exact State.x_setXs_in s rd 1 [v.c0, v.c1] (by simp) (h1.trans (s.q_lt _))

/-! ### Points slot by slot (10_state.md R33; 45_curve.md R340, R343) -/

theorem readJac_g1 (s t : State) (i : Nat) :
    readJac (g1Field s) t i = { x := t.x i, y := t.x (i + 1), z := t.x (i + 2) } := rfl

theorem readJac_g2 (s t : State) (i : Nat) : readJac (g2Field s) t i =
    { x := { c0 := t.x i, c1 := t.x (i + 1) }, y := { c0 := t.x (i + 2), c1 := t.x (i + 3) },
      z := { c0 := t.x (i + 4), c1 := t.x (i + 5) } } := rfl

theorem readAff_g1 (s t : State) (i : Nat) :
    readAff (g1Field s) t i = { x := t.x i, y := t.x (i + 1) } := rfl

theorem readAff_g2 (s t : State) (i : Nat) : readAff (g2Field s) t i =
    { x := { c0 := t.x i, c1 := t.x (i + 1) }, y := { c0 := t.x (i + 2), c1 := t.x (i + 3) } } := rfl

theorem infPoint_g1 (s : State) :
    infPoint (g1Field s) = { x := oneOf (s.ctx .fq), y := oneOf (s.ctx .fq), z := 0 } := rfl

theorem infPoint_g2 (s : State) : infPoint (g2Field s) =
    { x := { c0 := oneOf (s.ctx .fq), c1 := 0 }, y := { c0 := oneOf (s.ctx .fq), c1 := 0 },
      z := { c0 := 0, c1 := 0 } } := rfl

/-- A point is valid in the statements' words iff it is in those of the commands. -/
theorem State.validPoint_iff (s : State) (g : Group) (i : Nat) :
    s.ValidPoint g i ↔ onGroup g s (fun _ _ K => validJac K (readJac K s i)) = true := by
  rw [State.ValidPoint]
  cases g
  · have hc : (g1Field s).bCanonical = decide (s.cfg.b1.toNat < s.q .fq) := rfl
    simp only [onGroup, validJac, State.NoConstant, hc, Bool.or_eq_true, Bool.not_eq_true',
      decide_eq_false_iff_not, Nat.not_lt]
  · have hc : (g2Field s).bCanonical =
      decide (s.cfg.b2c0.toNat < s.q .fq ∧ s.cfg.b2c1.toNat < s.q .fq) := rfl
    simp only [onGroup, validJac, State.NoConstant, hc, Bool.or_eq_true, Bool.not_eq_true',
      decide_eq_false_iff_not, not_and_or, Nat.not_lt]

/-! ### Coordinate fields: closure, and points in slots (45_curve.md R340-R347) -/

/-- The operations of `K` keep `El`, whose elements fit their slots. -/
structure CoordField.Closed {α : Type} (K : CoordField α) (El : α → Prop) : Prop where
  laid : K.Laid
  zero : El K.zero
  one : El K.one
  add : ∀ a b, El a → El b → El (K.add a b)
  sub : ∀ a b, El a → El b → El (K.sub a b)
  mul : ∀ a b, El a → El b → El (K.mul a b)
  neg : ∀ a, El a → El (K.neg a)
  slots : ∀ v, El v → ∀ y ∈ K.slots v, y < 2 ^ 256
  read : ∀ (x : Nat → Nat) i v,
    (∀ j (h : j < (K.slots v).length), x (i + j) = (K.slots v)[j]) → K.read x i = v

section

variable {α : Type} {K : CoordField α} {El : α → Prop}

/-- Every coordinate of a Jacobian point is in `El`. -/
def Jac.All (El : α → Prop) (p : Jac α) : Prop := El p.x ∧ El p.y ∧ El p.z

/-- Every coordinate of an affine point is in `El`. -/
def Aff.All (El : α → Prop) (p : Aff α) : Prop := El p.x ∧ El p.y

variable (o : K.Closed El)

include o

/-- A point reads back from the slots it was written to. -/
theorem readJac_writeJac (s : State) (d : Nat) (p : Jac α) (h : p.All El) :
    readJac K (writeJac K s d p) d = p := by
  obtain ⟨hx, hy, hz⟩ := h
  have lx := o.laid p.x
  have ly := o.laid p.y
  have lz := o.laid p.z
  have key : ∀ j (hj : j < (K.slots p.x ++ K.slots p.y ++ K.slots p.z).length),
      (writeJac K s d p).x (d + j) = (K.slots p.x ++ K.slots p.y ++ K.slots p.z)[j] := by
    intro j hj
    apply State.x_setXs_in
    have hm := List.getElem_mem hj
    simp only [List.mem_append] at hm
    rcases hm with (hm | hm) | hm
    exacts [o.slots _ hx _ hm, o.slots _ hy _ hm, o.slots _ hz _ hm]
  unfold readJac
  cases p with | mk x y z =>
  dsimp only at *
  congr 1
  · apply o.read
    intro j hj
    rw [key j (by simp; omega), List.getElem_append_left (by simp; omega),
      List.getElem_append_left hj]
  · apply o.read
    intro j hj
    rw [add_assoc, key (K.width + j) (by simp; omega), List.getElem_append_left (by simp; omega),
      List.getElem_append_right (by omega)]
    congr 1
    omega
  · apply o.read
    intro j hj
    rw [add_assoc, key (2 * K.width + j) (by simp; omega),
      List.getElem_append_right (by simp; omega)]
    congr 1
    simp
    omega

/-- What a written point leaves: its slots written, the point there. -/
theorem writeJac_result {s : State} {d : Nat} {p : Jac α} (h : p.All El) :
    s.Wrote (writeJac K s d p).advance [(d, 3 * K.width)] ∧
      readJac K (writeJac K s d p).advance d = p := by
  refine ⟨(Footprint.writeJac o.laid s p (le_refl _) (le_refl _) (List.mem_singleton.2 rfl)).wrote, ?_⟩
  have e : readJac K (writeJac K s d p).advance d = readJac K (writeJac K s d p) d := by
    unfold readJac
    rw [show (writeJac K s d p).advance.x = (writeJac K s d p).x from funext (State.x_advance _)]
  rw [e]
  exact readJac_writeJac o s d p h

theorem ksq_closed {a : α} (h : El a) : El (ksq K a) := o.mul _ _ h h

theorem kdbl_closed {a : α} (h : El a) : El (kdbl K a) := o.add _ _ h h

theorem ktpl_closed {a : α} (h : El a) : El (ktpl K a) := o.add _ _ (o.add _ _ h h) h

theorem infPoint_closed : (infPoint K).All El := ⟨o.one, o.one, o.zero⟩

variable [DecidableEq α]

theorem canonPoint_closed {p : Jac α} (h : p.All El) : (canonPoint K p).All El := by
  unfold canonPoint
  split
  exacts [infPoint_closed o, h]

theorem jdbl_closed {p : Jac α} (h : p.All El) : (jdbl K p).All El := by
  obtain ⟨hx, hy, hz⟩ := h
  unfold jdbl
  split
  · exact infPoint_closed o
  · apply canonPoint_closed o
    have a := ksq_closed o hx
    have b := ksq_closed o hy
    have c := ksq_closed o b
    have d := kdbl_closed o (o.sub _ _ (o.sub _ _ (ksq_closed o (o.add _ _ hx b)) a) c)
    have e := ktpl_closed o a
    have x3 := o.sub _ _ (ksq_closed o e) (kdbl_closed o d)
    exact ⟨x3, o.sub _ _ (o.mul _ _ e (o.sub _ _ d x3))
      (kdbl_closed o (kdbl_closed o (kdbl_closed o c))), kdbl_closed o (o.mul _ _ hy hz)⟩

theorem jadd_closed {p1 p2 : Jac α} (h1 : p1.All El) (h2 : p2.All El) : (jadd K p1 p2).All El := by
  obtain ⟨ax, ay, az⟩ := id h1
  obtain ⟨bx, bY, bz⟩ := id h2
  unfold jadd
  split
  · exact canonPoint_closed o h2
  split
  · exact h1
  have z1 := ksq_closed o az
  have z2 := ksq_closed o bz
  have u1 := o.mul _ _ ax z2
  have u2 := o.mul _ _ bx z1
  have s1 := o.mul _ _ (o.mul _ _ ay bz) z2
  have s2 := o.mul _ _ (o.mul _ _ bY az) z1
  dsimp only
  split
  · split
    · exact jdbl_closed o h1
    · exact infPoint_closed o
  · apply canonPoint_closed o
    have h := o.sub _ _ u2 u1
    have i := ksq_closed o (kdbl_closed o h)
    have j := o.mul _ _ h i
    have r := kdbl_closed o (o.sub _ _ s2 s1)
    have v := o.mul _ _ u1 i
    have x3 := o.sub _ _ (o.sub _ _ (ksq_closed o r) j) (kdbl_closed o v)
    exact ⟨x3, o.sub _ _ (o.mul _ _ r (o.sub _ _ v x3)) (kdbl_closed o (o.mul _ _ s1 j)),
      o.mul _ _ (o.sub _ _ (o.sub _ _ (ksq_closed o (o.add _ _ az bz)) z1) z2) h⟩

theorem jadda_closed {p1 : Jac α} {p2 : Aff α} (h1 : p1.All El) (h2 : p2.All El) :
    (jadda K p1 p2).All El := by
  obtain ⟨ax, ay, az⟩ := id h1
  obtain ⟨bx, bY⟩ := h2
  unfold jadda
  split
  · exact canonPoint_closed o h1
  split
  · exact ⟨bx, bY, o.one⟩
  have z1 := ksq_closed o az
  have u2 := o.mul _ _ bx z1
  have s2 := o.mul _ _ (o.mul _ _ bY az) z1
  dsimp only
  split
  · split
    · exact jdbl_closed o h1
    · exact infPoint_closed o
  · apply canonPoint_closed o
    have h := o.sub _ _ u2 ax
    have hh := ksq_closed o h
    have i := kdbl_closed o (kdbl_closed o hh)
    have j := o.mul _ _ h i
    have r := kdbl_closed o (o.sub _ _ s2 ay)
    have v := o.mul _ _ ax i
    have x3 := o.sub _ _ (o.sub _ _ (ksq_closed o r) j) (kdbl_closed o v)
    exact ⟨x3, o.sub _ _ (o.mul _ _ r (o.sub _ _ v x3)) (kdbl_closed o (o.mul _ _ ay j)),
      o.sub _ _ (o.sub _ _ (ksq_closed o (o.add _ _ az h)) z1) hh⟩

theorem scalarMul_closed {p : Jac α} (h : p.All El) (k nb : Nat) : (scalarMul K p k nb).All El := by
  unfold scalarMul
  refine iterDown_induct (fun _ (a : Jac α) => a.All El) (infPoint_closed o) ?_
  intro i a _ ha
  split
  · exact jadd_closed o (jdbl_closed o ha) h
  · exact jdbl_closed o ha

theorem jneg_closed {p : Jac α} (h : p.All El) : (jneg K p).All El :=
  canonPoint_closed o ⟨h.1, o.neg _ h.2.1, h.2.2⟩

theorem fromAffine_closed {p : Aff α} (h : p.All El) : (fromAffine K p).All El := by
  unfold fromAffine
  split
  · exact infPoint_closed o
  · exact ⟨h.1, h.2, o.one⟩

end

/-! ### The CSRs (10_state.md R36) -/

/-- What a CSR reads, PARAMS apart, depends on the registers alone. -/
theorem csrRead_congr {t u : State} {r : Csr} (hp : r ≠ .params) (h1 : t.cpc = u.cpc)
    (h2 : t.startPc = u.startPc) (h3 : t.lcnt = u.lcnt) (h4 : t.flags = u.flags)
    (h5 : t.status = u.status) (h6 : t.irqEn = u.irqEn) (h7 : t.faultRec = u.faultRec)
    (h8 : t.cfg = u.cfg) : csrRead t r = csrRead u r := by
  have hc : ∀ c, t.ctx c = u.ctx c := fun c => by cases c <;> simp only [State.ctx, h8]
  cases r <;> simp only [csrRead, hc, ctrlValue, statusValue, State.irq, h1, h2, h3, h4, h5, h6, h7, h8]
  exact absurd rfl hp

/-- A limb of a register after another limb, or the same one, was replaced. -/
theorem getLimb_setLimb (v : Word256) (j i : Nat) (x : Limb) (hi : i < 4) :
    getLimb (setLimb v j x) i = if i = j then x else getLimb v i := by
  have h4 : i = 0 ∨ i = 1 ∨ i = 2 ∨ i = 3 := by omega
  unfold setLimb
  rcases h4 with rfl | rfl | rfl | rfl <;>
  · dsimp only
    generalize (if 0 = j then x else getLimb v 0) = l0
    generalize (if 1 = j then x else getLimb v 1) = l1
    generalize (if 2 = j then x else getLimb v 2) = l2
    generalize (if 3 = j then x else getLimb v 3) = l3
    unfold getLimb
    ext k hk
    simp only [BitVec.getElem_extractLsb', BitVec.getLsbD_append]
    repeat (first | rw [if_pos (by omega)] | rw [if_neg (by omega)])
    try simp [BitVec.getLsbD_eq_getElem hk]

end Sys2Proof.Machine
end

