-- ==== Sys2Proof/Laws/Checks.lean ====
section
/-! SUPPORT. Each check against the rows that say when it fails and with which fault, and the one lemma that
turns a command's list of checks into its list of rows. -/

namespace Sys2Proof.Machine

/-- The check `c` does in `s` what the rows `rs` say: the first row that fails gives its trap. -/
def Raises (c : Check) (s : State) (rs : List FaultRow) : Prop :=
  ∀ (t : State) (w : CmdWord) (rest : List FaultRow), (∀ u, c s = some u → t = s.takeFault w u) →
    (c s = none → s.FirstFault t w rest) → s.FirstFault t w (rs ++ rest)

/-- A check with one way to fail. -/
theorem Raises.one {c : Check} {s : State} {r : FaultRow} (u : Trap) (hf : r.fails → c s = some u)
    (hp : ¬ r.fails → c s = none) (hc : u.cause.code = r.cause) (hi : u.info = r.info) :
    Raises c s [r] := by
  intro t w rest h1 h2
  refine ⟨fun h => ?_, fun h => h2 (hp h)⟩
  rw [h1 u (hf h), ← hc, ← hi]
  exact State.takeFault_faulted s w u

theorem raises_ctx (s : State) (c : FieldCtx) : Raises (checkCtx c) s [s.ctxRow c] := by
  have hv : ∀ k : Ctx, k.Meets ↔ k.valid = true := fun k => k.valid_iff.symm
  cases c
  · refine .one { cause := .ctxInvalid, info := 0 } (fun h => ?_) (fun h => ?_) rfl rfl
    · exact if_neg (mt (hv s.cfg.ctx0).2 h)
    · exact checkCtx_passes ((hv s.cfg.ctx0).1 (not_not.1 h))
  · refine .one { cause := .ctxInvalid, info := 1 } (fun h => ?_) (fun h => ?_) rfl rfl
    · exact if_neg (mt (hv s.cfg.ctx1).2 h)
    · exact checkCtx_passes ((hv s.cfg.ctx1).1 (not_not.1 h))

theorem raises_range (s : State) (b w : Nat) : Raises (checkRange b w) s [s.rangeRow b w] := by
  refine .one { cause := .operandRange, info := slotInfo b } (fun h => checkRange_fails ?_)
    (fun h => checkRange_passes ((s.inRange_iff b w).2 ?_)) rfl rfl
  · rw [s.inRange_iff]
    simp only [State.rangeRow] at h
    omega
  · simp only [State.rangeRow] at h
    omega

theorem raises_apart (s : State) (b1 w1 b2 w2 : Nat) :
    Raises (checkApart b1 w1 b2 w2) s [overlapRow b1 w1 b2 w2] := by
  refine .one { cause := .overlap, info := 0 } (fun h => ?_) (fun h => ?_) rfl rfl
  · rw [checkApart, if_pos ((overlap_iff _ _ _ _).2 h)]
  · rw [checkApart, if_neg (fun h' => h ((overlap_iff _ _ _ _).1 h'))]

theorem raises_register (s : State) (r : ConfigRegs → Word256) :
    Raises (checkReg r) s [s.registerRow (r s.cfg)] := by
  refine .one { cause := .noncanonical, info := registerInfo } (fun h => ?_) (fun h => ?_) rfl rfl
  · rw [checkReg, if_neg (by simpa [State.registerRow] using h)]
  · rw [checkReg, if_pos (by simpa [State.registerRow] using h)]

theorem raises_canon (s : State) (c : FieldCtx) (b w : Nat) :
    Raises (checkCanon c b w) s (s.canonRows c b w) := by
  intro t cw rest h1 h2
  have key : ∀ n k, k + n = w → (∀ j, j < k → s.x (b + j) < s.q c) →
      s.FirstFault t cw ((List.range' k n).map (fun j =>
        { fails := s.q c ≤ s.x (b + j), cause := 10, info := BitVec.ofNat 32 (b + j) }) ++ rest) := by
    intro n
    induction n with
    | zero =>
      intro k hk hlt
      refine h2 (checkCanon_passes fun i hi hi' => ?_)
      have := hlt (i - b) (by omega)
      rwa [show b + (i - b) = i by omega] at this
    | succ n ih =>
      intro k hk hlt
      refine ⟨fun hf => ?_, fun hf => ih (k + 1) (by omega) fun j hj => ?_⟩
      · cases hc : checkCanon c b w s with
        | none =>
          have := (checkCanon_none c b w s).1 hc (b + k) (by omega) (by omega)
          exact absurd this (Nat.not_lt.2 hf)
        | some u =>
          obtain ⟨i, hi1, hi2, hi3, hi4, rfl⟩ := checkCanon_some hc
          have hi : i = b + k := by
            rcases Nat.lt_trichotomy i (b + k) with h | h | h
            · have := hlt (i - b) (by omega)
              rw [show b + (i - b) = i by omega] at this
              omega
            · exact h
            · exact absurd (hi4 (b + k) (by omega) h) (Nat.not_lt.2 hf)
          rw [h1 _ hc, hi]
          exact State.takeFault_faulted s cw _
      · by_cases hj' : j = k
        · subst hj'
          exact Nat.not_le.1 hf
        · exact hlt j (by omega)
  rw [State.canonRows, List.range_eq_range']
  exact key w 0 (by omega) (fun j hj => absurd hj (by omega))

theorem raises_betaG2 (s : State) (g : Group) : Raises (checkBetaG2 g) s (s.betaRows g) := by
  cases g with
  | g1 => exact fun t w rest _ h2 => h2 rfl
  | g2 => exact raises_register s (·.beta)

theorem raises_constant (s : State) (g : Group) :
    Raises (checkCurveConst g) s (s.constantRows g) := by
  cases g with
  | g1 => exact raises_register s (·.b1)
  | g2 =>
    intro t w rest h1 h2
    refine raises_register s (·.b2c0) t w _ (fun u hu => h1 u ?_) (fun h => ?_)
    · rw [checkCurveConst, firstTrap_fails _ _ _ hu]
    · refine raises_register s (·.b2c1) t w _ (fun u hu => h1 u ?_) (fun h' => h2 ?_)
      · rw [checkCurveConst, firstTrap_passes _ _ _ h, firstTrap_fails _ _ _ hu]
      · rw [checkCurveConst, firstTrap_passes _ _ _ h, firstTrap_passes _ _ _ h']
        rfl

/-- The tag check and the value check of a record together. -/
theorem raises_record (s : State) (c : FieldCtx) (hdr : Nat) :
    Raises (firstTrap [checkTag hdr, checkRecordValue c hdr]) s (s.recordRows c hdr) := by
  have hb : ∀ v, bits v 63 32 = v / 2 ^ 32 % 2 ^ 32 := fun _ => rfl
  intro t w rest h1 h2
  refine ⟨fun hf => ?_, fun hf => ?_⟩
  · simp only [List.mem_cons, List.not_mem_nil, or_false, not_or] at hf
    have : checkTag hdr s = some { cause := .badTag, info := slotInfo hdr } := by
      simp [-Nat.reducePow, checkTag, recordTag, hb, hf]
    rw [h1 _ (firstTrap_fails _ _ _ this)]
    exact State.takeFault_faulted s w _
  · simp only [List.mem_cons, List.not_mem_nil, or_false, Decidable.not_not] at hf
    have hn : checkTag hdr s = none := by
      rcases hf with h | h | h <;> simp [-Nat.reducePow, checkTag, recordTag, hb, h]
    have hv : checkRecordValue c hdr s =
        if s.x hdr / 2 ^ 32 % 2 ^ 32 = 0 then none else checkCanon c (hdr + 1) 1 s := by
      rcases hf with h | h | h <;> simp [-Nat.reducePow, checkRecordValue, recordTag, hb, h]
    have hs : firstTrap [checkTag hdr, checkRecordValue c hdr] s = checkRecordValue c hdr s := by
      rw [firstTrap_passes _ _ _ hn, firstTrap]
      cases checkRecordValue c hdr s <;> rfl
    rw [hs, hv] at h1 h2
    by_cases hz : s.x hdr / 2 ^ 32 % 2 ^ 32 = 0
    · rw [if_pos hz] at h1 h2
      exact ⟨fun h => absurd hz h.1, fun _ => h2 rfl⟩
    · rw [if_neg hz] at h1 h2
      have hc := raises_canon s c (hdr + 1) 1 t w rest h1 h2
      simp only [State.canonRows, List.range_one, List.map_cons, List.map_nil, List.cons_append,
        List.nil_append, Nat.add_zero] at hc
      exact ⟨fun h => hc.1 h.2, fun h => hc.2 fun h' => h ⟨hz, h'⟩⟩

/-- The descriptor's fields by their bits are those the commands read. -/
theorem State.desc_eq (s : State) (i : Nat) : s.desc i = descriptorOf (s.x i) := by
  have hv : s.x i < 2 ^ 256 := (s.slot i).isLt
  rw [State.desc, Desc.ofValue, descriptorOf]
  norm_num [bits, limb]
  omega

/-- A window is beyond the last one iff its lowest bit `w·c` is bit 256 or higher. -/
theorem Desc.windows_le {d : Desc} (hc : 0 < d.c) (w : Nat) : 256 ≤ w * d.c ↔ d.windows ≤ w := by
  rw [Desc.windows, Nat.div_le_iff_le_mul_add_pred hc, Nat.mul_comm w]
  omega

theorem badDescriptor_iff (v : Nat) (hv : v < 2 ^ 256) : badDescriptor v = true ↔
    v / 2 ^ 112 % 32 = 0 ∨ 16 < v / 2 ^ 112 % 32 ∨ v / 2 ^ 117 ≠ 0 := by
  rw [badDescriptor, decide_eq_true_eq]
  norm_num [Desc.ofValue, bits, limb]
  omega

/-- Under a descriptor that is not bad, the windows are those whose lowest bit is below bit 256. -/
theorem State.lt_windows {s : State} {i : Nat} (h : badDescriptor (s.x i) = false) (w : Nat) :
    w < (s.desc i).windows ↔ w * (s.desc i).c < 256 := by
  have hc : 0 < (s.desc i).c := by
    rw [badDescriptor, decide_eq_false_iff_not] at h
    exact Nat.pos_of_ne_zero (fun h0 => h (.inl h0))
  rw [← Nat.not_le, ← Desc.windows_le hc, Nat.not_le]

theorem raises_descriptor (s : State) (i : Nat) : Raises (checkDesc i) s [s.descriptorRow i] := by
  have hb := badDescriptor_iff (s.x i) (s.slot i).isLt
  refine .one { cause := .badDescriptor, info := slotInfo i } (fun h => ?_) (fun h => ?_) rfl rfl
  · rw [checkDesc, if_pos (hb.2 h)]
  · rw [checkDesc, if_neg (fun h' => h (hb.1 h'))]

/-- The descriptor check and the window check together: `w` is beyond the last window iff `w·c` is 256 or
more. -/
theorem raises_window (s : State) (i w : Nat) : Raises (firstTrap [checkDesc i, checkWindow i w]) s
    [s.descriptorRow i,
      { fails := 256 ≤ w * (s.x i / 2 ^ 112 % 32), cause := 6, info := BitVec.ofNat 32 i }] := by
  have hb := badDescriptor_iff (s.x i) (s.slot i).isLt
  have hcs : (s.desc i).c = s.x i / 2 ^ 112 % 32 := by rw [State.desc_eq]; rfl
  intro t cw rest h1 h2
  refine raises_descriptor s i t cw _ (fun u hu => h1 u (firstTrap_fails _ _ _ hu)) (fun hn => ?_)
  rw [firstTrap_passes _ _ _ hn, firstTrap] at h1 h2
  have hw : 256 ≤ w * (s.x i / 2 ^ 112 % 32) ↔ (s.desc i).windows ≤ w := by
    have hc : 0 < (s.desc i).c := by
      rw [checkDesc_none] at hn
      by_contra h0
      rw [hcs] at h0
      rw [hb.2 (.inl (by omega))] at hn
      cases hn
    rw [← hcs]
    exact Desc.windows_le hc w
  refine ⟨fun h => ?_, fun h => h2 ?_⟩
  · have hs : checkWindow i w s = some { cause := .badDescriptor, info := slotInfo i } := by
      rw [checkWindow, if_pos (hw.1 h)]
    rw [h1 _ (by rw [hs])]
    exact State.takeFault_faulted s cw _
  · rw [(checkWindow_none i w s).2 (Nat.not_le.1 (fun h' => h (hw.2 h')))]
    rfl

/-- A command does what the rows of its checks say, if its effect leaves STATUS and the fault record. The
checks may be taken in groups. -/
theorem checks_in_order {i : Instr} {cs ds : List Check} {rss : List (List FaultRow)}
    {eff : State → State} {s : State} (he : exec i s = command i ds eff s)
    (hd : firstTrap ds s = firstTrap cs s)
    (hr : List.Forall₂ (fun c rs => Raises c s rs) cs rss)
    (hk : (eff s).status = s.status ∧ (eff s).faultRec = s.faultRec) :
    s.ChecksInOrder i rss.flatten := by
  have key : ∀ (t : State) (w : CmdWord), (∀ u, firstTrap cs s = some u → t = s.takeFault w u) →
      (firstTrap cs s = none → s.FirstFault t w []) → s.FirstFault t w rss.flatten := by
    intro t w
    clear he hd
    induction hr with
    | nil => exact fun _ h => h rfl
    | cons hc _ ih =>
      intro h1 h2
      refine hc t w _ (fun u hu => h1 u (firstTrap_fails _ _ _ hu)) (fun hn => ih ?_ ?_)
      · exact fun u hu => h1 u (by rw [firstTrap_passes _ _ _ hn, hu])
      · exact fun hu => h2 (by rw [firstTrap_passes _ _ _ hn, hu])
  rw [← hd] at key
  rcases command_cases i ds eff s with ⟨u, hu, e⟩ | ⟨hu, e⟩
  · exact ⟨_, he.trans e, key _ _ (fun u' hu' => by rw [hu] at hu'; cases hu'; rfl)
      (fun hn => by rw [hu] at hn; cases hn)⟩
  · exact ⟨_, he.trans e, key _ _ (fun u' hu' => by rw [hu] at hu'; cases hu') (fun _ => hk)⟩

end Sys2Proof.Machine
end

