-- ==== Sys2Proof/Laws/Host.lean ====
section
/-! SUPPORT. The host's accesses: the step that takes one, the window offset of its bus address, what the CSR
map lists, and what each register reads. -/

namespace Sys2Proof.Machine

theorem windowOffset_in (p : Params) {off : Nat} (h : off < 0x400000) :
    windowOffset p (p.blockBase + off) = some off := by
  rw [windowOffset, if_pos (by omega), Nat.add_sub_cancel_left]

theorem windowOffset_out (p : Params) {addr : Nat}
    (h : addr < p.blockBase ∨ p.blockBase + 0x400000 ≤ addr) : windowOffset p addr = none := by
  rw [windowOffset, if_neg (by omega)]

theorem hostAccess_read (s : State) {off : Nat} (size : Nat) (h : off < 0x400000) :
    hostAccess (.read (s.params.blockBase + off) size) s = hostRead off size s := by
  simp only [hostAccess, windowOffset_in s.params h]

theorem hostAccess_write (s : State) {off : Nat} (size : Nat) (v : Limb) (h : off < 0x400000) :
    hostAccess (.write (s.params.blockBase + off) size v) s = hostWrite off size v s := by
  simp only [hostAccess, windowOffset_in s.params h]

/-- A step that takes an access of the host. -/
theorem step_access {s : State} {a : HostAccess} {ts : List HostTurn} (hl : s.params.legal = true)
    (h : s.inbox = .access a :: ts) : step s = .next (hostAccess a (s.setInbox ts)) := by
  rw [step, if_pos hl, h]

/-- A register stands in the map, at an aligned offset below 0x1000. -/
theorem csrAt_listed {off : Nat} {r : Csr} (h : csrAt off = some r) :
    (off, r) ∈ csrMap ∧ off < 0x1000 ∧ off % 8 = 0 := by
  rw [csrAt, Option.map_eq_some_iff] at h
  obtain ⟨p, hp, rfl⟩ := h
  have hm := List.mem_of_find?_eq_some hp
  have ho : p.1 = off := by simpa using List.find?_some (p := fun r : Nat × Csr => r.1 == off) hp
  subst ho
  have hall : ∀ p ∈ csrMap, p.1 < 0x1000 ∧ p.1 % 8 = 0 := by decide
  exact ⟨hm, hall p hm⟩

/-! ### The register table (10_state.md R36, R37, R43) -/

/-- A limb of a register by its bits. -/
theorem getLimb_eq (v : Word256) (j : Nat) :
    getLimb v j = BitVec.ofNat 64 (v.toNat / 2 ^ (64 * j) % 2 ^ 64) := by
  apply BitVec.eq_of_toNat_eq
  simp [getLimb, BitVec.extractLsb'_toNat, Nat.shiftRight_eq_div_pow]

/-- BETA_CLASS as a number. -/
theorem betaClassCode_eq (k : Ctx) (b : Nat) :
    (betaClassCode (betaClass k b)).setWidth 64 = BitVec.ofNat 64 (classNumber k.q.toNat b) := by
  unfold betaClass classNumber
  split
  · rfl
  split
  · rfl
  split <;> rfl

/-- What `p` says of a register is what a read of the CSR at its offset gives. -/
def State.Reads (s : State) (p : Nat × Nat) : Prop :=
  ∃ r, csrAt p.1 = some r ∧ csrRead s r = BitVec.ofNat 64 p.2

/-- The four words of a 256-bit register, if its CSRs read its limbs. -/
theorem reads_limbs (s : State) (o : Nat) (v : Word256) (f : Nat → Csr)
    (ha : ∀ j < 4, csrAt (o + 8 * j) = some (f j)) (hr : ∀ j, csrRead s (f j) = getLimb v j) :
    ∀ p ∈ limbWords o v, s.Reads p := by
  intro p hp
  obtain ⟨j, hj, rfl⟩ := List.mem_map.1 hp
  exact ⟨f j, ha j (List.mem_range.1 hj), (hr j).trans (getLimb_eq v j)⟩

/-- A narrow register as it stands in a CSR word. -/
theorem setWidth_eq {w : Nat} (v : BitVec w) : v.setWidth 64 = BitVec.ofNat 64 v.toNat := by
  apply BitVec.eq_of_toNat_eq
  simp

/-- Concatenation as a sum. -/
theorem toNat_append_add {m n : Nat} (x : BitVec m) (y : BitVec n) :
    (x ++ y).toNat = 2 ^ n * x.toNat + y.toNat := by
  rw [BitVec.toNat_append, Nat.shiftLeft_eq, Nat.mul_comm, Nat.two_pow_add_eq_or_of_lt y.isLt]

/-- PARAMS as a number. -/
theorem paramsValue_eq {p : Params} (h : p.legal = true) : paramsValue p =
    BitVec.ofNat 64 (p.opmLog + 2 ^ 8 * p.cmdmLog + 2 ^ 16 * p.lanes + 2 ^ 24) := by
  have hp := decide_eq_true_iff.1 h
  apply BitVec.eq_of_toNat_eq
  simp only [paramsValue, toNat_append_add, BitVec.toNat_ofNat]
  omega

/-- Every line of the register table is what the CSR at its offset reads. -/
theorem reads_table (s : State) (hl : s.params.legal = true) : ∀ p ∈ s.registerTable, s.Reads p := by
  simp only [State.registerTable, ctxWords, List.forall_mem_append, List.forall_mem_cons]
  refine ⟨⟨⟨⟨⟨⟨⟨?_, ?_, ?_, ?_, ?_, ?_, ?_, ?_, ?_, ?_, ?_, ?_, ?_, ?_, ?_, ?_, ?_⟩, ⟨?_, ?_⟩, ?_, ?_⟩,
    ⟨?_, ?_⟩, ?_, ?_⟩, ?_⟩, ?_⟩, ?_⟩, ?_⟩
  · exact ⟨.id, rfl, rfl⟩
  · refine ⟨.params, rfl, ?_⟩
    exact paramsValue_eq hl
  · refine ⟨.ctrl, rfl, ?_⟩
    simp only [csrRead, ctrlValue]
    cases s.irqEn <;> rfl
  · refine ⟨.status, rfl, ?_⟩
    simp only [csrRead, statusValue, State.irq]
    generalize s.status = st
    obtain ⟨b, d, f, h⟩ := st
    generalize s.irqEn = i
    dsimp only
    revert b d f h i
    decide
  · exact ⟨.startPc, rfl, setWidth_eq _⟩
  · exact ⟨.cpc, rfl, setWidth_eq _⟩
  · refine ⟨.flags, rfl, ?_⟩
    simp only [csrRead]
    generalize s.flags = fl
    obtain ⟨c, z, lt, gt, t⟩ := fl
    revert c z lt gt t
    decide
  · exact ⟨.lcnt, rfl, setWidth_eq _⟩
  · exact ⟨.faultCause, rfl, setWidth_eq _⟩
  · exact ⟨.faultPc, rfl, setWidth_eq _⟩
  · exact ⟨.faultCmd, rfl, by simp [csrRead]⟩
  · exact ⟨.faultInfo, rfl, setWidth_eq _⟩
  · exact ⟨.rootBase, rfl, setWidth_eq _⟩
  · exact ⟨.irootBase, rfl, setWidth_eq _⟩
  · exact ⟨.rootMaxlog, rfl, setWidth_eq _⟩
  · exact ⟨.betaClass, rfl, betaClassCode_eq _ _⟩
  · simp
  · exact reads_limbs s _ _ (.ctxQ .fq) (by decide) (fun _ => rfl)
  · exact reads_limbs s _ _ (.ctxR2 .fq) (by decide) (fun _ => rfl)
  · exact ⟨.ctxNp .fq, rfl, by simp [csrRead, State.ctx]⟩
  · simp
  · exact reads_limbs s _ _ (.ctxQ .fr) (by decide) (fun _ => rfl)
  · exact reads_limbs s _ _ (.ctxR2 .fr) (by decide) (fun _ => rfl)
  · exact ⟨.ctxNp .fr, rfl, by simp [csrRead, State.ctx]⟩
  · simp
  · exact reads_limbs s _ _ .beta (by decide) (fun _ => rfl)
  · exact reads_limbs s _ _ .b1 (by decide) (fun _ => rfl)
  · exact reads_limbs s _ _ .b2c0 (by decide) (fun _ => rfl)
  · exact reads_limbs s _ _ .b2c1 (by decide) (fun _ => rfl)
/-- The read-only offsets are those of the read-only registers. -/
theorem readOnly_iff {off : Nat} {r : Csr} (h : csrAt off = some r) :
    r.readOnly = true ↔ off ∈ readOnlyOffsets := by
  have hall : ∀ p ∈ csrMap, (p.2.readOnly = true ↔ p.1 ∈ readOnlyOffsets) := by decide
  exact hall (off, r) (csrAt_listed h).1

theorem limbWords_lt (o : Nat) (v : Word256) : ∀ p ∈ limbWords o v, p.2 < 2 ^ 64 := by
  intro p hp
  obtain ⟨j, -, rfl⟩ := List.mem_map.1 hp
  exact Nat.mod_lt _ (by norm_num)

/-- Every value of the table is a 64-bit word. -/
theorem registerTable_lt {s : State} (hl : s.params.legal = true) : ∀ p ∈ s.registerTable, p.2 < 2 ^ 64 := by
  have hp := decide_eq_true_iff.1 hl
  have hc : ∀ q b, classNumber q b < 4 := by
    intro q b
    unfold classNumber
    split_ifs <;> omega
  have hb := fun b : Bool => Bool.toNat_le b
  have lt : ∀ {w : Nat} (v : BitVec w), w ≤ 64 → v.toNat < 2 ^ 64 := fun v h =>
    v.isLt.trans_le (Nat.pow_le_pow_right (by norm_num) h)
  have bt := fun (a b c d e : Bool) => show a.toNat + 2 * b.toNat + 4 * c.toNat + 8 * d.toNat +
      16 * e.toNat < 2 ^ 64 by
    have := hb a; have := hb b; have := hb c; have := hb d; have := hb e
    omega
  simp only [State.registerTable, ctxWords, List.forall_mem_append, List.forall_mem_cons]
  refine ⟨⟨⟨⟨⟨⟨⟨?_, ?_, ?_, bt _ _ _ _ _, lt _ ?_, lt _ ?_, bt _ _ _ _ _, lt _ ?_, lt _ ?_, lt _ ?_, lt _ ?_,
    lt _ ?_, lt _ ?_, lt _ ?_, lt _ ?_, (hc _ _).trans (by norm_num), fun _ h => by cases h⟩,
    ⟨limbWords_lt _ _, limbWords_lt _ _⟩, lt _ ?_, fun _ h => by cases h⟩,
    ⟨limbWords_lt _ _, limbWords_lt _ _⟩, lt _ ?_, fun _ h => by cases h⟩, limbWords_lt _ _⟩,
    limbWords_lt _ _⟩, limbWords_lt _ _⟩, limbWords_lt _ _⟩
  any_goals norm_num
  · omega
  · have := hb s.irqEn
    omega

/-- A line of the table is a register of the map with its reading. -/
theorem mem_registerTable {s : State} (hl : s.params.legal = true) (off value : Nat) :
    (off, value) ∈ s.registerTable ↔ ∃ r, csrAt off = some r ∧ value = (csrRead s r).toNat := by
  have hlt := registerTable_lt hl
  have hfst : s.registerTable.map (·.1) = csrMap.map (·.1) := rfl
  have fwd : ∀ v, (off, v) ∈ s.registerTable → ∃ r, csrAt off = some r ∧ v = (csrRead s r).toNat := by
    intro v h
    obtain ⟨r, hr, e⟩ := reads_table s hl _ h
    exact ⟨r, hr, by rw [e, BitVec.toNat_ofNat, Nat.mod_eq_of_lt (hlt _ h)]⟩
  refine ⟨fwd value, ?_⟩
  rintro ⟨r, hr, rfl⟩
  have hm : off ∈ s.registerTable.map (·.1) := by
    rw [hfst]
    exact List.mem_map.2 ⟨_, (csrAt_listed hr).1, rfl⟩
  obtain ⟨⟨o, v⟩, h, rfl⟩ := List.mem_map.1 hm
  obtain ⟨r', hr', rfl⟩ := fwd v h
  rw [Option.some.inj (hr.symm.trans hr')]
  exact h

end Sys2Proof.Machine
end

