-- ==== Sys2Proof/Laws/PerInstr.lean ====
section
/-! SUPPORT. The per-instruction family `Encodes`: one lemma per constructor of `Instr`. -/

namespace Sys2Proof.Laws.Encodes

open Sys2Proof

/-- The fields of a well-formed instruction stand in a row of the opcode map, leave that row's unused
fields zero, and make the instruction again (30_encoding.md R122, R126). -/
def Statement (i : Instr) : Prop :=
  i.wf = true → ∃ r, opcodeRow i.fields.opc = some r ∧ i.fields.unusedZero r.used = true ∧
    r.build i.fields = .ok i

theorem nop : Statement (.nop) := by
  exact fun _ => ⟨_, rfl, rfl, rfl⟩

theorem halt : Statement (.halt) := by
  exact fun _ => ⟨_, rfl, rfl, rfl⟩

theorem jmp (target : BitVec 16) : Statement (.jmp target) := by
  exact fun _ => ⟨_, rfl, rfl, rfl⟩

theorem brf (cond : Cond) (target : BitVec 16) : Statement (.brf cond target) := by
  cases cond <;> exact fun _ => ⟨_, rfl, rfl, rfl⟩

theorem setlc (imm : BitVec 16) : Statement (.setlc imm) := by
  exact fun _ => ⟨_, rfl, rfl, rfl⟩

theorem djnz (target : BitVec 16) : Statement (.djnz target) := by
  exact fun _ => ⟨_, rfl, rfl, rfl⟩

theorem mov (rd ra : SlotIx) (m7 : BitVec 7) : Statement (.mov rd ra m7) := by
  exact fun _ => ⟨_, rfl, rfl, rfl⟩

theorem limm (rd : SlotIx) (imm : BitVec 32) : Statement (.limm rd imm) := by
  refine fun _ => ⟨_, rfl, rfl, ?_⟩
  show Except.ok (Instr.limm rd (imm.extractLsb' 16 16 ++ imm.extractLsb' 0 16)) = _
  congr 2
  ext j hj
  simp only [BitVec.getElem_append, BitVec.getElem_extractLsb']
  split <;> simp_all [BitVec.getLsbD_eq_getElem]

theorem ladd (rd ra rb : SlotIx) : Statement (.ladd rd ra rb) := by
  exact fun _ => ⟨_, rfl, rfl, rfl⟩

theorem lsub (rd ra rb : SlotIx) : Statement (.lsub rd ra rb) := by
  exact fun _ => ⟨_, rfl, rfl, rfl⟩

theorem lcmp (ra rb : SlotIx) : Statement (.lcmp ra rb) := by
  exact fun _ => ⟨_, rfl, rfl, rfl⟩

theorem lisz (ra : SlotIx) : Statement (.lisz ra) := by
  exact fun _ => ⟨_, rfl, rfl, rfl⟩

theorem lshl (rd ra : SlotIx) (amt : BitVec 16) : Statement (.lshl rd ra amt) := by
  exact fun _ => ⟨_, rfl, rfl, rfl⟩

theorem lshr (rd ra : SlotIx) (amt : BitVec 16) : Statement (.lshr rd ra amt) := by
  exact fun _ => ⟨_, rfl, rfl, rfl⟩

theorem land (rd ra rb : SlotIx) : Statement (.land rd ra rb) := by
  exact fun _ => ⟨_, rfl, rfl, rfl⟩

theorem lor (rd ra rb : SlotIx) : Statement (.lor rd ra rb) := by
  exact fun _ => ⟨_, rfl, rfl, rfl⟩

theorem lxor (rd ra rb : SlotIx) : Statement (.lxor rd ra rb) := by
  exact fun _ => ⟨_, rfl, rfl, rfl⟩

theorem lnot (rd ra : SlotIx) : Statement (.lnot rd ra) := by
  exact fun _ => ⟨_, rfl, rfl, rfl⟩

theorem fadd (c : FieldCtx) (rd ra rb : SlotIx) : Statement (.fadd c rd ra rb) := by
  cases c <;> exact fun _ => ⟨_, rfl, rfl, rfl⟩

theorem fsub (c : FieldCtx) (rd ra rb : SlotIx) : Statement (.fsub c rd ra rb) := by
  cases c <;> exact fun _ => ⟨_, rfl, rfl, rfl⟩

theorem fneg (c : FieldCtx) (rd ra : SlotIx) : Statement (.fneg c rd ra) := by
  cases c <;> exact fun _ => ⟨_, rfl, rfl, rfl⟩

theorem fmul (c : FieldCtx) (rd ra rb : SlotIx) : Statement (.fmul c rd ra rb) := by
  cases c <;> exact fun _ => ⟨_, rfl, rfl, rfl⟩

theorem fsqr (c : FieldCtx) (rd ra : SlotIx) : Statement (.fsqr c rd ra) := by
  cases c <;> exact fun _ => ⟨_, rfl, rfl, rfl⟩

theorem fmulw (c : FieldCtx) (rd ra rb : SlotIx) : Statement (.fmulw c rd ra rb) := by
  cases c <;> exact fun _ => ⟨_, rfl, rfl, rfl⟩

theorem ftom (c : FieldCtx) (rd ra : SlotIx) : Statement (.ftom c rd ra) := by
  cases c <;> exact fun _ => ⟨_, rfl, rfl, rfl⟩

theorem ffromm (c : FieldCtx) (rd ra : SlotIx) : Statement (.ffromm c rd ra) := by
  cases c <;> exact fun _ => ⟨_, rfl, rfl, rfl⟩

theorem norm (c : FieldCtx) (rd hdr : SlotIx) (mode : NormForm) : Statement (.norm c rd hdr mode) := by
  cases c <;> cases mode <;> exact fun _ => ⟨_, rfl, rfl, rfl⟩

theorem feisz (c : FieldCtx) (hdr : SlotIx) : Statement (.feisz c hdr) := by
  cases c <;> exact fun _ => ⟨_, rfl, rfl, rfl⟩

theorem e2add (rd ra rb : SlotIx) : Statement (.e2add rd ra rb) := by
  exact fun _ => ⟨_, rfl, rfl, rfl⟩

theorem e2sub (rd ra rb : SlotIx) : Statement (.e2sub rd ra rb) := by
  exact fun _ => ⟨_, rfl, rfl, rfl⟩

theorem e2neg (rd ra : SlotIx) : Statement (.e2neg rd ra) := by
  exact fun _ => ⟨_, rfl, rfl, rfl⟩

theorem e2mul (rd ra rb : SlotIx) : Statement (.e2mul rd ra rb) := by
  exact fun _ => ⟨_, rfl, rfl, rfl⟩

theorem e2sqr (rd ra : SlotIx) : Statement (.e2sqr rd ra) := by
  exact fun _ => ⟨_, rfl, rfl, rfl⟩

theorem e2eq (ra rb : SlotIx) : Statement (.e2eq ra rb) := by
  exact fun _ => ⟨_, rfl, rfl, rfl⟩

theorem e2isz (ra : SlotIx) : Statement (.e2isz ra) := by
  exact fun _ => ⟨_, rfl, rfl, rfl⟩

theorem padd (g : Group) (rd ra rb : SlotIx) : Statement (.padd g rd ra rb) := by
  cases g <;> exact fun _ => ⟨_, rfl, rfl, rfl⟩

theorem padda (g : Group) (rd ra rb : SlotIx) : Statement (.padda g rd ra rb) := by
  cases g <;> exact fun _ => ⟨_, rfl, rfl, rfl⟩

theorem pdbl (g : Group) (rd ra : SlotIx) : Statement (.pdbl g rd ra) := by
  cases g <;> exact fun _ => ⟨_, rfl, rfl, rfl⟩

theorem pneg (g : Group) (rd ra : SlotIx) : Statement (.pneg g rd ra) := by
  cases g <;> exact fun _ => ⟨_, rfl, rfl, rfl⟩

theorem pisz (g : Group) (ra : SlotIx) : Statement (.pisz g ra) := by
  cases g <;> exact fun _ => ⟨_, rfl, rfl, rfl⟩

theorem ponc (g : Group) (ra : SlotIx) : Statement (.ponc g ra) := by
  cases g <;> exact fun _ => ⟨_, rfl, rfl, rfl⟩

theorem pfroma (g : Group) (rd ra : SlotIx) : Statement (.pfroma g rd ra) := by
  cases g <;> exact fun _ => ⟨_, rfl, rfl, rfl⟩

theorem peq (g : Group) (ra rb : SlotIx) : Statement (.peq g ra rb) := by
  cases g <;> exact fun _ => ⟨_, rfl, rfl, rfl⟩

theorem pmul (g : Group) (rd ra rb : SlotIx) (nbytes : BitVec 7) : Statement (.pmul g rd ra rb nbytes) := by
  intro h
  cases g <;> exact ⟨_, rfl, rfl, if_pos h⟩

theorem bktclr (g : Group) (desc : SlotIx) : Statement (.bktclr g desc) := by
  cases g <;> exact fun _ => ⟨_, rfl, rfl, rfl⟩

theorem bktacc (g : Group) (desc : SlotIx) (w : BitVec 16) : Statement (.bktacc g desc w) := by
  cases g <;> exact fun _ => ⟨_, rfl, rfl, rfl⟩

theorem bktred (g : Group) (rd desc : SlotIx) : Statement (.bktred g rd desc) := by
  cases g <;> exact fun _ => ⟨_, rfl, rfl, rfl⟩

theorem msm (g : Group) (rd desc : SlotIx) : Statement (.msm g rd desc) := by
  cases g <;> exact fun _ => ⟨_, rfl, rfl, rfl⟩

theorem bfly (rd ra rb : SlotIx) : Statement (.bfly rd ra rb) := by
  exact fun _ => ⟨_, rfl, rfl, rfl⟩

theorem bitrev (base : SlotIx) (k : BitVec 7) : Statement (.bitrev base k) := by
  exact fun _ => ⟨_, rfl, rfl, rfl⟩

theorem fft (base : SlotIx) (k : BitVec 7) : Statement (.fft base k) := by
  exact fun _ => ⟨_, rfl, rfl, rfl⟩

theorem ifft (base : SlotIx) (k : BitVec 7) : Statement (.ifft base k) := by
  exact fun _ => ⟨_, rfl, rfl, rfl⟩

end Sys2Proof.Laws.Encodes
end

