-- ==== Sys2Proof/Tests/Slice0.lean ====
section
/-! SUPPORT. The model's own tests: the smoke test of WellFormed, one command word written out from the
encoding tables for every constructor, one or two steps for every command with values taken from the
spec's vectors (95-97) or worked out by hand from the rules, and one witness for every statement that has
hypotheses. The small context is the q = 101 of 96_test_vectors_units.md section 3.5: M(v) = 37·v mod 101. -/

namespace Sys2Proof.Tests

open Sys2Proof Sys2Proof.Machine

set_option Elab.async false

/-! ## Helpers -/

/-- The byte cells of slot `i` holding `v`. -/
def slotCells (i v : Nat) : List Host.Cell :=
  (List.range 32).map (fun j => (slotOffset i + j, BitVec.ofNat 8 (v / 256 ^ j)))

/-- The context q = 101 of 96_test_vectors_units.md section 3.5. -/
def toyCtx : Ctx := { q := 101, r2 := 56, np := 0x3a4c0a237c32b16d }

/-- Both contexts q = 101; BETA = M(-1) = 64; the curve y² = x³ + 3 with b = M(3) = 10 in both groups;
root tables at slots 5 and 3. -/
def toyCfg : ConfigRegs where
  ctx0 := toyCtx
  ctx1 := toyCtx
  beta := 64
  b1 := 10
  b2c0 := 10
  b2c1 := 0
  rootBase := 5
  irootBase := 3
  rootMaxlog := 2

/-- The BLOCK_BASE of the tests. -/
def busBase : Nat := 0x40000000

/-- The default parameters on the platform of the tests. -/
def toyParams : Params := { opmLog := 16, cmdmLog := 12, lanes := 1, blockBase := busBase }

/-- A running engine with the small context, and the slots of `xs` (in rising order) written. -/
def toy (xs : List (Nat × Nat)) : State :=
  { State.reset with
    params := toyParams
    cfg := toyCfg
    mem := xs.flatMap (fun p => slotCells p.1 p.2)
    status := { busy := true, done := false, fault := false, hostErr := false } }

/-- A toy state with all flags set, as 96_test_vectors_units.md section 3.4 has them. -/
def toyF (xs : List (Nat × Nat)) : State :=
  (toy xs).setFlags { c := true, z := true, lt := true, gt := true, t := true }

/-- An idle engine whose host's next turn is `t`. -/
def idle (t : HostTurn) : State :=
  { State.reset with params := toyParams, cfg := toyCfg, inbox := [t] }

/-- A host read of 8 bytes at window offset `off`. -/
def readAt (off : Nat) : HostTurn := .access (.read (busBase + off) 8)

/-- A host write of 8 bytes at window offset `off`. -/
def writeAt (off : Nat) (v : Limb) : HostTurn := .access (.write (busBase + off) 8 v)

/-- A running engine whose host's next turn is `t`. -/
def running (t : HostTurn) : State := (toy []).setInbox [t]

/-- What `f` says of the next state. -/
def after {α : Type} (o : Outcome) (f : State → α) : Option α :=
  match o with
  | .next t => some (f t)
  | .fault _ => none
  | .refused _ => none

/-- FAULT_CAUSE and FAULT_INFO of a run that ended in a fault. -/
def trapOf (o : Outcome) : Option (BitVec 8 × BitVec 32) :=
  match after o (fun t => (t.status.fault, t.faultRec)) with
  | some (true, r) => some (r.cause, r.info)
  | _ => none

/-! ## WellFormed -/

theorem test_wf_refuses_no_bytes : (Instr.pmul .g1 0 0 0 0).wf = false := by decide

theorem test_wf_refuses_33_bytes : (Instr.pmul .g2 0 0 0 33).wf = false := by decide

theorem test_wf_accepts_1_and_32_bytes :
    (Instr.pmul .g1 0 0 0 1).wf = true ∧ (Instr.pmul .g1 0 0 0 32).wf = true := by decide

/-! ## Decode: a word for every constructor, from 30_encoding.md R121 and R126 -/

theorem test_decode_sequencer :
    decode 0x0000000000000000 = .ok .nop ∧ decode 0x0000000000000001 = .ok .halt ∧
    decode 0x0000123400000002 = .ok (.jmp 0x1234) ∧
    decode 0x0000000b00001203 = .ok (.brf .nt 11) ∧
    decode 0x0000001000000004 = .ok (.setlc 16) ∧ decode 0x0000000200000005 = .ok (.djnz 2) ∧
    decode 0x0000001000200408 = .ok (.mov 0x20 0x10 2) ∧
    decode 0xdeadbeef00400009 = .ok (.limm 0x40 0xdeadbeef) := by decide +kernel

/-- 96_test_vectors_units.md section 3.3: the ten conditions. -/
theorem test_decode_conditions :
    decode 0x0000000700000003 = .ok (.brf .c 7) ∧ decode 0x0000000700000203 = .ok (.brf .nc 7) ∧
    decode 0x0000000700000403 = .ok (.brf .z 7) ∧ decode 0x0000000700000603 = .ok (.brf .nz 7) ∧
    decode 0x0000000700000803 = .ok (.brf .lt 7) ∧ decode 0x0000000700000a03 = .ok (.brf .nlt 7) ∧
    decode 0x0000000700000c03 = .ok (.brf .gt 7) ∧ decode 0x0000000700000e03 = .ok (.brf .ngt 7) ∧
    decode 0x0000000700001003 = .ok (.brf .t 7) ∧ decode 0x0000000700001203 = .ok (.brf .nt 7) := by
  decide +kernel

theorem test_decode_limb :
    decode 0x0002000100030010 = .ok (.ladd 3 1 2) ∧ decode 0x0002000100030011 = .ok (.lsub 3 1 2) ∧
    decode 0x0002000100000012 = .ok (.lcmp 1 2) ∧ decode 0x0000000100000013 = .ok (.lisz 1) ∧
    decode 0x0020000100010014 = .ok (.lshl 1 1 32) ∧ decode 0x0020000100010015 = .ok (.lshr 1 1 32) ∧
    decode 0x0002000100030016 = .ok (.land 3 1 2) ∧ decode 0x0002000100030017 = .ok (.lor 3 1 2) ∧
    decode 0x0002000100030018 = .ok (.lxor 3 1 2) ∧ decode 0x0000000100030019 = .ok (.lnot 3 1) := by
  decide +kernel

theorem test_decode_field :
    decode 0x0002000100030120 = .ok (.fadd .fr 3 1 2) ∧
    decode 0x0002000100030021 = .ok (.fsub .fq 3 1 2) ∧
    decode 0x0000000100030122 = .ok (.fneg .fr 3 1) ∧
    decode 0x0011001100120123 = .ok (.fmul .fr 0x12 0x11 0x11) ∧
    decode 0x0000000100030024 = .ok (.fsqr .fq 3 1) ∧
    decode 0x0002000100030125 = .ok (.fmulw .fr 3 1 2) ∧
    decode 0x0000000100030126 = .ok (.ftom .fr 3 1) ∧
    decode 0x0000000100030127 = .ok (.ffromm .fr 3 1) ∧
    decode 0x0000000100030228 = .ok (.norm .fq 3 1 .montgomery) ∧
    decode 0x0000000100000129 = .ok (.feisz .fr 1) := by decide +kernel

theorem test_decode_quadratic :
    decode 0x0012001000200030 = .ok (.e2add 0x20 0x10 0x12) ∧
    decode 0x0010001200200031 = .ok (.e2sub 0x20 0x12 0x10) ∧
    decode 0x0000001000200032 = .ok (.e2neg 0x20 0x10) ∧
    decode 0x0012001000200033 = .ok (.e2mul 0x20 0x10 0x12) ∧
    decode 0x0000001000200034 = .ok (.e2sqr 0x20 0x10) ∧
    decode 0x0012001000000035 = .ok (.e2eq 0x10 0x12) ∧
    decode 0x0000001000000036 = .ok (.e2isz 0x10) := by decide +kernel

theorem test_decode_curve :
    decode 0x0020001000300040 = .ok (.padd .g1 0x30 0x10 0x20) ∧
    decode 0x0050003000400141 = .ok (.padda .g2 0x40 0x30 0x50) ∧
    decode 0x0000001000300042 = .ok (.pdbl .g1 0x30 0x10) ∧
    decode 0x0000001000300143 = .ok (.pneg .g2 0x30 0x10) ∧
    decode 0x0000001000000044 = .ok (.pisz .g1 0x10) ∧
    decode 0x0000001000000045 = .ok (.ponc .g1 0x10) ∧
    decode 0x0000001000300046 = .ok (.pfroma .g1 0x30 0x10) ∧
    decode 0x0020001000000047 = .ok (.peq .g1 0x10 0x20) ∧
    decode 0x0050003000604148 = .ok (.pmul .g2 0x60 0x30 0x50 32) := by decide +kernel

theorem test_decode_msm_and_fft :
    decode 0x0000010000000050 = .ok (.bktclr .g1 0x100) ∧
    decode 0x007f000000000051 = .ok (.bktacc .g1 0 127) ∧
    decode 0x0000010001500052 = .ok (.bktred .g1 0x150 0x100) ∧
    decode 0x0000000000100153 = .ok (.msm .g2 0x10 0) ∧
    decode 0x0003000200010060 = .ok (.bfly 1 2 3) ∧ decode 0x0000000001000661 = .ok (.bitrev 0x100 3) ∧
    decode 0x0000000001000462 = .ok (.fft 0x100 2) ∧ decode 0x0000000001000463 = .ok (.ifft 0x100 2) := by
  decide +kernel

/-- 96_test_vectors_units.md section 3.2: the words that fault at decode, ILLEGAL_OPCODE. -/
theorem test_decode_illegal_opcodes :
    ∀ w ∈ [0x06, 0x0f, 0x1a, 0x37, 0x49, 0x54, 0x64, 0xff, 0xffffffffffffff06],
      decode (BitVec.ofNat 64 w) = .error .illegalOpcode := by decide +kernel

/-- 96_test_vectors_units.md section 3.2: the words that fault at decode, RESERVED_FIELD. -/
theorem test_decode_reserved_fields :
    ∀ w ∈ [0x0000000000000100, 0x0001000000000001, 0x0000000700001403, 0x0000000700002403,
        0x0000000100030528, 0x0040001000500048, 0x0040001000504248, 0x0002000100030210,
        0x0005000100030130, 0x0001000001000661, 0x0001000000100053],
      decode (BitVec.ofNat 64 w) = .error .reservedField := by decide +kernel

theorem test_decodeTableWord : decodeTableWord 64 0x0003000200010060 = some (.bfly 1 2 3) ∧
    decodeTableWord 8 0x60 = some (.bfly 0 0 0) ∧ decodeTableWord 64 0x06 = none := by decide +kernel

theorem test_decodeBytes_truncated : decodeBytes [0, 0, 0, 0, 0, 0, 0] = .error .truncated := by
  decide

/-- Every instruction whose word was placed by `withFetchWord` is what the next step runs: here LIMM
right after reset (96_test_vectors_units.md section 3.3). -/
theorem test_step_runs_placed_word :
    after (step (State.reset.withFetchWord 64 0x1234567800050009)) (fun t => (t.x 5, t.cpc)) =
      some (0x12345678, 1) := by decide +kernel

/-- 97_test_vectors_curve.md: a command of an unloaded context right after reset faults. -/
theorem test_step_faults_right_after_reset :
    after (step (State.reset.withFetchWord 64 0x0002000100030023)) (fun t => t.faultRec) =
      some { cause := 4, pc := 0, cmd := 0x0002000100030023, info := 0 } := by decide +kernel

/-! ## Sequencer and data movement (96_test_vectors_units.md section 3.3) -/

theorem test_nop : after (exec .nop (toy [])) (·.cpc) = some 1 := by decide +kernel

theorem test_halt : after (exec .halt (toy [])) (fun t => (t.cpc, t.status)) =
    some (0, { busy := false, done := true, fault := false, hostErr := false }) := by decide +kernel

/-- JMP #4096 with 4096 command words: the next fetch faults. -/
theorem test_jmp_beyond_command_memory :
    after (exec (.jmp 4096) (toy [])) (fun t => trapOf (step t)) = some (some (1, 0)) := by
  decide +kernel

/-- FLAGS = C 1, Z 0, LT 1, GT 0, T 0: taken, not taken, in the order of the conditions' codes. -/
theorem test_brf_conditions :
    [Cond.c, .nc, .z, .nz, .lt, .nlt, .gt, .ngt, .t, .nt].map (fun cc =>
      after (exec (.brf cc 7) ((toy []).setFlags
        { c := true, z := false, lt := true, gt := false, t := false })) (·.cpc.toNat)) =
      [some 7, some 1, some 1, some 7, some 7, some 1, some 1, some 7, some 1, some 7] := by
  decide +kernel

theorem test_setlc : after (exec (.setlc 0xFFFF) ((toy []).setLcnt 0x1234)) (·.lcnt) =
    some 0xFFFF := by decide +kernel

theorem test_djnz : [2, 1, 0].map (fun n => after (exec (.djnz 3) ((toy []).setLcnt n))
    (fun t => (t.lcnt, t.cpc))) = [some (1, 3), some (0, 1), some (65535, 3)] := by decide +kernel

/-- The copy gets the old source values although the ranges overlap. -/
theorem test_mov_overlapping :
    after (exec (.mov 0x11 0x10 2) (toy [(0x10, 1), (0x11, 2), (0x12, 3), (0x13, 4)]))
      (fun t => (t.x 0x10, t.x 0x11, t.x 0x12, t.x 0x13)) = some (1, 1, 2, 3) := by decide +kernel

theorem test_mov_range : trapOf (exec (.mov 0xFF81 0x10 127) (toy [])) = some (5, 0xff81) := by
  decide +kernel

theorem test_limm_zero_extends : after (exec (.limm 1 0x80000000) (toy [])) (·.x 1) =
    some 0x80000000 := by decide +kernel

/-! ## Limb vector (96_test_vectors_units.md section 3.4) -/

theorem test_ladd_carry :
    after (exec (.ladd 3 1 2) (toyF [(1, 2 ^ 256 - 1), (2, 1)])) (fun t => (t.x 3, t.flags)) =
      some (0, { c := true, z := true, lt := true, gt := true, t := true }) := by decide +kernel

theorem test_ladd_no_carry :
    after (exec (.ladd 3 1 2) (toyF [(1, 5), (2, 7)])) (fun t => (t.x 3, t.flags)) =
      some (12, { c := false, z := false, lt := true, gt := true, t := true }) := by decide +kernel

theorem test_lsub_borrow :
    after (exec (.lsub 3 1 2) (toyF [(1, 5), (2, 7)])) (fun t => (t.x 3, t.flags)) =
      some (2 ^ 256 - 2, { c := true, z := false, lt := true, gt := true, t := true }) := by
  decide +kernel

theorem test_lcmp_unsigned :
    after (exec (.lcmp 1 2) (toyF [(1, 2 ^ 255), (2, 2 ^ 255 - 1)])) (·.flags) =
      some { c := true, z := false, lt := false, gt := true, t := true } := by decide +kernel

theorem test_lisz : after (exec (.lisz 1) (toy [(1, 0)])) (·.flags.z) = some true := by
  decide +kernel

theorem test_lshl_beyond_width : after (exec (.lshl 3 1 0x300) (toy [(1, 1)]))
    (fun t => (t.x 3, t.flags.z)) = some (0, true) := by decide +kernel

theorem test_lshr_logical : after (exec (.lshr 3 1 255) (toy [(1, 2 ^ 255)]))
    (fun t => (t.x 3, t.flags.z)) = some (1, false) := by decide +kernel

theorem test_land : after (exec (.land 3 1 2) (toyF [(1, 61680), (2, 4080)]))
    (fun t => (t.x 3, t.flags)) =
      some (240, { c := true, z := false, lt := true, gt := true, t := true }) := by decide +kernel

theorem test_lor : after (exec (.lor 3 1 2) (toy [(1, 61680), (2, 4080)])) (·.x 3) = some 65520 := by
  decide +kernel

theorem test_lxor : after (exec (.lxor 3 1 2) (toy [(1, 61680), (2, 61680)]))
    (fun t => (t.x 3, t.flags.z)) = some (0, true) := by decide +kernel

theorem test_lnot : after (exec (.lnot 3 1) (toy [(1, 0)])) (·.x 3) = some (2 ^ 256 - 1) := by
  decide +kernel

/-! ## Field (96_test_vectors_units.md section 3.5, the small context, and 3.6) -/

theorem test_fmul : after (exec (.fmul .fr 3 1 2) (toy [(1, 84), (2, 57)])) (·.x 3) = some 83 := by
  decide +kernel

theorem test_fmul_noncanonical : trapOf (exec (.fmul .fr 3 1 2) (toy [(1, 101), (2, 101)])) =
    some (10, 1) := by decide +kernel

theorem test_fsqr : after (exec (.fsqr .fr 3 1) (toy [(1, 67)])) (·.x 3) = some 64 := by
  decide +kernel

/-- The word slot's upper limbs are not read. -/
theorem test_fmulw : after (exec (.fmulw .fr 3 1 2) (toy [(1, 20), (2, 2 ^ 200 + 7)])) (·.x 3) =
    some 42 := by decide +kernel

theorem test_ftom : after (exec (.ftom .fr 3 1) (toy [(1, 100)])) (·.x 3) = some 64 := by
  decide +kernel

theorem test_ffromm : after (exec (.ffromm .fr 3 1) (toy [(1, 1)])) (·.x 3) = some 71 := by
  decide +kernel

theorem test_fadd_wraps : after (exec (.fadd .fr 3 1 2) (toy [(1, 100), (2, 5)])) (·.x 3) = some 4 := by
  decide +kernel

theorem test_fsub_wraps : after (exec (.fsub .fr 3 1 2) (toy [(1, 3), (2, 5)])) (·.x 3) = some 99 := by
  decide +kernel

theorem test_fneg : [0, 1].map (fun v => after (exec (.fneg .fr 3 1) (toy [(1, v)])) (·.x 3)) =
    [some 0, some 100] := by decide +kernel

/-- SHORT -2^31 and SHORT 2^31 - 1 in both modes. -/
theorem test_norm_short :
    after (exec (.norm .fr 3 1 .normal) (toy [(1, 0x80000000)])) (·.x 3) = some 67 ∧
    after (exec (.norm .fr 3 1 .montgomery) (toy [(1, 0x7fffffff)])) (·.x 3) = some 9 := by
  decide +kernel

theorem test_norm_bad_tag : trapOf (exec (.norm .fr 3 1 .normal) (toy [(1, 2 ^ 62)])) = some (9, 1) := by
  decide +kernel

/-- LONG_MONT 0 with the header's low half set, and SHORT -1. -/
theorem test_feisz :
    after (exec (.feisz .fr 1) (toy [(1, 0xC000000000000005), (2, 0)])) (·.flags.z) = some true ∧
    after (exec (.feisz .fr 1) (toyF [(1, 0xffffffff)])) (·.flags.z) = some false := by decide +kernel

/-! ## Quadratic extension, x² = -1, by hand (44_fq2.md R310-R321) -/

/-- a = 2 + 3x at 1 and b = 3 + 5x at 2, in Montgomery form. -/
def toyAB : State := toy [(1, 74), (2, 10), (3, 84)]

/-- Both components of the element at slot `i`. -/
def pair (i : Nat) (t : State) : Nat × Nat := (t.x i, t.x (i + 1))

/-- 5 + 8x. -/
theorem test_e2add : after (exec (.e2add 0 1 2) toyAB) (pair 0) = some (84, 94) := by decide +kernel

/-- -1 - 2x. -/
theorem test_e2sub : after (exec (.e2sub 0 1 2) toyAB) (pair 0) = some (64, 27) := by decide +kernel

/-- -2 - 3x, in place. -/
theorem test_e2neg : after (exec (.e2neg 1 1) toyAB) (pair 1) = some (27, 91) := by decide +kernel

/-- a·b = -9 + 19x. -/
theorem test_e2mul : after (exec (.e2mul 0 1 2) toyAB) (pair 0) = some (71, 97) := by decide +kernel

/-- a² = -5 + 12x, in place. -/
theorem test_e2sqr : after (exec (.e2sqr 1 1) toyAB) (pair 1) = some (17, 40) := by decide +kernel

theorem test_e2eq : after (exec (.e2eq 1 2) toyAB) (·.flags.z) = some false ∧
    after (exec (.e2eq 1 1) toyAB) (·.flags.z) = some true := by decide +kernel

theorem test_e2isz : after (exec (.e2isz 1) (toyF [(1, 0), (2, 37)])) (·.flags.z) = some false ∧
    after (exec (.e2isz 1) (toy [(1, 0), (2, 0)])) (·.flags.z) = some true := by decide +kernel

/-! ## Curve: P = (1, 2) on y² = x³ + 3 modulo 101; 2P = (78 : 90 : 4) by R345, worked out by hand -/

/-- P at slot 1. -/
def toyP : State := toy [(1, 37), (2, 74), (3, 37)]

/-- The three slots from `i` upwards. -/
def triple (i : Nat) (t : State) : Nat × Nat × Nat := (t.x i, t.x (i + 1), t.x (i + 2))

theorem test_pdbl : after (exec (.pdbl .g1 1 1) toyP) (triple 1) = some (58, 98, 47) := by
  decide +kernel

theorem test_padd_equal_points : after (exec (.padd .g1 1 1 1) toyP) (triple 1) = some (58, 98, 47) := by
  decide +kernel

/-- 97_test_vectors_curve.md section 3.8, in the context CFG-BN: 2G + G = 3G, the general path. -/
theorem test_padd_bn :
    after (exec (.padd .g1 0 0x10 0x20)
      { State.reset with
        cfg := { toyCfg with
          ctx0 := { q := 0x30644e72e131a029b85045b68181585d97816a916871ca8d3c208c16d87cfd47
                    r2 := 0x06d89f71cab8351f47ab1eff0a417ff6b5e71911d44501fbf32cfc5b538afa89
                    np := 0x782df87d1b799c77 }
          b1 := 0x2a1f6744ce179d8e334bea4e696bd2841f6ac17ae15521b97a17caa950ad28d7 }
        mem := slotCells 0x10 0x13227397098d014dc2822db40c0ac2ecbc0b548b438e5469e10460b6c3e7ea38 ++
          slotCells 0x11 0x04644e72e131a029b85045b68181585d97816a916871ca8d3c208c16d87cfd47 ++
          slotCells 0x12 0x0e0a77c19a07df2f666ea36f7879462c0a78eb28f5c70b3dd35d438dc58f0d9d ++
          slotCells 0x20 0x0e0a77c19a07df2f666ea36f7879462c0a78eb28f5c70b3dd35d438dc58f0d9d ++
          slotCells 0x21 0x1c14ef83340fbe5eccdd46def0f28c5814f1d651eb8e167ba6ba871b8b1e1b3a ++
          slotCells 0x22 0x0e0a77c19a07df2f666ea36f7879462c0a78eb28f5c70b3dd35d438dc58f0d9d })
      (triple 0) =
      some (0x27a8cee48825a6e71fb610361830d7b2dc25e4872b8c2709d46bba41c4cfa34a,
        0x27229d282f477c7f20407192749c06a5bafc3a8101678472c80464be2c969c3f,
        0x263456c802275bed0029312d5a5e5edc345c97cccce3383520d251c4dbcb4411) := by decide +kernel

/-- P + the affine P, the doubling path. -/
theorem test_padda : after (exec (.padda .g1 1 1 1) toyP) (triple 1) = some (58, 98, 47) := by
  decide +kernel

theorem test_pneg : after (exec (.pneg .g1 1 1) toyP) (triple 1) = some (37, 27, 37) ∧
    after (exec (.pneg .g1 1 1) (toy [(1, 5), (2, 6), (3, 0)])) (triple 1) = some (37, 37, 0) := by
  decide +kernel

theorem test_pisz : after (exec (.pisz .g1 1) toyP) (·.flags.t) = some false ∧
    after (exec (.pisz .g1 1) (toy [(1, 5), (2, 6), (3, 0)])) (·.flags.t) = some true := by
  decide +kernel

theorem test_ponc : after (exec (.ponc .g1 1) toyP) (·.flags.t) = some true ∧
    after (exec (.ponc .g1 1) (toyF [(1, 37), (2, 37), (3, 37)])) (·.flags.t) = some false := by
  decide +kernel

/-- The affine (1, 2) in G2, and the sentinel in G1. -/
theorem test_pfroma :
    after (exec (.pfroma .g2 1 1) (toy [(1, 37), (2, 0), (3, 74), (4, 0)])) (fun t => (t.x 3, t.x 5)) =
      some (74, 37) ∧
    after (exec (.pfroma .g1 1 1) (toy [(1, 0), (2, 0)])) (triple 1) = some (37, 37, 0) := by
  decide +kernel

theorem test_peq :
    after (exec (.peq .g1 1 3) (toy [(1, 37), (2, 74), (3, 37), (4, 27), (5, 64)])) (·.flags.t) =
      some true ∧
    after (exec (.peq .g1 1 3) (toyF [(1, 37), (2, 74), (3, 37), (4, 27), (5, 0)])) (·.flags.t) =
      some false := by decide +kernel

/-- k = 258 with one byte: the bits above the byte are ignored, so 2P. -/
theorem test_pmul : after (exec (.pmul .g1 1 1 0 1) (toy [(0, 258), (1, 37), (2, 74), (3, 37)]))
    (triple 1) = some (58, 98, 47) := by decide +kernel

/-! ## Multi-scalar multiplication: descriptor at slot 0, PB = SB = 1, BB = 3, one bucket
(46_msm.md R390-R398) -/

/-- The descriptor with `n` points and chunk size `c`. -/
def descriptor (n c : Nat) : Nat := n + (1 + 2 ^ 16 + 3 * 2 ^ 32 + c * 2 ^ 48) * 2 ^ 64

/-- The point P, whose x = 37 is the scalar too, and one bucket. -/
def toyMsm (n : Nat) : State := toy [(0, descriptor n 1), (1, 37), (2, 74), (3, 37), (4, 74), (5, 37)]

theorem test_bktclr : after (exec (.bktclr .g1 0) (toy [(0, descriptor 1 1)])) (triple 3) =
    some (37, 37, 0) := by decide +kernel

/-- 46_msm.md R390: c = 17, a bit above the fields of limb 1, a bit of limb 2. -/
theorem test_bktclr_bad_descriptor :
    [descriptor 1 17, descriptor 1 1 + 2 ^ 117, descriptor 1 1 + 2 ^ 128].map (fun v =>
      trapOf (exec (.bktclr .g1 0) (toy [(0, v)]))) = [some (6, 0), some (6, 0), some (6, 0)] := by
  decide +kernel

/-- Bit 2 of the scalar 37 is set: window 2 adds P to the bucket, which held P. -/
theorem test_bktacc : after (exec (.bktacc .g1 0 2) (toyMsm 1)) (triple 3) = some (58, 98, 47) := by
  decide +kernel

theorem test_bktred : after (exec (.bktred .g1 1 0) (toyMsm 0)) (triple 1) = some (37, 74, 37) := by
  decide +kernel

/-- 46_msm.md R392: two points reach the bucket at slot 3. -/
theorem test_msm_overlap : trapOf (exec (.msm .g1 6 0) (toy [(0, descriptor 2 1)])) =
    some (8, 0) := by decide +kernel

/-! ## FFT: the root -1 of order 2 modulo 101, the forward table at slot 5, the inverse one at slot 3
(47_fft.md R421, R428, R429) -/

/-- 97_test_vectors_curve.md section 3.11, the row of normal-form values, worked out modulo 101:
3 + 7·5 = 38, 3 - 35 = 69. -/
theorem test_bfly : after (exec (.bfly 1 2 3) (toy [(1, 3), (2, 5), (3, 57)]))
    (fun t => (t.x 1, t.x 2)) = some (38, 69) := by decide +kernel

theorem test_bitrev : after (exec (.bitrev 0 2) (toy [(0, 0), (1, 1), (2, 2), (3, 3)]))
    (fun t => (t.x 0, t.x 1, t.x 2, t.x 3)) = some (0, 2, 1, 3) := by decide +kernel

/-- The index reversal of the row with eight elements. -/
theorem test_bit_reversal : (List.range 8).map (revBits 3) = [0, 4, 2, 6, 1, 5, 3, 7] := by decide

/-- (1, 2) -> (3, -1). -/
theorem test_fft : after (exec (.fft 1 1) (toy [(1, 1), (2, 2), (5, 37)])) (pair 1) =
    some (3, 100) := by decide +kernel

theorem test_fft_domain : trapOf (exec (.fft 0xFFFF 127) (toy [])) = some (7, 127) := by decide +kernel

/-- The inverse of (1, 2) -> (3, -1). -/
theorem test_ifft : after (exec (.ifft 1 1) (toy [(1, 3), (2, 100), (3, 37)])) (pair 1) =
    some (1, 2) := by decide +kernel

/-! ## The host (96_test_vectors_units.md section 3.1) -/

theorem test_host_reads_id : after (step (idle (readAt 0))) (·.reply) =
    some (some (.data 0x45524F4343444552)) := by decide +kernel

theorem test_host_bus_errors :
    [(0, 4), (4, 8), (0x1000, 8), (0x88000, 8), (0x100000, 8)].map (fun a =>
      after (step (idle (.access (.read (busBase + a.1) a.2)))) (·.reply)) =
      [some (some .busError), some (some .busError), some (some .busError), some (some .busError),
        some (some .busError)] := by decide +kernel

/-- 20_memory.md R81: the last word of the window, and the bus addresses just outside it, which are not
the block's (log 14). -/
theorem test_host_window : [busBase + 0x3FFFF8, busBase + 0x400000, busBase - 8].map
    (windowOffset toyParams) = [some 0x3FFFF8, none, none] ∧
    after (step (idle (.access (.read (busBase + 0x400000) 8)))) (·.reply) = some none := by
  decide +kernel

/-- Log 22: an unpopulated offset of the CMDM window while busy. -/
theorem test_host_bus_error_while_busy : after (step (running (readAt 0x88000)))
    (fun t => (t.reply, t.status.hostErr)) = some (some .busError, false) := by decide +kernel

/-- The first row of the spec's text prints 10 in the place of OPM_LOG = 10, which R36 reads as 0A (log
19). -/
theorem test_params_value : paramsValue { opmLog := 10, cmdmLog := 8, lanes := 4, blockBase := 0 } =
    0x000000000104080A ∧ paramsValue { opmLog := 12, cmdmLog := 16, lanes := 1, blockBase := 0 } =
    0x000000000101100C := by decide +kernel

/-- BETA_CLASS of the small context: M(1) = 37 is ONE, 64 is NEGONE. -/
theorem test_beta_class : betaClass toyCtx 37 = .one ∧ betaClass toyCtx 64 = .negone ∧
    betaClass toyCtx 0 = .zero ∧ betaClass toyCtx 101 = .other := by decide +kernel

/-- CtxValid, the rows q = 3, q = 15, q = 1 and a wrong R². -/
theorem test_ctx_valid : Ctx.valid { q := 3, r2 := 1, np := 0xaaaaaaaaaaaaaaab } = true ∧
    Ctx.valid { q := 15, r2 := 1, np := 0xeeeeeeeeeeeeeeef } = true ∧
    Ctx.valid { q := 1, r2 := 0, np := 1 } = false ∧
    Ctx.valid { toyCtx with r2 := 57 } = false := by decide +kernel

/-- START with IRQ_EN, then HALT: STATUS 0x12. -/
theorem test_run_to_halt :
    (after (step ((idle (writeAt 0x10 5)).setCommand 0 1)) step).bind
      (fun o => after o (fun t => (csrRead t .status, csrRead t .ctrl))) = some (0x12, 4) := by
  decide +kernel

theorem test_abort_clears_status :
    after (step ((running (writeAt 0x10 2)).setCommand 0 2))
      (fun t => (csrRead t .status, csrRead t .cpc)) = some (0, 0) := by decide +kernel

/-! ## Witnesses: states and operands that meet the hypotheses of the statements -/

theorem witness_DecodeEncodeRoundTrip : (Instr.pmul .g2 1 2 3 32).wf = true := by decide

theorem witness_EncodeDecodeRoundTrip : decode 0x0003000200010060 = .ok (.bfly 1 2 3) := by
  decide +kernel

/-- RefusedWords: a word on each side of each equivalence. -/
theorem witness_RefusedWords : illegalOpcode (wordField 0xffffffffffffff06 0 8) ∧
    (¬ illegalOpcode (wordField 0x0002000100030210 0 8) ∧ unusedFieldSet 0x0002000100030210) ∧
    (¬ illegalOpcode (wordField 0x0000000100030528 0 8) ∧ reservedValue 0x0000000100030528) ∧
    ¬ (unusedFieldSet 0x0000000100030228 ∨ reservedValue 0x0000000100030228) := by
  refine ⟨?_, ⟨?_, ?_⟩, ⟨?_, ?_⟩, ?_⟩ <;>
    simp [wordField, illegalOpcode, unusedFieldSet, reservedValue, usesS, usesM7, usesRd, usesRa, usesRb]

/-- A running engine with a NOP at CPC. -/
def atNop : State := State.reset.withFetchWord 64 0

theorem witness_StepRunsTheDecodedCommand : atNop.params.legal = true ∧ atNop.status.busy = true ∧
    atNop.cpc.toNat < atNop.params.cmdmWords ∧ decode (atNop.command atNop.cpc.toNat) = .ok .nop ∧
    atNop.inbox = [] ∧ (atNop.setInbox [.engine]).inbox = .engine :: [] := by decide +kernel

theorem witness_FetchAndDecodeFaults :
    (toy []).params.legal = true ∧ (toy []).inbox = [] ∧ (toy []).status.busy = true ∧
    ((toy []).goto 4096).params.cmdmWords ≤ ((toy []).goto 4096).cpc.toNat ∧
    (toy []).cpc.toNat < (toy []).params.cmdmWords ∧
    decode (((toy []).setCommand 0 0xFF).command 0) = .error .illegalOpcode ∧
    decode (((toy []).setCommand 0 0x100).command 0) = .error .reservedField := by decide +kernel

theorem witness_StepAlwaysAnswers : State.reset.params.legal = true ∧ State.reset.inbox = [] ∧
    State.reset.status.busy = false ∧
    ({ State.reset with params := { Params.default with opmLog := 0 } } : State).params.legal =
      false := by decide

/-- StepKeepsInvariant, RegistersReadBack and others: a loaded idle engine that meets the invariant. -/
theorem witness_StepKeepsInvariant : (idle .engine).Inv ∧ ∃ t, step (idle .engine) = .next t :=
  ⟨⟨by decide, by decide, fun a h => (nomatch h), by decide, fun h => (nomatch h), by decide,
    fun h => (nomatch h), by decide⟩, ⟨_, rfl⟩⟩

theorem witness_FaultsArePrecise : (Instr.fmul .fq 3 1 2).wf = true ∧ State.reset.status.fault = false ∧
    after (exec (.fmul .fq 3 1 2) State.reset) (·.status.fault) = some true := by decide +kernel

/-- CommandsKeepTheRest, FlagsAreWrittenByTheTable and NextPc: a command that completes. -/
theorem witness_frames : State.reset.status.fault = false ∧
    after (exec (.limm 1 5) State.reset) (·.status.fault) = some false ∧
    writesC (.limm 1 5) = false ∧ writesZ (.limm 1 5) = false ∧ writesOrder (.limm 1 5) = false ∧
    writesT (.limm 1 5) = false := by decide +kernel

theorem witness_DataMovement : State.reset.inRange (0xFF80 : SlotIx).toNat ((127 : BitVec 7).toNat + 1) =
    true ∧ State.reset.inRange (0xFFFF : SlotIx).toNat 1 = true := by decide +kernel

/-- The statements about limb commands need ranges alone. -/
theorem witness_limb : State.reset.inRange (0 : SlotIx).toNat 1 = true ∧
    State.reset.inRange (0xFFFF : SlotIx).toNat 1 = true := by decide +kernel

/-- MontgomeryProduct, MontgomeryProperties and MultiplyByBeta. -/
theorem witness_MontgomeryProduct : toyCtx.valid = true ∧ 100 < toyCtx.q.toNat ∧ 0 < toyCtx.q.toNat ∧
    (64 : Nat) < toyCtx.q.toNat := by decide +kernel

/-- FieldMultiplies, FieldAddsSubtractsNegates. -/
theorem witness_FieldMultiplies : ((toy [(1, 100), (2, 57)]).ctx .fr).valid = true ∧
    (toy [(1, 100), (2, 57)]).inRange (1 : SlotIx).toNat 1 = true ∧
    (toy [(1, 100), (2, 57)]).inRange (2 : SlotIx).toNat 1 = true ∧
    (toy [(1, 100), (2, 57)]).inRange (0xFFFF : SlotIx).toNat 1 = true ∧
    (toy [(1, 100), (2, 57)]).Canonical .fr (1 : SlotIx).toNat 1 ∧
    (toy [(1, 100), (2, 57)]).Canonical .fr (2 : SlotIx).toNat 1 := by
  unfold State.Canonical
  decide +kernel

theorem witness_AdditivePrimitives : (0 : Nat) < 101 ∧ (100 : Nat) < 101 := by decide

/-- NormResult and FeiszResult: a record of each legal type. -/
theorem witness_NormResult : ((toy []).ctx .fr).valid = true ∧
    (toy []).inRange (1 : SlotIx).toNat 2 = true ∧ (toy []).inRange (3 : SlotIx).toNat 1 = true ∧
    (toy [(1, 0xffffffff)]).x 1 / 2 ^ 32 % 2 ^ 32 = 0 ∧
    ((toy [(1, 2 ^ 63), (2, 100)]).x 1 / 2 ^ 32 % 2 ^ 32 = 0x80000000 ∧
      (toy [(1, 2 ^ 63), (2, 100)]).Canonical .fr 2 1) ∧
    ((toy [(1, 2 ^ 63 + 2 ^ 62), (2, 0)]).x 1 / 2 ^ 32 % 2 ^ 32 = 0xC0000000 ∧
      (toy [(1, 2 ^ 63 + 2 ^ 62), (2, 0)]).Canonical .fr 2 1) := by
  unfold State.Canonical
  decide +kernel

/-- As `toy`, with 8 operand slots. -/
def small (xs : List (Nat × Nat)) : State := { toy xs with params := { toyParams with opmLog := 3 } }

/-- OperandChecksInOrder: both sides of each clause, where OPM ends and where a value reaches q; FMULW's word
slot 2 may hold any value; with RA, RB and RD out of range the first in the order of the checks counts. -/
theorem witness_OperandChecksInOrder : ([.fmulw .fr 7 1 2, .fmulw .fr 8 8 9, .fmulw .fr 8 1 9,
      .fmulw .fr 8 1 2, .fmulw .fr 3 4 2, .fmul .fr 3 1 4, .fsqr .fr 3 4, .fneg .fr 8 4, .norm .fr 3 5 .normal,
      .feisz .fr 7, .e2isz 1, .e2isz 7, .e2mul 7 1 1, .ladd 8 9 9, .ladd 8 1 9, .ladd 8 1 2, .ladd 7 1 2,
      .lcmp 7 8, .lisz 8, .lshl 8 7 9, .mov 0 6 1, .mov 7 7 1, .mov 7 6 1, .limm 7 5,
      .limm 8 5] : List Instr).map
    (fun i => trapOf (exec i (small [(1, 100), (2, 2 ^ 200), (4, 101), (5, 2 ^ 63), (6, 101)]))) =
      [none, some (5, 8), some (5, 9), some (5, 8), some (10, 4), some (10, 4), some (10, 4), some (5, 8),
        some (10, 6), some (5, 7), some (10, 2), some (5, 7), some (5, 7), some (5, 9), some (5, 9),
        some (5, 8), none, some (5, 8), some (5, 8), some (5, 8), none, some (5, 7), some (5, 7), none,
        some (5, 8)] := by decide +kernel

/-- OperandChecksInOrder: the context comes first; BETA = q comes last. -/
theorem witness_OperandChecksInOrder_ends :
    trapOf (exec (.fsub .fr 3 1 2) { toy [] with cfg := ConfigRegs.reset }) = some (4, 1) ∧
    trapOf (exec (.e2sqr 3 1) { toy [(1, 100), (2, 0)] with cfg := { toyCfg with beta := 101 } }) =
      some (10, 0xFFFFFFFF) := by decide +kernel

theorem witness_IllegalTagsFault : ((toy [(1, 2 ^ 62)]).ctx .fq).valid = true ∧
    (toy [(1, 2 ^ 62)]).inRange (1 : SlotIx).toNat 2 = true ∧
    (toy [(1, 2 ^ 62)]).inRange (3 : SlotIx).toNat 1 = true ∧
    (toy [(1, 2 ^ 62)]).x (1 : SlotIx).toNat / 2 ^ 32 % 2 ^ 32 ∉ [0, 0x80000000, 0xC0000000] := by decide +kernel

/-- Fq2Additive, Fq2Product and Fq2Predicates. -/
theorem witness_Fq2Product : (toyAB.ctx .fq).valid = true ∧ toyAB.inRange (1 : SlotIx).toNat 2 = true ∧
    toyAB.inRange (2 : SlotIx).toNat 2 = true ∧ toyAB.Canonical .fq (1 : SlotIx).toNat 2 ∧
    toyAB.Canonical .fq (2 : SlotIx).toNat 2 ∧ toyAB.cfg.beta.toNat < toyAB.q .fq := by
  unfold State.Canonical
  decide +kernel

/-- The point (1, 2) in G2, its first two coordinates the affine point. -/
def toyQ : State := toy [(1, 37), (2, 0), (3, 74), (4, 0), (5, 37), (6, 0)]

/-- GroupLawCommands in G1: a Jacobian and an affine point; PMUL's scalar may be any slot. -/
theorem witness_GroupLawCommands_g1 : (toyP.ctx .fq).valid = true ∧
    toyP.inRange (1 : SlotIx).toNat (jw .g1) = true ∧ toyP.Canonical .fq (1 : SlotIx).toNat (jw .g1) ∧
    toyP.ValidPoint .g1 (1 : SlotIx).toNat ∧
    toyP.inRange (1 : SlotIx).toNat (aw .g1) = true ∧ toyP.inRange (1 : SlotIx).toNat 1 = true ∧
    toyP.Canonical .fq (1 : SlotIx).toNat (aw .g1) ∧ toyP.ValidAffine .g1 (1 : SlotIx).toNat := by
  simp only [State.Canonical, State.ValidPoint, State.ValidAffine, State.NoConstant, onGroup]
  decide +kernel

theorem witness_GroupLawCommands_g2 : (toyQ.ctx .fq).valid = true ∧
    toyQ.inRange (1 : SlotIx).toNat (jw .g2) = true ∧ toyQ.Canonical .fq (1 : SlotIx).toNat (jw .g2) ∧
    toyQ.cfg.beta.toNat < toyQ.q .fq ∧ toyQ.ValidPoint .g2 (1 : SlotIx).toNat ∧
    toyQ.inRange (1 : SlotIx).toNat (aw .g2) = true ∧ toyQ.inRange (1 : SlotIx).toNat 1 = true ∧
    toyQ.Canonical .fq (1 : SlotIx).toNat (aw .g2) ∧ toyQ.ValidAffine .g2 (1 : SlotIx).toNat := by
  simp only [State.Canonical, State.ValidPoint, State.ValidAffine, State.NoConstant, onGroup]
  decide +kernel

/-- GroupLawCommands: 2P + P on the general path, worked out from R346 and R347 in plain arithmetic modulo 101. -/
theorem witness_GroupLawCommands_general :
    [after (exec (.padd .g1 1 4 1) (toy [(1, 37), (2, 74), (3, 37), (4, 58), (5, 98), (6, 47)])) (triple 1),
      after (exec (.padda .g1 1 4 1) (toy [(1, 37), (2, 74), (3, 37), (4, 58), (5, 98), (6, 47)])) (triple 1)] =
      [some (51, 68, 30), some (51, 68, 30)] := by decide +kernel

/-- GroupLawCommands, the other cases of the formulas on valid points: P + P, P - P, infinity on the right, on
the left and on both sides; mixed P - P, the sentinel beside P and beside infinity, infinity and P; the doubles of
a point of order 2 and of infinity. -/
theorem witness_GroupLawCommands_cases :
    [jadd (g1Field toyP) ⟨37, 74, 37⟩ ⟨37, 74, 37⟩, jadd (g1Field toyP) ⟨37, 74, 37⟩ ⟨37, 27, 37⟩,
      jadd (g1Field toyP) ⟨37, 74, 37⟩ ⟨0, 0, 0⟩, jadd (g1Field toyP) ⟨5, 6, 0⟩ ⟨37, 27, 37⟩,
      jadd (g1Field toyP) ⟨5, 6, 0⟩ ⟨0, 0, 0⟩, jadda (g1Field toyP) ⟨37, 74, 37⟩ ⟨37, 27⟩,
      jadda (g1Field toyP) ⟨37, 74, 37⟩ ⟨0, 0⟩, jadda (g1Field toyP) ⟨5, 6, 0⟩ ⟨0, 0⟩,
      jadda (g1Field toyP) ⟨5, 6, 0⟩ ⟨37, 27⟩, jdbl (g1Field toyP) ⟨59, 0, 37⟩,
      jdbl (g1Field toyP) ⟨5, 6, 0⟩] =
      [⟨58, 98, 47⟩, ⟨37, 37, 0⟩, ⟨37, 74, 37⟩, ⟨37, 27, 37⟩, ⟨37, 37, 0⟩, ⟨37, 37, 0⟩, ⟨37, 74, 37⟩,
        ⟨37, 37, 0⟩, ⟨37, 27, 37⟩, ⟨37, 37, 0⟩, ⟨37, 37, 0⟩] ∧
    [⟨37, 27, 37⟩, ⟨59, 0, 37⟩, ⟨5, 6, 0⟩].map (validJac (g1Field toyP)) = [true, true, true] := by decide +kernel

/-- GroupLawCommands in G2: a double, a sum and a mixed sum of valid points with every component in play, and a
sum whose Z1·Z2 is 0 though neither factor is; β = 100 is a value that BETA can stand for. -/
theorem witness_GroupLawCommands_cases_g2 :
    [jdbl (g2Field toyP) ⟨⟨95, 97⟩, ⟨12, 17⟩, ⟨74, 10⟩⟩,
      jadd (g2Field toyP) ⟨⟨95, 97⟩, ⟨12, 17⟩, ⟨74, 10⟩⟩ ⟨⟨74, 84⟩, ⟨57, 23⟩, ⟨37, 0⟩⟩,
      jadda (g2Field toyP) ⟨⟨95, 97⟩, ⟨12, 17⟩, ⟨74, 10⟩⟩ ⟨⟨74, 84⟩, ⟨57, 23⟩⟩,
      jadd (g2Field toyP) ⟨⟨0, 74⟩, ⟨60, 47⟩, ⟨67, 37⟩⟩ ⟨⟨0, 10⟩, ⟨67, 88⟩, ⟨34, 37⟩⟩] =
      [⟨⟨50, 42⟩, ⟨11, 67⟩, ⟨47, 39⟩⟩, ⟨⟨61, 67⟩, ⟨29, 7⟩, ⟨63, 19⟩⟩, ⟨⟨61, 67⟩, ⟨29, 7⟩, ⟨63, 19⟩⟩,
        ⟨⟨37, 0⟩, ⟨37, 0⟩, ⟨0, 0⟩⟩] ∧
    [⟨⟨95, 97⟩, ⟨12, 17⟩, ⟨74, 10⟩⟩, ⟨⟨74, 84⟩, ⟨57, 23⟩, ⟨37, 0⟩⟩, ⟨⟨0, 74⟩, ⟨60, 47⟩, ⟨67, 37⟩⟩,
      ⟨⟨0, 10⟩, ⟨67, 88⟩, ⟨34, 37⟩⟩].map (validJac (g2Field toyP)) = [true, true, true, true] ∧
    validAff (g2Field toyP) ⟨⟨74, 84⟩, ⟨57, 23⟩⟩ = true ∧
    100 * 2 ^ 256 % toyP.q .fq = toyP.cfg.beta.toNat := by decide +kernel

/-- A point that is not on the curve. -/
def toyOff : State := toy [(1, 37), (2, 37), (3, 37)]

theorem witness_OffCurveCommandsComplete : (toyOff.ctx .fq).valid = true ∧
    toyOff.inRange (4 : SlotIx).toNat (jw .g1) = true ∧ toyOff.inRange (1 : SlotIx).toNat (aw .g1) = true ∧
    toyOff.inRange (1 : SlotIx).toNat 1 = true ∧ toyOff.Canonical .fq (1 : SlotIx).toNat (jw .g1) ∧
    ¬ toyOff.ValidPoint .g1 (1 : SlotIx).toNat ∧
    toyOff.Canonical .fq (1 : SlotIx).toNat (aw .g1) ∧ toyOff.inRange (1 : SlotIx).toNat (jw .g1) = true ∧
    nbytesOk 32 = true := by
  simp only [State.Canonical, State.ValidPoint, State.NoConstant, onGroup]
  decide +kernel

/-- P at slot 1, a point that is not on the curve at slot 4. -/
def toyOffRb : State := toy [(1, 37), (2, 74), (3, 37), (4, 37), (5, 37), (6, 37)]

/-- OffCurveCommandsComplete where RA's point is valid and RB's is not: the same slots of RB as a Jacobian
and as an affine point. -/
theorem witness_OffCurveCommandsComplete_rb : toyOffRb.Canonical .fq 4 (jw .g1) ∧
    toyOffRb.ValidPoint .g1 1 ∧ ¬ toyOffRb.ValidPoint .g1 4 ∧ ¬ toyOffRb.ValidAffine .g1 4 := by
  simp only [State.Canonical, State.ValidPoint, State.ValidAffine, State.NoConstant, onGroup]
  decide +kernel

/-- GroupLawCommands: with B1 = q every point counts as valid (log 8). -/
theorem witness_GroupLawCommands_no_constant :
    ({ toyOff with cfg := { toyCfg with b1 := 101 } } : State).ValidPoint .g1 1 := by
  simp only [State.ValidPoint, State.NoConstant, onGroup]
  decide +kernel

/-- As `toyMsm 1`, with the y coordinate of the point in slot 2 and of the bucket in slot 4. -/
def toyMsmY (p b : Nat) : State := toy [(0, descriptor 1 1), (1, 37), (2, p), (3, 37), (4, b), (5, 37)]

/-- OffCurveCommandsComplete for BKTACC and MSM with the point, BKTACC and BKTRED with the bucket not valid;
the checks of the descriptor are those of `witness_MultiScalarMultiplication`. -/
theorem witness_OffCurveCommandsComplete_msm : (toyMsmY 37 74).Canonical .fq 1 (1 * aw .g1) ∧
    (toyMsmY 37 74).Canonical .fq 3 (1 * jw .g1) ∧ (toyMsmY 74 37).Canonical .fq 1 (1 * aw .g1) ∧
    (toyMsmY 74 37).Canonical .fq 3 (1 * jw .g1) ∧
    badDescriptor ((toyMsmY 37 74).x 0) = false ∧
    descriptorOf ((toyMsmY 37 74).x 0) = { n := 1, pb := 1, sb := 1, bb := 3, c := 1 } ∧
    ¬ (toyMsmY 37 74).ValidAffine .g1 (1 + 0 * aw .g1) ∧
    ¬ (toyMsmY 74 37).ValidPoint .g1 (3 + 0 * jw .g1) := by
  simp only [State.Canonical, State.ValidPoint, State.ValidAffine, State.NoConstant, onGroup]
  decide +kernel

/-- NegateAndLift and PointPredicates: beside `toyP` and `toyQ`, a point at infinity, whose first two
slots are the sentinel, and canonical curve constants. -/
theorem witness_NegateAndLift : (toyP.ctx .fq).valid = true ∧
    toyP.inRange (1 : SlotIx).toNat (jw .g1) = true ∧ toyP.inRange (1 : SlotIx).toNat (aw .g1) = true ∧
    toyP.Canonical .fq (1 : SlotIx).toNat (jw .g1) ∧ toyP.Canonical .fq (1 : SlotIx).toNat (aw .g1) ∧
    (toy [(1, 0), (2, 0), (3, 0)]).Canonical .fq (1 : SlotIx).toNat (jw .g1) ∧
    (toy [(1, 0), (2, 0), (3, 0)]).x ((1 : SlotIx).toNat + 2) = 0 ∧
    toyP.x ((1 : SlotIx).toNat + 2) ≠ 0 ∧ toyP.cfg.b1.toNat < toyP.q .fq ∧
    toyP.cfg.b2c0.toNat < toyP.q .fq ∧ toyP.cfg.b2c1.toNat < toyP.q .fq := by
  unfold State.Canonical
  decide +kernel

/-- NegateAndLift in G2: Z with one component 0, Z = 0; the sentinel, and a point with three components 0. -/
theorem witness_NegateAndLift_g2 :
    [jneg (g2Field toyQ) ⟨⟨1, 2⟩, ⟨3, 0⟩, ⟨0, 5⟩⟩, jneg (g2Field toyQ) ⟨⟨1, 2⟩, ⟨3, 4⟩, ⟨0, 0⟩⟩,
      fromAffine (g2Field toyQ) ⟨⟨0, 0⟩, ⟨0, 0⟩⟩, fromAffine (g2Field toyQ) ⟨⟨0, 0⟩, ⟨0, 5⟩⟩] =
      [⟨⟨1, 2⟩, ⟨98, 0⟩, ⟨0, 5⟩⟩, ⟨⟨37, 0⟩, ⟨37, 0⟩, ⟨0, 0⟩⟩, ⟨⟨37, 0⟩, ⟨37, 0⟩, ⟨0, 0⟩⟩,
        ⟨⟨0, 0⟩, ⟨0, 5⟩, ⟨37, 0⟩⟩] ∧
    toyQ.inRange (1 : SlotIx).toNat (jw .g2) = true ∧ toyQ.Canonical .fq (1 : SlotIx).toNat (jw .g2) ∧
    toyQ.Canonical .fq (1 : SlotIx).toNat (aw .g2) := by
  unfold State.Canonical
  decide +kernel

/-- PointPredicatesAreEquations (G1) and GroupLawStaysOnCurve. -/
theorem witness_GroupLawStaysOnCurve : ((toy []).ctx .fq).valid = true ∧ 37 < (toy []).q .fq ∧
    74 < (toy []).q .fq ∧ (toy []).cfg.b1.toNat < (toy []).q .fq ∧
    onCurve (g1Field (toy [])) { x := 37, y := 74, z := 37 } = true ∧
    onCurve (g1Field (toy [])) { x := 58, y := 98, z := 47 } = true ∧
    onCurve (g1Field (toy [])) (fromAffine (g1Field (toy [])) { x := 37, y := 74 }) = true := by decide +kernel

/-- PointPredicatesAreEquations in G2: β = 100 = -1, whose Montgomery form is BETA; the point of `toyQ`, which
is on the curve, and a point that is not; the largest coordinate. -/
theorem witness_PointPredicatesAreEquations_g2 : (toyQ.ctx .fq).valid = true ∧
    100 * 2 ^ 256 % toyQ.q .fq = toyQ.cfg.beta.toNat ∧ 100 < toyQ.q .fq ∧ 74 < toyQ.q .fq ∧
    toyQ.cfg.b2c0.toNat < toyQ.q .fq ∧ toyQ.cfg.b2c1.toNat < toyQ.q .fq ∧
    onCurve (g2Field toyQ) (readJac (g2Field toyQ) toyQ 1) = true ∧
    onCurve (g2Field toyQ) { x := ⟨100, 0⟩, y := ⟨0, 100⟩, z := ⟨0, 1⟩ } = false := by decide +kernel

/-- GroupLawDegenerateCases: points at infinity and not, the sentinel and not, in both groups; the largest
scalar of one byte and the smallest; a prime modulus. -/
theorem witness_GroupLawDegenerateCases : Nat.Prime ((toy []).q .fq) ∧ 37 < (toy []).q .fq ∧
    (g1Field (toy [])).zero = 0 ∧ (37 : Nat) ≠ (g1Field (toy [])).zero ∧
    (g2Field (toy [])).zero = { c0 := 0, c1 := 0 } ∧
    ({ c0 := 0, c1 := 37 } : Fq2) ≠ (g2Field (toy [])).zero ∧
    2 * 127 + 1 < 2 ^ (8 * 1) ∧ 2 * 0 + 1 < 2 ^ (8 * 32) := by
  refine ⟨?_, by decide +kernel, rfl, by decide, rfl, by decide, by decide⟩
  have h : (toy []).q .fq = 101 := by decide
  rw [h]
  norm_num

/-- CurveChecksInOrder: OPM ends behind slot 7; the second coordinate of RA and of RB the first that is not
canonical; PMUL with 1 and with 32 bytes. -/
theorem witness_CurveChecksInOrder : ([.padd .g1 5 5 5, .padd .g1 6 6 6, .padd .g2 1 2 3, .padd .g2 1 3 2,
      .padda .g1 5 5 6, .padda .g1 5 5 7, .pdbl .g1 6 5, .pneg .g1 5 0, .pisz .g1 6, .ponc .g1 5,
      .pfroma .g1 5 6, .pfroma .g1 6 6, .peq .g1 5 1, .pmul .g1 5 5 7 1, .pmul .g1 5 5 8 32] :
      List Instr).map
    (fun i => trapOf (exec i (small [(0, 0), (1, 101), (2, 0), (5, 37), (6, 74), (7, 37)]))) =
      [none, some (5, 6), some (5, 3), some (5, 3), none, some (5, 7), some (5, 6), some (10, 1),
        some (5, 6), none, none, some (5, 6), some (10, 1), none, some (5, 8)] := by decide +kernel

/-- CurveChecksInOrder: BETA = q in G2; PONC's constant = q in G1 and, in its second component, in G2. -/
theorem witness_CurveChecksInOrder_registers :
    trapOf (exec (.pdbl .g2 1 1) { toyQ with cfg := { toyCfg with beta := 101 } }) =
      some (10, 0xFFFFFFFF) ∧
    trapOf (exec (.ponc .g1 1) { toyP with cfg := { toyCfg with b1 := 101 } }) =
      some (10, 0xFFFFFFFF) ∧
    trapOf (exec (.ponc .g2 1) { toyQ with cfg := { toyCfg with b2c1 := 101 } }) =
      some (10, 0xFFFFFFFF) ∧
    trapOf (exec (.pneg .g2 1 1) { toyQ with cfg := { toyCfg with beta := 101 } }) = none := by
  decide +kernel

/-- A machine of 8 slots with the descriptor of one point in slot 0 and every other slot 0. -/
def smallMsm (pb sb bb c : Nat) : State :=
  small [(0, 1 + (pb + sb * 2 ^ 16 + bb * 2 ^ 32 + c * 2 ^ 48) * 2 ^ 64), (1, 0), (2, 0), (3, 0), (4, 0),
    (5, 0), (6, 0), (7, 0)]

/-- DescriptorChecksInOrder: the last window and the one after it; for PB, SB and BB the last slot that fits and
the one after it; buckets next to and on top of the descriptor, the points and the scalars; c = 16 and 17. -/
theorem witness_DescriptorChecksInOrder :
    [(6, 7, 3, 1, 255), (6, 7, 3, 1, 256), (7, 7, 3, 1, 0), (6, 8, 3, 1, 0), (1, 1, 5, 1, 0),
      (1, 1, 6, 1, 0), (1, 4, 1, 1, 0), (2, 6, 3, 1, 0), (6, 2, 3, 1, 0), (6, 3, 3, 1, 0), (6, 1, 0, 1, 0),
      (6, 7, 1, 16, 0), (6, 7, 3, 17, 0)].map
    (fun p : Nat × Nat × Nat × Nat × Nat => trapOf (exec (.bktacc .g1 0 (BitVec.ofNat 16 p.2.2.2.2))
      (smallMsm p.1 p.2.1 p.2.2.1 p.2.2.2.1))) =
      [none, some (6, 0), some (5, 7), some (5, 8), none, some (5, 6), some (8, 0), some (8, 0), none,
        some (8, 0), some (8, 0), some (5, 1), some (6, 0)] := by decide +kernel

/-- DescriptorChecksInOrder: RD of MSM and BKTRED beyond OPM comes before the descriptor; MSM on top of a
point. -/
theorem witness_DescriptorChecksInOrder_rd :
    [trapOf (exec (.msm .g1 6 0) (smallMsm 1 1 3 17)), trapOf (exec (.msm .g1 5 0) (smallMsm 1 1 3 17)),
      trapOf (exec (.bktred .g1 6 0) (smallMsm 1 1 3 0)), trapOf (exec (.bktred .g1 5 0) (smallMsm 1 1 3 1)),
      trapOf (exec (.msm .g1 5 0) (smallMsm 2 1 3 1)), trapOf (exec (.bktclr .g1 0) (smallMsm 1 1 6 1))] =
      [some (5, 6), some (6, 0), some (5, 6), none, some (8, 0), some (5, 6)] := by decide +kernel

/-- BucketsCleared, BucketsAccumulate, BucketsReduce and MultiScalarMultiplication, with the descriptor at
slot 0 and RD = 6. -/
theorem witness_MultiScalarMultiplication : ((toyMsm 1).ctx .fq).valid = true ∧
    (toyMsm 1).inRange 0 1 = true ∧ (toyMsm 1).inRange 6 (jw .g1) = true ∧
    badDescriptor ((toyMsm 1).x 0) = false ∧ (255 : BitVec 16).toNat * 1 < 256 ∧
    descriptorOf ((toyMsm 1).x 0) = { n := 1, pb := 1, sb := 1, bb := 3, c := 1 } ∧
    (toyMsm 1).inRange 1 (1 * aw .g1) = true ∧ (toyMsm 1).inRange 3 (1 * jw .g1) = true ∧
    overlap 3 (1 * jw .g1) 0 1 = false ∧ overlap 3 (1 * jw .g1) 1 (1 * aw .g1) = false ∧
    overlap 3 (1 * jw .g1) 1 1 = false ∧ overlap 3 (jw .g1) 6 (jw .g1) = false ∧
    (toyMsm 1).Canonical .fq 1 (1 * aw .g1) ∧ (toyMsm 1).Canonical .fq 3 (1 * jw .g1) := by
  unfold State.Canonical
  decide +kernel

theorem witness_BucketsAccumulate : (∀ i, i < 1 → (toyMsm 1).ValidAffine .g1 (1 + i * aw .g1)) ∧
    ∀ b, b < 1 → (toyMsm 1).ValidPoint .g1 (3 + b * jw .g1) := by
  simp only [State.ValidPoint, State.ValidAffine, State.NoConstant, onGroup]
  decide +kernel

/-- BucketsAccumulate without points: a bucket that is not valid. -/
theorem witness_BucketsAccumulate_no_point :
    descriptorOf ((toy [(0, descriptor 0 1), (3, 37), (4, 37), (5, 37)]).x 0) =
      { n := 0, pb := 1, sb := 1, bb := 3, c := 1 } ∧
    badDescriptor (descriptor 0 1) = false ∧
    (toy [(0, descriptor 0 1), (3, 37), (4, 37), (5, 37)]).Canonical .fq 3 (1 * jw .g1) ∧
    overlap 3 (1 * jw .g1) 1 (0 * aw .g1) = false ∧ overlap 3 (1 * jw .g1) 1 0 = false := by
  unfold State.Canonical
  decide +kernel

/-- ButterflyResult. -/
theorem witness_ButterflyResult : (toyAB.ctx .fr).valid = true ∧
    toyAB.inRange (1 : SlotIx).toNat 1 = true ∧ toyAB.inRange (2 : SlotIx).toNat 1 = true ∧
    toyAB.inRange (3 : SlotIx).toNat 1 = true ∧
    toyAB.Canonical .fr (1 : SlotIx).toNat 1 ∧ toyAB.Canonical .fr (2 : SlotIx).toNat 1 ∧
    toyAB.Canonical .fr (3 : SlotIx).toNat 1 ∧ (1 : SlotIx) ≠ 2 := by
  unfold State.Canonical
  decide +kernel

theorem witness_BitReversalOfIndices : 6 < 2 ^ 3 ∧ 0 < 2 ^ 0 := by decide

theorem witness_BitReversalPermutes : State.reset.inRange (0xFFF8 : SlotIx).toNat (2 ^ (3 : BitVec 7).toNat) =
    true := by decide +kernel

/-- The vector and the forward table of `test_fft`. -/
def toyFft : State := toy [(1, 1), (2, 2), (3, 37), (5, 37)]

/-- TransformsAreRadix2 and FftIsTheFourierTransform, with k = 1 and om 1 = 100 = -1; the inverse table is
slot 3. -/
theorem witness_TransformsAreRadix2 : (toyFft.ctx .fr).valid = true ∧
    (1 : BitVec 7).toNat ≤ toyFft.cfg.rootMaxlog.toNat ∧ toyFft.inRange (1 : SlotIx).toNat 2 = true ∧
    toyFft.Canonical .fr (1 : SlotIx).toNat 2 ∧
    toyFft.inRange toyFft.cfg.rootBase.toNat (2 - 1) = true ∧
    overlap (1 : SlotIx).toNat 2 toyFft.cfg.rootBase.toNat (2 - 1) = false ∧
    toyFft.Canonical .fr toyFft.cfg.rootBase.toNat (2 - 1) ∧
    toyFft.inRange toyFft.cfg.irootBase.toNat (2 - 1) = true ∧
    overlap (1 : SlotIx).toNat 2 toyFft.cfg.irootBase.toNat (2 - 1) = false ∧
    toyFft.Canonical .fr toyFft.cfg.irootBase.toNat (2 - 1) := by
  unfold State.Canonical
  decide +kernel

theorem witness_FftIsTheFourierTransform : (fun m : Nat => if m = 1 then 100 else 0) 1 = toyFft.q .fr - 1 ∧
    (∀ m, 1 ≤ m → m < 1 → (fun m : Nat => if m = 1 then 100 else 0) (m + 1) ^ 2 % toyFft.q .fr =
      (fun m : Nat => if m = 1 then 100 else 0) m) ∧
    ∀ st < 1, ∀ j < 2 ^ st, toyFft.x (toyFft.cfg.rootBase.toNat + 2 ^ st - 1 + j) =
      (fun m : Nat => if m = 1 then 100 else 0) (st + 1) ^ j * 2 ^ 256 % toyFft.q .fr := by
  refine ⟨by decide +kernel, fun m h1 h2 => absurd h2 (by omega), by decide +kernel⟩

/-- A machine of 8 slots with its forward table at slot `r`, the value 101 = q in slot `bad`, 0 elsewhere. -/
def smallFft (r bad : Nat) : State :=
  { small ((List.range 8).map (fun i => (i, if i = bad then 101 else 0))) with
    cfg := { toyCfg with rootBase := BitVec.ofNat 16 r } }

/-- TransformChecksInOrder: k at ROOT_MAXLOG = 2 and above; the vector and the table ending with OPM and one
slot beyond; the table next to the vector and over its last slot; the first value that is not below q in
the vector and in the table; a vector of one element, which reads no table. -/
theorem witness_TransformChecksInOrder :
    [(0, 2, 5, 0), (0, 3, 5, 9), (4, 2, 0, 9), (5, 2, 0, 9), (0, 2, 5, 9), (0, 2, 6, 9), (0, 2, 4, 9),
      (0, 2, 3, 9), (0, 2, 4, 3), (0, 2, 4, 4), (0, 2, 4, 6), (7, 0, 60, 9)].map
    (fun p : Nat × Nat × Nat × Nat => trapOf (exec (.fft (BitVec.ofNat 16 p.1) (BitVec.ofNat 7 p.2.1))
      (smallFft p.2.2.1 p.2.2.2))) =
      [some (10, 0), some (7, 3), none, some (5, 5), none, some (5, 6), none, some (8, 0), some (10, 3),
        some (10, 4), some (10, 6), none] ∧
    [trapOf (exec (.bitrev 4 2) (smallFft 0 5)), trapOf (exec (.bitrev 5 2) (smallFft 0 5)),
      trapOf (exec (.bfly 7 6 5) (smallFft 0 5)), trapOf (exec (.bfly 7 8 9) (smallFft 0 5))] =
      [none, some (5, 5), some (10, 5), some (5, 8)] := by decide +kernel

/-- ControlWrites: CTRL = 5 and CTRL = 8; Resets: CTRL = 2 while idle, and BLOCK_RESET. -/
theorem witness_ControlWrites : (idle (writeAt 0x10 5)).params.legal = true ∧
    (idle (writeAt 0x10 5)).status.busy = false ∧
    (idle (writeAt 0x10 5)).inbox =
      .access (.write ((idle (writeAt 0x10 5)).params.blockBase + 0x10) 8 5) :: [] ∧
    (5 : Limb).getLsbD 1 = false ∧ (5 : Limb).getLsbD 0 = true ∧ (8 : Limb).getLsbD 1 = false ∧
    (8 : Limb).getLsbD 0 = false ∧ (2 : Limb).getLsbD 1 = true ∧
    (idle .blockReset).inbox = .blockReset :: [] := by decide

/-- AbortedRun, with a command and without one at CPC. -/
theorem witness_AbortedRun : (running (writeAt 0x10 2)).params.legal = true ∧
    (running (writeAt 0x10 2)).status.busy = true ∧ (running (writeAt 0x10 2)).status.fault = false ∧
    (running (writeAt 0x10 2)).inbox =
      .access (.write ((running (writeAt 0x10 2)).params.blockBase + 0x10) 8 2) :: [] ∧
    decode (((running .engine).setCommand 0 9).command 0) = .ok (.limm 0 0) ∧
    decode (((running .engine).setCommand 0 6).command 0) = .error .illegalOpcode := by decide +kernel

/-- BusyEngineRefusesTheHost: the first and the last word of both memories, the last register and CTRL. -/
theorem witness_BusyEngineRefusesTheHost : (running (readAt 0x3FFFF8)).params = toyParams ∧
    toyParams.legal = true ∧ (running (readAt 0x3FFFF8)).status.busy = true ∧
    (running (readAt 0x3FFFF8)).inbox = .access (.read (toyParams.blockBase + 0x3FFFF8) 8) :: [] ∧
    (∀ off ∈ [0x80000, 0x80000 + 8 * 4096 - 8], off % 8 = 0 ∧ 0x80000 ≤ off ∧
      off < 0x80000 + 8 * toyParams.cmdmWords) ∧
    (∀ off ∈ [0x200000, 0x3FFFF8], off % 8 = 0 ∧ 0x200000 ≤ off ∧
      off < 0x200000 + 32 * toyParams.opmSlots) ∧
    (0x278, 0) ∈ (running (readAt 0x3FFFF8)).registerTable ∧ (0x10, 0) ∈ (running (readAt 0x3FFFF8)).registerTable ∧
    0x278 ∉ readOnlyOffsets ∧ 0x10 ∉ readOnlyOffsets := by
  decide +kernel

/-- BusErrorsChangeNothing: the first and the last word of each unmapped or unpopulated range of the window
(20_memory.md R81), and two reserved CSR offsets (10_state.md R36). -/
theorem witness_BusErrorsChangeNothing : (idle (readAt 0x80)).params.legal = true ∧
    (idle (readAt 0x80)).inbox =
      .access (.read ((idle (readAt 0x80)).params.blockBase + 0x80) 8) :: [] ∧
    [0x1000, 0x7FFF8, 0x88000, 0x1FFFF8].map (regionAt toyParams) =
      [.unmapped, .unmapped, .unmapped, .unmapped] ∧
    [0x208000, 0x3FFFF8].map (regionAt { toyParams with opmLog := 10 }) = [.unmapped, .unmapped] ∧
    [0xFF8, 0x80000, 0x87FF8, 0x200000].map (regionAt toyParams) = [.csr, .memory, .memory, .memory] ∧
    (∀ p ∈ (idle (readAt 0x80)).registerTable, p.1 ≠ 0x080 ∧ p.1 ≠ 0xFF8) := by decide +kernel

/-- HostAccessesMemory: the last limb of the last slot and the last command word; the bus addresses next to the
window. -/
theorem witness_HostAccessesMemory : (idle (readAt 0x3FFFF8)).params.legal = true ∧
    (idle (readAt 0x3FFFF8)).status.busy = false ∧
    (idle (readAt 0x3FFFF8)).inbox =
      .access (.read ((idle (readAt 0x3FFFF8)).params.blockBase + 0x3FFFF8) 8) :: [] ∧
    0x3FFFF8 = 0x200000 + 32 * 65535 + 8 * 3 ∧ 65535 < toyParams.opmSlots ∧
    0x87FF8 = 0x80000 + 8 * 4095 ∧ 4095 < toyParams.cmdmWords ∧
    busBase - 8 < toyParams.blockBase ∧ toyParams.blockBase + 0x400000 ≤ busBase + 0x400000 := by
  decide +kernel

/-- An engine whose host reads at `off`, every register that no command sets by itself non-zero. -/
def loaded (off : Nat) : State :=
  { running (readAt off) with
    cpc := 0x10000
    startPc := 0x1234
    lcnt := 0xFFFF
    irqEn := true
    flags := { c := false, z := true, lt := false, gt := false, t := true }
    status := { busy := false, done := false, fault := true, hostErr := true }
    faultRec := { cause := 9, pc := 0x10000, cmd := 0x0123456789ABCDEF, info := 0xFFFFFFFF } }

/-- RegistersReadBack: what each kind of register reads, each value worked out from R36, R37, R38 and R43. -/
theorem witness_RegistersReadBack_values :
    [0x000, 0x008, 0x010, 0x018, 0x020, 0x028, 0x030, 0x038, 0x040, 0x048, 0x050, 0x058, 0x060, 0x068,
      0x070, 0x078, 0x100, 0x108, 0x120, 0x140, 0x200, 0x220, 0x240, 0x260].map
      (fun off => after (step (loaded off)) (·.reply)) =
      [0x45524F4343444552, 0x01010C10, 4, 0x1C, 0x1234, 0x10000, 0x12, 0xFFFF, 9, 0x10000,
        0x0123456789ABCDEF, 0xFFFFFFFF, 5, 3, 2, 2, 101, 0, 56, 0x3a4c0a237c32b16d, 64, 10, 10, 0].map
        (fun v => some (some (HostReply.data v))) ∧
    (0x028, 0x10000) ∈ (loaded 0x028).registerTable ∧
    [0, 37, 64, 1].map (classNumber 101) = [0, 1, 2, 3] := by decide +kernel

/-- RegistersReadBack: a write of ones to a register of each width, read back. -/
theorem witness_RegistersReadBack_writes :
    [0x020, 0x030, 0x038, 0x060, 0x068, 0x070, 0x118, 0x140, 0x278].map (fun off =>
      (after (step (idle (writeAt off (BitVec.allOnes 64)))) (fun t => t.setInbox [readAt off])).bind
        (fun t => after (step t) (·.reply))) =
      [0xFFFF, 0x1F, 0xFFFF, 0xFFFF, 0xFFFF, 0x7F, BitVec.allOnes 64, BitVec.allOnes 64,
        BitVec.allOnes 64].map (fun v => some (some (HostReply.data v))) := by decide +kernel

/-- RegistersReadBack: a read while busy, a write of a read-only register while busy, a write of a RW-idle
register while idle. -/
theorem witness_RegistersReadBack : (running (readAt 0x28)).params.legal = true ∧
    (running (readAt 0x28)).inbox =
      .access (.read ((running (readAt 0x28)).params.blockBase + 0x28) 8) :: [] ∧
    (running (writeAt 0 7)).inbox =
      .access (.write ((running (writeAt 0 7)).params.blockBase + 0) 8 7) :: [] ∧
    (idle (writeAt 0x20 7)).status.busy = false ∧
    (idle (writeAt 0x20 7)).inbox =
      .access (.write ((idle (writeAt 0x20 7)).params.blockBase + 0x20) 8 7) :: [] ∧
    csrAt 0x28 = some .cpc ∧ csrAt 0x20 = some .startPc ∧ 0x28 ∈ readOnlyOffsets ∧ 0 ∈ readOnlyOffsets ∧
    0x20 ∉ readOnlyOffsets ∧ (0x20, 0) ∈ (idle (writeAt 0x20 7)).registerTable := by decide +kernel

end Sys2Proof.Tests
end

section
/-! The flags and LCNT across one command (41_limb.md R200; 10_state.md R45), from what `exec` can do. -/

namespace Sys2Proof.Machine

/-- What `exec` can do, read from a next state it answers. -/
theorem exec_next_cases {i : Instr} {s t : State} (h : exec i s = .next t) :
    (∃ p : Trap, t = s.takeFault (encode i) p) ∨ Ran i s t := by
  rcases exec_does i s with ⟨p, _, hp⟩ | ⟨u, hu, hran⟩
  · rw [hp] at h
    exact .inl ⟨p, (Host.Outcome.next.inj h).symm⟩
  · rw [hu] at h
    exact .inr (Host.Outcome.next.inj h ▸ hran)

/-- HALT is the one completing command that touches STATUS, and it leaves FAULT too (R164). -/
theorem Ran.fault_eq {i : Instr} {s t : State} (h : Ran i s t) :
    t.status.fault = s.status.fault := by
  by_cases hi : i = .halt
  · rw [h.halt hi]
  · rw [h.status hi]

/-- Settles O12: a fault keeps FLAGS and LCNT whole; a command that completes follows the table and
raises no fault. -/
theorem flagsAreWrittenByTheTable : Obligations.FlagsAreWrittenByTheTable := by
  intro i s t h
  rcases exec_next_cases h with ⟨p, rfl⟩ | hran
  · simp only [State.takeFault_flags, State.takeFault_lcnt, implies_true, and_self]
  · have hfault : s.status.fault = false → t.status.fault = true → t.flags = s.flags := by
      intro hs ht
      rw [hran.fault_eq, hs] at ht
      contradiction
    exact ⟨hran.cFlag, hran.zFlag, hran.orderFlags, hran.tFlag, hfault, hran.lcnt⟩

end Sys2Proof.Machine
end

section
/-! The Montgomery product (42_montgomery.md R241-R243): the loop's running sum as an exact equation, from
it the residue that the product is, and from that residue the properties of the two conversions. -/

namespace Sys2Proof.Machine

/-! ### The loop of R242 -/

/-- The low `n + 1` limbs are the low `n` limbs and limb `n`. -/
theorem mod_succ_limb (a n : Nat) :
    a % 2 ^ (64 * (n + 1)) = a % 2 ^ (64 * n) + 2 ^ (64 * n) * limb a n := by
  rw [Nat.mul_succ, pow_add, Nat.mod_mul, limb]

/-- After `n` passes the running sum, shifted back up, is the product with the low `n` limbs of `a`, up to a
multiple of q. -/
theorem redcPasses_exact (k : Ctx) (hv : k.valid = true) (a b n : Nat) :
    ∃ m, 2 ^ (64 * n) * iter n (redcStep k a b) 0 = a % 2 ^ (64 * n) * b + m * k.q.toNat := by
  induction n with
  | zero => exact ⟨0, by simp [Nat.mod_one]⟩
  | succ n ih =>
    obtain ⟨m, hsum⟩ := ih
    obtain ⟨d, -, hpass⟩ := redcStep_exact k hv a b n (iter n (redcStep k a b) 0)
    refine ⟨m + 2 ^ (64 * n) * d, ?_⟩
    calc 2 ^ (64 * (n + 1)) * iter (n + 1) (redcStep k a b) 0
        = 2 ^ (64 * n) * (2 ^ 64 * redcStep k a b n (iter n (redcStep k a b) 0)) := by
          rw [Nat.mul_succ, pow_add, mul_assoc, iter_succ]
      _ = 2 ^ (64 * n) * iter n (redcStep k a b) 0 +
            2 ^ (64 * n) * (limb a n * b + d * k.q.toNat) := by rw [hpass]; ring
      _ = a % 2 ^ (64 * (n + 1)) * b + (m + 2 ^ (64 * n) * d) * k.q.toNat := by
          rw [hsum, mod_succ_limb]; ring

/-- The running sum stays below 2q, so that one subtraction is enough at the end. -/
theorem redcPasses_lt (k : Ctx) (hv : k.valid = true) (a b n : Nat) (hb : b < k.q.toNat) :
    iter n (redcStep k a b) 0 < 2 * k.q.toNat :=
  iter_induct (fun _ t => t < 2 * k.q.toNat) (Nat.mul_pos two_pos (Nat.zero_lt_of_lt hb))
    (fun i t _ ht => redcStep_bound k hv a b i t hb ht)

/-! ### The residue of R241 -/

/-- `mont` is the running sum after four passes, up to at most one q. -/
theorem mont_modEq_passes (k : Ctx) (a b : Nat) :
    mont k a b ≡ iter 4 (redcStep k a b) 0 [MOD k.q.toNat] := by
  unfold mont
  dsimp only
  split
  · next h => exact (Nat.sub_modulus_modEq_iff h).2 rfl
  · rfl

theorem mont_lt (k : Ctx) (hv : k.valid = true) (a : Nat) {b : Nat} (hb : b < k.q.toNat) :
    mont k a b < k.q.toNat := by
  have hsum := redcPasses_lt k hv a b 4 hb
  unfold mont
  dsimp only
  split <;> omega

theorem mont_modEq (k : Ctx) (hv : k.valid = true) {a : Nat} (b : Nat) (ha : a < k.q.toNat) :
    mont k a b * 2 ^ 256 ≡ a * b [MOD k.q.toNat] := by
  obtain ⟨m, hsum⟩ := redcPasses_exact k hv a b 4
  rw [Nat.mod_eq_of_lt (k.lt_word ha)] at hsum
  calc mont k a b * 2 ^ 256
      ≡ iter 4 (redcStep k a b) 0 * 2 ^ 256 [MOD k.q.toNat] := (mont_modEq_passes k a b).mul_right _
    _ = a * b + m * k.q.toNat := by rw [mul_comm]; exact hsum
    _ ≡ a * b [MOD k.q.toNat] := Nat.add_mul_modulus_modEq_iff.2 rfl

/-- The residue is the only one below q. -/
theorem eq_mont (k : Ctx) (hv : k.valid = true) {a b r : Nat} (ha : a < k.q.toNat) (hb : b < k.q.toNat)
    (hr : r < k.q.toNat) (h : r * 2 ^ 256 ≡ a * b [MOD k.q.toNat]) : r = mont k a b :=
  k.r_injective hv hr (mont_lt k hv a hb) (h.trans (mont_modEq k hv b ha).symm)

/-- Settles O20: the loop's exact equation and bound give the residue, and R is invertible modulo q. -/
theorem montgomeryProduct : Obligations.MontgomeryProduct := by
  intro k a b hv ha hb
  exact ⟨mont_lt k hv a hb, mont_modEq k hv b ha, fun _ hr h => eq_mont k hv ha hb hr h⟩

/-! ### The properties of R243 -/

theorem Ctx.q_pos (k : Ctx) (hv : k.valid = true) : 0 < k.q.toNat := by
  obtain ⟨-, hq, -⟩ := k.valid_iff.1 hv
  omega

theorem Ctx.one_lt (k : Ctx) (hv : k.valid = true) : 1 < k.q.toNat := by
  obtain ⟨-, hq, -⟩ := k.valid_iff.1 hv
  omega

/-- R2 is R² modulo q (R41). -/
theorem Ctx.r2_modEq (k : Ctx) (hv : k.valid = true) :
    k.r2.toNat ≡ 2 ^ 256 * 2 ^ 256 [MOD k.q.toNat] := by
  obtain ⟨-, -, hr2, -⟩ := k.valid_iff.1 hv
  rw [hr2, show 512 = 256 + 256 from rfl, pow_add]
  exact Nat.mod_modEq _ _

theorem Ctx.r2_lt (k : Ctx) (hv : k.valid = true) : k.r2.toNat < k.q.toNat := by
  obtain ⟨-, -, hr2, -⟩ := k.valid_iff.1 hv
  rw [hr2]
  exact Nat.mod_lt _ (k.q_pos hv)

theorem mont_comm (k : Ctx) (hv : k.valid = true) {a b : Nat} (ha : a < k.q.toNat)
    (hb : b < k.q.toNat) : mont k a b = mont k b a := by
  refine eq_mont k hv hb ha (mont_lt k hv a hb) ?_
  rw [mul_comm b a]
  exact mont_modEq k hv b ha

/-- The product of Montgomery forms is the Montgomery form of the product: one of the two factors R that the
forms bring in is divided out. -/
theorem mont_forms (k : Ctx) (hv : k.valid = true) (a b : Nat) :
    mont k (a * 2 ^ 256 % k.q.toNat) (b * 2 ^ 256 % k.q.toNat) =
      a * b % k.q.toNat * 2 ^ 256 % k.q.toNat := by
  have hlt (x : Nat) : x % k.q.toNat < k.q.toNat := Nat.mod_lt x (k.q_pos hv)
  refine (eq_mont k hv (hlt _) (hlt _) (hlt _) ?_).symm
  calc a * b % k.q.toNat * 2 ^ 256 % k.q.toNat * 2 ^ 256
      ≡ a * b * 2 ^ 256 * 2 ^ 256 [MOD k.q.toNat] :=
        ((Nat.mod_modEq _ _).trans ((Nat.mod_modEq _ _).mul_right _)).mul_right _
    _ = a * 2 ^ 256 * (b * 2 ^ 256) := by ring
    _ ≡ a * 2 ^ 256 % k.q.toNat * (b * 2 ^ 256 % k.q.toNat) [MOD k.q.toNat] :=
        ((Nat.mod_modEq _ _).mul (Nat.mod_modEq _ _)).symm

theorem mont_r2 (k : Ctx) (hv : k.valid = true) {a : Nat} (ha : a < k.q.toNat) :
    mont k a k.r2.toNat = a * 2 ^ 256 % k.q.toNat := by
  refine (eq_mont k hv ha (k.r2_lt hv) (Nat.mod_lt _ (k.q_pos hv)) ?_).symm
  calc a * 2 ^ 256 % k.q.toNat * 2 ^ 256
      ≡ a * 2 ^ 256 * 2 ^ 256 [MOD k.q.toNat] := (Nat.mod_modEq _ _).mul_right _
    _ = a * (2 ^ 256 * 2 ^ 256) := mul_assoc _ _ _
    _ ≡ a * k.r2.toNat [MOD k.q.toNat] := ((k.r2_modEq hv).mul_left a).symm

/-- The product with 1 undoes the factor R. -/
theorem mont_one_mul_r (k : Ctx) (hv : k.valid = true) {a : Nat} (ha : a < k.q.toNat) :
    mont k a 1 * 2 ^ 256 % k.q.toNat = a := by
  have h : mont k a 1 * 2 ^ 256 ≡ a * 1 [MOD k.q.toNat] := mont_modEq k hv 1 ha
  rw [h, mul_one, Nat.mod_eq_of_lt ha]

theorem mont_r2_one (k : Ctx) (hv : k.valid = true) {a : Nat} (ha : a < k.q.toNat) :
    mont k (mont k a k.r2.toNat) 1 = a := by
  refine (eq_mont k hv (mont_lt k hv a (k.r2_lt hv)) (k.one_lt hv) ha ?_).symm
  rw [mont_r2 k hv ha, mul_one]
  exact (Nat.mod_modEq _ _).symm

/-- Settles O21: each property is the residue of R241 read at the operands it names. -/
theorem montgomeryProperties : Obligations.MontgomeryProperties := by
  intro k a b hv ha hb
  exact ⟨mont_comm k hv ha hb, mont_forms k hv a b, mont_r2 k hv ha, mont_one_mul_r k hv ha,
    mont_lt k hv a (k.one_lt hv), mont_r2_one k hv ha⟩

end Sys2Proof.Machine
end

section
/-! The additive primitives (43_field_facade.md R280-R282): each corrects a sum or difference by at most one
q, so it is congruent to what it computes and, being below q, is its residue. -/

namespace Sys2Proof.Machine

theorem addq_eq_mod {q a b : Nat} (ha : a < q) (hb : b < q) : addq q a b = (a + b) % q := by
  rw [Nat.add_mod_eq_ite, Nat.mod_eq_of_lt ha, Nat.mod_eq_of_lt hb, addq]

/-- A value below q is the residue of every integer it is congruent to. -/
theorem eq_emod_of_lt_of_modEq {q r : Nat} {x : Int} (hr : r < q) (h : (r : Int) ≡ x [ZMOD q]) :
    (r : Int) = x % q := by
  rw [← h.eq, Int.emod_eq_of_lt (Int.natCast_nonneg r) (Int.ofNat_lt.2 hr)]

theorem subq_modEq (q a : Nat) {b : Nat} (hb : b < q) : (subq q a b : Int) ≡ a - b [ZMOD q] := by
  by_cases hab : a < b
  · have hval : (subq q a b : Int) = a - b + q := by
      rw [subq, if_pos hab]
      omega
    rw [hval]
    exact Int.add_modulus_modEq_iff.2 rfl
  · have hval : (subq q a b : Int) = a - b := by
      rw [subq, if_neg hab]
      omega
    rw [hval]

theorem subq_eq_emod {q a b : Nat} (ha : a < q) (hb : b < q) :
    (subq q a b : Int) = ((a : Int) - b) % q :=
  eq_emod_of_lt_of_modEq (subq_lt ha hb) (subq_modEq q a hb)

@[simp] theorem negq_zero (q : Nat) : negq q 0 = 0 := rfl

/-- Negation is the subtraction from 0: at `a = 0` neither adds q. -/
theorem negq_eq_subq (q a : Nat) : negq q a = subq q 0 a := by
  by_cases ha : a = 0
  · rw [ha, negq_zero, subq, if_neg (lt_irrefl 0)]
  · rw [negq, if_neg ha, subq, if_pos (Nat.pos_of_ne_zero ha), Nat.zero_add]

theorem negq_eq_emod {q a : Nat} (ha : a < q) : (negq q a : Int) = (-(a : Int)) % q := by
  rw [negq_eq_subq, subq_eq_emod (Nat.zero_lt_of_lt ha) ha, Nat.cast_zero, zero_sub]

/-- Settles O24: the three residues, and negating 0 adds no q. -/
theorem additivePrimitives : Obligations.AdditivePrimitives := by
  intro q a b ha hb
  exact ⟨addq_eq_mod ha hb, subq_eq_emod ha hb, negq_eq_emod ha, negq_zero q⟩

end Sys2Proof.Machine
end

section
/-! The multiply-by-β routine (44_fq2.md R311): where each class of 10_state.md R43 stands, and that the
shortcut of a class is the Montgomery product with its one BETA. -/

namespace Sys2Proof.Machine

/-! ### The Montgomery forms of 1 and -1 (10_state.md R43) -/

/-- The Montgomery form of 1 is not 0: R is invertible modulo q. -/
theorem Ctx.r_mod_pos (k : Ctx) (hv : k.valid = true) : 0 < 2 ^ 256 % k.q.toNat := by
  refine Nat.emod_pos_of_not_dvd fun hdvd => ?_
  have hone : k.q.toNat = 1 := (k.coprime hv).symm.eq_one_of_dvd hdvd
  exact absurd hone (k.one_lt hv).ne'

theorem Ctx.r_mod_lt (k : Ctx) (hv : k.valid = true) : 2 ^ 256 % k.q.toNat < k.q.toNat :=
  Nat.mod_lt _ (k.q_pos hv)

/-- The Montgomery form of -1 is not that of 1: q is odd. -/
theorem Ctx.neg_r_mod_ne (k : Ctx) (hv : k.valid = true) :
    k.q.toNat - 2 ^ 256 % k.q.toNat ≠ 2 ^ 256 % k.q.toNat := by
  obtain ⟨hodd, -⟩ := k.valid_iff.1 hv
  have hlt := k.r_mod_lt hv
  generalize 2 ^ 256 % k.q.toNat = r at *
  omega

/-! ### The classes of BETA (10_state.md R43) -/

/-- In a valid context the modulus has room for a 1, and the form of -1 is below it. -/
theorem betaClass_of_valid (k : Ctx) (hv : k.valid = true) (beta : Nat) :
    betaClass k beta =
      if beta = 0 then .zero
      else if beta = 2 ^ 256 % k.q.toNat then .one
      else if beta = k.q.toNat - 2 ^ 256 % k.q.toNat then .negone
      else .other := by
  have htwo : 2 ≤ k.q.toNat := k.one_lt hv
  have hneg : (k.q.toNat - 2 ^ 256 % k.q.toNat) % k.q.toNat = k.q.toNat - 2 ^ 256 % k.q.toNat :=
    Nat.mod_eq_of_lt (Nat.sub_lt (k.q_pos hv) (k.r_mod_pos hv))
  simp only [betaClass, htwo, true_and, hneg]

theorem betaClass_eq_zero_iff (k : Ctx) (hv : k.valid = true) (beta : Nat) :
    betaClass k beta = .zero ↔ beta = 0 := by
  rw [betaClass_of_valid k hv]
  split_ifs with hzero
  · exact iff_of_true rfl hzero
  all_goals exact iff_of_false nofun hzero

theorem betaClass_eq_one_iff (k : Ctx) (hv : k.valid = true) (beta : Nat) :
    betaClass k beta = .one ↔ beta ≠ 0 ∧ beta = 2 ^ 256 % k.q.toNat := by
  rw [betaClass_of_valid k hv]
  split_ifs with hzero hone
  · exact iff_of_false nofun fun h => h.1 hzero
  · exact iff_of_true rfl ⟨hzero, hone⟩
  all_goals exact iff_of_false nofun fun h => hone h.2

/-- The form of -1 is neither 0 nor the form of 1, so the classes tested first do not take it away. -/
theorem betaClass_eq_negone_iff (k : Ctx) (hv : k.valid = true) (beta : Nat) :
    betaClass k beta = .negone ↔ beta = k.q.toNat - 2 ^ 256 % k.q.toNat := by
  have hpos : 0 < k.q.toNat - 2 ^ 256 % k.q.toNat := Nat.sub_pos_of_lt (k.r_mod_lt hv)
  have hne := k.neg_r_mod_ne hv
  rw [betaClass_of_valid k hv]
  split_ifs with hzero hone hnegone
  · exact iff_of_false nofun fun h => hpos.ne (hzero.symm.trans h)
  · exact iff_of_false nofun fun h => hne (h.symm.trans hone)
  · exact iff_of_true rfl hnegone
  · exact iff_of_false nofun hnegone

/-! ### The routine in each class (44_fq2.md R311) -/

theorem mulBeta_of_zero {k : Ctx} {beta : Nat} (v : Nat) (h : betaClass k beta = .zero) :
    mulBeta k beta v = 0 := by
  rw [mulBeta, h]

theorem mulBeta_of_one {k : Ctx} {beta : Nat} (v : Nat) (h : betaClass k beta = .one) :
    mulBeta k beta v = v := by
  rw [mulBeta, h]

theorem mulBeta_of_negone {k : Ctx} {beta : Nat} (v : Nat) (h : betaClass k beta = .negone) :
    mulBeta k beta v = negq k.q.toNat v := by
  rw [mulBeta, h]

theorem mulBeta_of_other {k : Ctx} {beta : Nat} (v : Nat) (h : betaClass k beta = .other) :
    mulBeta k beta v = mont k beta v := by
  rw [mulBeta, h]

/-! ### The Montgomery product with 0, 1 and -1 -/

theorem mont_zero_left (k : Ctx) (hv : k.valid = true) {b : Nat} (hb : b < k.q.toNat) :
    mont k 0 b = 0 := by
  refine (eq_mont k hv (k.q_pos hv) hb (k.q_pos hv) ?_).symm
  rw [Nat.zero_mul, Nat.zero_mul]

theorem mont_r_mod_left (k : Ctx) (hv : k.valid = true) {b : Nat} (hb : b < k.q.toNat) :
    mont k (2 ^ 256 % k.q.toNat) b = b := by
  refine (eq_mont k hv (k.r_mod_lt hv) hb hb ?_).symm
  rw [mul_comm b]
  exact ((Nat.mod_modEq _ _).mul_right b).symm

theorem negq_modEq {q a : Nat} (ha : a < q) : (negq q a : Int) ≡ -a [ZMOD q] := by
  rw [negq_eq_emod ha]
  exact Int.mod_modEq _ _

/-- A minus sign moves out of the product. -/
theorem mont_negq_left (k : Ctx) (hv : k.valid = true) {a b : Nat} (ha : a < k.q.toNat)
    (hb : b < k.q.toNat) : mont k (negq k.q.toNat a) b = negq k.q.toNat (mont k a b) := by
  have hlt := mont_lt k hv a hb
  have hprod : (mont k a b : Int) * 2 ^ 256 ≡ a * b [ZMOD k.q.toNat] := by
    exact_mod_cast Int.natCast_modEq_iff.2 (mont_modEq k hv b ha)
  have hres : (negq k.q.toNat (mont k a b) : Int) * 2 ^ 256 ≡
      negq k.q.toNat a * b [ZMOD k.q.toNat] :=
    calc (negq k.q.toNat (mont k a b) : Int) * 2 ^ 256
        ≡ -mont k a b * 2 ^ 256 [ZMOD k.q.toNat] := (negq_modEq hlt).mul_right _
      _ = -(mont k a b * 2 ^ 256) := neg_mul _ _
      _ ≡ -(a * b) [ZMOD k.q.toNat] := hprod.neg
      _ = -a * b := (neg_mul _ _).symm
      _ ≡ negq k.q.toNat a * b [ZMOD k.q.toNat] := ((negq_modEq ha).mul_right _).symm
  exact (eq_mont k hv (negq_lt ha) hb (negq_lt hlt) (Int.natCast_modEq_iff.1 (mod_cast hres))).symm

theorem mont_neg_r_mod_left (k : Ctx) (hv : k.valid = true) {b : Nat} (hb : b < k.q.toNat) :
    mont k (k.q.toNat - 2 ^ 256 % k.q.toNat) b = negq k.q.toNat b := by
  have hneg : negq k.q.toNat (2 ^ 256 % k.q.toNat) = k.q.toNat - 2 ^ 256 % k.q.toNat :=
    if_neg (k.r_mod_pos hv).ne'
  rw [← hneg, mont_negq_left k hv (k.r_mod_lt hv) hb, mont_r_mod_left k hv hb]

/-! ### One Montgomery product in every class (44_fq2.md R311) -/

/-- BETA itself need not be canonical here: the three classes with a shortcut hold canonical values alone, and
the fourth is the product. -/
theorem mulBeta_eq_mont (k : Ctx) (hv : k.valid = true) (beta : Nat) {v : Nat} (hlt : v < k.q.toNat) :
    mulBeta k beta v = mont k beta v := by
  cases hclass : betaClass k beta with
  | zero =>
    rw [mulBeta_of_zero v hclass, (betaClass_eq_zero_iff k hv beta).1 hclass, mont_zero_left k hv hlt]
  | one =>
    obtain ⟨-, hbeta⟩ := (betaClass_eq_one_iff k hv beta).1 hclass
    rw [mulBeta_of_one v hclass, hbeta, mont_r_mod_left k hv hlt]
  | negone =>
    rw [mulBeta_of_negone v hclass, (betaClass_eq_negone_iff k hv beta).1 hclass,
      mont_neg_r_mod_left k hv hlt]
  | other => exact mulBeta_of_other v hclass

/-- Settles O29: the classes stand at three different residues, and the shortcut of each is the Montgomery
product with that residue. -/
theorem multiplyByBeta : Obligations.MultiplyByBeta := by
  intro k beta v hv hlt
  exact ⟨betaClass_eq_zero_iff k hv beta, betaClass_eq_one_iff k hv beta,
    betaClass_eq_negone_iff k hv beta, mulBeta_of_zero v, mulBeta_of_one v, mulBeta_of_negone v,
    mulBeta_of_other v, fun _ => mulBeta_eq_mont k hv beta hlt⟩

end Sys2Proof.Machine
end

section
/-! The bit reversal of indices (47_fft.md R423): each bit from the recursion, and the involution from
the bits. -/

namespace Sys2Proof.Machine

/-- Bit 0 of the index is the top bit of the reversal; the rest of the index is reversed below it (R423). -/
theorem testBit_revBits_succ (k i b : Nat) : (revBits (k + 1) i).testBit b =
    if b < k then (revBits k (i / 2)).testBit b else (i % 2).testBit (b - k) := by
  rw [revBits, mul_comm]
  exact Nat.testBit_two_pow_mul_add (i % 2) (revBits_lt k (i / 2)) b

theorem testBit_revBits {k b : Nat} (hb : b < k) (i : Nat) :
    (revBits k i).testBit b = i.testBit (k - 1 - b) := by
  induction k generalizing i with
  | zero => exact absurd hb (Nat.not_lt_zero b)
  | succ k ih =>
    rw [testBit_revBits_succ]
    obtain hlt | rfl := Nat.lt_succ_iff_lt_or_eq.1 hb
    · have hidx : k - 1 - b + 1 = k + 1 - 1 - b := by omega
      rw [if_pos hlt, ih hlt, Nat.testBit_div_two, hidx]
    · simp [Nat.testBit_zero]

/-- Both reversals mirror the bits below `k`, and neither number has a bit from `k` on. -/
theorem revBits_revBits {k i : Nat} (hi : i < 2 ^ k) : revBits k (revBits k i) = i := by
  refine Nat.eq_of_testBit_eq fun b => ?_
  obtain hb | hb := Nat.lt_or_ge b k
  · have hmirror : k - 1 - b < k := by omega
    have hback : k - 1 - (k - 1 - b) = b := by omega
    rw [testBit_revBits hb, testBit_revBits hmirror, hback]
  · have hpow : 2 ^ k ≤ 2 ^ b := Nat.pow_le_pow_right Nat.two_pos hb
    rw [Nat.testBit_lt_two_pow ((revBits_lt k _).trans_le hpow),
      Nat.testBit_lt_two_pow (hi.trans_le hpow)]

/-- Settles O47: the range and the bits by the recursion on k, the involution from the bits. -/
theorem bitReversalOfIndices : Obligations.BitReversalOfIndices := by
  intro k i hi
  exact ⟨revBits_lt k i, fun _ hb => testBit_revBits hb i, revBits_revBits hi⟩

end Sys2Proof.Machine
end

section
/-! The encoding (30_encoding.md): the word and its fields are the same thing, every row of the opcode map is
undone by `Instr.fields`, and the tables on numbers are the opcode map read column by column. -/

namespace Sys2Proof

set_option Elab.async false

open Machine

/-! ### Words and fields (30_encoding.md R121, R133) -/

theorem Fields.ofWord_toWord (f : Fields) : Fields.ofWord f.toWord = f := by
  obtain ⟨opc, sb, m7, rd, ra, rb⟩ := f
  have hopc := opc.isLt
  have hs := sb.isLt
  have hm7 := m7.isLt
  have hrd := rd.isLt
  have hra := ra.isLt
  have hrb := rb.isLt
  simp only [Fields.ofWord, Fields.toWord, Fields.mk.injEq]
  refine ⟨?_, ?_, ?_, ?_, ?_, ?_⟩ <;>
  · apply BitVec.eq_of_toNat_eq
    simp only [BitVec.extractLsb'_toNat, toNat_append_add, Nat.shiftRight_eq_div_pow]
    omega

theorem Fields.toWord_ofWord (w : CmdWord) : (Fields.ofWord w).toWord = w := by
  have hw := w.isLt
  apply BitVec.eq_of_toNat_eq
  simp only [Fields.ofWord, Fields.toWord, toNat_append_add, BitVec.extractLsb'_toNat,
    Nat.shiftRight_eq_div_pow]
  omega

/-- A field by its bits is the number the statements read there. -/
theorem toNat_extractLsb'_eq_wordField (w : CmdWord) (lo n : Nat) :
    (w.extractLsb' lo n).toNat = wordField w lo n := by
  rw [BitVec.extractLsb'_toNat, Nat.shiftRight_eq_div_pow, wordField]

/-! ### Decoding an encoding -/

/-- Every instruction's fields are those of its row (the per-instruction family, all of it). -/
theorem Instr.encodes (i : Instr) : Laws.Encodes.Statement i := by
  cases i with
  | nop => exact Laws.Encodes.nop
  | halt => exact Laws.Encodes.halt
  | jmp a => exact Laws.Encodes.jmp a
  | brf cc a => exact Laws.Encodes.brf cc a
  | setlc n => exact Laws.Encodes.setlc n
  | djnz a => exact Laws.Encodes.djnz a
  | mov rd ra n => exact Laws.Encodes.mov rd ra n
  | limm rd v => exact Laws.Encodes.limm rd v
  | ladd rd ra rb => exact Laws.Encodes.ladd rd ra rb
  | lsub rd ra rb => exact Laws.Encodes.lsub rd ra rb
  | lcmp ra rb => exact Laws.Encodes.lcmp ra rb
  | lisz ra => exact Laws.Encodes.lisz ra
  | lshl rd ra n => exact Laws.Encodes.lshl rd ra n
  | lshr rd ra n => exact Laws.Encodes.lshr rd ra n
  | land rd ra rb => exact Laws.Encodes.land rd ra rb
  | lor rd ra rb => exact Laws.Encodes.lor rd ra rb
  | lxor rd ra rb => exact Laws.Encodes.lxor rd ra rb
  | lnot rd ra => exact Laws.Encodes.lnot rd ra
  | fadd c rd ra rb => exact Laws.Encodes.fadd c rd ra rb
  | fsub c rd ra rb => exact Laws.Encodes.fsub c rd ra rb
  | fneg c rd ra => exact Laws.Encodes.fneg c rd ra
  | fmul c rd ra rb => exact Laws.Encodes.fmul c rd ra rb
  | fsqr c rd ra => exact Laws.Encodes.fsqr c rd ra
  | fmulw c rd ra rb => exact Laws.Encodes.fmulw c rd ra rb
  | ftom c rd ra => exact Laws.Encodes.ftom c rd ra
  | ffromm c rd ra => exact Laws.Encodes.ffromm c rd ra
  | norm c rd hdr m => exact Laws.Encodes.norm c rd hdr m
  | feisz c hdr => exact Laws.Encodes.feisz c hdr
  | e2add rd ra rb => exact Laws.Encodes.e2add rd ra rb
  | e2sub rd ra rb => exact Laws.Encodes.e2sub rd ra rb
  | e2neg rd ra => exact Laws.Encodes.e2neg rd ra
  | e2mul rd ra rb => exact Laws.Encodes.e2mul rd ra rb
  | e2sqr rd ra => exact Laws.Encodes.e2sqr rd ra
  | e2eq ra rb => exact Laws.Encodes.e2eq ra rb
  | e2isz ra => exact Laws.Encodes.e2isz ra
  | padd g rd ra rb => exact Laws.Encodes.padd g rd ra rb
  | padda g rd ra rb => exact Laws.Encodes.padda g rd ra rb
  | pdbl g rd ra => exact Laws.Encodes.pdbl g rd ra
  | pneg g rd ra => exact Laws.Encodes.pneg g rd ra
  | pisz g ra => exact Laws.Encodes.pisz g ra
  | ponc g ra => exact Laws.Encodes.ponc g ra
  | pfroma g rd ra => exact Laws.Encodes.pfroma g rd ra
  | peq g ra rb => exact Laws.Encodes.peq g ra rb
  | pmul g rd ra rb nb => exact Laws.Encodes.pmul g rd ra rb nb
  | bktclr g desc => exact Laws.Encodes.bktclr g desc
  | bktacc g desc w => exact Laws.Encodes.bktacc g desc w
  | bktred g rd desc => exact Laws.Encodes.bktred g rd desc
  | msm g rd desc => exact Laws.Encodes.msm g rd desc
  | bfly rd ra rb => exact Laws.Encodes.bfly rd ra rb
  | bitrev base k => exact Laws.Encodes.bitrev base k
  | fft base k => exact Laws.Encodes.fft base k
  | ifft base k => exact Laws.Encodes.ifft base k

/-- Everything the decoder can do with a word, by the row of its opcode. -/
theorem decode_of_row {w : CmdWord} {r : OpcodeRow} (h : opcodeRow (Fields.ofWord w).opc = some r) :
    decode w = if (Fields.ofWord w).unusedZero r.used then r.build (Fields.ofWord w)
      else .error .reservedField := by
  simp only [decode, h]

theorem decode_of_no_row {w : CmdWord} (h : opcodeRow (Fields.ofWord w).opc = none) :
    decode w = .error .illegalOpcode := by
  simp only [decode, h]

theorem decode_encode {i : Instr} (h : i.wf = true) : decode (encode i) = .ok i := by
  obtain ⟨r, hrow, hzero, hbuild⟩ := i.encodes h
  rw [encode, decode_of_row (r := r) (by rw [Fields.ofWord_toWord]; exact hrow), Fields.ofWord_toWord,
    if_pos hzero, hbuild]

/-- The eight bytes of an encoding are its word again. -/
theorem leNat_encodeBytes (i : Instr) : BitVec.ofNat 64 (leNat (encodeBytes i)) = encode i := by
  rw [encodeBytes, leNat_leBytes, show (256 : Nat) ^ 8 = 2 ^ 64 by norm_num,
    Nat.mod_eq_of_lt (encode i).isLt, BitVec.ofNat_toNat, BitVec.setWidth_eq]

theorem decodeBytes_encodeBytes {i : Instr} (h : i.wf = true) (rest : List Byte) :
    decodeBytes (encodeBytes i ++ rest) = .ok (i, rest) := by
  have hlen : (encodeBytes i).length = 8 := leBytes_length _ _
  rw [decodeBytes, if_neg (by simp [hlen]), List.take_left' hlen, List.drop_left' hlen,
    leNat_encodeBytes, decode_encode h]
  rfl

/-- Settles O2: the fields of an encoding are the instruction's, and its row of the map makes the instruction
of them again; the byte form is the word's little-endian number. -/
theorem decodeEncodeRoundTrip : Obligations.DecodeEncodeRoundTrip := by
  intro i h
  exact ⟨decode_encode h, decodeBytes_encodeBytes h⟩

/-! ### The field codes undone (30_encoding.md R124, R125, R129) -/

@[simp] theorem ctxOf_bit (s : BitVec 1) : (ctxOf s).bit = s := by
  revert s
  decide

@[simp] theorem groupOf_bit (s : BitVec 1) : (groupOf s).bit = s := by
  revert s
  decide

/-- The conditions are the codes 0 to 9, each its own; the rest of M7 is reserved. -/
theorem condOf_cases (m7 : BitVec 7) :
    (∃ cc, condOf m7 = .ok cc ∧ cc.code = m7 ∧ m7.toNat < 10) ∨
      (condOf m7 = .error .reservedField ∧ 10 ≤ m7.toNat) := by
  by_cases h : m7.toNat < 10
  · have hall : ∀ n < 10, ∃ cc, condOf (BitVec.ofNat 7 n) = .ok cc ∧ cc.code = BitVec.ofNat 7 n := by
      intro n hn
      interval_cases n <;> exact ⟨_, rfl, rfl⟩
    obtain ⟨cc, hok, hcode⟩ := hall _ h
    rw [BitVec.ofNat_toNat, BitVec.setWidth_eq] at hok hcode
    exact .inl ⟨cc, hok, hcode, h⟩
  · refine .inr ⟨?_, Nat.le_of_not_lt h⟩
    unfold condOf
    split
    iterate 10 omega
    rfl

theorem normFormOf_cases (m7 : BitVec 7) :
    (∃ m, normFormOf m7 = .ok m ∧ m.code = m7 ∧ m7.toNat < 2) ∨
      (normFormOf m7 = .error .reservedField ∧ 2 ≤ m7.toNat) := by
  by_cases h : m7.toNat < 2
  · have hall : ∀ n < 2, ∃ m, normFormOf (BitVec.ofNat 7 n) = .ok m ∧ m.code = BitVec.ofNat 7 n := by
      intro n hn
      interval_cases n <;> exact ⟨_, rfl, rfl⟩
    obtain ⟨m, hok, hcode⟩ := hall _ h
    rw [BitVec.ofNat_toNat, BitVec.setWidth_eq] at hok hcode
    exact .inl ⟨m, hok, hcode, h⟩
  · refine .inr ⟨?_, Nat.le_of_not_lt h⟩
    unfold normFormOf
    split
    iterate 2 omega
    rfl

/-! ### What every row of the map does (30_encoding.md R122, R126, R129) -/

/-- The reserved values of R129, on the numbers in OPC and M7. -/
def reservedM7 (o m : Nat) : Prop :=
  (o = 0x03 ∧ 10 ≤ m) ∨ (o = 0x28 ∧ 2 ≤ m) ∨ (o = 0x48 ∧ (m = 0 ∨ 33 ≤ m))

theorem reservedValue_iff (w : CmdWord) :
    reservedValue w ↔ reservedM7 (wordField w 0 8) (wordField w 9 7) := Iff.rfl

/-- A field outside the used ones is 0. -/
theorem Fields.unusedZero_iff (f : Fields) (used : List FieldName) : f.unusedZero used = true ↔
    (.s ∉ used → f.s = 0) ∧ (.m7 ∉ used → f.m7 = 0) ∧ (.rd ∉ used → f.rd = 0) ∧
      (.ra ∉ used → f.ra = 0) ∧ (.rb ∉ used → f.rb = 0) := by
  simp only [Fields.unusedZero, Bool.and_eq_true, Bool.or_eq_true, List.contains_iff_mem, beq_iff_eq,
    or_iff_not_imp_left, and_assoc]

/-- The fields with those outside `used` put to 0. -/
def Fields.only (f : Fields) (used : List FieldName) : Fields where
  opc := f.opc
  s := if .s ∈ used then f.s else 0
  m7 := if .m7 ∈ used then f.m7 else 0
  rd := if .rd ∈ used then f.rd else 0
  ra := if .ra ∈ used then f.ra else 0
  rb := if .rb ∈ used then f.rb else 0

theorem Fields.only_eq_self {f : Fields} {used : List FieldName} (h : f.unusedZero used = true) :
    f.only used = f := by
  obtain ⟨hs, hm7, hrd, hra, hrb⟩ := (f.unusedZero_iff used).1 h
  have hite : ∀ {n : Nat} (P : Prop) [Decidable P] (v : BitVec n), (¬ P → v = 0) →
      (if P then v else 0) = v := by
    intro n P _ v hv
    split
    · rfl
    · next h => exact (hv h).symm
  rw [only, hite _ _ hs, hite _ _ hm7, hite _ _ hrd, hite _ _ hra, hite _ _ hrb]

/-- What a row makes of fields with its opcode is well formed and has the used ones of those fields; and what
it refuses are the reserved values, as RESERVED_FIELD. -/
structure OpcodeRow.Sound (r : OpcodeRow) : Prop where
  makes : ∀ f i, f.opc = r.opc → r.build f = .ok i → i.wf = true ∧ i.fields = f.only r.used
  refuses : ∀ f e, f.opc = r.opc →
    (r.build f = .error e ↔ e = .reservedField ∧ reservedM7 f.opc.toNat f.m7.toNat)

/-- A row that makes its instruction whatever the fields hold. -/
theorem OpcodeRow.Sound.of_total {r : OpcodeRow} {mk : Fields → Instr}
    (hb : ∀ f, r.build f = .ok (mk f)) (hw : ∀ f, (mk f).wf = true)
    (hf : ∀ f : Fields, (mk f).fields = { f.only r.used with opc := r.opc })
    (ho : r.opc.toNat ∉ [0x03, 0x28, 0x48]) : r.Sound where
  makes := by
    intro f i hopc hi
    rw [hb f] at hi
    obtain rfl := Except.ok.inj hi
    refine ⟨hw f, ?_⟩
    rw [hf f, ← hopc]
    rfl
  refuses := by
    intro f e hopc
    simp only [List.mem_cons, List.not_mem_nil, or_false, not_or] at ho
    simp [hb f, hopc, reservedM7, ho]

theorem brfRow_sound : OpcodeRow.Sound ⟨0x03, "BRF", [.m7, .ra],
    fun f => (condOf f.m7).map (fun cc => .brf cc f.ra)⟩ where
  makes := by
    intro f i hopc hi
    obtain ⟨cc, hok, hcode, -⟩ | ⟨herr, -⟩ := condOf_cases f.m7
    · simp only [hok, Except.map, Except.ok.injEq] at hi
      subst hi
      exact ⟨rfl, by simp [Instr.fields, Fields.only, hcode, hopc]⟩
    · simp only [herr, Except.map, reduceCtorEq] at hi
  refuses := by
    intro f e hopc
    obtain ⟨cc, hok, -, hlt⟩ | ⟨herr, hle⟩ := condOf_cases f.m7
    · simp [hok, Except.map, hopc, reservedM7, hlt]
    · simp [herr, Except.map, hopc, reservedM7, hle, eq_comm]

theorem normRow_sound : OpcodeRow.Sound ⟨0x28, "NORM", [.s, .m7, .rd, .ra],
    fun f => (normFormOf f.m7).map (fun m => .norm (ctxOf f.s) f.rd f.ra m)⟩ where
  makes := by
    intro f i hopc hi
    obtain ⟨m, hok, hcode, -⟩ | ⟨herr, -⟩ := normFormOf_cases f.m7
    · simp only [hok, Except.map, Except.ok.injEq] at hi
      subst hi
      exact ⟨rfl, by simp [Instr.fields, Fields.only, hcode, hopc]⟩
    · simp only [herr, Except.map, reduceCtorEq] at hi
  refuses := by
    intro f e hopc
    obtain ⟨m, hok, -, hlt⟩ | ⟨herr, hle⟩ := normFormOf_cases f.m7
    · simp [hok, Except.map, hopc, reservedM7, hlt]
    · simp [herr, Except.map, hopc, reservedM7, hle, eq_comm]

theorem nbytesOk_iff (nb : BitVec 7) : nbytesOk nb = true ↔ 1 ≤ nb.toNat ∧ nb.toNat ≤ 32 :=
  decide_eq_true_iff

theorem pmulRow_sound : OpcodeRow.Sound ⟨0x48, "PMUL", [.s, .m7, .rd, .ra, .rb],
    fun f => if nbytesOk f.m7 then .ok (.pmul (groupOf f.s) f.rd f.ra f.rb f.m7)
      else .error .reservedField⟩ where
  makes := by
    intro f i hopc hi
    by_cases hnb : nbytesOk f.m7 = true
    · simp only [hnb, if_true, Except.ok.injEq] at hi
      subst hi
      exact ⟨hnb, by simp [Instr.fields, Fields.only, hopc]⟩
    · simp only [hnb, Bool.false_eq_true, if_false, reduceCtorEq] at hi
  refuses := by
    intro f e hopc
    have hres : reservedM7 f.opc.toNat f.m7.toNat ↔ ¬ nbytesOk f.m7 = true := by
      have ho : f.opc.toNat = 0x48 := by
        rw [hopc]
        rfl
      rw [ho, reservedM7, nbytesOk_iff]
      omega
    by_cases hnb : nbytesOk f.m7 = true
    · simp [hres, hnb]
    · simp [hres, hnb, eq_comm]

theorem limmRow_sound : OpcodeRow.Sound ⟨0x09, "LIMM", [.rd, .ra, .rb],
    fun f => .ok (.limm f.rd (f.rb ++ f.ra))⟩ := by
  refine .of_total (fun _ => rfl) (fun _ => rfl) (fun f => ?_) (by decide)
  have hlow : (f.rb ++ f.ra).extractLsb' 0 16 = f.ra := by
    simpa using BitVec.extractLsb'_append_eq_right (a := f.rb) (b := f.ra)
  have hhigh : (f.rb ++ f.ra).extractLsb' 16 16 = f.rb := by
    simpa using BitVec.extractLsb'_append_eq_left (a := f.rb) (b := f.ra)
  simp [Instr.fields, Fields.only, hlow, hhigh]

theorem opcodeRowsSeq_sound : ∀ r ∈ opcodeRowsSeq, r.Sound := by
  simp only [opcodeRowsSeq, List.forall_mem_cons, List.not_mem_nil, false_imp_iff, implies_true, and_true]
  refine ⟨?_, ?_, ?_, brfRow_sound, ?_, ?_, ?_, limmRow_sound⟩ <;>
  exact .of_total (fun _ => rfl) (fun _ => rfl) (fun _ => rfl) (by decide)

theorem opcodeRowsLimb_sound : ∀ r ∈ opcodeRowsLimb, r.Sound := by
  simp only [opcodeRowsLimb, List.forall_mem_cons, List.not_mem_nil, false_imp_iff, implies_true, and_true]
  refine ⟨?_, ?_, ?_, ?_, ?_, ?_, ?_, ?_, ?_, ?_⟩ <;>
  exact .of_total (fun _ => rfl) (fun _ => rfl) (fun _ => rfl) (by decide)

theorem opcodeRowsField_sound : ∀ r ∈ opcodeRowsField, r.Sound := by
  simp only [opcodeRowsField, List.forall_mem_cons, List.not_mem_nil, false_imp_iff, implies_true, and_true]
  refine ⟨?_, ?_, ?_, ?_, ?_, ?_, ?_, ?_, normRow_sound, ?_⟩ <;>
  exact .of_total (fun _ => rfl) (fun _ => rfl) (fun _ => by simp [Instr.fields, Fields.only]) (by decide)

theorem opcodeRowsFq2_sound : ∀ r ∈ opcodeRowsFq2, r.Sound := by
  simp only [opcodeRowsFq2, List.forall_mem_cons, List.not_mem_nil, false_imp_iff, implies_true, and_true]
  refine ⟨?_, ?_, ?_, ?_, ?_, ?_, ?_⟩ <;>
  exact .of_total (fun _ => rfl) (fun _ => rfl) (fun _ => rfl) (by decide)

theorem opcodeRowsCurve_sound : ∀ r ∈ opcodeRowsCurve, r.Sound := by
  simp only [opcodeRowsCurve, List.forall_mem_cons, List.not_mem_nil, false_imp_iff, implies_true, and_true]
  refine ⟨?_, ?_, ?_, ?_, ?_, ?_, ?_, ?_, pmulRow_sound⟩ <;>
  exact .of_total (fun _ => rfl) (fun _ => rfl) (fun _ => by simp [Instr.fields, Fields.only]) (by decide)

theorem opcodeRowsMsm_sound : ∀ r ∈ opcodeRowsMsm, r.Sound := by
  simp only [opcodeRowsMsm, List.forall_mem_cons, List.not_mem_nil, false_imp_iff, implies_true, and_true]
  refine ⟨?_, ?_, ?_, ?_⟩ <;>
  exact .of_total (fun _ => rfl) (fun _ => rfl) (fun _ => by simp [Instr.fields, Fields.only]) (by decide)

theorem opcodeRowsFft_sound : ∀ r ∈ opcodeRowsFft, r.Sound := by
  simp only [opcodeRowsFft, List.forall_mem_cons, List.not_mem_nil, false_imp_iff, implies_true, and_true]
  refine ⟨?_, ?_, ?_, ?_⟩ <;>
  exact .of_total (fun _ => rfl) (fun _ => rfl) (fun _ => rfl) (by decide)

theorem opcodeMap_sound : ∀ r ∈ opcodeMap, r.Sound := by
  simp only [opcodeMap, List.forall_mem_append]
  exact ⟨⟨⟨⟨⟨⟨opcodeRowsSeq_sound, opcodeRowsLimb_sound⟩, opcodeRowsField_sound⟩, opcodeRowsFq2_sound⟩,
    opcodeRowsCurve_sound⟩, opcodeRowsMsm_sound⟩, opcodeRowsFft_sound⟩

theorem opcodeRow_some {o : BitVec 8} {r : OpcodeRow} (h : opcodeRow o = some r) :
    r ∈ opcodeMap ∧ o = r.opc :=
  ⟨List.mem_of_find?_eq_some h,
    (beq_iff_eq.1 (List.find?_some (p := fun r : OpcodeRow => r.opc == o) h)).symm⟩

/-! ### Encoding a decoding -/

theorem encode_of_decode {w : CmdWord} {i : Instr} (h : decode w = .ok i) :
    i.wf = true ∧ encode i = w := by
  cases hrow : opcodeRow (Fields.ofWord w).opc with
  | none =>
    rw [decode_of_no_row hrow] at h
    contradiction
  | some r =>
    obtain ⟨hmem, hopc⟩ := opcodeRow_some hrow
    rw [decode_of_row hrow] at h
    split at h
    · next hz =>
      obtain ⟨hwf, hfields⟩ := (opcodeMap_sound r hmem).makes _ i hopc h
      rw [Fields.only_eq_self hz] at hfields
      exact ⟨hwf, by rw [encode, hfields, Fields.toWord_ofWord]⟩
    · contradiction

/-- Settles O3: a row keeps every used field, and the unused ones are 0 in a word that it accepts. -/
theorem encodeDecodeRoundTrip : Obligations.EncodeDecodeRoundTrip := fun _ _ => encode_of_decode

/-! ### The refused words (30_encoding.md R122, R128, R129) -/

/-- The opcodes without a row are those of R128's list. -/
theorem opcodeRow_none_iff (o : BitVec 8) : opcodeRow o = none ↔ illegalOpcode o.toNat := by
  rw [← Option.isNone_iff_eq_none]
  unfold illegalOpcode
  revert o
  decide +kernel

/-- The columns of R122's table of used fields, row by row. -/
theorem opcodeMap_used : ∀ r ∈ opcodeMap,
    (.s ∈ r.used ↔ usesS r.opc.toNat) ∧ (.m7 ∈ r.used ↔ usesM7 r.opc.toNat) ∧
      (.rd ∈ r.used ↔ usesRd r.opc.toNat) ∧ (.ra ∈ r.used ↔ usesRa r.opc.toNat) ∧
      (.rb ∈ r.used ↔ usesRb r.opc.toNat) := by
  unfold usesS usesM7 usesRd usesRa usesRb illegalOpcode
  decide +kernel

theorem unusedFieldSet_iff {w : CmdWord} {r : OpcodeRow} (hmem : r ∈ opcodeMap)
    (hopc : (Fields.ofWord w).opc = r.opc) :
    unusedFieldSet w ↔ ¬ (Fields.ofWord w).unusedZero r.used = true := by
  have ho : wordField w 0 8 = r.opc.toNat := by
    rw [← hopc, ← toNat_extractLsb'_eq_wordField]
    rfl
  have hval : ∀ lo n, wordField w lo n ≠ 0 ↔ ¬ w.extractLsb' lo n = 0 := by
    intro lo n
    rw [← toNat_extractLsb'_eq_wordField, ne_eq, ← BitVec.toNat_inj]
    rfl
  obtain ⟨hs, hm7, hrd, hra, hrb⟩ := opcodeMap_used r hmem
  simp only [unusedFieldSet, ho, hval, Fields.unusedZero_iff, ← hs, ← hm7, ← hrd, ← hra, ← hrb,
    Fields.ofWord, not_and_or, Classical.not_imp]

/-- Settles O4: without a row an opcode is illegal; with one, an unused field that is set is refused first and
then what the row itself refuses, the reserved values. -/
theorem refusedWords : Obligations.RefusedWords := by
  intro w
  have ho : wordField w 0 8 = (Fields.ofWord w).opc.toNat := (toNat_extractLsb'_eq_wordField w 0 8).symm
  have hm : wordField w 9 7 = (Fields.ofWord w).m7.toNat := (toNat_extractLsb'_eq_wordField w 9 7).symm
  rw [reservedValue_iff, ho, hm, ← opcodeRow_none_iff]
  cases hrow : opcodeRow (Fields.ofWord w).opc with
  | none => simp [decode_of_no_row hrow]
  | some r =>
    obtain ⟨hmem, hopc⟩ := opcodeRow_some hrow
    have hrefuses := fun e => (opcodeMap_sound r hmem).refuses (Fields.ofWord w) e hopc
    rw [unusedFieldSet_iff hmem hopc, decode_of_row hrow]
    split
    · next hz => simp [hrefuses, hz]
    · next hz => simp [hz]

/-- Settles O1: the decoder computes the ten commands. -/
theorem specWordsDecode : Obligations.SpecWordsDecode := by
  refine ⟨?_, ?_, ?_, ?_, ?_, ?_, ?_, ?_, ?_, ?_⟩ <;> rfl

end Sys2Proof
end

section
/-! What a step can do (40_sequencer.md R160-R168; 60_exceptions.md R450-R480): fetch and decode, faults, the
frame and the pc of a command, and the control commands. -/

namespace Sys2Proof.Machine

set_option Elab.async false

/-! ### The engine's step (40_sequencer.md R160, R161) -/

theorem step_empty {s : State} (hl : s.params.legal = true) (h : s.inbox = []) : step s = engineStep s := by
  rw [step, if_pos hl, h]

theorem step_engine {s : State} {ts : List HostTurn} (hl : s.params.legal = true)
    (h : s.inbox = .engine :: ts) : step s = engineStep (s.setInbox ts) := by
  rw [step, if_pos hl, h]

theorem step_blockReset {s : State} {ts : List HostTurn} (hl : s.params.legal = true)
    (h : s.inbox = .blockReset :: ts) : step s = .next (s.setInbox ts).hardwareReset := by
  rw [step, if_pos hl, h]

theorem engineStep_idle {s : State} (h : s.status.busy = false) : engineStep s = .next s := by
  rw [engineStep, if_neg (by simp [h])]

/-- The word at CPC, inside command memory. -/
theorem State.fetchWord_in {s : State} (h : s.cpc.toNat < s.params.cmdmWords) :
    s.fetchWord = some (s.command s.cpc.toNat) := if_pos h

theorem State.fetchWord_beyond {s : State} (h : s.params.cmdmWords ≤ s.cpc.toNat) :
    s.fetchWord = none := if_neg (Nat.not_lt.2 h)

theorem engineStep_beyond {s : State} (hb : s.status.busy = true)
    (h : s.params.cmdmWords ≤ s.cpc.toNat) : engineStep s = .next (s.takeFault 0 fetchTrap) := by
  simp only [engineStep, hb, if_true, State.fetchWord_beyond h]

theorem engineStep_refused {s : State} {e : DecodeError} (hb : s.status.busy = true)
    (h : s.cpc.toNat < s.params.cmdmWords) (hd : decode (s.command s.cpc.toNat) = .error e) :
    engineStep s = .next (s.takeFault (s.command s.cpc.toNat) (decodeTrap e)) := by
  simp only [engineStep, hb, if_true, State.fetchWord_in h, hd]

theorem engineStep_decoded {s : State} {i : Instr} (hb : s.status.busy = true)
    (h : s.cpc.toNat < s.params.cmdmWords) (hd : decode (s.command s.cpc.toNat) = .ok i) :
    engineStep s = exec i s := by
  simp only [engineStep, hb, if_true, State.fetchWord_in h, hd]

/-- Everything the engine's step can do. -/
theorem engineStep_cases (s : State) :
    engineStep s = .next s ∨
      (s.status.busy = true ∧ ∃ w t, engineStep s = .next (s.takeFault w t)) ∨
      (s.status.busy = true ∧ s.cpc.toNat < s.params.cmdmWords ∧ ∃ i, engineStep s = exec i s) := by
  cases hb : s.status.busy with
  | false => exact .inl (engineStep_idle hb)
  | true =>
    obtain h | h := Nat.lt_or_ge s.cpc.toNat s.params.cmdmWords
    · cases hd : decode (s.command s.cpc.toNat) with
      | error e => exact .inr (.inl ⟨rfl, _, _, engineStep_refused hb h hd⟩)
      | ok i => exact .inr (.inr ⟨rfl, h, i, engineStep_decoded hb h hd⟩)
    · exact .inr (.inl ⟨rfl, _, _, engineStep_beyond hb h⟩)

/-- Every command answers a next state. -/
theorem exec_answers (i : Instr) (s : State) : ∃ t, exec i s = .next t := by
  obtain ⟨p, -, h⟩ | ⟨u, h, -⟩ := exec_does i s
  · exact ⟨_, h⟩
  · exact ⟨u, h⟩

theorem engineStep_answers (s : State) : ∃ t, engineStep s = .next t := by
  obtain h | ⟨-, w, t, h⟩ | ⟨-, -, i, h⟩ := engineStep_cases s
  · exact ⟨_, h⟩
  · exact ⟨_, h⟩
  · rw [h]
    exact exec_answers i s

/-- Settles O5: an `.engine` turn changes none of the fields that the fetch reads. -/
theorem stepRunsTheDecodedCommand : Obligations.StepRunsTheDecodedCommand := by
  intro s i hl hb hpc hd
  refine ⟨fun h => ?_, fun ts h => ?_⟩
  · rw [step_empty hl h, engineStep_decoded hb hpc hd]
  · rw [step_engine hl h]
    exact engineStep_decoded (s := s.setInbox ts) hb hpc
      (by rw [State.setInbox_cpc, State.command_of_mem rfl rfl]; exact hd)

/-- Settles O6: each failing fetch or decode is one fault entry. -/
theorem fetchAndDecodeFaults : Obligations.FetchAndDecodeFaults := by
  intro s hl hi hb
  refine ⟨fun hpc => ?_, fun w hpc hw => ⟨fun hd => ?_, fun hd => ?_⟩⟩
  · exact ⟨_, (step_empty hl hi).trans (engineStep_beyond hb hpc), State.takeFault_faulted _ _ _⟩
  all_goals
    subst hw
    exact ⟨_, (step_empty hl hi).trans (engineStep_refused hb hpc hd), State.takeFault_faulted _ _ _⟩

theorem Params.legal_iff (p : Params) : p.legal = true ↔ 1 ≤ p.opmLog ∧ p.opmLog ≤ 16 ∧ 1 ≤ p.cmdmLog ∧
    p.cmdmLog ≤ 16 ∧ 1 ≤ p.lanes ∧ p.lanes ≤ 255 := decide_eq_true_iff

/-- With legal parameters a step is the engine's, on the state with at most one turn taken, or it takes a turn
of the host. -/
theorem step_cases {s : State} (hl : s.params.legal = true) :
    (∃ ts, step s = engineStep (s.setInbox ts)) ∨
      (∃ a ts, step s = .next (hostAccess a (s.setInbox ts))) ∨
      (∃ ts, step s = .next (s.setInbox ts).hardwareReset) := by
  cases h : s.inbox with
  | nil =>
    refine .inl ⟨[], ?_⟩
    rw [step_empty hl h, ← h]
    rfl
  | cons turn ts =>
    cases turn with
    | engine => exact .inl ⟨ts, step_engine hl h⟩
    | access a => exact .inr (.inl ⟨a, ts, step_access hl h⟩)
    | blockReset => exact .inr (.inr ⟨ts, step_blockReset hl h⟩)

/-- Settles O7: no command and no host turn stops the model; only the parameters can. -/
theorem stepAlwaysAnswers : Obligations.StepAlwaysAnswers := by
  intro s
  refine ⟨Params.legal_iff s.params, fun hl => ?_, fun hl hi hb => ?_, fun hl => ?_⟩
  · obtain ⟨ts, h⟩ | ⟨a, ts, h⟩ | ⟨ts, h⟩ := step_cases hl
    · rw [h]
      exact engineStep_answers _
    · exact ⟨_, h⟩
    · exact ⟨_, h⟩
  · rw [step_empty hl hi, engineStep_idle hb]
  · rw [step, if_neg (by simp [hl])]

/-! ### Faults, frame and pc of a command -/

/-- The causes of a well-formed command are the codes 4 to 10 (60_exceptions.md R450). -/
theorem Cause.ofCommand_code {i : Instr} (hwf : i.wf = true) {c : Cause} (h : c.ofCommand i = true) :
    4 ≤ c.code.toNat ∧ c.code.toNat ≤ 10 := by
  cases c with
  | fetchRange => contradiction
  | illegalOpcode => contradiction
  | reservedField => simp [Cause.ofCommand, hwf] at h
  | _ => decide

/-- Settles O10: where FAULT was clear only a failing check sets it, and a check's fault is one fault entry. -/
theorem faultsArePrecise : Obligations.FaultsArePrecise := by
  intro i s t hwf hs h ht
  obtain ⟨p, hp, he⟩ | ⟨u, he, hran⟩ := exec_does i s
  · obtain rfl := Host.Outcome.next.inj (he.symm.trans h)
    obtain ⟨hlo, hhi⟩ := Cause.ofCommand_code hwf hp
    exact ⟨_, _, hlo, hhi, State.takeFault_faulted s _ p⟩
  · obtain rfl := Host.Outcome.next.inj (he.symm.trans h)
    rw [hran.fault_eq, hs] at ht
    contradiction

/-- Command words lie below operand memory. -/
theorem State.SameOutside.command_eq {s t : State} {rs : List (Nat × Nat)} (h : s.SameOutside t rs) {k : Nat}
    (hk : k < 65536) : t.command k = s.command k := by
  rw [State.command, State.command, State.bytesAt_congr]
  intro j hj
  refine h _ fun r _ => .inl ?_
  simp only [cmdOffset, slotOffset]
  omega

/-- A completing command leaves every byte outside its destination slots. -/
theorem Ran.sameOutside {i : Instr} {s t : State} (h : Ran i s t) : s.SameOutside t (destRanges i s) := by
  intro a ha
  rw [← h.foot.same a ha]
  refine State.byteAt_of_mem (s := s.setMem t.mem) (t := t) rfl ?_ a
  rw [h.regs]
  rfl

theorem Ran.hostErr_eq {i : Instr} {s t : State} (h : Ran i s t) :
    t.status.hostErr = s.status.hostErr := by
  by_cases hi : i = .halt
  · rw [h.halt hi]
  · rw [h.status hi]

/-- Settles O11: a fault writes STATUS and the record alone, and a command that completes has its footprint. -/
theorem commandsKeepTheRest : Obligations.CommandsKeepTheRest := by
  intro i s t h
  obtain ⟨p, rfl⟩ | hran := exec_next_cases h
  · have hsame : s.SameOutside (s.takeFault (encode i) p) (destRanges i s) := fun _ _ => rfl
    exact ⟨hsame, fun _ hk => hsame.command_eq hk, rfl, rfl, rfl, rfl, rfl, rfl, rfl, rfl⟩
  · have hsame := hran.sameOutside
    refine ⟨hsame, fun _ hk => hsame.command_eq hk, ?_, ?_, ?_, hran.hostErr_eq, ?_, ?_, ?_, ?_⟩ <;>
      rw [hran.regs]

/-- Settles O13: a command that leaves FAULT clear took no fault, so it ran to its next pc. -/
theorem nextPc_of_completes : Obligations.NextPc := by
  intro i s t _ h ht
  obtain ⟨p, rfl⟩ | hran := exec_next_cases h
  · contradiction
  · rw [hran.regs]

/-! ### The control commands (40_sequencer.md R163-R168) -/

theorem exec_brf_eq (s : State) (cc : Cond) (a : BitVec 16) : exec (.brf cc a) s =
    .next { s with cpc := bif s.flags.holds cc then a.setWidth 17 else s.cpc + 1 } := by
  rw [exec_brf, command_effect (firstTrap_nil s)]
  cases s.flags.holds cc <;> rfl

theorem exec_djnz_eq (s : State) (a : BitVec 16) : exec (.djnz a) s = .next { s with
    lcnt := s.lcnt - 1
    cpc := if s.lcnt = 1 then s.cpc + 1 else a.setWidth 17 } := by
  have hone : s.lcnt - 1 = 0 ↔ s.lcnt = 1 := sub_eq_zero
  rw [exec_djnz, command_effect (firstTrap_nil s)]
  dsimp only
  simp only [hone]
  split <;> rfl

/-- Settles O14: a command without checks is its effect. -/
theorem controlCommands : Obligations.ControlCommands := by
  intro s
  refine ⟨rfl, rfl, fun _ => rfl, fun p a hp => ?_, fun _ => rfl, exec_djnz_eq s⟩
  have hholds : p.2 = s.flags.holds p.1 := by
    simp only [List.mem_cons, List.not_mem_nil, or_false] at hp
    rcases hp with rfl | rfl | rfl | rfl | rfl | rfl | rfl | rfl | rfl | rfl <;> rfl
  rw [exec_brf_eq, hholds]

end Sys2Proof.Machine
end

section
/-! The invariant over every step (10_state.md, 40_sequencer.md R162, 60_exceptions.md R456-R467): one lemma per
thing a step can do. -/

namespace Sys2Proof.Machine

set_option Elab.async false

/-! ### The destination slots of a completing command lie in OPM (20_memory.md R92) -/

/-- Where `i` completes without fault, its destination slots lie in operand memory. -/
def DestInRange (i : Instr) (s : State) : Prop :=
  ∀ t, exec i s = .next t → t.status.fault = false → ∀ r ∈ destRanges i s, s.inRange r.1 r.2 = true

/-- A command that leaves FAULT clear passed every check. -/
theorem check_passed {i : Instr} {cs : List Check} {eff : State → State} {s t : State}
    (he : exec i s = command i cs eff s) (h : exec i s = .next t) (ht : t.status.fault = false) :
    ∀ c ∈ cs, c s = none := by
  rw [he] at h
  obtain ⟨p, -, hf⟩ | ⟨hp, -⟩ := command_cases i cs eff s
  · obtain rfl := Host.Outcome.next.inj (hf.symm.trans h)
    contradiction
  · intro c hc
    by_contra hn
    obtain ⟨p, hp'⟩ := Option.ne_none_iff_exists'.1 hn
    clear he h hn
    induction cs with
    | nil => cases hc
    | cons d ds ih =>
      obtain ⟨hd, hds⟩ := (firstTrap_cons d ds s).1 hp
      obtain rfl | hc := List.mem_cons.1 hc
      · rw [hp'] at hd
        contradiction
      · exact ih hds hc

theorem DestInRange.of_none {i : Instr} {s : State} (hd : destRanges i s = []) : DestInRange i s := by
  intro t _ _ r hr
  rw [hd] at hr
  cases hr

/-- One destination range, which a check of the command is about. -/
theorem DestInRange.of_check {i : Instr} {cs : List Check} {eff : State → State} {s : State} {b w : Nat}
    (c : Check) (he : exec i s = command i cs eff s) (hd : destRanges i s = [(b, w)]) (hc : c ∈ cs)
    (hr : c s = checkRange b w s) : DestInRange i s := by
  intro t h ht r hmem
  rw [hd, List.mem_singleton] at hmem
  subst hmem
  exact (checkRange_none b w s).1 (hr ▸ check_passed he h ht c hc)

/-- Two destination ranges, each with its check. -/
theorem DestInRange.of_checks {i : Instr} {cs : List Check} {eff : State → State} {s : State}
    {b w b' w' : Nat} (c c' : Check) (he : exec i s = command i cs eff s)
    (hd : destRanges i s = [(b, w), (b', w')]) (hc : c ∈ cs) (hr : c s = checkRange b w s) (hc' : c' ∈ cs)
    (hr' : c' s = checkRange b' w' s) : DestInRange i s := by
  intro t h ht r hmem
  rw [hd, List.mem_cons, List.mem_singleton] at hmem
  obtain rfl | rfl := hmem
  · exact (checkRange_none b w s).1 (hr ▸ check_passed he h ht c hc)
  · exact (checkRange_none b' w' s).1 (hr' ▸ check_passed he h ht c' hc')

/-- Every command checks the range of every destination it has. -/
theorem destInRange (i : Instr) (s : State) : DestInRange i s := by
  cases i with
  | nop | halt | jmp a | brf cc a | setlc n | djnz a => exact .of_none rfl
  | lcmp ra rb | lisz ra | feisz c hdr | e2eq ra rb | e2isz ra => exact .of_none rfl
  | pisz g ra | ponc g ra | peq g ra rb => exact .of_none rfl
  | mov rd ra m7 => exact .of_check _ (exec_mov rd ra m7 s) rfl (.tail _ (.head _)) rfl
  | limm rd v => exact .of_check _ (exec_limm rd v s) rfl (.head _) rfl
  | ladd rd ra rb =>
    exact .of_check _ ((exec_ladd rd ra rb s).trans (limb2_eq ..)) rfl (.tail _ (.tail _ (.head _))) rfl
  | lsub rd ra rb =>
    exact .of_check _ ((exec_lsub rd ra rb s).trans (limb2_eq ..)) rfl (.tail _ (.tail _ (.head _))) rfl
  | land rd ra rb =>
    exact .of_check _ ((exec_land rd ra rb s).trans (limb2_eq ..)) rfl (.tail _ (.tail _ (.head _))) rfl
  | lor rd ra rb =>
    exact .of_check _ ((exec_lor rd ra rb s).trans (limb2_eq ..)) rfl (.tail _ (.tail _ (.head _))) rfl
  | lxor rd ra rb =>
    exact .of_check _ ((exec_lxor rd ra rb s).trans (limb2_eq ..)) rfl (.tail _ (.tail _ (.head _))) rfl
  | lshl rd ra n =>
    exact .of_check _ ((exec_lshl rd ra n s).trans (limb1_eq ..)) rfl (.tail _ (.head _)) rfl
  | lshr rd ra n =>
    exact .of_check _ ((exec_lshr rd ra n s).trans (limb1_eq ..)) rfl (.tail _ (.head _)) rfl
  | lnot rd ra =>
    exact .of_check _ ((exec_lnot rd ra s).trans (limb1_eq ..)) rfl (.tail _ (.head _)) rfl
  | fadd c rd ra rb =>
    exact .of_check (checkRange rd.toNat 1) (exec_fadd c rd ra rb s) rfl (by simp [fieldChecks2]) rfl
  | fsub c rd ra rb =>
    exact .of_check (checkRange rd.toNat 1) (exec_fsub c rd ra rb s) rfl (by simp [fieldChecks2]) rfl
  | fmul c rd ra rb =>
    exact .of_check (checkRange rd.toNat 1) (exec_fmul c rd ra rb s) rfl (by simp [fieldChecks2]) rfl
  | fneg c rd ra =>
    exact .of_check (checkRange rd.toNat 1) (exec_fneg c rd ra s) rfl (by simp [fieldChecks1]) rfl
  | fsqr c rd ra =>
    exact .of_check (checkRange rd.toNat 1) (exec_fsqr c rd ra s) rfl (by simp [fieldChecks1]) rfl
  | ftom c rd ra =>
    exact .of_check (checkRange rd.toNat 1) (exec_ftom c rd ra s) rfl (by simp [fieldChecks1]) rfl
  | ffromm c rd ra =>
    exact .of_check (checkRange rd.toNat 1) (exec_ffromm c rd ra s) rfl (by simp [fieldChecks1]) rfl
  | fmulw c rd ra rb =>
    exact .of_check (checkRange rd.toNat 1) (exec_fmulw c rd ra rb s) rfl (by simp) rfl
  | norm c rd hdr m =>
    exact .of_check (checkRange rd.toNat 1) (exec_norm c rd hdr m s) rfl (by simp) rfl
  | e2add rd ra rb =>
    exact .of_check (checkRange rd.toNat 2) (exec_e2add rd ra rb s) rfl (by simp [fq2Checks2]) rfl
  | e2sub rd ra rb =>
    exact .of_check (checkRange rd.toNat 2) (exec_e2sub rd ra rb s) rfl (by simp [fq2Checks2]) rfl
  | e2mul rd ra rb =>
    exact .of_check (checkRange rd.toNat 2) (exec_e2mul rd ra rb s) rfl (by simp [fq2Checks2]) rfl
  | e2neg rd ra =>
    exact .of_check (checkRange rd.toNat 2) (exec_e2neg rd ra s) rfl (by simp [fq2Checks1]) rfl
  | e2sqr rd ra =>
    exact .of_check (checkRange rd.toNat 2) (exec_e2sqr rd ra s) rfl (by simp [fq2Checks1]) rfl
  | padd g rd ra rb =>
    exact .of_check (checkRange rd.toNat (jw g)) (exec_padd g rd ra rb s) rfl (by simp) rfl
  | padda g rd ra rb =>
    exact .of_check (checkRange rd.toNat (jw g)) (exec_padda g rd ra rb s) rfl (by simp) rfl
  | pdbl g rd ra =>
    exact .of_check (checkRange rd.toNat (jw g)) (exec_pdbl g rd ra s) rfl (by simp) rfl
  | pneg g rd ra =>
    exact .of_check (checkRange rd.toNat (jw g)) (exec_pneg g rd ra s) rfl (by simp) rfl
  | pfroma g rd ra =>
    exact .of_check (checkRange rd.toNat (jw g)) (exec_pfroma g rd ra s) rfl (by simp) rfl
  | pmul g rd ra rb nb =>
    exact .of_check (checkRange rd.toNat (jw g)) (exec_pmul g rd ra rb nb s) rfl (by simp) rfl
  | bktclr g desc =>
    exact .of_check (checkBuckets g desc.toNat) (exec_bktclr g desc s) rfl (by simp) rfl
  | bktacc g desc w =>
    exact .of_check (checkBuckets g desc.toNat) (exec_bktacc g desc w s) rfl (by simp) rfl
  | bktred g rd desc =>
    exact .of_check (checkRange rd.toNat (jw g)) (exec_bktred g rd desc s) rfl (by simp) rfl
  | msm g rd desc =>
    exact .of_checks (checkBuckets g desc.toNat) (checkRange rd.toNat (jw g)) (exec_msm g rd desc s) rfl
      (by simp) rfl (by simp) rfl
  | bfly rd ra rb =>
    exact .of_checks (checkRange rd.toNat 1) (checkRange ra.toNat 1) (exec_bfly rd ra rb s) rfl
      (by simp) rfl (by simp) rfl
  | bitrev base k => exact .of_check _ (exec_bitrev base k s) rfl (.head _) rfl
  | fft base k =>
    exact .of_check (checkRange base.toNat (2 ^ k.toNat)) (exec_fft base k s) rfl (by simp [fftChecks]) rfl
  | ifft base k =>
    exact .of_check (checkRange base.toNat (2 ^ k.toNat)) (exec_ifft base k s) rfl (by simp [fftChecks]) rfl

/-! ### Populated memory (20_memory.md R81) -/

/-- The populated offsets: command words and slots (20_memory.md R81). -/
theorem regionAt_memory_iff (p : Params) (off : Nat) : regionAt p off = .memory ↔
    (0x80000 ≤ off ∧ off < 0x80000 + 8 * p.cmdmWords) ∨
      (0x200000 ≤ off ∧ off < 0x200000 + 32 * p.opmSlots) := by
  have hcases : regionAt p off = .memory ↔ ¬ off < 0x1000 ∧
      ((cmdOffset 0 ≤ off ∧ off < cmdOffset p.cmdmWords) ∨
        (slotOffset 0 ≤ off ∧ off < slotOffset p.opmSlots)) := by
    rw [regionAt]
    split_ifs with h0 h1 h2
    · simp [h0]
    · simp [h0, h1]
    · simp [h0, h2]
    · simp [h0, h1, h2]
  rw [hcases]
  simp only [cmdOffset, slotOffset]
  omega

/-- A write to populated slots lists populated bytes alone. -/
theorem Footprint.populated {s t : State} {rs : List (Nat × Nat)} (h : Footprint s t rs)
    (hp : ∀ a, (s.mem.get a).isSome = true → regionAt s.params a = .memory)
    (hr : ∀ r ∈ rs, s.inRange r.1 r.2 = true) :
    ∀ a, (t.mem.get a).isSome = true → regionAt s.params a = .memory := by
  intro a ha
  obtain hold | ⟨r, hmem, hlo, hhi⟩ := h.listed a ha
  · exact hp a hold
  · have hin := (s.inRange_iff r.1 r.2).1 (hr r hmem)
    simp only [slotOffset] at hlo hhi
    rw [regionAt_memory_iff]
    omega

/-- The window's boundaries are multiples of 8: an aligned word of populated memory is populated whole. -/
theorem regionAt_word {p : Params} {off : Nat} (h8 : off % 8 = 0) (h : regionAt p off = .memory) {j : Nat}
    (hj : j < 8) : regionAt p (off + j) = .memory := by
  rw [regionAt_memory_iff] at h ⊢
  omega

/-! ### The invariant under the updates of a state -/

/-- The invariant speaks of the parameters, memory, CPC, BUSY, DONE, FAULT and the fault record alone. -/
theorem State.Inv.congr {s t : State} (h : s.Inv) (hp : t.params = s.params) (hm : t.mem = s.mem)
    (hc : t.cpc = s.cpc) (hb : t.status.busy = s.status.busy) (hd : t.status.done = s.status.done)
    (hf : t.status.fault = s.status.fault) (hr : t.faultRec = s.faultRec) : t.Inv where
  params := hp ▸ h.params
  memory := hm ▸ h.memory
  populated := by rw [hp, hm]; exact h.populated
  pc := hc ▸ h.pc
  busy := by rw [hb, hd, hf, hr]; exact h.busy
  ended := by rw [hd, hf]; exact h.ended
  fault := by rw [hf, hr, hc]; exact h.fault
  cause := hr ▸ h.cause

/-- Memory may change if it keeps its form and stays in its windows. -/
theorem State.Inv.setMem {s : State} (h : s.Inv) {m : Memory} (hwf : m.wf = true)
    (hp : ∀ a, (m.get a).isSome = true → regionAt s.params a = .memory) : (s.setMem m).Inv where
  params := h.params
  memory := hwf
  populated := hp
  pc := h.pc
  busy := h.busy
  ended := h.ended
  fault := h.fault
  cause := h.cause

/-- The CSRs after any reset, over any memory in form. -/
theorem State.Inv.resetCsrs {s : State} (hp : s.params.legal = true) (hm : s.mem.wf = true)
    (hl : ∀ a, (s.mem.get a).isSome = true → regionAt s.params a = .memory) : s.resetCsrs.Inv where
  params := hp
  memory := hm
  populated := hl
  pc := Nat.zero_le _
  busy := nofun
  ended := nofun
  fault := nofun
  cause := Nat.zero_le _

theorem State.Inv.hardwareReset {s : State} (hp : s.params.legal = true) : s.hardwareReset.Inv where
  params := hp
  memory := rfl
  populated := nofun
  pc := Nat.zero_le _
  busy := nofun
  ended := nofun
  fault := nofun
  cause := Nat.zero_le _

/-- Settles O8: the reset state has the default parameters, no memory and no fault. -/
theorem resetMeetsInvariant : Obligations.ResetMeetsInvariant :=
  (State.Inv.resetCsrs (s := State.reset) rfl rfl nofun).congr rfl rfl rfl rfl rfl rfl rfl

theorem Cause.code_range (c : Cause) : c.code ≠ 0 ∧ c.code.toNat ≤ 10 := by
  cases c <;> decide

/-- A fault ends a run whose DONE is clear (60_exceptions.md R456, R467). -/
theorem State.Inv.takeFault {s : State} (h : s.Inv) (hb : s.status.busy = true) (w : CmdWord) (t : Trap) :
    (s.takeFault w t).Inv where
  params := h.params
  memory := h.memory
  populated := h.populated
  pc := h.pc
  busy := nofun
  ended := fun ⟨hd, _⟩ => by
    rw [State.takeFault_status, (h.busy hb).1] at hd
    contradiction
  fault := fun _ => ⟨t.cause.code_range.1, rfl⟩
  cause := t.cause.code_range.2

theorem State.Inv.start {s : State} (h : s.Inv) : s.start.Inv where
  params := h.params
  memory := h.memory
  populated := h.populated
  pc := by
    have hlt := s.startPc.isLt
    rw [State.start_cpc, BitVec.toNat_setWidth]
    omega
  busy := fun _ => ⟨rfl, rfl, rfl⟩
  ended := nofun
  fault := nofun
  cause := Nat.zero_le _

/-! ### The engine -/

theorem nextPc_le (i : Instr) (s : State) (h : s.cpc.toNat < 65536) : (nextPc i s).toNat ≤ 65536 := by
  have hnext : (s.cpc + 1).toNat ≤ 65536 := by
    rw [BitVec.toNat_add]
    exact (Nat.mod_le _ _).trans h
  have hbranch : ∀ a : BitVec 16, (a.setWidth 17).toNat ≤ 65536 := by
    intro a
    have := a.isLt
    rw [BitVec.toNat_setWidth]
    omega
  cases i with
  | jmp a => exact hbranch a
  | brf cc a =>
    rw [nextPc_brf]
    split
    exacts [hbranch a, hnext]
  | djnz a =>
    rw [nextPc_djnz]
    split
    exacts [hbranch a, hnext]
  | halt => exact h.le
  | _ => exact hnext

/-- A command that completes on a busy engine keeps the invariant: DONE is set by HALT alone, which clears
BUSY. -/
theorem State.Inv.ran {i : Instr} {s t : State} (h : s.Inv) (hb : s.status.busy = true)
    (hpc : s.cpc.toNat < 65536) (hr : Ran i s t) (hd : ∀ r ∈ destRanges i s, s.inRange r.1 r.2 = true) :
    t.Inv := by
  obtain ⟨hdone, hfault, hrec⟩ := h.busy hb
  have hparams : t.params = s.params := by rw [hr.regs]
  have hcpc : t.cpc = nextPc i s := by rw [hr.regs]
  have hrec' : t.faultRec = FaultRecord.none := by rw [hr.regs]; exact hrec
  have hnone : ¬ (t.status.fault = true) := by rw [hr.fault_eq, hfault]; nofun
  exact {
    params := hparams ▸ h.params
    memory := hr.foot.wf h.memory
    populated := by rw [hparams]; exact hr.foot.populated h.populated hd
    pc := by rw [hcpc]; exact nextPc_le i s hpc
    busy := by
      intro hbusy
      have hi : i ≠ .halt := by
        intro hi
        rw [hr.halt hi] at hbusy
        contradiction
      rw [hr.status hi]
      exact ⟨hdone, hfault, hrec'⟩
    ended := fun hboth => hnone hboth.2
    fault := fun hf => absurd hf hnone
    cause := by rw [hrec']; exact Nat.zero_le _ }

theorem State.Inv.exec {i : Instr} {s t : State} (h : s.Inv) (hb : s.status.busy = true)
    (hpc : s.cpc.toNat < 65536) (he : exec i s = .next t) : t.Inv := by
  obtain ⟨p, rfl⟩ | hran := exec_next_cases he
  · exact h.takeFault hb _ p
  · have hf : t.status.fault = false := by rw [hran.fault_eq, (h.busy hb).2.1]
    exact h.ran hb hpc hran (destInRange i s t he hf)

theorem Params.cmdmWords_le {p : Params} (h : p.legal = true) : p.cmdmWords ≤ 65536 := by
  obtain ⟨-, -, -, hle, -⟩ := (Params.legal_iff p).1 h
  exact Nat.pow_le_pow_right (by norm_num) hle

theorem State.Inv.engineStep {s t : State} (h : s.Inv) (he : engineStep s = .next t) : t.Inv := by
  obtain hi | ⟨hb, w, p, hf⟩ | ⟨hb, hpc, i, hx⟩ := engineStep_cases s
  · exact Host.Outcome.next.inj (hi.symm.trans he) ▸ h
  · exact Host.Outcome.next.inj (hf.symm.trans he) ▸ h.takeFault hb w p
  · exact h.exec hb (hpc.trans_le (Params.cmdmWords_le h.params)) (hx.symm.trans he)

/-! ### The host -/

theorem State.foldl_fillSlots_footprint (s : State) (f : Nat → Word256) (rs : List (Nat × Nat)) :
    Footprint s (rs.foldl (fun st r => st.fillSlots f r.1 r.2) s) rs := by
  suffices h : ∀ (qs : List (Nat × Nat)) (t : State), (∀ r ∈ qs, r ∈ rs) → Footprint s t rs →
      Footprint s (qs.foldl (fun st r => st.fillSlots f r.1 r.2) t) rs from
    h rs s (fun _ hr => hr) (Footprint.refl s rs)
  intro qs
  induction qs with
  | nil => exact fun _ _ ht => ht
  | cons r qs ih =>
    intro t hsub ht
    exact ih _ (fun r' hr' => hsub r' (.tail _ hr'))
      (ht.trans (Footprint.fillSlots t f (hsub r (.head _))))

/-- Everything an abort can do to memory: nothing, or the destination slots of the command in progress, which
passed its checks, change (70_reset_and_hazards.md R503). -/
theorem State.abandonCommand_cases (s : State) :
    s.abandonCommand = s ∨ ∃ i t u, s.cpc.toNat < s.params.cmdmWords ∧
      decode (s.command s.cpc.toNat) = .ok i ∧ exec i s = .next t ∧ t.status.fault = false ∧
      Footprint s u (destRanges i s) ∧ s.abandonCommand = u.countDraw := by
  obtain hpc | hpc := Nat.lt_or_ge s.cpc.toNat s.params.cmdmWords
  · unfold State.abandonCommand
    simp only [State.fetchWord_in hpc]
    cases hd : decode (s.command s.cpc.toNat) with
    | error e => exact .inl rfl
    | ok i =>
      obtain ⟨t, ht⟩ := exec_answers i s
      simp only [ht]
      cases hf : t.status.fault with
      | true => exact .inl rfl
      | false =>
        exact .inr ⟨i, t, _, hpc, rfl, ht, hf, State.foldl_fillSlots_footprint s _ _, rfl⟩
  · left
    simp only [State.abandonCommand, State.fetchWord_beyond hpc]

theorem State.Inv.softReset {s : State} (h : s.Inv) : s.softReset.Inv := by
  have hidle := State.Inv.resetCsrs h.params h.memory h.populated
  unfold State.softReset
  split
  · obtain he | ⟨i, t, u, -, -, hx, hf, hfoot, he⟩ := s.abandonCommand_cases
    · rw [he]
      exact hidle
    · have hparams : u.params = s.params := by rw [hfoot.regs]; rfl
      rw [he]
      refine State.Inv.resetCsrs (s := u.countDraw) (hparams ▸ h.params) (hfoot.wf h.memory) ?_
      intro a ha
      have hreg := hfoot.populated h.populated (destInRange i s t hx hf) a ha
      rwa [← hparams] at hreg
  · exact hidle

theorem State.Inv.refuseHost {s : State} (h : s.Inv) : s.refuseHost.Inv :=
  h.congr rfl rfl rfl rfl rfl rfl rfl

theorem State.Inv.setReply {s : State} (h : s.Inv) (r : Option HostReply) : (s.setReply r).Inv :=
  h.congr rfl rfl rfl rfl rfl rfl rfl

/-- CLRSTAT clears DONE and FAULT and keeps the rest (10_state.md R37). -/
theorem State.Inv.clearStatus {s : State} (h : s.Inv) (hb : s.status.busy = false) (e : Bool) :
    (s.setStatus { s.status with done := false, fault := false, hostErr := e }).Inv where
  params := h.params
  memory := h.memory
  populated := h.populated
  pc := h.pc
  busy := fun hbusy => by
    rw [State.setStatus_status, hb] at hbusy
    contradiction
  ended := nofun
  fault := nofun
  cause := h.cause

theorem State.Inv.ctrlWrite {s : State} (h : s.Inv) (v : Limb) : (ctrlWrite s v).Inv := by
  unfold Machine.ctrlWrite
  split
  · exact h.softReset
  split
  · exact h.refuseHost
  next hb =>
  have hb : s.status.busy = false := by simpa using hb
  have henable : (s.setIrqEn (v.getLsbD 2)).Inv := h.congr rfl rfl rfl rfl rfl rfl rfl
  have hclear := State.Inv.clearStatus henable hb false
  dsimp only
  split <;> split
  exacts [hclear.start, henable.start, hclear, henable]

theorem State.Inv.csrStore {s : State} (h : s.Inv) (v : Limb) (r : Csr) : (csrStore s v r).Inv := by
  cases r <;> exact h.congr rfl rfl rfl rfl rfl rfl rfl

theorem State.Inv.csrWrite {s : State} (h : s.Inv) (v : Limb) (r : Csr) : (csrWrite s v r).Inv := by
  unfold Machine.csrWrite
  split_ifs
  exacts [h.ctrlWrite v, h, h.refuseHost, h.csrStore v r]

/-- A host write of one aligned word of populated memory. -/
theorem State.Inv.setWord {s : State} (h : s.Inv) {off : Nat} (h8 : off % 8 = 0)
    (hr : regionAt s.params off = .memory) (v : Nat) : (s.setBytes off (leBytes 8 v)).Inv := by
  refine h.setMem (Memory.writeBytes_wf _ _ h.memory) fun a ha => ?_
  by_cases hin : off ≤ a ∧ a < off + 8
  · have hword := regionAt_word h8 hr (j := a - off) (by omega)
    rwa [show off + (a - off) = a by omega] at hword
  · rw [Memory.get_writeBytes_out _ _ _ _ (by rw [leBytes_length]; omega)] at ha
    exact h.populated a ha

theorem accessOk_iff (off size : Nat) : accessOk off size = true ↔ size = 8 ∧ off % 8 = 0 :=
  decide_eq_true_iff

theorem State.Inv.hostRead {s : State} (h : s.Inv) (off size : Nat) : (hostRead off size s).Inv := by
  unfold Machine.hostRead
  split
  · exact h.setReply _
  split
  · exact h.setReply _
  · split <;> exact h.setReply _
  · split
    · exact h.refuseHost.setReply _
    · exact h.setReply _

theorem State.Inv.hostWrite {s : State} (h : s.Inv) (off size : Nat) (v : Limb) :
    (hostWrite off size v s).Inv := by
  unfold Machine.hostWrite
  split
  · exact h.setReply _
  next hok =>
  have h8 : off % 8 = 0 := ((accessOk_iff off size).1 (by simpa using hok)).2
  split
  · exact h.setReply _
  · split
    · exact (h.csrWrite v _).setReply _
    · exact h.setReply _
  next hr =>
  split
  · exact h.refuseHost.setReply _
  · exact (h.setWord h8 hr v.toNat).setReply _

theorem State.Inv.hostAccess {s : State} (h : s.Inv) (a : HostAccess) : (hostAccess a s).Inv := by
  unfold Machine.hostAccess
  split
  · split
    · exact h.hostRead _ _
    · exact h.setReply _
  · split
    · exact h.hostWrite _ _ _
    · exact h.setReply _

/-- Settles O9: the engine's step, the host's accesses and the hardware reset each keep the invariant. -/
theorem stepKeepsInvariant : Obligations.StepKeepsInvariant := by
  intro s t h hs
  have hbox : ∀ ts, (s.setInbox ts).Inv := fun ts => h.congr rfl rfl rfl rfl rfl rfl rfl
  obtain ⟨ts, he⟩ | ⟨a, ts, he⟩ | ⟨ts, he⟩ := step_cases h.params
  · exact (hbox ts).engineStep (he.symm.trans hs)
  · exact Host.Outcome.next.inj (he.symm.trans hs) ▸ (hbox ts).hostAccess a
  · exact Host.Outcome.next.inj (he.symm.trans hs) ▸ State.Inv.hardwareReset (hbox ts).params

end Sys2Proof.Machine
end

section
/-! The host's side (10_state.md R36-R50; 20_memory.md R81-R90; 70_reset_and_hazards.md R500-R503): one equation
per access, then the registers, CTRL, the resets and the abort. -/

namespace Sys2Proof.Machine

set_option Elab.async false

/-! ### The status word and the reset values -/

/-- Settles O60: the interrupt output is computed from IRQ_EN, DONE and FAULT; the word is its bits in order. -/
theorem statusAndInterrupt : Obligations.StatusAndInterrupt := by
  intro s
  refine ⟨by simp [State.irq], ?_⟩
  simp only [csrRead, statusValue]
  generalize s.irq = irq
  obtain ⟨b, d, f, e⟩ := s.status
  revert b d f e irq
  decide

theorem Params.default_legal : Params.default.legal = true := rfl

/-- Settles O52: every register but the two constants holds 0 after reset. -/
theorem resetValues : Obligations.ResetValues := by
  have hpair : ∀ p : Nat × Nat, p ∈ State.reset.registerTable →
      p.1 ≠ 0x000 → p.1 ≠ 0x008 → p.2 = 0 := by decide
  exact ⟨hpair, by decide, by decide, fun c => by cases c <;> rfl, rfl⟩

/-! ### One equation per access -/

theorem step_read {s : State} {off size : Nat} {ts : List HostTurn} (hl : s.params.legal = true)
    (hoff : off < 0x400000) (h : s.inbox = .access (.read (s.params.blockBase + off) size) :: ts) :
    step s = .next (hostRead off size (s.setInbox ts)) := by
  rw [step_access hl h]
  exact congrArg _ (hostAccess_read (s.setInbox ts) size hoff)

theorem step_write {s : State} {off size : Nat} {v : Limb} {ts : List HostTurn} (hl : s.params.legal = true)
    (hoff : off < 0x400000) (h : s.inbox = .access (.write (s.params.blockBase + off) size v) :: ts) :
    step s = .next (hostWrite off size v (s.setInbox ts)) := by
  rw [step_access hl h]
  exact congrArg _ (hostAccess_write (s.setInbox ts) size v hoff)

theorem accessOk_of_aligned {off : Nat} (h8 : off % 8 = 0) : (!accessOk off 8) = false := by
  rw [(accessOk_iff off 8).2 ⟨rfl, h8⟩]
  rfl

theorem regionAt_csr (p : Params) {off : Nat} (h : off < 0x1000) : regionAt p off = .csr := if_pos h

theorem hostRead_csr {off : Nat} {r : Csr} (h : csrAt off = some r) (s : State) :
    hostRead off 8 s = s.setReply (some (.data (csrRead s r))) := by
  obtain ⟨-, hlt, h8⟩ := csrAt_listed h
  simp only [hostRead, accessOk_of_aligned h8, regionAt_csr s.params hlt, h, Bool.false_eq_true, if_false]

theorem hostWrite_csr {off : Nat} {r : Csr} (h : csrAt off = some r) (v : Limb) (s : State) :
    hostWrite off 8 v s = (csrWrite s v r).setReply (some .done) := by
  obtain ⟨-, hlt, h8⟩ := csrAt_listed h
  simp only [hostWrite, accessOk_of_aligned h8, regionAt_csr s.params hlt, h, Bool.false_eq_true, if_false]

theorem hostRead_reserved {off : Nat} (hlt : off < 0x1000) (h8 : off % 8 = 0) (h : csrAt off = none)
    (s : State) : hostRead off 8 s = s.setReply (some (.data 0)) := by
  simp only [hostRead, accessOk_of_aligned h8, regionAt_csr s.params hlt, h, Bool.false_eq_true, if_false]

theorem hostWrite_reserved {off : Nat} (hlt : off < 0x1000) (h8 : off % 8 = 0) (h : csrAt off = none)
    (v : Limb) (s : State) : hostWrite off 8 v s = s.setReply (some .done) := by
  simp only [hostWrite, accessOk_of_aligned h8, regionAt_csr s.params hlt, h, Bool.false_eq_true, if_false]

theorem hostRead_memory {off : Nat} {s : State} (h8 : off % 8 = 0) (h : regionAt s.params off = .memory) :
    hostRead off 8 s = if s.status.busy then s.refuseHost.setReply (some (.data 0))
      else s.setReply (some (.data (s.memWord off))) := by
  simp only [hostRead, accessOk_of_aligned h8, h, Bool.false_eq_true, if_false]

theorem hostWrite_memory {off : Nat} {s : State} (h8 : off % 8 = 0) (h : regionAt s.params off = .memory)
    (v : Limb) : hostWrite off 8 v s = if s.status.busy then s.refuseHost.setReply (some .done)
      else (s.setBytes off (leBytes 8 v.toNat)).setReply (some .done) := by
  simp only [hostWrite, accessOk_of_aligned h8, h, Bool.false_eq_true, if_false]

/-- An access that R84 and R85 answer with a bus error. -/
theorem hostRead_busError {off size : Nat} {s : State}
    (h : accessOk off size = false ∨ regionAt s.params off = .unmapped) :
    hostRead off size s = s.setReply (some .busError) := by
  rw [hostRead]
  split
  · rfl
  next hok =>
  obtain h | h := h
  · simp [h] at hok
  · rw [h]

theorem hostWrite_busError {off size : Nat} {v : Limb} {s : State}
    (h : accessOk off size = false ∨ regionAt s.params off = .unmapped) :
    hostWrite off size v s = s.setReply (some .busError) := by
  rw [hostWrite]
  split
  · rfl
  next hok =>
  obtain h | h := h
  · simp [h] at hok
  · rw [h]

theorem regionAt_unmapped {p : Params} {off : Nat} (hcsr : 0x1000 ≤ off)
    (h : ¬ ((0x80000 ≤ off ∧ off < 0x80000 + 8 * p.cmdmWords) ∨
      (0x200000 ≤ off ∧ off < 0x200000 + 32 * p.opmSlots))) : regionAt p off = .unmapped := by
  have hm := mt (regionAt_memory_iff p off).1 h
  cases hr : regionAt p off with
  | memory => exact absurd hr hm
  | unmapped => rfl
  | csr =>
    unfold regionAt at hr
    rw [if_neg (Nat.not_lt.2 hcsr)] at hr
    split_ifs at hr

/-! ### Bus errors and refusals -/

theorem Params.opmSlots_le {p : Params} (h : p.legal = true) : p.opmSlots ≤ 65536 := by
  obtain ⟨-, hle, -⟩ := (Params.legal_iff p).1 h
  exact Nat.pow_le_pow_right (by norm_num) hle

theorem csrAt_none_iff {s : State} (hl : s.params.legal = true) (off : Nat) :
    csrAt off = none ↔ ∀ value, (off, value) ∉ s.registerTable := by
  simp only [mem_registerTable hl, not_exists, not_and]
  cases h : csrAt off with
  | none => simp
  | some r => simp only [reduceCtorEq, false_iff, not_forall, not_not]; exact ⟨_, r, rfl, rfl⟩

/-- Settles O57: the bus error is decided before the engine or a register is looked at. -/
theorem busErrorsChangeNothing : Obligations.BusErrorsChangeNothing := by
  intro s off size v ts a hl hi hoff
  refine ⟨fun ha hbad => ?_, fun hlt h8 hnone => ?_⟩
  · have hbus : accessOk off size = false ∨ regionAt s.params off = .unmapped := by
      by_cases hok : accessOk off size = true
      · obtain ⟨rfl, h8⟩ := (accessOk_iff off size).1 hok
        have hw := Params.cmdmWords_le hl
        refine .inr (regionAt_unmapped ?_ ?_) <;> omega
      · exact .inl (by simpa using hok)
    obtain rfl | rfl := ha
    · rw [step_read hl hoff hi]
      exact congrArg _ (hostRead_busError (s := s.setInbox ts) hbus)
    · rw [step_write hl hoff hi]
      exact congrArg _ (hostWrite_busError (s := s.setInbox ts) hbus)
  · have hcsr := (csrAt_none_iff hl off).2 hnone
    refine ⟨?_, ?_⟩
    · rintro rfl
      rw [step_read hl hoff hi, hostRead_reserved hlt h8 hcsr]
      rfl
    · rintro rfl
      rw [step_write hl hoff hi, hostWrite_reserved hlt h8 hcsr]
      rfl

theorem csrWrite_busy {s : State} {v : Limb} {r : Csr} (hb : s.status.busy = true)
    (hro : r.readOnly = false) (hc : r = .ctrl → v.getLsbD 1 = false) : csrWrite s v r = s.refuseHost := by
  unfold csrWrite
  split
  next h => simp only [ctrlWrite, hc h, hb, Bool.false_eq_true, if_false, if_true]
  · simp only [hro, Bool.false_eq_true, if_false]

/-- CTRL is the register at offset 0x10 (10_state.md R36). -/
theorem csrAt_eq_ctrl {off : Nat} (h : csrAt off = some .ctrl) : off = 0x010 := by
  have hall : ∀ p ∈ csrMap, p.2 = .ctrl → p.1 = 0x010 := by decide
  exact hall _ (csrAt_listed h).1 rfl

/-- Settles O56: a busy engine's memories and RW-idle registers answer with HOST_ERR alone. -/
theorem busyEngineRefusesTheHost : Obligations.BusyEngineRefusesTheHost := by
  rintro s t off v ts hl hb h8 rfl
  refine ⟨fun hmem => ?_, fun value hval hro hctrl hi => ?_⟩
  · have hoff : off < 0x400000 := by
      have hw := Params.cmdmWords_le hl
      have hs := Params.opmSlots_le hl
      omega
    have hreg : regionAt (s.setInbox ts).params off = .memory := (regionAt_memory_iff _ _).2 hmem
    refine ⟨fun hi => ?_, fun hi => ?_⟩
    · rw [step_read hl hoff hi, hostRead_memory h8 hreg, State.setInbox_status, if_pos hb]
      rfl
    · rw [step_write hl hoff hi, hostWrite_memory h8 hreg, State.setInbox_status, if_pos hb]
      rfl
  · obtain ⟨r, hr, -⟩ := (mem_registerTable hl off value).1 hval
    obtain ⟨-, hlt, -⟩ := csrAt_listed hr
    have hread : r.readOnly = false := by
      rw [← Bool.not_eq_true, readOnly_iff hr]
      exact hro
    have hc : r = .ctrl → v.getLsbD 1 = false := fun h => hctrl (csrAt_eq_ctrl (h ▸ hr))
    rw [step_write hl (by omega) hi, hostWrite_csr hr, csrWrite_busy (s := s.setInbox ts) hb hread hc]
    rfl

/-! ### CTRL: START, CLRSTAT, the resets -/

theorem csrAt_ctrl : csrAt 0x10 = some .ctrl := rfl

/-- A write of CTRL by the host. -/
theorem step_ctrl {s : State} {v : Limb} {ts : List HostTurn} (hl : s.params.legal = true)
    (hi : s.inbox = .access (.write (s.params.blockBase + 0x10) 8 v) :: ts) :
    step s = .next ((ctrlWrite (s.setInbox ts) v).setReply (some .done)) := by
  rw [step_write hl (by norm_num) hi, hostWrite_csr csrAt_ctrl]
  rfl

/-- Settles O53: the bits act in the order IRQ_EN, CLRSTAT, START. -/
theorem controlWrites : Obligations.ControlWrites := by
  rintro s v ts st hl hb hi h1 rfl
  have hb' : (s.setInbox ts).status.busy = false := hb
  refine ⟨fun h0 => ?_, fun h0 => ?_⟩ <;>
  · rw [step_ctrl hl hi]
    simp only [ctrlWrite, h1, h0, hb', Bool.false_eq_true, if_false, if_true]
    cases v.getLsbD 3 <;> rfl

theorem csrAt_eq_params {off : Nat} (h : csrAt off = some .params) : off = 0x008 := by
  have hall : ∀ p ∈ csrMap, p.2 = .params → p.1 = 0x008 := by decide
  exact hall _ (csrAt_listed h).1 rfl

/-- What the host reads of reset CSRs, PARAMS apart, is what it reads right after reset. -/
theorem registerTable_of_resetCsrs {u t : State} (hl : t.params.legal = true) (hcpc : t.cpc = u.resetCsrs.cpc)
    (hstart : t.startPc = u.resetCsrs.startPc) (hlcnt : t.lcnt = u.resetCsrs.lcnt)
    (hflags : t.flags = u.resetCsrs.flags) (hstatus : t.status = u.resetCsrs.status)
    (hirq : t.irqEn = u.resetCsrs.irqEn) (hrec : t.faultRec = u.resetCsrs.faultRec)
    (hcfg : t.cfg = u.resetCsrs.cfg) :
    ∀ p ∈ t.registerTable, p.1 ≠ 0x008 → p ∈ State.reset.registerTable := by
  rintro ⟨off, value⟩ hp hne
  obtain ⟨r, hr, rfl⟩ := (mem_registerTable hl off value).1 hp
  have hparams : r ≠ .params := fun h => hne (csrAt_eq_params (h ▸ hr))
  refine (mem_registerTable Params.default_legal off _).2 ⟨r, hr, ?_⟩
  rw [csrRead_congr hparams hcpc hstart hlcnt hflags hstatus hirq hrec hcfg,
    csrRead_congr (t := u.resetCsrs) (u := State.reset) hparams rfl rfl rfl rfl rfl rfl rfl rfl]

theorem ctrlWrite_reset {s : State} {v : Limb} (h : v.getLsbD 1 = true) : ctrlWrite s v = s.softReset :=
  if_pos h

/-- Settles O54: both resets put the CSRs at their reset values; they differ in memory. -/
theorem resets : Obligations.Resets := by
  intro s ts hl
  refine ⟨fun v hb hi h1 => ?_, fun hi => ?_⟩
  · have hstep : step s = .next ((s.setInbox ts).resetCsrs.setReply (some .done)) := by
      rw [step_ctrl hl hi, ctrlWrite_reset h1, State.softReset, if_neg (by simp [hb])]
    exact ⟨_, hstep, rfl, rfl, rfl, rfl, rfl,
      registerTable_of_resetCsrs (u := s.setInbox ts) hl rfl rfl rfl rfl rfl rfl rfl rfl⟩
  · exact ⟨_, step_blockReset hl hi, rfl, rfl, rfl, rfl,
      registerTable_of_resetCsrs (u := s.setInbox ts) hl rfl rfl rfl rfl rfl rfl rfl rfl⟩

/-- Settles O55: the reset of the CSRs follows what the abort does to memory. -/
theorem abortedRun : Obligations.AbortedRun := by
  intro s v ts hl hb _ hi h1
  have hstep : step s = .next ((s.setInbox ts).abandonCommand.resetCsrs.setReply (some .done)) := by
    rw [step_ctrl hl hi, ctrlWrite_reset h1, State.softReset, if_pos (by exact hb)]
  have hcommand : (s.setInbox ts).command s.cpc.toNat = s.command s.cpc.toNat :=
    State.command_of_mem rfl rfl _
  obtain he | ⟨i, t, u, -, hd, -, -, hfoot, he⟩ := (s.setInbox ts).abandonCommand_cases
  · rw [he] at hstep
    exact ⟨_, hstep, rfl, rfl, rfl,
      registerTable_of_resetCsrs (u := s.setInbox ts) hl rfl rfl rfl rfl rfl rfl rfl rfl,
      fun _ _ _ _ => rfl, fun _ _ _ _ => rfl⟩
  · rw [he] at hstep
    have hu := hfoot.regs
    have hparams : u.params = s.params := by rw [hu]; rfl
    have hpower : u.powerOns = s.powerOns := by rw [hu]; rfl
    have hbox : u.inbox = ts := by rw [hu]; rfl
    rw [State.setInbox_cpc, hcommand] at hd
    refine ⟨_, hstep, hbox, hparams, hpower,
      registerTable_of_resetCsrs (u := s.setInbox ts) (hparams ▸ hl) rfl rfl rfl rfl rfl rfl rfl rfl,
      fun j hj => ?_, fun e hj => ?_⟩
    · obtain rfl := Except.ok.inj (hd.symm.trans hj)
      intro a ha
      refine hfoot.same a ?_
      cases i <;> exact ha
    · exact nomatch hd.symm.trans hj

end Sys2Proof.Machine
end

section
/-! The host's words in the memories, and the registers read back (20_memory.md R81-R90; 10_state.md R36). -/

namespace Sys2Proof.Machine

set_option Elab.async false

/-! ### A slot and its four limbs (20_memory.md R82, R83) -/

/-- A run of bytes as a number: its first `m` bytes, then the others above them. -/
theorem leNat_bytesAt_add (s : State) (a m n : Nat) :
    leNat (s.bytesAt a (m + n)) = leNat (s.bytesAt a m) + 256 ^ m * leNat (s.bytesAt (a + m) n) := by
  induction m generalizing a with
  | zero => simp [State.bytesAt, leNat]
  | succ m ih =>
    rw [Nat.succ_add, State.bytesAt, State.bytesAt, leNat, leNat, ih, Nat.add_right_comm a 1 m, pow_succ]
    ring_nf

theorem leNat_bytesAt_lt (s : State) (a n : Nat) : leNat (s.bytesAt a n) < 256 ^ n := by
  simpa using leNat_lt (s.bytesAt a n)

theorem State.x_eq_leNat (s : State) (i : Nat) : s.x i = leNat (s.bytesAt (slotOffset i) 32) := by
  rw [State.x, State.slot, BitVec.toNat_ofNat]
  exact Nat.mod_eq_of_lt (leNat_bytesAt_lt s (slotOffset i) 32)

/-- The word of the window at an offset, as a number. -/
theorem State.memWord_toNat (s : State) (off : Nat) : (s.memWord off).toNat = leNat (s.bytesAt off 8) := by
  rw [State.memWord, BitVec.toNat_ofNat]
  exact Nat.mod_eq_of_lt (leNat_bytesAt_lt s off 8)

/-- Limb `j` of slot `i` is the word at its place in the window. -/
theorem State.x_limb (s : State) (i : Nat) {j : Nat} (hj : j < 4) :
    s.x i / 2 ^ (64 * j) % 2 ^ 64 = (s.memWord (slotOffset i + 8 * j)).toNat := by
  have hpow : (2 : Nat) ^ (64 * j) = 256 ^ (8 * j) := by
    rw [show (256 : Nat) = 2 ^ 8 by norm_num, ← pow_mul]
    ring_nf
  have hlow := leNat_bytesAt_lt s (slotOffset i) (8 * j)
  have hword := leNat_bytesAt_lt s (slotOffset i + 8 * j) 8
  rw [s.memWord_toNat, s.x_eq_leNat, show 32 = 8 * j + (8 + (24 - 8 * j)) by omega, leNat_bytesAt_add,
    leNat_bytesAt_add, hpow, Nat.add_mul_div_left _ _ (by positivity), Nat.div_eq_of_lt hlow, Nat.zero_add,
    show (2 : Nat) ^ 64 = 256 ^ 8 by norm_num, Nat.add_mul_mod_self_left, Nat.mod_eq_of_lt hword]

theorem State.memWord_setBytes_same (s : State) (off : Nat) (v : Limb) :
    (s.setBytes off (leBytes 8 v.toNat)).memWord off = v := by
  have h := State.bytesAt_setBytes s off (leBytes 8 v.toNat)
  rw [leBytes_length] at h
  rw [State.memWord, h, leNat_leBytes, show (256 : Nat) ^ 8 = 2 ^ 64 by norm_num,
    Nat.mod_eq_of_lt v.isLt, BitVec.ofNat_toNat, BitVec.setWidth_eq]

theorem State.memWord_setBytes_ne (s : State) {off off' : Nat} (bs : List Byte)
    (h : off' + 8 ≤ off ∨ off + bs.length ≤ off') : (s.setBytes off bs).memWord off' = s.memWord off' := by
  rw [State.memWord, State.memWord, State.bytesAt_congr]
  intro k hk
  exact State.byteAt_setBytes_out s off _ bs (by omega)

/-- An idle host write of a populated word: the bytes of the word and the answer. -/
theorem step_write_memory {s : State} {off : Nat} {v : Limb} {ts : List HostTurn} (hl : s.params.legal = true)
    (hb : s.status.busy = false) (hoff : off < 0x400000) (h8 : off % 8 = 0)
    (hr : regionAt s.params off = .memory)
    (hi : s.inbox = .access (.write (s.params.blockBase + off) 8 v) :: ts) : step s =
      .next (((s.setInbox ts).setBytes off (leBytes 8 v.toNat)).setReply (some .done)) := by
  rw [step_write hl hoff hi, hostWrite_memory (s := s.setInbox ts) h8 hr, State.setInbox_status,
    if_neg (by simp [hb])]

theorem step_read_memory {s : State} {off : Nat} {ts : List HostTurn} (hl : s.params.legal = true)
    (hb : s.status.busy = false) (hoff : off < 0x400000) (h8 : off % 8 = 0)
    (hr : regionAt s.params off = .memory)
    (hi : s.inbox = .access (.read (s.params.blockBase + off) 8) :: ts) : step s =
      .next ((s.setInbox ts).setReply (some (.data (s.memWord off)))) := by
  have hw : (s.setInbox ts).memWord off = s.memWord off := by
    rw [State.memWord, State.memWord, State.bytesAt_of_mem (s := s) (t := s.setInbox ts) rfl rfl]
  rw [step_read hl hoff hi, hostRead_memory (s := s.setInbox ts) h8 hr, State.setInbox_status,
    if_neg (by simp [hb]), hw]

/-- What an idle host write of a populated word leaves of the machine and of the other bytes. -/
theorem wrote_word (s : State) (off : Nat) (v : Limb) (ts : List HostTurn) (t : State)
    (ht : t = ((s.setInbox ts).setBytes off (leBytes 8 v.toNat)).setReply (some .done)) :
    t = { s with mem := t.mem, inbox := ts, reply := some .done } ∧
      ∀ a, a < off ∨ off + 8 ≤ a → t.byteAt a = s.byteAt a := by
  subst ht
  refine ⟨rfl, fun a ha => ?_⟩
  exact State.byteAt_setBytes_out (s.setInbox ts) off a _ (by rwa [leBytes_length])

/-- Settles O58: a populated word is read and written whole, and a slot is four of them. -/
theorem hostAccessesMemory : Obligations.HostAccessesMemory := by
  intro s off v ts hl
  have hslots := Params.opmSlots_le hl
  have hwords := Params.cmdmWords_le hl
  refine ⟨fun hb => ⟨fun i j hi hj hoff => ?_, fun i hi hoff => ?_⟩, fun addr size hout hi => ?_⟩
  · have hreg : regionAt s.params off = .memory := (regionAt_memory_iff _ _).2 (by omega)
    have hplace : ∀ k, slotOffset i + 8 * k = off + 8 * k - 8 * j := by
      intro k
      rw [slotOffset, hoff]
      omega
    refine ⟨fun h => ?_, fun h => ⟨_, step_write_memory hl hb (by omega) (by omega) hreg h, ?_⟩⟩
    · have hdata : s.memWord off = BitVec.ofNat 64 (s.x i / 2 ^ (64 * j)) := by
        apply BitVec.eq_of_toNat_eq
        rw [BitVec.toNat_ofNat, State.x_limb s i hj, hplace, Nat.add_sub_cancel]
      rw [step_read_memory hl hb (by omega) (by omega) hreg h, hdata]
      rfl
    · obtain ⟨hrest, hbytes⟩ := wrote_word s off v ts _ rfl
      refine ⟨hrest, hbytes, ?_, fun j' hj' hne => ?_⟩
      · rw [State.x_limb _ i hj, hplace, Nat.add_sub_cancel]
        exact congrArg BitVec.toNat (State.memWord_setBytes_same (s.setInbox ts) off v)
      · rw [State.x_limb _ i hj', State.x_limb _ i hj']
        refine congrArg BitVec.toNat ?_
        exact State.memWord_setBytes_ne (s.setInbox ts) _ (by rw [leBytes_length, slotOffset]; omega)
  · have hreg : regionAt s.params off = .memory := (regionAt_memory_iff _ _).2 (by omega)
    have hplace : cmdOffset i = off := hoff.symm
    have hcommand : ∀ u : State, u.command i = u.memWord off := by
      intro u
      rw [State.command, hplace, State.memWord]
    refine ⟨fun h => ?_, fun h => ⟨_, step_write_memory hl hb (by omega) (by omega) hreg h, ?_⟩⟩
    · rw [step_read_memory hl hb (by omega) (by omega) hreg h, hcommand]
      rfl
    · obtain ⟨hrest, hbytes⟩ := wrote_word s off v ts _ rfl
      refine ⟨hrest, hbytes, ?_⟩
      rw [hcommand]
      exact State.memWord_setBytes_same (s.setInbox ts) off v
  · have hnone : windowOffset (s.setInbox ts).params addr = none := windowOffset_out s.params hout
    obtain h | h := hi <;>
    · rw [step_access hl h]
      simp only [hostAccess, hnone]
      rfl

/-! ### The registers read back (10_state.md R36) -/

/-- How many bits of a write a RW-idle register takes. -/
def Csr.width : Csr → Nat
  | .startPc => 16
  | .lcnt => 16
  | .rootBase => 16
  | .irootBase => 16
  | .flags => 5
  | .rootMaxlog => 7
  | _ => 64

/-- The registers of the map that a write may reach: limbs are numbered 0 to 3. -/
def Csr.limbOk : Csr → Bool
  | .ctxQ _ j => j < 4
  | .ctxR2 _ j => j < 4
  | .beta j => j < 4
  | .b1 j => j < 4
  | .b2c0 j => j < 4
  | .b2c1 j => j < 4
  | _ => true

theorem csrMap_facts : ∀ p ∈ csrMap, p.2.limbOk = true ∧
    (p.2.readOnly = false → p.2 ≠ .ctrl → writtenBits p.1 = p.2.width) ∧
    (p.2 = .betaClass → p.1 = 0x078) := by decide

/-- No register stands at two offsets. -/
theorem csrMap_injective : ∀ p ∈ csrMap, ∀ q ∈ csrMap, p.2 = q.2 → p.1 = q.1 := by decide +kernel

theorem Flags.word_ofWord (v : Limb) : (Flags.ofWord v).word.toNat = v.toNat % 2 ^ 5 := by
  have hcut : (Flags.ofWord v).word = (v.setWidth 5).setWidth 64 := by
    apply BitVec.eq_of_getLsbD_eq
    intro k hk
    simp only [Flags.word, Flags.ofWord, BitVec.getLsbD_setWidth, BitVec.getLsbD_append, BitVec.getLsbD_ofBool]
    obtain hlt | hge := Nat.lt_or_ge k 5
    · interval_cases k <;> simp
    · simp [show ¬ k < 5 by omega, show k ≠ 0 by omega, show k - 1 ≠ 0 by omega,
        show k - 1 - 1 ≠ 0 by omega, show k - 1 - 1 - 1 ≠ 0 by omega, show k - 1 - 1 - 1 - 1 ≠ 0 by omega]
  rw [hcut, BitVec.toNat_setWidth_of_le (by norm_num), BitVec.toNat_setWidth]

/-- The registers of a context after those of one were replaced. -/
theorem State.ctx_setCtx (s : State) (c c' : FieldCtx) (k : Ctx) :
    (s.setCfg (s.cfg.setCtx c k)).ctx c' = if c' = c then k else s.ctx c' := by
  cases c <;> cases c' <;> rfl

theorem limbOk_lt {j : Nat} (h : decide (j < 4) = true) : j < 4 := of_decide_eq_true h

/-- A narrow register that took a word, as the host reads it. -/
theorem setWidth_setWidth_toNat {w : Nat} (hw : w ≤ 64) (v : Limb) :
    ((v.setWidth w).setWidth 64).toNat = v.toNat % 2 ^ w := by
  rw [BitVec.toNat_setWidth_of_le hw, BitVec.toNat_setWidth]

/-- A written register reads as what was written, cut to its width. -/
theorem csrRead_csrStore_same (s : State) (v : Limb) {r : Csr} (hro : r.readOnly = false) (hc : r ≠ .ctrl)
    (hj : r.limbOk = true) : (csrRead (csrStore s v r) r).toNat = v.toNat % 2 ^ r.width := by
  have hv : v.toNat % 2 ^ 64 = v.toNat := Nat.mod_eq_of_lt v.isLt
  have hlimb : ∀ (w : Word256) (j : Nat), j < 4 → getLimb (setLimb w j v) j = v := by
    intro w j hj
    rw [getLimb_setLimb w j j v hj, if_pos rfl]
  cases r with
  | id | params | status | cpc | faultCause | faultPc | faultCmd | faultInfo | betaClass => cases hro
  | ctrl => exact absurd rfl hc
  | startPc | lcnt | rootBase | irootBase | rootMaxlog => exact setWidth_setWidth_toNat (by norm_num) v
  | flags => exact Flags.word_ofWord v
  | ctxNp c =>
    simp only [csrStore, csrRead, State.ctx_setCtx, if_true]
    exact hv.symm
  | ctxQ c j | ctxR2 c j =>
    simp only [csrStore, csrRead, State.ctx_setCtx, if_true, hlimb _ j (limbOk_lt hj)]
    exact hv.symm
  | beta j | b1 j | b2c0 j | b2c1 j =>
    simp only [csrStore, csrRead, State.setCfg_cfg, hlimb _ j (limbOk_lt hj)]
    exact hv.symm

/-- A write of one register leaves the reading of every other, but that of BETA_CLASS. -/
theorem csrRead_csrStore_ne (s : State) (v : Limb) {r r' : Csr} (hne : r' ≠ r) (hj : r'.limbOk = true)
    (hb : r' ≠ .betaClass) : csrRead (csrStore s v r) r' = csrRead s r' := by
  have hlimb : ∀ (w : Word256) (j j' : Nat), decide (j' < 4) = true → j' ≠ j →
      getLimb (setLimb w j v) j' = getLimb w j' := by
    intro w j j' hj' hjj
    rw [getLimb_setLimb w j j' v (limbOk_lt hj'), if_neg hjj]
  cases r with
  | id | params | status | cpc | faultCause | faultPc | faultCmd | faultInfo | betaClass | ctrl => rfl
  | startPc | lcnt | rootBase | irootBase | rootMaxlog | flags => cases r' <;> trivial
  | ctxNp c =>
    cases r' with
    | betaClass => exact absurd rfl hb
    | ctxNp c' => simp only [csrRead, csrStore, State.ctx_setCtx, if_neg (fun h => hne (congrArg Csr.ctxNp h))]
    | ctxQ c' j' | ctxR2 c' j' =>
      simp only [csrRead, csrStore, State.ctx_setCtx]
      split
      next h => rw [h]
      next => rfl
    | _ => cases c <;> rfl
  | ctxQ c j =>
    cases r' with
    | betaClass => exact absurd rfl hb
    | ctxQ c' j' =>
      simp only [csrRead, csrStore, State.ctx_setCtx]
      split
      next h => rw [h, hlimb _ j j' hj (fun hjj => hne (by rw [h, hjj]))]
      next => rfl
    | ctxNp c' | ctxR2 c' j' =>
      simp only [csrRead, csrStore, State.ctx_setCtx]
      split
      next h => rw [h]
      next => rfl
    | _ => cases c <;> rfl
  | ctxR2 c j =>
    cases r' with
    | betaClass => exact absurd rfl hb
    | ctxR2 c' j' =>
      simp only [csrRead, csrStore, State.ctx_setCtx]
      split
      next h => rw [h, hlimb _ j j' hj (fun hjj => hne (by rw [h, hjj]))]
      next => rfl
    | ctxNp c' | ctxQ c' j' =>
      simp only [csrRead, csrStore, State.ctx_setCtx]
      split
      next h => rw [h]
      next => rfl
    | _ => cases c <;> rfl
  | beta j =>
    cases r' with
    | betaClass => exact absurd rfl hb
    | beta j' => exact hlimb _ j j' hj (fun h => hne (congrArg _ h))
    | _ => rfl
  | b1 j =>
    cases r' with
    | b1 j' => exact hlimb _ j j' hj (fun h => hne (congrArg _ h))
    | _ => rfl
  | b2c0 j =>
    cases r' with
    | b2c0 j' => exact hlimb _ j j' hj (fun h => hne (congrArg _ h))
    | _ => rfl
  | b2c1 j =>
    cases r' with
    | b2c1 j' => exact hlimb _ j j' hj (fun h => hne (congrArg _ h))
    | _ => rfl

/-- A write of a RW-idle register changes registers alone. -/
theorem csrStore_eq (s : State) (v : Limb) (r : Csr) : csrStore s v r = { s with
    startPc := (csrStore s v r).startPc
    flags := (csrStore s v r).flags
    lcnt := (csrStore s v r).lcnt
    cfg := (csrStore s v r).cfg } := by
  cases r <;> rfl

theorem csrWrite_readOnly {s : State} {v : Limb} {r : Csr} (h : r.readOnly = true) : csrWrite s v r = s := by
  have hc : r ≠ .ctrl := by
    rintro rfl
    cases h
  rw [csrWrite, if_neg hc, if_pos h]

theorem csrWrite_idle {s : State} {v : Limb} {r : Csr} (hb : s.status.busy = false) (hro : r.readOnly = false)
    (hc : r ≠ .ctrl) : csrWrite s v r = csrStore s v r := by
  rw [csrWrite, if_neg hc, if_neg (by simp [hro]), if_neg (by simp [hb])]

/-- Settles O59: the table is what the CSRs read, and a write reaches one register of it. -/
theorem registersReadBack : Obligations.RegistersReadBack := by
  intro s off v ts hl
  have hread : ∀ r, csrAt off = some r → s.inbox = .access (.read (s.params.blockBase + off) 8) :: ts →
      step s = .next { s with inbox := ts, reply := some (.data (csrRead s r)) } := by
    intro r hr hi
    obtain ⟨-, hlt, -⟩ := csrAt_listed hr
    rw [step_read hl (by omega) hi, hostRead_csr hr]
    cases r <;> rfl
  have hwrite : ∀ r, csrAt off = some r → s.inbox = .access (.write (s.params.blockBase + off) 8 v) :: ts →
      step s = .next ((csrWrite (s.setInbox ts) v r).setReply (some .done)) := by
    intro r hr hi
    obtain ⟨-, hlt, -⟩ := csrAt_listed hr
    rw [step_write hl (by omega) hi, hostWrite_csr hr]
  refine ⟨fun hi => ⟨fun value hv => ?_, fun r hr => hread r hr hi⟩, fun hi => ⟨fun hro => ?_, ?_⟩⟩
  · obtain ⟨r, hr, rfl⟩ := (mem_registerTable hl off value).1 hv
    rw [hread r hr hi, BitVec.ofNat_toNat, BitVec.setWidth_eq]
  · have hall : ∀ o ∈ readOnlyOffsets, (csrAt o).isSome = true := by decide
    obtain ⟨r, hr⟩ := Option.isSome_iff_exists.1 (hall off hro)
    rw [hwrite r hr hi, csrWrite_readOnly ((readOnly_iff hr).2 hro)]
    rfl
  · intro hb value hv hro hctrl
    obtain ⟨r, hr, -⟩ := (mem_registerTable hl off value).1 hv
    have hreadOnly : r.readOnly = false := by
      rw [← Bool.not_eq_true, readOnly_iff hr]
      exact hro
    have hc : r ≠ .ctrl := fun h => hctrl (csrAt_eq_ctrl (h ▸ hr))
    obtain ⟨hlimb, hwidth, -⟩ := csrMap_facts _ (csrAt_listed hr).1
    have hstep := hwrite r hr hi
    rw [csrWrite_idle (s := s.setInbox ts) hb hreadOnly hc] at hstep
    have hregs := csrStore_eq (s.setInbox ts) v r
    have hparams : (csrStore (s.setInbox ts) v r).params = s.params := by rw [hregs]; rfl
    have hport : ∀ r', csrRead ((csrStore (s.setInbox ts) v r).setReply (some .done)) r' =
        csrRead (csrStore (s.setInbox ts) v r) r' := fun r' => by cases r' <;> rfl
    refine ⟨_, hstep, ?_, ?_, ?_⟩
    · rw [hregs]
      rfl
    · refine (mem_registerTable (hparams ▸ hl) off _).2 ⟨r, hr, ?_⟩
      rw [hport, csrRead_csrStore_same _ v hreadOnly hc hlimb, hwidth hreadOnly hc]
    · rintro ⟨off', value'⟩ hp hne hclass
      obtain ⟨r', hr', rfl⟩ := (mem_registerTable hl off' value').1 hp
      obtain ⟨hlimb', -, hclass'⟩ := csrMap_facts _ (csrAt_listed hr').1
      refine (mem_registerTable (hparams ▸ hl) off' _).2 ⟨r', hr', ?_⟩
      have hrr : r' ≠ r := fun h =>
        hne (csrMap_injective _ (csrAt_listed hr').1 _ (csrAt_listed hr).1 h)
      rw [hport, csrRead_csrStore_ne _ v hrr hlimb' (fun h => hclass (hclass' h))]
      cases r' <;> rfl

end Sys2Proof.Machine
end

section
/-! Data movement and the limb vector (40_sequencer.md R169, R170; 41_limb.md R200-R211): one lemma for the
two-source commands, one for the one-source commands, then the arithmetic of each. -/

namespace Sys2Proof.Machine

set_option Elab.async false

/-! ### Data movement -/

/-- Settles O15: all source slots are read into a list before the first is written. -/
theorem dataMovement : Obligations.DataMovement := by
  refine fun s => ⟨fun rd ra m7 hra hrd => ?_, fun rd imm hrd => ?_⟩
  · refine ⟨_, command_runs (exec_mov rd ra m7 s) (by simp [hra, hrd]), ?_, fun j hj => ?_⟩
    · exact (Footprint.setSlots s _ (le_refl _) (by rw [State.slots_length]) (.head _)).wrote
    · have hlen : j < (s.slots ra.toNat (m7.toNat + 1)).length := by
        rw [State.slots_length]
        omega
      rw [State.x_advance, State.x, State.slot_setSlots_in s _ j _ hlen,
        State.slots_get s _ _ j (by omega), State.slot_toNat]
  · refine ⟨_, command_runs (exec_limm rd imm s) (by simp [hrd]), ?_, ?_⟩
    · exact (Footprint.setSlot s _ (le_refl _) (Nat.lt_succ_self _) (.head _)).wrote
    · rw [State.x_advance, State.x, State.slot_setSlot_same, BitVec.toNat_setWidth_of_le (by norm_num)]

/-! ### The limb commands -/

/-- A two-source limb command in range: its result, its flags, its frame. -/
theorem limb2_result {i : Instr} {s : State} {rd ra rb : SlotIx} {f : Word256 → Word256 → Word256}
    {g : Flags → Word256 → Word256 → Flags} (he : exec i s = limb2 i rd ra rb f g s)
    (hra : s.inRange ra.toNat 1 = true) (hrb : s.inRange rb.toNat 1 = true)
    (hrd : s.inRange rd.toNat 1 = true) :
    ∃ t, exec i s = .next t ∧ t.x rd.toNat = (f (s.slot ra.toNat) (s.slot rb.toNat)).toNat ∧
      s.WroteFlags t [(rd.toNat, 1)] (g s.flags (s.slot ra.toNat) (s.slot rb.toNat)) := by
  refine ⟨_, command_runs (he.trans (limb2_eq i rd ra rb f g s)) (by simp [hra, hrb, hrd]), ?_, ?_⟩
  · rw [State.x_advance, State.x_setFlags, State.x, State.slot_setSlot_same]
  · exact (Footprint.setSlot s _ (le_refl _) (Nat.lt_succ_self _) (.head _)).wroteFlags

theorem limb1_result {i : Instr} {s : State} {rd ra : SlotIx} {f : Word256 → Word256}
    (he : exec i s = limb1 i rd ra f s) (hra : s.inRange ra.toNat 1 = true)
    (hrd : s.inRange rd.toNat 1 = true) :
    ∃ t, exec i s = .next t ∧ t.x rd.toNat = (f (s.slot ra.toNat)).toNat ∧
      s.WroteFlags t [(rd.toNat, 1)] { s.flags with z := decide (t.x rd.toNat = 0) } := by
  have hzero : decide (f (s.slot ra.toNat) = 0) = decide ((f (s.slot ra.toNat)).toNat = 0) :=
    decide_eq_decide.2 BitVec.toNat_inj.symm
  refine ⟨_, command_runs (he.trans (limb1_eq i rd ra f s)) (by simp [hra, hrd]), ?_, ?_⟩
  · rw [State.x_advance, State.x_setFlags, State.x, State.slot_setSlot_same]
  · rw [State.x_advance, State.x_setFlags, State.x, State.slot_setSlot_same, ← hzero]
    exact (Footprint.setSlot s _ (le_refl _) (Nat.lt_succ_self _) (.head _)).wroteFlags

/-- The zero test of a word on its number. -/
theorem decide_word_zero (v : Word256) : decide (v = 0) = decide (v.toNat = 0) :=
  decide_eq_decide.2 BitVec.toNat_inj.symm

/-- Settles O16: the words' sum and difference are those modulo 2^256. -/
theorem limbAddSubtract : Obligations.LimbAddSubtract := by
  intro s rd ra rb hra hrb hrd
  constructor
  · obtain ⟨t, he, hx, hw⟩ := limb2_result (exec_ladd rd ra rb s) hra hrb hrd
    rw [Flags.ofAdd, decide_word_zero, ← hx] at hw
    exact ⟨t, he, hx.trans (BitVec.toNat_add ..), hw⟩
  · obtain ⟨t, he, hx, hw⟩ := limb2_result (exec_lsub rd ra rb s) hra hrb hrd
    rw [Flags.ofSub, decide_word_zero, ← hx] at hw
    rw [BitVec.toNat_sub, Nat.add_comm, State.slot_toNat, State.slot_toNat] at hx
    exact ⟨t, he, hx, hw⟩

/-- New flags and the next pc, as one record. -/
theorem State.setFlags_advance (s : State) (f : Flags) :
    (s.setFlags f).advance = { s with cpc := s.cpc + 1, flags := f } := rfl

/-- Settles O17: the comparison of the words is that of their numbers. -/
theorem limbCompareAndTest : Obligations.LimbCompareAndTest := by
  intro s ra rb hra
  have heq : ∀ a b : Word256, decide (a = b) = decide (a.toNat = b.toNat) := fun a b =>
    decide_eq_decide.2 BitVec.toNat_inj.symm
  refine ⟨fun hrb => ?_, ?_⟩
  · rw [command_runs (exec_lcmp ra rb s) (by simp [hra, hrb]), Flags.ofCmp, heq, State.slot_toNat,
      State.slot_toNat, State.setFlags_advance]
  · rw [command_runs (exec_lisz ra s) (by simp [hra]), Flags.setZ, decide_word_zero, State.slot_toNat,
      State.setFlags_advance]

/-- Settles O18: shifting a word multiplies or divides its number by a power of two. -/
theorem limbShifts : Obligations.LimbShifts := by
  intro s rd ra amt hra hrd
  constructor
  · obtain ⟨t, he, hx, hw⟩ := limb1_result (exec_lshl rd ra amt s) hra hrd
    refine ⟨t, he, hx.trans ?_, hw⟩
    rw [BitVec.toNat_shiftLeft, Nat.shiftLeft_eq]
    rfl
  · obtain ⟨t, he, hx, hw⟩ := limb1_result (exec_lshr rd ra amt s) hra hrd
    refine ⟨t, he, hx.trans ?_, hw⟩
    rw [BitVec.toNat_ushiftRight, Nat.shiftRight_eq_div_pow]
    rfl

/-- A bitwise limb command, bit by bit. -/
theorem bitwise_result {i : Instr} {s : State} {rd ra rb : SlotIx} {f : Word256 → Word256 → Word256}
    {b : Bool → Bool → Bool} (he : exec i s = limb2 i rd ra rb f (zeroFlag f) s)
    (hf : ∀ (v w : Word256) (j : Nat), (f v w).toNat.testBit j = b (v.toNat.testBit j) (w.toNat.testBit j))
    (hra : s.inRange ra.toNat 1 = true) (hrb : s.inRange rb.toNat 1 = true)
    (hrd : s.inRange rd.toNat 1 = true) :
    ∃ t, exec i s = .next t ∧
      (∀ j, j < 256 → (t.x rd.toNat).testBit j = b ((s.x ra.toNat).testBit j) ((s.x rb.toNat).testBit j)) ∧
      s.WroteFlags t [(rd.toNat, 1)] { s.flags with z := decide (t.x rd.toNat = 0) } := by
  obtain ⟨t, hexec, hx, hw⟩ := limb2_result he hra hrb hrd
  rw [zeroFlag, Flags.setZ, decide_word_zero, ← hx] at hw
  exact ⟨t, hexec, fun j _ => by rw [hx]; exact hf _ _ j, hw⟩

/-- Settles O19: the words' bitwise operations are those of their numbers. -/
theorem limbBitwise : Obligations.LimbBitwise := by
  intro s rd ra rb hra hrd
  refine ⟨fun i f hmem hrb => ?_, ?_⟩
  · simp only [List.mem_cons, List.not_mem_nil, or_false, Prod.mk.injEq] at hmem
    obtain ⟨rfl, rfl⟩ | ⟨rfl, rfl⟩ | ⟨rfl, rfl⟩ := hmem
    · exact bitwise_result (exec_land rd ra rb s)
        (fun v w j => by rw [BitVec.toNat_and, Nat.testBit_and]) hra hrb hrd
    · exact bitwise_result (exec_lor rd ra rb s)
        (fun v w j => by rw [BitVec.toNat_or, Nat.testBit_or]) hra hrb hrd
    · exact bitwise_result (exec_lxor rd ra rb s)
        (fun v w j => by rw [BitVec.toNat_xor, Nat.testBit_xor]) hra hrb hrd
  · obtain ⟨t, he, hx, hw⟩ := limb1_result (exec_lnot rd ra s) hra hrd
    exact ⟨t, he, hx.trans BitVec.toNat_not, hw⟩

end Sys2Proof.Machine
end

section
/-! The field commands (42_montgomery.md R248-R254; 43_field_facade.md R280-R289): residues in ZMod q, then each
command as one stored value. -/

namespace Sys2Proof.Machine

set_option Elab.async false

/-! ### The primitives as residues -/

theorem State.q_eq (s : State) (c : FieldCtx) : s.q c = (s.ctx c).q.toNat := rfl

theorem State.Canonical.slot {s : State} {c : FieldCtx} {b w : Nat} (h : s.Canonical c b w) {j : Nat}
    (hj : j < w) : s.x (b + j) < s.q c := by
  unfold State.Canonical at h
  exact h (b + j) (Nat.le_add_right b j) (Nat.add_lt_add_left hj b)

theorem State.Canonical.one {s : State} {c : FieldCtx} {b : Nat} (h : s.Canonical c b 1) :
    s.x b < s.q c := by
  have h0 := h.slot Nat.one_pos
  rwa [Nat.add_zero] at h0

theorem subq_eq_mod {q a b : Nat} (ha : a < q) (hb : b < q) : subq q a b = (a + q - b) % q := by
  rw [subq]
  split
  · rw [Nat.mod_eq_of_lt (by omega)]
  · rw [show a + q - b = a - b + q by omega, Nat.add_mod_right, Nat.mod_eq_of_lt (by omega)]

theorem negq_eq_mod {q a : Nat} (ha : a < q) : negq q a = (q - a) % q := by
  rw [negq_eq_subq, subq_eq_mod (Nat.zero_lt_of_lt ha) ha, Nat.zero_add]

theorem cast_addq (q a b : Nat) : ((addq q a b : Nat) : ZMod q) = a + b := by
  rw [addq]
  split
  · next h => rw [Nat.cast_sub h, Nat.cast_add, ZMod.natCast_self, sub_zero]
  · rw [Nat.cast_add]

theorem cast_subq {q a b : Nat} (hb : b < q) : ((subq q a b : Nat) : ZMod q) = a - b := by
  rw [subq]
  split
  · rw [Nat.cast_sub (by omega), Nat.cast_add, ZMod.natCast_self, add_zero]
  · next h => rw [Nat.cast_sub (Nat.le_of_not_lt h)]

theorem cast_negq {q a : Nat} (ha : a < q) : ((negq q a : Nat) : ZMod q) = -a := by
  rw [negq_eq_subq, cast_subq ha, Nat.cast_zero, zero_sub]

theorem cast_mont (k : Ctx) (hv : k.valid = true) {a : Nat} (b : Nat) (ha : a < k.q.toNat) :
    ((mont k a b : Nat) : ZMod k.q.toNat) * 2 ^ 256 = a * b := by
  have h := (ZMod.natCast_eq_natCast_iff _ _ _).2 (mont_modEq k hv b ha)
  rw [Nat.cast_mul, Nat.cast_mul, Nat.cast_pow, Nat.cast_ofNat] at h
  exact h

/-- R = 2^256 is a unit modulo q. -/
theorem Ctx.isUnit_r (k : Ctx) (hv : k.valid = true) : IsUnit ((2 : ZMod k.q.toNat) ^ 256) := by
  have h := (ZMod.isUnit_iff_coprime (2 ^ 256) k.q.toNat).2 (k.coprime hv)
  rwa [Nat.cast_pow, Nat.cast_ofNat] at h

/-- Values below q are told apart in ZMod q. -/
theorem cast_inj {q a b : Nat} (ha : a < q) (hb : b < q) : (a : ZMod q) = b ↔ a = b := by
  rw [ZMod.natCast_eq_natCast_iff', Nat.mod_eq_of_lt ha, Nat.mod_eq_of_lt hb]

/-! ### Commands that store one field element -/

/-- Such a command, its checks passed, leaves its value. -/
theorem storeElement_runs {i : Instr} {cs : List Check} {rd : SlotIx} {v : State → Nat} {s : State}
    (c : FieldCtx) (he : exec i s = command i cs (storeElement rd v) s) (hc : firstTrap cs s = none)
    (hv : v s < s.q c) : ∃ t, exec i s = .next t ∧ s.Wrote t [(rd.toNat, 1)] ∧ t.x rd.toNat = v s := by
  obtain ⟨hw, hx⟩ := storeElement_result (rd := rd) (v := v) (s := s) (hv.trans (s.q_lt c))
  exact ⟨_, command_runs he hc, hw, hx⟩

theorem fieldChecks1_pass {s : State} {c : FieldCtx} {rd ra : SlotIx} (hv : (s.ctx c).valid = true)
    (hra : s.inRange ra.toNat 1 = true) (hrd : s.inRange rd.toNat 1 = true)
    (ha : s.Canonical c ra.toNat 1) : firstTrap (fieldChecks1 c rd ra) s = none := by
  simp [fieldChecks1, hv, hra, hrd, ha]

theorem fieldChecks2_pass {s : State} {c : FieldCtx} {rd ra rb : SlotIx} (hv : (s.ctx c).valid = true)
    (hra : s.inRange ra.toNat 1 = true) (hrb : s.inRange rb.toNat 1 = true)
    (hrd : s.inRange rd.toNat 1 = true) (ha : s.Canonical c ra.toNat 1) (hb : s.Canonical c rb.toNat 1) :
    firstTrap (fieldChecks2 c rd ra rb) s = none := by
  simp [fieldChecks2, hv, hra, hrb, hrd, ha, hb]

/-- A command that stores a Montgomery product of `a x` with a residue `b`. -/
theorem storeMont_runs {i : Instr} {cs : List Check} {rd : SlotIx} {s : State} {c : FieldCtx} (a : Nat)
    (b : State → Nat) (he : exec i s = command i cs (storeElement rd fun s => mont (s.ctx c) (s.x a) (b s)) s)
    (hc : firstTrap cs s = none) (hv : (s.ctx c).valid = true) (ha : s.x a < s.q c) (hb : b s < s.q c) :
    ∃ t, exec i s = .next t ∧ s.Wrote t [(rd.toNat, 1)] ∧ t.x rd.toNat < s.q c ∧
      t.x rd.toNat * 2 ^ 256 % s.q c = s.x a * b s % s.q c := by
  obtain ⟨t, hexec, hw, hx⟩ := storeElement_runs c he hc (mont_lt _ hv _ hb)
  exact ⟨t, hexec, hw, hx ▸ mont_lt _ hv _ hb, by rw [hx]; exact mont_modEq _ hv _ ha⟩

/-- Settles O22: each command is one Montgomery product, of RA with RB, RA, a word, R² or 1. -/
theorem fieldMultiplies : Obligations.FieldMultiplies := by
  intro s c rd ra rb hv hra hrd hca
  have ha := hca.one
  have hpass := fieldChecks1_pass hv hra hrd hca
  refine ⟨fun hrb hcb => ?_, ?_, fun hrb => ?_, ?_, ?_⟩
  · exact storeMont_runs _ (fun s => s.x rb.toNat) (exec_fmul c rd ra rb s)
      (fieldChecks2_pass hv hra hrb hrd hca hcb) hv ha
      hcb.one
  · exact storeMont_runs _ (fun s => s.x ra.toNat) (exec_fsqr c rd ra s) hpass hv ha ha
  · have hword : limb (s.x rb.toNat) 0 = s.x rb.toNat % 2 ^ 64 := by
      rw [limb, Nat.mul_zero, pow_zero, Nat.div_one]
    obtain ⟨t, hexec, hw, hlt, hx⟩ := storeMont_runs _
      (fun s => limb (s.x rb.toNat) 0 % s.q c) (exec_fmulw c rd ra rb s)
      (by simp [hv, hra, hrb, hrd, hca]) hv ha (Nat.mod_lt _ (Nat.zero_lt_of_lt ha))
    exact ⟨t, hexec, hw, hlt, by rw [hx, Nat.mul_mod_mod, hword]⟩
  · obtain ⟨t, hexec, hw, hx⟩ := storeElement_runs c (exec_ftom c rd ra s) hpass
      (mont_lt _ hv _ (Ctx.r2_lt _ hv))
    exact ⟨t, hexec, hw, hx.trans (mont_r2 _ hv ha)⟩
  · obtain ⟨t, hexec, hw, hx⟩ := storeElement_runs c (exec_ffromm c rd ra s) hpass
      (mont_lt _ hv _ (Ctx.one_lt _ hv))
    exact ⟨t, hexec, hw, hx ▸ mont_lt _ hv _ (Ctx.one_lt _ hv), by rw [hx]; exact mont_one_mul_r _ hv ha⟩

/-- Settles O23: the stored value is an additive primitive, which is the residue. -/
theorem fieldAddsSubtractsNegates : Obligations.FieldAddsSubtractsNegates := by
  intro s c rd ra rb hv hra hrd hca
  have ha := hca.one
  refine ⟨fun hrb hcb => ?_, ?_⟩
  · have hb := hcb.one
    have hpass := fieldChecks2_pass hv hra hrb hrd hca hcb
    obtain ⟨t, ht, hw, hx⟩ := storeElement_runs c (exec_fadd c rd ra rb s) hpass (addq_lt ha hb)
    obtain ⟨u, hu, hw', hx'⟩ := storeElement_runs c (exec_fsub c rd ra rb s) hpass (subq_lt ha hb)
    exact ⟨⟨t, ht, hw, hx.trans (addq_eq_mod ha hb)⟩, ⟨u, hu, hw', hx'.trans (subq_eq_mod ha hb)⟩⟩
  · obtain ⟨t, ht, hw, hx⟩ := storeElement_runs c (exec_fneg c rd ra s) (fieldChecks1_pass hv hra hrd hca)
      (negq_lt ha)
    exact ⟨t, ht, hw, hx.trans (negq_eq_mod ha)⟩

/-! ### Records (43_field_facade.md R285-R289) -/

theorem bits_63_32 (v : Nat) : bits v 63 32 = v / 2 ^ 32 % 2 ^ 32 := rfl

theorem recordTag_short {v : Nat} (h : v / 2 ^ 32 % 2 ^ 32 = 0) : recordTag v = some .short := by
  rw [recordTag, bits_63_32, if_pos h]

theorem recordTag_longNormal {v : Nat} (h : v / 2 ^ 32 % 2 ^ 32 = 0x80000000) :
    recordTag v = some .longNormal := by
  rw [recordTag, bits_63_32, h]
  rfl

theorem recordTag_longMont {v : Nat} (h : v / 2 ^ 32 % 2 ^ 32 = 0xC0000000) :
    recordTag v = some .longMont := by
  rw [recordTag, bits_63_32, h]
  rfl

theorem recordTag_illegal {v : Nat} (h : v / 2 ^ 32 % 2 ^ 32 ∉ [0, 0x80000000, 0xC0000000]) :
    recordTag v = none := by
  simp only [List.mem_cons, List.not_mem_nil, or_false, not_or] at h
  rw [recordTag, bits_63_32, if_neg h.1, if_neg h.2.1, if_neg h.2.2]

/-- A short record does not read its value slot. -/
theorem checkRecordValue_short {s : State} {c : FieldCtx} {hdr : Nat} (h : recordTag (s.x hdr) = some .short) :
    checkRecordValue c hdr s = none := by
  rw [checkRecordValue, h]

theorem checkRecordValue_long {s : State} {c : FieldCtx} {hdr : Nat} (h : s.Canonical c (hdr + 1) 1) :
    checkRecordValue c hdr s = none := by
  rw [checkRecordValue]
  split
  exacts [checkCanon_passes h, checkCanon_passes h, rfl]

/-- The residue of a short value, as an integer. -/
theorem shortResidue_eq {q : Nat} (hq : 0 < q) (h : Nat) :
    (shortResidue q h : Int) = shortValue h % (q : Int) ∧ shortResidue q h < q := by
  have hpos : 0 < (q : Int) := by exact_mod_cast hq
  have hnonneg := Int.emod_nonneg (shortValue h) hpos.ne'
  have hlt := Int.emod_lt_of_pos (shortValue h) hpos
  rw [shortResidue]
  omega

/-- The record checks of NORM and FEISZ pass on a legal record, canonical where long. -/
theorem recordChecks_pass {s : State} {c : FieldCtx} {hdr : Nat} {tag : Tag}
    (ht : recordTag (s.x hdr) = some tag) (hval : checkRecordValue c hdr s = none) :
    firstTrap [checkTag hdr, checkRecordValue c hdr] s = none := by
  have htag : checkTag hdr s = none := by rw [checkTag, ht]
  rw [firstTrap_passes _ _ _ htag, firstTrap_passes _ _ _ hval, firstTrap_nil]

/-- A NORM whose record is legal, canonical where long, and in range stores the record's value. -/
theorem norm_runs {s : State} {c : FieldCtx} {rd hdr : SlotIx} (hv : (s.ctx c).valid = true)
    (hh : s.inRange hdr.toNat 2 = true) (hrd : s.inRange rd.toNat 1 = true) {tag : Tag}
    (ht : recordTag (s.x hdr.toNat) = some tag) (hval : checkRecordValue c hdr.toNat s = none) (m : NormForm)
    {v : Nat} (hn : normValue (s.ctx c) m (s.x hdr.toNat) (s.x (hdr.toNat + 1)) = v) (hlt : v < s.q c) :
    ∃ t, exec (.norm c rd hdr m) s = .next t ∧ s.Wrote t [(rd.toNat, 1)] ∧ t.x rd.toNat = v := by
  have hpass : firstTrap [checkCtx c, checkRange hdr.toNat 2, checkRange rd.toNat 1, checkTag hdr.toNat,
      checkRecordValue c hdr.toNat] s = none := by
    rw [firstTrap_passes _ _ _ (checkCtx_passes hv), firstTrap_passes _ _ _ (checkRange_passes hh),
      firstTrap_passes _ _ _ (checkRange_passes hrd), recordChecks_pass ht hval]
  obtain ⟨t, hexec, hw, hx⟩ := storeElement_runs c (exec_norm c rd hdr m s) hpass (by rw [hn]; exact hlt)
  exact ⟨t, hexec, hw, hx.trans hn⟩

/-- Settles O25: one value per tag and form. -/
theorem normResult : Obligations.NormResult := by
  intro s c rd hdr hv hh hrd tag low short htag hlow hshort
  have hq := Ctx.q_pos _ hv
  have hmod : ∀ x, x % s.q c < s.q c := fun x => Nat.mod_lt x hq
  refine ⟨fun h0 => ?_, fun h8 hcan => ?_, fun hC hcan => ?_⟩
  · have ht := recordTag_short (htag.symm.trans h0)
    have hshort' : shortValue (s.x hdr.toNat) = short := by rw [shortValue_eq, hshort, hlow]; norm_cast
    obtain ⟨hres, hlt⟩ := shortResidue_eq hq (s.x hdr.toNat)
    rw [hshort'] at hres
    have hval := checkRecordValue_short (c := c) ht
    refine ⟨_, hlt, hres, norm_runs hv hh hrd ht hval .normal (by simp only [normValue, ht]) hlt,
      norm_runs hv hh hrd ht hval .montgomery ?_ (hmod _)⟩
    simp only [normValue, ht]
    exact mont_r2 _ hv hlt
  · have ht := recordTag_longNormal (htag.symm.trans h8)
    have hval := checkRecordValue_long hcan
    have hlt := hcan.one
    refine ⟨norm_runs hv hh hrd ht hval .normal (by simp only [normValue, ht]) hlt,
      norm_runs hv hh hrd ht hval .montgomery ?_ (hmod _)⟩
    simp only [normValue, ht]
    exact mont_r2 _ hv hlt
  · have ht := recordTag_longMont (htag.symm.trans hC)
    have hval := checkRecordValue_long hcan
    have hlt := hcan.one
    have hres := mont_lt _ hv (s.x (hdr.toNat + 1)) (Ctx.one_lt _ hv)
    obtain ⟨t, hexec, hw, hx⟩ := norm_runs (v := mont (s.ctx c) (s.x (hdr.toNat + 1)) 1) hv hh hrd ht hval
      .normal (by simp only [normValue, ht]) hres
    refine ⟨⟨t, hexec, hw, hx ▸ hres, ?_⟩,
      norm_runs hv hh hrd ht hval .montgomery (by simp only [normValue, ht]) hlt⟩
    rw [hx]
    exact mont_one_mul_r _ hv hlt

/-- A FEISZ whose record is legal and canonical where long writes the zero test of the record's value. -/
theorem feisz_runs {s : State} {c : FieldCtx} {hdr : SlotIx} (hv : (s.ctx c).valid = true)
    (hh : s.inRange hdr.toNat 2 = true) {tag : Tag} (ht : recordTag (s.x hdr.toNat) = some tag)
    (hval : checkRecordValue c hdr.toNat s = none) {z : Bool}
    (hz : recordValue (s.ctx c) (s.x hdr.toNat) (s.x (hdr.toNat + 1)) = 0 ↔ z = true) :
    exec (.feisz c hdr) s = .next { s with
      cpc := s.cpc + 1
      flags := { s.flags with z := z } } := by
  have hdec : decide (recordValue (s.ctx c) (s.x hdr.toNat) (s.x (hdr.toNat + 1)) = 0) = z := by
    rw [Bool.eq_iff_iff, decide_eq_true_iff, hz]
  have hpass : firstTrap [checkCtx c, checkRange hdr.toNat 2, checkTag hdr.toNat,
      checkRecordValue c hdr.toNat] s = none := by
    rw [firstTrap_passes _ _ _ (checkCtx_passes hv), firstTrap_passes _ _ _ (checkRange_passes hh),
      recordChecks_pass ht hval]
  rw [command_runs (exec_feisz c hdr s) hpass, hdec, State.setFlags_advance, Flags.setZ]

/-- Settles O26: a residue is 0 iff q divides the short value; R is invertible, so a Montgomery form is 0 iff
its value is. -/
theorem feiszResult : Obligations.FeiszResult := by
  intro s c hdr hv hh tag low short htag hlow hshort
  have hq := Ctx.q_pos _ hv
  refine ⟨fun h0 => ?_, fun h8C hcan => ?_⟩
  · have ht := recordTag_short (htag.symm.trans h0)
    have hshort' : shortValue (s.x hdr.toNat) = short := by rw [shortValue_eq, hshort, hlow]; norm_cast
    obtain ⟨hres, -⟩ := shortResidue_eq hq (s.x hdr.toNat)
    refine feisz_runs hv hh ht (checkRecordValue_short ht) ?_
    simp only [recordValue, normValue, ht]
    rw [decide_eq_true_iff, Int.dvd_iff_emod_eq_zero, ← hshort']
    rw [State.q_eq, ← hres, Int.natCast_eq_zero]
  · have hlt := hcan.one
    have hval := checkRecordValue_long hcan
    obtain h8 | hC := h8C
    · have ht := recordTag_longNormal (htag.symm.trans h8)
      refine feisz_runs hv hh ht hval ?_
      simp only [recordValue, normValue, ht]
      rw [decide_eq_true_iff]
    · have ht := recordTag_longMont (htag.symm.trans hC)
      refine feisz_runs hv hh ht hval ?_
      simp only [recordValue, normValue, ht]
      rw [decide_eq_true_iff]
      constructor
      · intro h0
        rw [← mont_one_mul_r _ hv hlt, h0, Nat.zero_mul, Nat.zero_mod]
      · intro h0
        rw [h0]
        exact mont_zero_left _ hv (Ctx.one_lt _ hv)

/-- Settles O28: the tag check comes after the range checks alone, and names the header slot. -/
theorem illegalTagsFault : Obligations.IllegalTagsFault := by
  intro s c rd hdr m hv hh htag
  have hcheck : checkTag hdr.toNat s = some { cause := .badTag, info := hdr.setWidth 32 } := by
    rw [checkTag, recordTag_illegal htag, slotInfo_slotIx]
  refine ⟨fun hrd => ?_, ?_⟩
  · refine command_faults (t := { cause := .badTag, info := hdr.setWidth 32 }) (exec_norm c rd hdr m s) ?_
    rw [firstTrap_passes _ _ _ (checkCtx_passes hv), firstTrap_passes _ _ _ (checkRange_passes hh),
      firstTrap_passes _ _ _ (checkRange_passes hrd), firstTrap_fails _ _ _ hcheck]
  · refine command_faults (t := { cause := .badTag, info := hdr.setWidth 32 }) (exec_feisz c hdr s) ?_
    rw [firstTrap_passes _ _ _ (checkCtx_passes hv), firstTrap_passes _ _ _ (checkRange_passes hh),
      firstTrap_fails _ _ _ hcheck]

end Sys2Proof.Machine
end

section
/-! Normal form (42_montgomery.md R240; 45_curve.md R340): the residue a Montgomery form stands for, in which the
primitives of a coordinate field are those of a commutative ring. -/

namespace Sys2Proof.Machine

set_option Elab.async false

/-! ### The residue of a Montgomery form -/

/-- The residue whose Montgomery form is `v`. -/
def State.residue (s : State) (c : FieldCtx) (v : Nat) : ZMod (s.q c) := v * (2 ^ 256)⁻¹

section Residue

variable {s : State} {c : FieldCtx}

theorem State.isUnit_two (hv : (s.ctx c).valid = true) : IsUnit (2 : ZMod (s.q c)) :=
  (isUnit_pow_iff (by norm_num)).1 (Ctx.isUnit_r _ hv)

theorem State.isUnit_r (hv : (s.ctx c).valid = true) : IsUnit ((2 : ZMod (s.q c)) ^ 256) :=
  (State.isUnit_two hv).pow 256

theorem State.r_mul_inv (hv : (s.ctx c).valid = true) :
    (2 ^ 256 : ZMod (s.q c)) * (2 ^ 256)⁻¹ = 1 := ZMod.mul_inv_of_unit _ (State.isUnit_r hv)

theorem State.residue_mul_r (hv : (s.ctx c).valid = true) (v : Nat) : s.residue c v * 2 ^ 256 = v := by
  rw [State.residue, mul_assoc, mul_comm (2 ^ 256)⁻¹, State.r_mul_inv hv, mul_one]

@[simp] theorem State.residue_zero : s.residue c 0 = 0 := by
  rw [State.residue, Nat.cast_zero, zero_mul]

theorem State.residue_addq (a b : Nat) : s.residue c (addq (s.q c) a b) = s.residue c a + s.residue c b := by
  rw [State.residue, cast_addq, add_mul]
  rfl

theorem State.residue_subq (a : Nat) {b : Nat} (hb : b < s.q c) :
    s.residue c (subq (s.q c) a b) = s.residue c a - s.residue c b := by
  rw [State.residue, cast_subq hb, sub_mul]
  rfl

theorem State.residue_negq {a : Nat} (ha : a < s.q c) :
    s.residue c (negq (s.q c) a) = -s.residue c a := by
  rw [State.residue, cast_negq ha, neg_mul]
  rfl

theorem State.residue_mont (hv : (s.ctx c).valid = true) {a : Nat} (b : Nat) (ha : a < s.q c) :
    s.residue c (mont (s.ctx c) a b) = s.residue c a * s.residue c b := by
  have hr := State.r_mul_inv hv
  have hm : ((mont (s.ctx c) a b : Nat) : ZMod (s.q c)) * 2 ^ 256 = a * b := cast_mont _ hv b ha
  rw [State.residue, State.residue, State.residue]
  linear_combination (2 ^ 256)⁻¹ * (2 ^ 256)⁻¹ * hm - (mont (s.ctx c) a b : ZMod (s.q c)) * (2 ^ 256)⁻¹ * hr

theorem State.residue_inj (hv : (s.ctx c).valid = true) {a b : Nat} (ha : a < s.q c) (hb : b < s.q c)
    (h : s.residue c a = s.residue c b) : a = b := by
  rw [← cast_inj ha hb, ← State.residue_mul_r hv, h, State.residue_mul_r hv]

/-- `ONE_c` is R modulo q (42_montgomery.md R246). -/
theorem oneOf_eq (hv : (s.ctx c).valid = true) : oneOf (s.ctx c) = 2 ^ 256 % s.q c := by
  have h1 := Ctx.one_lt _ hv
  rw [oneOf, mont_comm _ hv (Ctx.r2_lt _ hv) h1, mont_r2 _ hv h1, Nat.one_mul]
  rfl

theorem oneOf_lt (hv : (s.ctx c).valid = true) : oneOf (s.ctx c) < s.q c :=
  mont_lt _ hv _ (Ctx.one_lt _ hv)

theorem oneOf_pos (hv : (s.ctx c).valid = true) : 0 < oneOf (s.ctx c) := by
  rw [oneOf_eq hv]
  exact Ctx.r_mod_pos _ hv

theorem State.residue_oneOf (hv : (s.ctx c).valid = true) : s.residue c (oneOf (s.ctx c)) = 1 := by
  rw [State.residue, oneOf_eq hv, ZMod.natCast_mod, Nat.cast_pow, Nat.cast_ofNat, State.r_mul_inv hv]

end Residue

/-! ### A coordinate field as a ring -/

/-- `f` reads the elements of `K` as elements of a ring, in normal form. -/
structure CoordField.Reads {α A : Type} [CommRing A] (K : CoordField α) (El : α → Prop) (f : α → A) :
    Prop where
  closed : K.Closed El
  zero : f K.zero = 0
  one : f K.one = 1
  zero_ne_one : K.zero ≠ K.one
  add : ∀ a b, El a → El b → f (K.add a b) = f a + f b
  sub : ∀ a b, El a → El b → f (K.sub a b) = f a - f b
  neg : ∀ a, El a → f (K.neg a) = -f a
  mul : ∀ a b, El a → El b → f (K.mul a b) = f a * f b
  inj : ∀ a b, El a → El b → f a = f b → a = b

/-- The elements of K in G1. -/
abbrev State.El1 (s : State) (v : Nat) : Prop := v < s.q .fq

/-- The elements of K in G2. -/
abbrev State.El2 (s : State) (v : Fq2) : Prop := v.Below (s.q .fq)

section Groups

variable {s : State}

theorem State.zero_lt_q (hv : (s.ctx .fq).valid = true) : 0 < s.q .fq := Ctx.q_pos _ hv

theorem g1Field_closed (hv : (s.ctx .fq).valid = true) : (g1Field s).Closed s.El1 where
  laid := g1Field_laid s
  zero := State.zero_lt_q hv
  one := oneOf_lt hv
  add _ _ ha hb := addq_lt ha hb
  sub _ _ ha hb := subq_lt ha hb
  mul _ _ _ hb := mont_lt _ hv _ hb
  neg _ ha := negq_lt ha
  slots _ h _ hy := (List.mem_singleton.1 hy) ▸ h.trans (s.q_lt _)
  read _ _ _ h := h 0 Nat.one_pos

theorem g1Field_reads (hv : (s.ctx .fq).valid = true) : (g1Field s).Reads s.El1 (s.residue .fq) where
  closed := g1Field_closed hv
  zero := State.residue_zero
  one := State.residue_oneOf hv
  zero_ne_one := (oneOf_pos hv).ne
  add a b _ _ := State.residue_addq a b
  sub a _ _ hb := State.residue_subq a hb
  neg _ ha := State.residue_negq ha
  mul _ b ha _ := State.residue_mont hv b ha
  inj _ _ := State.residue_inj hv

theorem mulBeta_lt (hv : (s.ctx .fq).valid = true) {v : Nat} (h : v < s.q .fq) :
    mulBeta (s.ctx .fq) s.cfg.beta.toNat v < s.q .fq := by
  rw [mulBeta]
  split
  exacts [State.zero_lt_q hv, h, negq_lt h, mont_lt _ hv _ h]

theorem mul2_below (hv : (s.ctx .fq).valid = true) {u v : Fq2} (hv2 : v.Below (s.q .fq)) :
    (mul2 (s.ctx .fq) s.cfg.beta.toNat u v).Below (s.q .fq) := by
  obtain ⟨h0, h1⟩ := hv2
  have haa := mont_lt _ hv u.c0 h0
  have hbb := mont_lt _ hv u.c1 h1
  have hcross := mont_lt _ hv (addq (s.q .fq) u.c0 u.c1) (addq_lt h0 h1)
  exact ⟨addq_lt haa (mulBeta_lt hv hbb), subq_lt (subq_lt hcross haa) hbb⟩

theorem g2Field_closed (hv : (s.ctx .fq).valid = true) : (g2Field s).Closed s.El2 where
  laid := g2Field_laid s
  zero := ⟨State.zero_lt_q hv, State.zero_lt_q hv⟩
  one := ⟨oneOf_lt hv, State.zero_lt_q hv⟩
  add _ _ ha hb := ⟨addq_lt ha.1 hb.1, addq_lt ha.2 hb.2⟩
  sub _ _ ha hb := ⟨subq_lt ha.1 hb.1, subq_lt ha.2 hb.2⟩
  mul _ _ _ hb := mul2_below hv hb
  neg _ ha := ⟨negq_lt ha.1, negq_lt ha.2⟩
  slots v h y hy := by
    have hy' : y = v.c0 ∨ y = v.c1 := by simpa [g2Field] using hy
    obtain rfl | rfl := hy'
    exacts [h.1.trans (s.q_lt _), h.2.trans (s.q_lt _)]
  read _ _ v h := by
    have h0 := h 0 Nat.two_pos
    have h1 := h 1 Nat.one_lt_two
    exact congrArg₂ Fq2.mk h0 h1

/-- The components of the product, as residues: the schoolbook product (44_fq2.md R310, R313). -/
theorem residue_mul2 (hv : (s.ctx .fq).valid = true) {u v : Fq2} (hu : u.Below (s.q .fq))
    (hv2 : v.Below (s.q .fq)) (hbeta : s.cfg.beta.toNat < s.q .fq) :
    s.residue .fq (mul2 (s.ctx .fq) s.cfg.beta.toNat u v).c0 =
        s.residue .fq u.c0 * s.residue .fq v.c0 +
          s.residue .fq s.cfg.beta.toNat * (s.residue .fq u.c1 * s.residue .fq v.c1) ∧
      s.residue .fq (mul2 (s.ctx .fq) s.cfg.beta.toNat u v).c1 =
        s.residue .fq u.c0 * s.residue .fq v.c1 + s.residue .fq u.c1 * s.residue .fq v.c0 := by
  obtain ⟨u0, u1⟩ := hu
  obtain ⟨v0, v1⟩ := hv2
  have haa := mont_lt _ hv u.c0 v0
  have hbb := mont_lt _ hv u.c1 v1
  constructor
  · change s.residue .fq (addq (s.q .fq) _ _) = _
    rw [State.residue_addq, mulBeta_eq_mont _ hv _ hbb, State.residue_mont hv _ u0,
      State.residue_mont hv _ hbeta, State.residue_mont hv _ u1]
  · change s.residue .fq (subq (s.q .fq) (subq (s.q .fq) (mont _ (addq (s.q .fq) _ _)
      (addq (s.q .fq) _ _)) _) _) = _
    rw [State.residue_subq _ hbb, State.residue_subq _ haa, State.residue_mont hv _ (addq_lt u0 u1),
      State.residue_mont hv _ u0, State.residue_mont hv _ u1, State.residue_addq, State.residue_addq]
    ring

/-- An element of Fq2 in normal form, in Fq[x]/(x² − b). -/
def State.residue2 (s : State) (b : ZMod (s.q .fq)) (v : Fq2) : QuadraticAlgebra (ZMod (s.q .fq)) b 0 :=
  ⟨s.residue .fq v.c0, s.residue .fq v.c1⟩

theorem g2Field_reads (hv : (s.ctx .fq).valid = true) (hbeta : s.cfg.beta.toNat < s.q .fq)
    {b : ZMod (s.q .fq)} (hb : b = s.residue .fq s.cfg.beta.toNat) :
    (g2Field s).Reads s.El2 (s.residue2 b) where
  closed := g2Field_closed hv
  zero := QuadraticAlgebra.ext State.residue_zero State.residue_zero
  one := QuadraticAlgebra.ext (State.residue_oneOf hv) State.residue_zero
  zero_ne_one h := (oneOf_pos hv).ne (congrArg Fq2.c0 h)
  add _ _ _ _ := QuadraticAlgebra.ext (State.residue_addq _ _) (State.residue_addq _ _)
  sub _ _ _ hb := QuadraticAlgebra.ext (State.residue_subq _ hb.1) (State.residue_subq _ hb.2)
  neg _ ha := QuadraticAlgebra.ext (State.residue_negq ha.1) (State.residue_negq ha.2)
  mul u v hu hv2 := by
    obtain ⟨h0, h1⟩ := residue_mul2 hv hu hv2 hbeta
    refine QuadraticAlgebra.ext (h0.trans ?_) (h1.trans ?_)
    · rw [QuadraticAlgebra.re_mul, hb, mul_assoc]
      rfl
    · rw [QuadraticAlgebra.im_mul, zero_mul, zero_mul, add_zero]
      rfl
  inj u v hu hv2 h := by
    have h0 := State.residue_inj hv hu.1 hv2.1 (congrArg QuadraticAlgebra.re h)
    have h1 := State.residue_inj hv hu.2 hv2.2 (congrArg QuadraticAlgebra.im h)
    cases u
    cases v
    exact congrArg₂ Fq2.mk h0 h1

end Groups

end Sys2Proof.Machine
end

section
/-! The group law as equations (45_curve.md R345-R348): in normal form the doubling and the addition meet the
formulas' equations, and these carry over to Montgomery form by powers of R. -/

namespace Sys2Proof.Machine

set_option Elab.async false

variable {α A : Type} [CommRing A]

/-- A point whose coordinates are read by `f`. -/
def Jac.map (f : α → A) (p : Jac α) : Jac A := { x := f p.x, y := f p.y, z := f p.z }

/-- An affine point whose coordinates are read by `f`. -/
def Aff.map (f : α → A) (p : Aff α) : Aff A := { x := f p.x, y := f p.y }

/-- `a` is an element of K that stands for `v`. -/
structure Stands (El : α → Prop) (f : α → A) (a : α) (v : A) : Prop where
  mem : El a
  eq : f a = v

/-! ### The operations of a coordinate field in normal form -/

section

variable {K : CoordField α} {El : α → Prop} {f : α → A} (o : K.Reads El f)

omit [CommRing A] in
theorem Stands.of_mem {a : α} (h : El a) : Stands El f a (f a) := ⟨h, rfl⟩

include o

theorem CoordField.Reads.eq_iff {a b : α} {v w : A} (ha : Stands El f a v) (hb : Stands El f b w) :
    a = b ↔ v = w := by
  rw [← ha.eq, ← hb.eq]
  exact ⟨congrArg f, o.inj a b ha.mem hb.mem⟩

theorem CoordField.Reads.stands_zero : Stands El f K.zero 0 := ⟨o.closed.zero, o.zero⟩

theorem CoordField.Reads.stands_one : Stands El f K.one 1 := ⟨o.closed.one, o.one⟩

theorem CoordField.Reads.eq_zero_iff {a : α} {v : A} (ha : Stands El f a v) : a = K.zero ↔ v = 0 :=
  o.eq_iff ha o.stands_zero

theorem CoordField.Reads.one_ne_zero : (1 : A) ≠ 0 := fun h =>
  o.zero_ne_one ((o.eq_iff o.stands_zero o.stands_one).2 h.symm)

variable {a b : α} {v w : A} (ha : Stands El f a v) (hb : Stands El f b w)
include ha

theorem CoordField.Reads.stands_neg : Stands El f (K.neg a) (-v) :=
  ⟨o.closed.neg a ha.mem, by rw [o.neg a ha.mem, ha.eq]⟩

theorem CoordField.Reads.stands_sq : Stands El f (ksq K a) (v ^ 2) :=
  ⟨o.closed.mul a a ha.mem ha.mem, by rw [ksq, o.mul a a ha.mem ha.mem, ha.eq, sq]⟩

theorem CoordField.Reads.stands_dbl : Stands El f (kdbl K a) (2 * v) :=
  ⟨o.closed.add a a ha.mem ha.mem, by rw [kdbl, o.add a a ha.mem ha.mem, ha.eq, two_mul]⟩

include hb

theorem CoordField.Reads.stands_add : Stands El f (K.add a b) (v + w) :=
  ⟨o.closed.add a b ha.mem hb.mem, by rw [o.add a b ha.mem hb.mem, ha.eq, hb.eq]⟩

theorem CoordField.Reads.stands_sub : Stands El f (K.sub a b) (v - w) :=
  ⟨o.closed.sub a b ha.mem hb.mem, by rw [o.sub a b ha.mem hb.mem, ha.eq, hb.eq]⟩

theorem CoordField.Reads.stands_mul : Stands El f (K.mul a b) (v * w) :=
  ⟨o.closed.mul a b ha.mem hb.mem, by rw [o.mul a b ha.mem hb.mem, ha.eq, hb.eq]⟩

omit hb

theorem CoordField.Reads.stands_tpl : Stands El f (ktpl K a) (3 * v) := by
  obtain ⟨hm, he⟩ := o.stands_add (o.stands_add ha ha) ha
  exact ⟨hm, he.trans (by ring)⟩

end

/-! ### Points -/

section

variable {K : CoordField α} {El : α → Prop} {f : α → A} (o : K.Reads El f)
include o

theorem infPoint_map : (infPoint K).map f = infAt 1 := by
  rw [Jac.map, infPoint, o.zero, o.one, infAt]

variable [DecidableEq α]

/-- `Canon` gives the infinity where Z is 0 and the point itself elsewhere. -/
theorem canonPoint_map {p : Jac α} {z : A} (hz : Stands El f p.z z) :
    (z = 0 → (canonPoint K p).map f = infAt 1) ∧ (z ≠ 0 → canonPoint K p = p) := by
  refine ⟨fun h => ?_, fun h => ?_⟩
  · rw [canonPoint, if_pos ((o.eq_zero_iff hz).2 h), infPoint_map o]
  · rw [canonPoint, if_neg (mt (o.eq_zero_iff hz).1 h)]

/-- The doubling meets the equations of dbl-2009-l (45_curve.md R345). -/
theorem jdbl_isDouble (h2 : IsUnit (2 : A)) {p : Jac α} (hp : p.All El) :
    IsDouble 1 (p.map f) ((jdbl K p).map f) := by
  obtain ⟨hx, hy, hz⟩ := hp
  have sx := Stands.of_mem (f := f) hx
  have sy := Stands.of_mem (f := f) hy
  have sz := Stands.of_mem (f := f) hz
  by_cases h0 : p.z = K.zero
  · have hz0 : f p.z = 0 := (o.eq_zero_iff sz).1 h0
    rw [jdbl, if_pos h0, infPoint_map o]
    refine ⟨fun _ => rfl, fun h => absurd ?_ h⟩
    rw [Jac.map, hz0, mul_zero]
  · rw [jdbl, if_neg h0]
    dsimp only
    have a := o.stands_sq sx
    have b := o.stands_sq sy
    have c := o.stands_sq b
    have d := o.stands_dbl (o.stands_sub (o.stands_sub (o.stands_sq (o.stands_add sx b)) a) c)
    have e := o.stands_tpl a
    have x3 := o.stands_sub (o.stands_sq e) (o.stands_dbl d)
    have y3 := o.stands_sub (o.stands_mul e (o.stands_sub d x3))
      (o.stands_dbl (o.stands_dbl (o.stands_dbl c)))
    have z3 := o.stands_dbl (o.stands_mul sy sz)
    refine ⟨fun h => (canonPoint_map o z3).1 ?_, fun h => ?_⟩
    · rw [show f p.y * f p.z = 0 from h, mul_zero]
    · rw [(canonPoint_map o z3).2 fun h' => h (h2.mul_right_eq_zero.1 h')]
      simp only [Jac.map, x3.eq, y3.eq, z3.eq]
      exact ⟨by ring, by ring, by ring⟩

/-- The addition meets the equations of add-2007-bl, with its cases (45_curve.md R346). -/
theorem jadd_isSum (h2 : IsUnit (2 : A)) {p1 p2 : Jac α} (hp1 : p1.All El) (hp2 : p2.All El) :
    IsSum 1 (p1.map f) (p2.map f) ((jadd K p1 p2).map f) := by
  have hdouble := jdbl_isDouble o h2 hp1
  obtain ⟨hx1, hy1, hz1⟩ := hp1
  obtain ⟨hx2, hy2, hz2⟩ := hp2
  have sx1 := Stands.of_mem (f := f) hx1
  have sy1 := Stands.of_mem (f := f) hy1
  have sz1 := Stands.of_mem (f := f) hz1
  have sx2 := Stands.of_mem (f := f) hx2
  have sy2 := Stands.of_mem (f := f) hy2
  have sz2 := Stands.of_mem (f := f) hz2
  have hz1z := o.eq_zero_iff sz1
  have hz2z := o.eq_zero_iff sz2
  by_cases h1 : p1.z = K.zero
  · rw [jadd, if_pos h1]
    refine ⟨fun _ h => (canonPoint_map o sz2).1 h, fun _ h => ?_, fun h => absurd (hz1z.1 h1) h,
      fun h => absurd (hz1z.1 h1) h⟩
    rw [(canonPoint_map o sz2).2 h]
  rw [jadd, if_neg h1]
  by_cases h2z : p2.z = K.zero
  · rw [if_pos h2z]
    exact ⟨fun h => absurd (hz1z.2 h) h1, fun h => absurd (hz1z.2 h) h1, fun _ _ => rfl,
      fun _ h => absurd (hz2z.1 h2z) h⟩
  rw [if_neg h2z]
  refine ⟨fun h => absurd (hz1z.2 h) h1, fun h => absurd (hz1z.2 h) h1, fun _ h => absurd (hz2z.2 h) h2z,
    fun _ _ => ?_⟩
  dsimp only [Jac.map]
  have z1z1 := o.stands_sq sz1
  have z2z2 := o.stands_sq sz2
  have u1 := o.stands_mul sx1 z2z2
  have u2 := o.stands_mul sx2 z1z1
  have s1 := o.stands_mul (o.stands_mul sy1 sz2) z2z2
  have s2 := o.stands_mul (o.stands_mul sy2 sz1) z1z1
  have hu : f p2.x * f p1.z ^ 2 - f p1.x * f p2.z ^ 2 = 0 ↔
      K.mul p1.x (ksq K p2.z) = K.mul p2.x (ksq K p1.z) := by
    rw [o.eq_iff u1 u2, sub_eq_zero, eq_comm]
  have hs : f p2.y * f p1.z ^ 3 - f p1.y * f p2.z ^ 3 = 0 ↔
      K.mul (K.mul p1.y p2.z) (ksq K p2.z) = K.mul (K.mul p2.y p1.z) (ksq K p1.z) := by
    rw [o.eq_iff s1 s2, sub_eq_zero, eq_comm, pow_succ' (f p1.z), pow_succ' (f p2.z), mul_assoc, mul_assoc]
  by_cases hu0 : K.mul p1.x (ksq K p2.z) = K.mul p2.x (ksq K p1.z)
  · rw [if_pos hu0]
    have hh := hu.2 hu0
    refine ⟨fun _ hk => ?_, fun _ hk => ?_, fun h => absurd hh h, fun h => absurd ?_ h⟩
    · rw [if_pos (hs.1 hk)]
      exact hdouble
    · rw [if_neg (mt hs.2 hk)]
      exact infPoint_map o
    · rw [hh, mul_zero]
  · rw [if_neg hu0]
    have h := o.stands_sub u2 u1
    have i := o.stands_sq (o.stands_dbl h)
    have j := o.stands_mul h i
    have r := o.stands_dbl (o.stands_sub s2 s1)
    have v := o.stands_mul u1 i
    have x3 := o.stands_sub (o.stands_sub (o.stands_sq r) j) (o.stands_dbl v)
    have y3 := o.stands_sub (o.stands_mul r (o.stands_sub v x3)) (o.stands_dbl (o.stands_mul s1 j))
    have z3 := o.stands_mul (o.stands_sub (o.stands_sub (o.stands_sq (o.stands_add sz1 sz2)) z1z1) z2z2) h
    have hz3 : ((f p1.z + f p2.z) ^ 2 - f p1.z ^ 2 - f p2.z ^ 2) *
        (f p2.x * f p1.z ^ 2 - f p1.x * f p2.z ^ 2) =
          2 * (f p1.z * f p2.z * (f p2.x * f p1.z ^ 2 - f p1.x * f p2.z ^ 2)) := by ring
    refine ⟨fun h => absurd (hu.1 h) hu0, fun h => absurd (hu.1 h) hu0,
      fun _ h0 => (canonPoint_map o z3).1 ?_, fun h0 => ?_⟩
    · rw [hz3, h0, mul_zero]
    · rw [(canonPoint_map o z3).2 fun h' => h0 (h2.mul_right_eq_zero.1 (hz3 ▸ h'))]
      simp only [x3.eq, y3.eq, z3.eq]
      exact ⟨by ring, by ring, by ring⟩

/-- The mixed addition is the addition of the affine point with Z = 1, or of infinity for the sentinel
(45_curve.md R347). -/
theorem jadda_isMixedSum (h2 : IsUnit (2 : A)) {p1 : Jac α} {a : Aff α} (hp1 : p1.All El) (ha : a.All El) :
    IsMixedSum 1 (p1.map f) (a.map f) ((jadda K p1 a).map f) := by
  have hdouble := jdbl_isDouble o h2 hp1
  obtain ⟨hx1, hy1, hz1⟩ := hp1
  obtain ⟨hx2, hy2⟩ := ha
  have sx1 := Stands.of_mem (f := f) hx1
  have sy1 := Stands.of_mem (f := f) hy1
  have sz1 := Stands.of_mem (f := f) hz1
  have sx2 := Stands.of_mem (f := f) hx2
  have sy2 := Stands.of_mem (f := f) hy2
  have hz1z := o.eq_zero_iff sz1
  have hsent : (a.x = K.zero ∧ a.y = K.zero) ↔ (f a.x = 0 ∧ f a.y = 0) :=
    and_congr (o.eq_zero_iff sx2) (o.eq_zero_iff sy2)
  by_cases hs0 : a.x = K.zero ∧ a.y = K.zero
  · rw [jadda, if_pos hs0]
    refine ⟨fun _ => ?_, fun h => absurd (hsent.1 hs0) h⟩
    refine ⟨fun h _ => (canonPoint_map o sz1).1 h, fun _ h => absurd rfl h, fun h _ => ?_,
      fun _ h => absurd rfl h⟩
    rw [(canonPoint_map o sz1).2 h]
  rw [jadda, if_neg hs0]
  refine ⟨fun h => absurd (hsent.2 h) hs0, fun _ => ?_⟩
  by_cases h1 : p1.z = K.zero
  · rw [if_pos h1]
    refine ⟨fun _ h => absurd h o.one_ne_zero, fun _ _ => ?_, fun h => absurd (hz1z.1 h1) h,
      fun h => absurd (hz1z.1 h1) h⟩
    rw [Jac.map, Aff.map, o.one]
  rw [if_neg h1]
  refine ⟨fun h => absurd (hz1z.2 h) h1, fun h => absurd (hz1z.2 h) h1, fun _ h => absurd h o.one_ne_zero,
    fun _ _ => ?_⟩
  dsimp only [Jac.map, Aff.map]
  simp only [one_pow, mul_one]
  have z1z1 := o.stands_sq sz1
  have u2 := o.stands_mul sx2 z1z1
  have s2 := o.stands_mul (o.stands_mul sy2 sz1) z1z1
  have hu : f a.x * f p1.z ^ 2 - f p1.x = 0 ↔ p1.x = K.mul a.x (ksq K p1.z) := by
    rw [o.eq_iff sx1 u2, sub_eq_zero, eq_comm]
  have hs : f a.y * f p1.z ^ 3 - f p1.y = 0 ↔ p1.y = K.mul (K.mul a.y p1.z) (ksq K p1.z) := by
    rw [o.eq_iff sy1 s2, sub_eq_zero, eq_comm, pow_succ' (f p1.z), mul_assoc]
  by_cases hu0 : p1.x = K.mul a.x (ksq K p1.z)
  · rw [if_pos hu0]
    have hh := hu.2 hu0
    refine ⟨fun _ hk => ?_, fun _ hk => ?_, fun h => absurd hh h, fun h => absurd ?_ h⟩
    · rw [if_pos (hs.1 hk)]
      exact hdouble
    · rw [if_neg (mt hs.2 hk)]
      exact infPoint_map o
    · rw [hh, mul_zero]
  · rw [if_neg hu0]
    have h := o.stands_sub u2 sx1
    have hh := o.stands_sq h
    have i := o.stands_dbl (o.stands_dbl hh)
    have j := o.stands_mul h i
    have r := o.stands_dbl (o.stands_sub s2 sy1)
    have v := o.stands_mul sx1 i
    have x3 := o.stands_sub (o.stands_sub (o.stands_sq r) j) (o.stands_dbl v)
    have y3 := o.stands_sub (o.stands_mul r (o.stands_sub v x3)) (o.stands_dbl (o.stands_mul sy1 j))
    have z3 := o.stands_sub (o.stands_sub (o.stands_sq (o.stands_add sz1 h)) z1z1) hh
    have hz3 : (f p1.z + (f a.x * f p1.z ^ 2 - f p1.x)) ^ 2 - f p1.z ^ 2 -
        (f a.x * f p1.z ^ 2 - f p1.x) ^ 2 = 2 * (f p1.z * (f a.x * f p1.z ^ 2 - f p1.x)) := by ring
    refine ⟨fun h => absurd (hu.1 h) hu0, fun h => absurd (hu.1 h) hu0,
      fun _ h0 => (canonPoint_map o z3).1 ?_, fun h0 => ?_⟩
    · rw [hz3, h0, mul_zero]
    · rw [(canonPoint_map o z3).2 fun h' => h0 (h2.mul_right_eq_zero.1 (hz3 ▸ h'))]
      simp only [x3.eq, y3.eq, z3.eq]
      exact ⟨by ring, by ring, by ring⟩

end

/-! ### From normal form to Montgomery form -/

/-- Every coordinate times `R`: the point in Montgomery form. -/
def Jac.scale (R : A) (p : Jac A) : Jac A := { x := p.x * R, y := p.y * R, z := p.z * R }

/-- Both coordinates times `R`. -/
def Aff.scale (R : A) (p : Aff A) : Aff A := { x := p.x * R, y := p.y * R }

section

variable {R : A} (hR : IsUnit R)

theorem infAt_scale : (infAt (1 : A)).scale R = infAt R := by
  rw [Jac.scale, infAt, infAt, one_mul, zero_mul]

include hR

theorem IsDouble.scale {p d : Jac A} (h : IsDouble 1 p d) : IsDouble R (p.scale R) (d.scale R) := by
  obtain ⟨hzero, hformula⟩ := h
  have hyz : p.y * R * (p.z * R) = 0 ↔ p.y * p.z = 0 := by
    rw [mul_mul_mul_comm, (hR.mul hR).mul_left_eq_zero]
  refine ⟨fun h => ?_, fun h => ?_⟩
  · rw [hzero (hyz.1 h), infAt_scale]
  · obtain ⟨hx, hy, hz⟩ := hformula fun h' => h (hyz.2 h')
    simp only [Jac.scale]
    refine ⟨?_, ?_, ?_⟩
    · linear_combination R ^ 4 * hx
    · linear_combination R ^ 5 * hy
    · linear_combination R ^ 2 * hz

theorem IsSum.scale {p1 p2 d : Jac A} (h : IsSum 1 p1 p2 d) :
    IsSum R (p1.scale R) (p2.scale R) (d.scale R) := by
  obtain ⟨hboth, hleft, hright, hgeneral⟩ := h
  have hz : ∀ v : A, v * R = 0 ↔ v = 0 := fun v => hR.mul_left_eq_zero
  have hz3 : ∀ v : A, v * R ^ 3 = 0 ↔ v = 0 := fun v => (hR.pow 3).mul_left_eq_zero
  have hz4 : ∀ v : A, v * R ^ 4 = 0 ↔ v = 0 := fun v => (hR.pow 4).mul_left_eq_zero
  have hz5 : ∀ v : A, v * R ^ 5 = 0 ↔ v = 0 := fun v => (hR.pow 5).mul_left_eq_zero
  have eh : p2.x * R * (p1.z * R) ^ 2 - p1.x * R * (p2.z * R) ^ 2 =
      (p2.x * p1.z ^ 2 - p1.x * p2.z ^ 2) * R ^ 3 := by ring
  have ek : p2.y * R * (p1.z * R) ^ 3 - p1.y * R * (p2.z * R) ^ 3 =
      (p2.y * p1.z ^ 3 - p1.y * p2.z ^ 3) * R ^ 4 := by ring
  have ezz : p1.z * R * (p2.z * R) * ((p2.x * p1.z ^ 2 - p1.x * p2.z ^ 2) * R ^ 3) =
      p1.z * p2.z * (p2.x * p1.z ^ 2 - p1.x * p2.z ^ 2) * R ^ 5 := by ring
  simp only [IsSum, Jac.scale, ne_eq, hz, eh, ek, hz3, hz4, ezz, hz5]
  refine ⟨fun h1 h2 => ?_, fun h1 h2 => ?_, fun h1 h2 => ?_, fun h1 h2 => ?_⟩
  · rw [hboth h1 h2]
    exact infAt_scale
  · rw [hleft h1 h2]
  · rw [hright h1 h2]
  obtain ⟨hdouble, hopposite, hcanon, hformula⟩ := hgeneral h1 h2
  refine ⟨fun h k => (hdouble h k).scale hR, fun h k => ?_, fun h k => ?_, fun h => ?_⟩
  · rw [hopposite h k]
    exact infAt_scale
  · rw [hcanon h k]
    exact infAt_scale
  · obtain ⟨hx, hy, hz⟩ := hformula h
    refine ⟨?_, ?_, ?_⟩
    · linear_combination R ^ 9 * hx
    · linear_combination R ^ 13 * hy
    · linear_combination R ^ 5 * hz

theorem IsMixedSum.scale {p1 d : Jac A} {a : Aff A} (h : IsMixedSum 1 p1 a d) :
    IsMixedSum R (p1.scale R) (a.scale R) (d.scale R) := by
  obtain ⟨hsentinel, hpoint⟩ := h
  have hz : (a.x * R = 0 ∧ a.y * R = 0) ↔ (a.x = 0 ∧ a.y = 0) :=
    and_congr hR.mul_left_eq_zero hR.mul_left_eq_zero
  refine ⟨fun h => ?_, fun h => ?_⟩
  · rw [← infAt_scale]
    exact (hsentinel (hz.1 h)).scale hR
  · have hs := (hpoint fun h' => h (hz.2 h')).scale hR
    simp only [Jac.scale, one_mul] at hs
    exact hs

end

end Sys2Proof.Machine
end

section
/-! The quadratic extension (44_fq2.md R312-R321): each command stores two components or writes Z. -/

namespace Sys2Proof.Machine

set_option Elab.async false

/-! ### Commands that store an element of Fq2 -/

/-- Such a command, its checks passed, leaves both components. -/
theorem storeFq2_runs {i : Instr} {cs : List Check} {rd : Nat} {v : State → Fq2} {s : State}
    (he : exec i s = command i cs (fun s => (s.setFq2 rd (v s)).advance) s) (hc : firstTrap cs s = none)
    (hv : (v s).Below (s.q .fq)) : ∃ t, exec i s = .next t ∧ s.Wrote t [(rd, 2)] ∧
      t.x rd = (v s).c0 ∧ t.x (rd + 1) = (v s).c1 := by
  obtain ⟨hw, h0, h1⟩ := setFq2_result (rd := rd) hv.1 hv.2
  exact ⟨_, command_runs he hc, hw, h0, h1⟩

theorem State.Canonical.two {s : State} {c : FieldCtx} {b : Nat} (h : s.Canonical c b 2) :
    s.x b < s.q c ∧ s.x (b + 1) < s.q c := by
  have h0 := h.slot Nat.two_pos
  rw [Nat.add_zero] at h0
  exact ⟨h0, h.slot Nat.one_lt_two⟩

theorem State.Canonical.fq2 {s : State} {b : Nat} (h : s.Canonical .fq b 2) :
    (s.fq2 b).Below (s.q .fq) := h.two

theorem fq2Checks1_pass {s : State} {rd ra : SlotIx} (hv : (s.ctx .fq).valid = true)
    (hra : s.inRange ra.toNat 2 = true) (hrd : s.inRange rd.toNat 2 = true)
    (ha : s.Canonical .fq ra.toNat 2) : firstTrap (fq2Checks1 rd ra) s = none := by
  simp [fq2Checks1, hv, hra, hrd, ha]

theorem fq2Checks2_pass {s : State} {rd ra rb : SlotIx} (hv : (s.ctx .fq).valid = true)
    (hra : s.inRange ra.toNat 2 = true) (hrb : s.inRange rb.toNat 2 = true)
    (hrd : s.inRange rd.toNat 2 = true) (ha : s.Canonical .fq ra.toNat 2)
    (hb : s.Canonical .fq rb.toNat 2) : firstTrap (fq2Checks2 rd ra rb) s = none := by
  simp [fq2Checks2, hv, hra, hrb, hrd, ha, hb]

theorem checkBeta_passes {s : State} (h : s.cfg.beta.toNat < s.q .fq) : checkBeta s = none :=
  (checkReg_none _ s).2 h

theorem forall_lt_two {p : Nat → Prop} (h0 : p 0) (h1 : p 1) : ∀ j, j < 2 → p j := fun j hj => by
  obtain rfl | rfl : j = 0 ∨ j = 1 := by omega
  exacts [h0, h1]

theorem add2_below {q : Nat} {u v : Fq2} (hu : u.Below q) (hv : v.Below q) : (add2 q u v).Below q :=
  ⟨addq_lt hu.1 hv.1, addq_lt hu.2 hv.2⟩

theorem sub2_below {q : Nat} {u v : Fq2} (hu : u.Below q) (hv : v.Below q) : (sub2 q u v).Below q :=
  ⟨subq_lt hu.1 hv.1, subq_lt hu.2 hv.2⟩

theorem neg2_below {q : Nat} {u : Fq2} (hu : u.Below q) : (neg2 q u).Below q :=
  ⟨negq_lt hu.1, negq_lt hu.2⟩

/-- Settles O30: one additive primitive per component. -/
theorem fq2Additive : Obligations.Fq2Additive := by
  intro s rd ra rb hv hra hrd hca
  obtain ⟨ha0, ha1⟩ := hca.two
  refine ⟨fun hrb hcb => ?_, ?_⟩
  · obtain ⟨hb0, hb1⟩ := hcb.two
    have hpass := fq2Checks2_pass hv hra hrb hrd hca hcb
    obtain ⟨t, ht, hw, h0, h1⟩ := storeFq2_runs (exec_e2add rd ra rb s) hpass (add2_below hca.fq2 hcb.fq2)
    obtain ⟨u, hu, hw', h0', h1'⟩ := storeFq2_runs (exec_e2sub rd ra rb s) hpass
      (sub2_below hca.fq2 hcb.fq2)
    simp only [add2, sub2, State.fq2, addq_eq_mod ha0 hb0, addq_eq_mod ha1 hb1, subq_eq_mod ha0 hb0,
      subq_eq_mod ha1 hb1] at h0 h1 h0' h1'
    refine ⟨⟨t, ht, hw, forall_lt_two ?_ h1⟩, ⟨u, hu, hw', forall_lt_two ?_ h1'⟩⟩
    · simpa only [Nat.add_zero] using h0
    · simpa only [Nat.add_zero] using h0'
  · obtain ⟨t, ht, hw, h0, h1⟩ := storeFq2_runs (exec_e2neg rd ra s) (fq2Checks1_pass hv hra hrd hca)
      (neg2_below hca.fq2)
    simp only [neg2, State.fq2, negq_eq_mod ha0, negq_eq_mod ha1] at h0 h1
    refine ⟨t, ht, hw, forall_lt_two ?_ h1⟩
    simpa only [Nat.add_zero] using h0

/-! ### The square (44_fq2.md R314) -/

section Square

variable {s : State} (hv : (s.ctx .fq).valid = true)
include hv

/-- BETA in class NEGONE stands for -1. -/
theorem residue_negone (h : betaClass (s.ctx .fq) s.cfg.beta.toNat = .negone) :
    s.residue .fq s.cfg.beta.toNat = -1 := by
  have hlt : 2 ^ 256 % s.q .fq < s.q .fq := Ctx.r_mod_lt _ hv
  have hbeta : s.cfg.beta.toNat = s.q .fq - 2 ^ 256 % s.q .fq := (betaClass_eq_negone_iff _ hv _).1 h
  rw [hbeta, State.residue, Nat.cast_sub hlt.le, ZMod.natCast_mod, Nat.cast_pow, Nat.cast_ofNat,
    ZMod.natCast_self, zero_sub, neg_mul, State.r_mul_inv hv]

variable {u : Fq2} (hu : u.Below (s.q .fq))
include hu

theorem sqr2_below : (sqr2 (s.ctx .fq) s.cfg.beta.toNat u).Below (s.q .fq) := by
  obtain ⟨u0, u1⟩ := hu
  have ht := mont_lt _ hv u.c0 u1
  rw [sqr2]
  split
  · exact ⟨mont_lt _ hv _ (subq_lt u0 u1), addq_lt ht ht⟩
  · exact ⟨addq_lt (mont_lt _ hv _ u0) (mulBeta_lt hv (mont_lt _ hv _ u1)), addq_lt ht ht⟩

/-- The square's components are those of the product of the element by itself. -/
theorem residue_sqr2 (hbeta : s.cfg.beta.toNat < s.q .fq) :
    s.residue .fq (sqr2 (s.ctx .fq) s.cfg.beta.toNat u).c0 =
        s.residue .fq u.c0 * s.residue .fq u.c0 +
          s.residue .fq s.cfg.beta.toNat * (s.residue .fq u.c1 * s.residue .fq u.c1) ∧
      s.residue .fq (sqr2 (s.ctx .fq) s.cfg.beta.toNat u).c1 =
        s.residue .fq u.c0 * s.residue .fq u.c1 + s.residue .fq u.c1 * s.residue .fq u.c0 := by
  obtain ⟨u0, u1⟩ := hu
  have hcross : s.residue .fq (addq (s.q .fq) (mont (s.ctx .fq) u.c0 u.c1) (mont (s.ctx .fq) u.c0 u.c1)) =
      s.residue .fq u.c0 * s.residue .fq u.c1 + s.residue .fq u.c1 * s.residue .fq u.c0 := by
    rw [State.residue_addq, State.residue_mont hv _ u0, mul_comm (s.residue .fq u.c1)]
  rw [sqr2]
  split
  · next hclass =>
    refine ⟨?_, hcross⟩
    change s.residue .fq (mont _ (addq (s.q .fq) _ _) (subq (s.q .fq) _ _)) = _
    rw [State.residue_mont hv _ (addq_lt u0 u1), State.residue_addq, State.residue_subq _ u1,
      residue_negone hv hclass]
    ring
  · refine ⟨?_, hcross⟩
    change s.residue .fq (addq (s.q .fq) _ _) = _
    rw [State.residue_addq, mulBeta_eq_mont _ hv _ (mont_lt _ hv _ u1), State.residue_mont hv _ u0,
      State.residue_mont hv _ hbeta, State.residue_mont hv _ u1]

omit hu

/-- Residues of a schoolbook product, as the congruences of R313. -/
theorem schoolbook_congruences {c0 c1 a0 a1 b0 b1 : Nat}
    (h0 : s.residue .fq c0 = s.residue .fq a0 * s.residue .fq b0 +
      s.residue .fq s.cfg.beta.toNat * (s.residue .fq a1 * s.residue .fq b1))
    (h1 : s.residue .fq c1 = s.residue .fq a0 * s.residue .fq b1 + s.residue .fq a1 * s.residue .fq b0) :
    c0 * 2 ^ 512 % s.q .fq = (a0 * b0 * 2 ^ 256 + s.cfg.beta.toNat * (a1 * b1)) % s.q .fq ∧
      c1 * 2 ^ 256 % s.q .fq = (a0 * b1 + a1 * b0) % s.q .fq := by
  rw [← ZMod.natCast_eq_natCast_iff', ← ZMod.natCast_eq_natCast_iff']
  simp only [Nat.cast_add, Nat.cast_mul, Nat.cast_pow, Nat.cast_ofNat]
  simp only [← State.residue_mul_r hv]
  generalize s.residue .fq c0 = v0, s.residue .fq c1 = v1 at *
  constructor
  · rw [h0, show (2 : ZMod (s.q .fq)) ^ 512 = 2 ^ 256 * 2 ^ 256 by rw [← pow_add]]
    generalize (2 : ZMod (s.q .fq)) ^ 256 = r
    ring
  · rw [h1]
    generalize (2 : ZMod (s.q .fq)) ^ 256 = r
    ring

end Square

/-- Settles O31: in normal form both commands give the schoolbook product. -/
theorem fq2Product : Obligations.Fq2Product := by
  intro s rd ra rb hv hra hrd hca hbeta product hproduct
  have ha := hca.fq2
  subst hproduct
  refine ⟨fun hrb hcb => ?_, ?_⟩
  · have hb := hcb.fq2
    have hpass : firstTrap (fq2Checks2 rd ra rb ++ [checkBeta]) s = none := by
      rw [firstTrap_append, firstTrap_cons]
      exact ⟨fq2Checks2_pass hv hra hrb hrd hca hcb, checkBeta_passes hbeta, rfl⟩
    have hlt : (mul2 (s.ctx .fq) s.cfg.beta.toNat (s.fq2 ra.toNat) (s.fq2 rb.toNat)).Below (s.q .fq) :=
      mul2_below hv hb
    obtain ⟨t, hexec, hw, h0, h1⟩ := storeFq2_runs (exec_e2mul rd ra rb s) hpass hlt
    obtain ⟨hc0, hc1⟩ := residue_mul2 hv ha hb hbeta
    rw [← h0] at hc0
    rw [← h1] at hc1
    exact ⟨t, hexec, hw, h0 ▸ hlt.1, h1 ▸ hlt.2, schoolbook_congruences hv hc0 hc1⟩
  · have hpass : firstTrap (fq2Checks1 rd ra ++ [checkBeta]) s = none := by
      rw [firstTrap_append, firstTrap_cons]
      exact ⟨fq2Checks1_pass hv hra hrd hca, checkBeta_passes hbeta, rfl⟩
    have hlt := sqr2_below hv ha
    obtain ⟨t, hexec, hw, h0, h1⟩ := storeFq2_runs (exec_e2sqr rd ra s) hpass hlt
    obtain ⟨hc0, hc1⟩ := residue_sqr2 hv ha hbeta
    rw [← h0] at hc0
    rw [← h1] at hc1
    exact ⟨t, hexec, hw, h0 ▸ hlt.1, h1 ▸ hlt.2, schoolbook_congruences hv hc0 hc1⟩

/-- Settles O32: elements are equal iff their components are. -/
theorem fq2Predicates : Obligations.Fq2Predicates := by
  intro s ra rb hv hra hca
  refine ⟨fun hrb hcb => ?_, ?_⟩
  · have heq : decide (s.fq2 ra.toNat = s.fq2 rb.toNat) =
        decide (s.x ra.toNat = s.x rb.toNat ∧ s.x (ra.toNat + 1) = s.x (rb.toNat + 1)) :=
      decide_eq_decide.2 (by rw [State.fq2, State.fq2, Fq2.mk.injEq])
    rw [command_runs (exec_e2eq ra rb s) (by simp [hv, hra, hrb, hca, hcb]), heq, State.setFlags_advance,
      Flags.setZ]
  · have heq : decide (s.fq2 ra.toNat = { c0 := 0, c1 := 0 }) =
        decide (s.x ra.toNat = 0 ∧ s.x (ra.toNat + 1) = 0) :=
      decide_eq_decide.2 (by rw [State.fq2, Fq2.mk.injEq])
    rw [command_runs (exec_e2isz ra s) (by simp [hv, hra, hca]), heq, State.setFlags_advance, Flags.setZ]

end Sys2Proof.Machine
end

section
/-! The curve predicates as equations, the degenerate cases of the group law, and the group law on the curve
(45_curve.md R344-R348, R355-R359). -/

namespace Sys2Proof.Machine

set_option Elab.async false

/-! ### The predicates (45_curve.md R355, R356, R358) -/

section

variable {α A : Type} [CommRing A] {K : CoordField α} {El : α → Prop} {f : α → A} (o : K.Reads El f)

/-- The curve equation in normal form, without a division (45_curve.md R344). -/
def OnCurve (B : A) (p : Jac A) : Prop := p.z = 0 ∨ p.y ^ 2 = p.x ^ 3 + B * p.z ^ 6

theorem infAt_onCurve (B R : A) : OnCurve B (infAt R) := .inl rfl

include o

theorem Jac.map_inj {p1 p2 : Jac α} (h1 : p1.All El) (h2 : p2.All El) (h : p1.map f = p2.map f) : p1 = p2 := by
  rw [Jac.map, Jac.map, Jac.mk.injEq] at h
  obtain ⟨hx, hy, hz⟩ := h
  cases p1
  cases p2
  exact (Jac.mk.injEq ..).mpr ⟨o.inj _ _ h1.1 h2.1 hx, o.inj _ _ h1.2.1 h2.2.1 hy, o.inj _ _ h1.2.2 h2.2.2 hz⟩

variable [DecidableEq α]

theorem onCurve_iff (hb : El K.b) {p : Jac α} (hp : p.All El) :
    onCurve K p = true ↔ OnCurve (f K.b) (p.map f) := by
  obtain ⟨hx, hy, hz⟩ := hp
  have sx := Stands.of_mem (f := f) hx
  have sy := Stands.of_mem (f := f) hy
  have sz := Stands.of_mem (f := f) hz
  have sb := Stands.of_mem (f := f) hb
  have hz2 := o.stands_sq sz
  have hleft := o.stands_sq sy
  have hright := o.stands_add (o.stands_mul (o.stands_sq sx) sx)
    (o.stands_mul sb (o.stands_mul (o.stands_sq hz2) hz2))
  rw [onCurve, Bool.or_eq_true, decide_eq_true_iff, decide_eq_true_iff, o.eq_zero_iff sz,
    o.eq_iff hleft hright, OnCurve, Jac.map, ← pow_succ, ← pow_mul, ← pow_add]

theorem pointEq_iff {p1 p2 : Jac α} (h1 : p1.All El) (h2 : p2.All El) :
    pointEq K p1 p2 = true ↔ (p1.z = K.zero ∧ p2.z = K.zero) ∨
      (p1.z ≠ K.zero ∧ p2.z ≠ K.zero ∧ f p1.x * f p2.z ^ 2 = f p2.x * f p1.z ^ 2 ∧
        f p1.y * f p2.z ^ 3 = f p2.y * f p1.z ^ 3) := by
  obtain ⟨hx1, hy1, hz1⟩ := h1
  obtain ⟨hx2, hy2, hz2⟩ := h2
  have sz1 := Stands.of_mem (f := f) hz1
  have sz2 := Stands.of_mem (f := f) hz2
  have z1z1 := o.stands_sq sz1
  have z2z2 := o.stands_sq sz2
  have hx := o.eq_iff (o.stands_mul (.of_mem hx1) z2z2) (o.stands_mul (.of_mem hx2) z1z1)
  have hy := o.eq_iff (o.stands_mul (.of_mem hy1) (o.stands_mul z2z2 sz2))
    (o.stands_mul (.of_mem hy2) (o.stands_mul z1z1 sz1))
  rw [← pow_succ, ← pow_succ] at hy
  rw [pointEq]
  split
  · next h =>
    rw [decide_eq_true_iff]
    refine ⟨.inl, fun h' => h'.resolve_right fun ⟨hn1, hn2, _⟩ => h.elim hn1 hn2⟩
  · next h =>
    obtain ⟨hn1, hn2⟩ := not_or.1 h
    rw [decide_eq_true_iff, hx, hy]
    exact ⟨fun h' => .inr ⟨hn1, hn2, h'⟩, fun h' => (h'.resolve_left fun h0 => hn1 h0.1).2.2⟩

/-! The same in Montgomery form, as `e` reads it. -/

variable {e : α → A} {R : A} (hR : IsUnit R) (he : ∀ v, e v = f v * R)
include hR he

theorem onCurve_iff_form (hb : El K.b) {p : Jac α} (hp : p.All El) :
    onCurve K p = true ↔ p.z = K.zero ∨ e p.y ^ 2 * R ^ 5 = e p.x ^ 3 * R ^ 4 + e K.b * e p.z ^ 6 := by
  rw [onCurve_iff o hb hp, OnCurve, Jac.map, ← o.eq_zero_iff (.of_mem hp.2.2),
    ← (hR.pow 7).mul_left_inj, he, he, he, he]
  refine or_congr Iff.rfl (Eq.congr ?_ ?_) <;> ring

theorem pointEq_iff_form {p1 p2 : Jac α} (h1 : p1.All El) (h2 : p2.All El) :
    pointEq K p1 p2 = true ↔ (p1.z = K.zero ∧ p2.z = K.zero) ∨
      (p1.z ≠ K.zero ∧ p2.z ≠ K.zero ∧ e p1.x * e p2.z ^ 2 = e p2.x * e p1.z ^ 2 ∧
        e p1.y * e p2.z ^ 3 = e p2.y * e p1.z ^ 3) := by
  rw [pointEq_iff o h1 h2, ← (hR.pow 3).mul_left_inj (b := f p1.x * _),
    ← (hR.pow 4).mul_left_inj (b := f p1.y * _)]
  simp only [he]
  refine or_congr Iff.rfl (and_congr Iff.rfl (and_congr Iff.rfl (and_congr ?_ ?_)))
  · exact Eq.congr (by ring) (by ring)
  · exact Eq.congr (by ring) (by ring)

end

/-! ### Fq2 as a ring (44_fq2.md R310) -/

/-- An element of Fq2 in Fq[x]/(x² − b), its components as they stand. -/
def quad (q b : Nat) (v : Fq2) : QuadraticAlgebra (ZMod q) (b : ZMod q) 0 := ⟨v.c0, v.c1⟩

theorem congruent_iff (q b : Nat) (u v : Fq2) : Fq2.Congruent q u v ↔ quad q b u = quad q b v := by
  rw [Fq2.Congruent, quad, quad, QuadraticAlgebra.mk.injEq, ZMod.natCast_eq_natCast_iff',
    ZMod.natCast_eq_natCast_iff']

theorem quad_times (q b : Nat) (u v : Fq2) : quad q b (Fq2.times b u v) = quad q b u * quad q b v := by
  refine QuadraticAlgebra.ext ?_ ?_
  · simp only [quad, Fq2.times, QuadraticAlgebra.re_mul, Nat.cast_add, Nat.cast_mul, mul_assoc]
  · simp only [quad, Fq2.times, QuadraticAlgebra.im_mul, Nat.cast_add, Nat.cast_mul, zero_mul, add_zero]

theorem quad_power (q b : Nat) (u : Fq2) (n : Nat) : quad q b (Fq2.power b u n) = quad q b u ^ n := by
  induction n with
  | zero =>
    rw [pow_zero, Fq2.power, quad, Nat.cast_one, Nat.cast_zero]
    rfl
  | succ n ih => rw [Fq2.power, quad_times, ih, pow_succ]

theorem quad_plus (q b : Nat) (u v : Fq2) : quad q b (Fq2.plus u v) = quad q b u + quad q b v :=
  QuadraticAlgebra.ext (Nat.cast_add _ _) (Nat.cast_add _ _)

theorem quad_scale (q b n : Nat) (u : Fq2) : quad q b (Fq2.scale n u) = quad q b u * n := by
  refine QuadraticAlgebra.ext ?_ ?_
  · simp [quad, Fq2.scale, mul_comm]
  · simp [quad, Fq2.scale, mul_comm]

section

variable {s : State} (hv : (s.ctx .fq).valid = true)
include hv

/-- The value whose Montgomery form is `v`, as a residue. -/
theorem residue_of_form {b v : Nat} (h : b * 2 ^ 256 % s.q .fq = v) : (b : ZMod (s.q .fq)) = s.residue .fq v := by
  rw [State.residue, ← h, ZMod.natCast_mod, Nat.cast_mul, Nat.cast_pow, Nat.cast_ofNat, mul_assoc,
    State.r_mul_inv hv, mul_one]

theorem quad_eq_residue2 (b : Nat) (v : Fq2) :
    quad (s.q .fq) b v = s.residue2 (b : ZMod (s.q .fq)) v * 2 ^ 256 := by
  have hr : ((2 : QuadraticAlgebra (ZMod (s.q .fq)) (b : ZMod (s.q .fq)) 0) ^ 256) =
      algebraMap _ _ ((2 : ZMod (s.q .fq)) ^ 256) := by rw [map_pow, map_ofNat]
  rw [hr, mul_comm, ← Algebra.smul_def, quad, State.residue2]
  refine QuadraticAlgebra.ext ?_ ?_
  · rw [QuadraticAlgebra.re_smul, smul_eq_mul, mul_comm, State.residue_mul_r hv]
  · rw [QuadraticAlgebra.im_smul, smul_eq_mul, mul_comm, State.residue_mul_r hv]

theorem isUnit_two_quad (b : ZMod (s.q .fq)) : IsUnit (2 : QuadraticAlgebra (ZMod (s.q .fq)) b 0) := by
  have h := (State.isUnit_two hv).map (algebraMap (ZMod (s.q .fq)) (QuadraticAlgebra (ZMod (s.q .fq)) b 0))
  rwa [map_ofNat] at h

end

/-- Settles O37: the predicates' equations in normal form, times powers of R. -/
theorem pointPredicatesAreEquations : Obligations.PointPredicatesAreEquations := by
  rintro s _ hv rfl
  have cast_iff : ∀ a b : Nat, a % s.q .fq = b % s.q .fq ↔ (a : ZMod (s.q .fq)) = b := fun a b =>
    (ZMod.natCast_eq_natCast_iff' a b _).symm
  constructor
  · intro p1 p2 hx1 hy1 hz1 hx2 hy2 hz2
    have o := g1Field_reads hv
    have hR := State.isUnit_r hv
    have he : ∀ v : Nat, (v : ZMod (s.q .fq)) = s.residue .fq v * 2 ^ 256 := fun v =>
      (State.residue_mul_r hv v).symm
    refine ⟨decide_eq_true_iff, fun hb => ?_, ?_⟩
    · rw [onCurve_iff_form o hR he hb ⟨hx1, hy1, hz1⟩, cast_iff]
      simp only [Nat.cast_add, Nat.cast_mul, Nat.cast_pow, Nat.cast_ofNat]
      rfl
    · rw [pointEq_iff_form o hR he ⟨hx1, hy1, hz1⟩ ⟨hx2, hy2, hz2⟩, cast_iff, cast_iff]
      simp only [Nat.cast_mul, Nat.cast_pow]
      rfl
  · rintro b _ p1 p2 hb rfl hx1 hy1 hz1 hx2 hy2 hz2
    have hbeta : s.cfg.beta.toNat < s.q .fq := hb ▸ Nat.mod_lt _ (State.zero_lt_q hv)
    have o := g2Field_reads hv hbeta (residue_of_form hv hb)
    have hR := (isUnit_two_quad hv (b : ZMod (s.q .fq))).pow 256
    have he := quad_eq_residue2 hv b
    refine ⟨decide_eq_true_iff, ?_, ?_⟩
    · rintro _ rfl hb2
      rw [onCurve_iff_form o hR he hb2 ⟨hx1, hy1, hz1⟩, congruent_iff _ b, quad_plus, quad_scale, quad_scale,
        quad_times, quad_power, quad_power, quad_power]
      simp only [Nat.cast_pow, Nat.cast_ofNat]
      rfl
    · rw [pointEq_iff_form o hR he ⟨hx1, hy1, hz1⟩ ⟨hx2, hy2, hz2⟩, congruent_iff _ b, congruent_iff _ b,
        quad_times, quad_times, quad_times, quad_times, quad_power, quad_power, quad_power, quad_power]
      rfl

/-! ### The group law on the curve (45_curve.md R344-R348) -/

section

variable {A : Type} [CommRing A] {B : A}

/-- The tangent's third point is on the curve. -/
theorem IsDouble.onCurve {p d : Jac A} (h : IsDouble 1 p d) (hp : OnCurve B p) : OnCurve B d := by
  obtain ⟨hzero, hformula⟩ := h
  by_cases hyz : p.y * p.z = 0
  · rw [hzero hyz]
    exact infAt_onCurve B 1
  obtain ⟨hx, hy, hz⟩ := hformula hyz
  have heq : p.y ^ 2 = p.x ^ 3 + B * p.z ^ 6 := hp.resolve_left fun h0 => hyz (by rw [h0, mul_zero])
  simp only [one_pow, mul_one] at hx hy hz
  refine .inr ?_
  rw [hy, hz, hx]
  linear_combination 64 * p.y ^ 6 * heq

/-- The chord's third point is on the curve. -/
theorem IsSum.onCurve {p1 p2 d : Jac A} (h : IsSum 1 p1 p2 d) (h1 : OnCurve B p1) (h2 : OnCurve B p2) :
    OnCurve B d := by
  obtain ⟨hboth, hleft, hright, hgeneral⟩ := h
  by_cases hz1 : p1.z = 0
  · by_cases hz2 : p2.z = 0
    · rw [hboth hz1 hz2]
      exact infAt_onCurve B 1
    · rwa [hleft hz1 hz2]
  by_cases hz2 : p2.z = 0
  · rwa [hright hz1 hz2]
  obtain ⟨hdouble, hopposite, hcanon, hformula⟩ := hgeneral hz1 hz2
  by_cases hh : p2.x * p1.z ^ 2 - p1.x * p2.z ^ 2 = 0
  · by_cases hk : p2.y * p1.z ^ 3 - p1.y * p2.z ^ 3 = 0
    · exact (hdouble hh hk).onCurve h1
    · rw [hopposite hh hk]
      exact infAt_onCurve B 1
  by_cases hzzh : p1.z * p2.z * (p2.x * p1.z ^ 2 - p1.x * p2.z ^ 2) = 0
  · rw [hcanon hh hzzh]
    exact infAt_onCurve B 1
  obtain ⟨hx, hy, hz⟩ := hformula hzzh
  have e1 := h1.resolve_left hz1
  have e2 := h2.resolve_left hz2
  simp only [one_pow, mul_one] at hx hy hz
  have es1 : (p1.y * p2.z ^ 3) ^ 2 = (p1.x * p2.z ^ 2) ^ 3 + B * (p1.z * p2.z) ^ 6 := by
    linear_combination p2.z ^ 6 * e1
  have es2 : (p2.y * p1.z ^ 3) ^ 2 = (p2.x * p1.z ^ 2) ^ 3 + B * (p1.z * p2.z) ^ 6 := by
    linear_combination p1.z ^ 6 * e2
  refine .inr ?_
  rw [hy, hz, hx, mul_assoc 2 p1.z p2.z]
  generalize p1.z * p2.z = zz, p1.y * p2.z ^ 3 = s1, p1.x * p2.z ^ 2 = u1, p2.y * p1.z ^ 3 = s2,
    p2.x * p1.z ^ 2 = u2 at es1 es2 ⊢
  linear_combination 64 * (u2 - u1) ^ 6 * es1 -
    64 * (3 * u1 * (u2 - u1) ^ 2 - (s2 - s1) ^ 2 + (u2 - u1) ^ 3) * (u2 - u1) ^ 3 * (es2 - es1)

theorem IsMixedSum.onCurve {p1 d : Jac A} {a : Aff A} (h : IsMixedSum 1 p1 a d) (h1 : OnCurve B p1)
    (h2 : ¬ (a.x = 0 ∧ a.y = 0) → OnCurve B { x := a.x, y := a.y, z := 1 }) : OnCurve B d := by
  obtain ⟨hsentinel, hpoint⟩ := h
  by_cases h0 : a.x = 0 ∧ a.y = 0
  · exact (hsentinel h0).onCurve h1 (infAt_onCurve B 1)
  · exact (hpoint h0).onCurve h1 (h2 h0)

end

/-- Settles O39: chords and tangents of the curve meet it again, also over a modulus that is not prime. -/
theorem groupLawStaysOnCurve : Obligations.GroupLawStaysOnCurve := by
  intro s p1 p2 a k nb hv hb hx1 hy1 hz1 hx2 hy2 hz2 hax hay hon
  have o := g1Field_reads hv
  have h2 := State.isUnit_two hv
  have hp1 : p1.All s.El1 := ⟨hx1, hy1, hz1⟩
  have hp2 : p2.All s.El1 := ⟨hx2, hy2, hz2⟩
  have ha : a.All s.El1 := ⟨hax, hay⟩
  have curve : ∀ {p : Jac Nat}, p.All s.El1 → (onCurve (g1Field s) p = true ↔
      OnCurve (s.residue .fq (g1Field s).b) (p.map (s.residue .fq))) := fun hp => onCurve_iff o hb hp
  have hdbl : ∀ {p : Jac Nat}, p.All s.El1 → onCurve (g1Field s) p = true →
      onCurve (g1Field s) (jdbl (g1Field s) p) = true := fun hp h =>
    (curve (jdbl_closed o.closed hp)).2 ((jdbl_isDouble o h2 hp).onCurve ((curve hp).1 h))
  have hadd : ∀ {p p' : Jac Nat}, p.All s.El1 → p'.All s.El1 → onCurve (g1Field s) p = true →
      onCurve (g1Field s) p' = true → onCurve (g1Field s) (jadd (g1Field s) p p') = true := fun hp hp' h h' =>
    (curve (jadd_closed o.closed hp hp')).2 ((jadd_isSum o h2 hp hp').onCurve ((curve hp).1 h) ((curve hp').1 h'))
  have hinf : onCurve (g1Field s) (infPoint (g1Field s)) = true := by
    rw [curve (infPoint_closed o.closed), infPoint_map o]
    exact infAt_onCurve _ 1
  refine ⟨hdbl hp1 hon, ?_, ?_, hadd hp1 hp2 hon, fun hfrom => ?_⟩
  · rw [jneg, canonPoint]
    split
    · exact hinf
    · next h0 =>
      have h1 := ((curve hp1).1 hon).resolve_left fun h => h0 ((o.eq_zero_iff (.of_mem hz1)).2 h)
      refine (curve (p := { x := p1.x, y := (g1Field s).neg p1.y, z := p1.z })
        ⟨hx1, o.closed.neg _ hy1, hz1⟩).2 (.inr ?_)
      rw [Jac.map, o.neg _ hy1, neg_sq]
      exact h1
  · have hall : (scalarMul (g1Field s) p1 k nb).All s.El1 ∧
        onCurve (g1Field s) (scalarMul (g1Field s) p1 k nb) = true := by
      refine iterDown_induct (fun _ (q : Jac Nat) => q.All s.El1 ∧ onCurve (g1Field s) q = true)
        ⟨infPoint_closed o.closed, hinf⟩ ?_
      rintro i q - ⟨hq, hqon⟩
      have hd := jdbl_closed o.closed hq
      split
      · exact ⟨jadd_closed o.closed hd hp1, hadd hd hp1 (hdbl hq hqon) hon⟩
      · exact ⟨hd, hdbl hq hqon⟩
    exact hall.2
  · refine (curve (jadda_closed o.closed hp1 ha)).2
      ((jadda_isMixedSum o h2 hp1 ha).onCurve ((curve hp1).1 hon) fun hns => ?_)
    have hns' : ¬ (a.x = (g1Field s).zero ∧ a.y = (g1Field s).zero) := fun h =>
      hns ⟨(o.eq_zero_iff (.of_mem hax)).1 h.1, (o.eq_zero_iff (.of_mem hay)).1 h.2⟩
    rw [fromAffine, if_neg hns', curve ⟨hax, hay, o.closed.one⟩, Jac.map, o.one] at hfrom
    exact hfrom

/-! ### The degenerate cases (45_curve.md R342, R343, R346-R348, R359) -/

section

variable {α : Type} [DecidableEq α] (K : CoordField α)

theorem jadd_of_left_inf {p1 : Jac α} (p2 : Jac α) (h : p1.z = K.zero) : jadd K p1 p2 = canonPoint K p2 := by
  rw [jadd, if_pos h]

theorem jdbl_of_inf {p : Jac α} (h : p.z = K.zero) : jdbl K p = infPoint K := by rw [jdbl, if_pos h]

theorem canonPoint_of_inf {p : Jac α} (h : p.z = K.zero) : canonPoint K p = infPoint K := by
  rw [canonPoint, if_pos h]

theorem jneg_of_inf {p : Jac α} (h : p.z = K.zero) : jneg K p = infPoint K := if_pos h

theorem jneg_of_finite {p : Jac α} (h : p.z ≠ K.zero) :
    jneg K p = { x := p.x, y := K.neg p.y, z := p.z } := if_neg h

theorem jdbl_infPoint : jdbl K (infPoint K) = infPoint K := jdbl_of_inf K rfl

theorem jadd_self (p : Jac α) : jadd K p p = jdbl K p := by
  by_cases h : p.z = K.zero
  · rw [jadd_of_left_inf K p h, canonPoint_of_inf K h, jdbl_of_inf K h]
  · rw [jadd, if_neg h, if_neg h, if_pos rfl, if_pos rfl]

/-- One bit of PMUL's scalar. -/
def scalarBit (p : Jac α) (bit : Bool) (acc : Jac α) : Jac α :=
  if bit then jadd K (jdbl K acc) p else jdbl K acc

theorem scalarMul_eq (p : Jac α) (k nb : Nat) :
    scalarMul K p k nb = iterDown (8 * nb) (fun i => scalarBit K p (k.testBit i)) (infPoint K) := rfl

theorem scalarBit_false_inf (p : Jac α) : scalarBit K p false (infPoint K) = infPoint K := by
  rw [scalarBit, if_neg Bool.false_ne_true, jdbl_infPoint]

end

/-- The last round of a descending loop, split off. -/
theorem iterDown_succ_last {σ : Type} (n : Nat) (f : Nat → σ → σ) (x : σ) :
    iterDown (n + 1) f x = f 0 (iterDown n (fun i => f (i + 1)) x) := by
  induction n generalizing x with
  | zero => rfl
  | succ n ih => rw [iterDown_succ, ih, ← iterDown_succ (f := fun i => f (i + 1))]

theorem iterDown_congr {σ : Type} {n : Nat} {f g : Nat → σ → σ} (h : ∀ i, i < n → f i = g i) (x : σ) :
    iterDown n f x = iterDown n g x := by
  induction n generalizing x with
  | zero => rfl
  | succ n ih => rw [iterDown_succ, iterDown_succ, h n (Nat.lt_succ_self n),
      ih fun i hi => h i (Nat.lt_succ_of_lt hi)]

/-- A descending loop whose rounds all keep `x`. -/
theorem iterDown_fixed {σ : Type} {n : Nat} {f : Nat → σ → σ} {x : σ} (h : ∀ i, i < n → f i x = x) :
    iterDown n f x = x :=
  iterDown_induct (fun _ y => y = x) rfl fun i y hi hy => by rw [hy, h i hi]

section

variable {α : Type} [DecidableEq α] (K : CoordField α) (p : Jac α)

theorem scalarMul_inf {p : Jac α} (h : p.z = K.zero) (k nb : Nat) : scalarMul K p k nb = infPoint K := by
  refine iterDown_fixed fun i _ => ?_
  split
  · rw [jdbl_infPoint, jadd_of_left_inf K p rfl, canonPoint_of_inf K h]
  · exact jdbl_infPoint K

theorem scalarMul_mod (k nb : Nat) : scalarMul K p k nb = scalarMul K p (k % 2 ^ (8 * nb)) nb := by
  rw [scalarMul_eq, scalarMul_eq]
  refine iterDown_congr (fun i hi => ?_) _
  rw [Nat.testBit_mod_two_pow, decide_eq_true hi, Bool.true_and]

theorem scalarMul_zero (nb : Nat) : scalarMul K p 0 nb = infPoint K := by
  rw [scalarMul_eq]
  refine iterDown_fixed fun i _ => ?_
  rw [Nat.zero_testBit, scalarBit_false_inf]

/-- One more bit below: the multiple by k, doubled, plus the new bit's point. -/
theorem scalarMul_bit {k nb : Nat} (b : Bool) (h : Nat.bit b k < 2 ^ (8 * nb)) :
    scalarMul K p (Nat.bit b k) nb = scalarBit K p b (scalarMul K p k nb) := by
  obtain _ | nb := nb
  · have hk : Nat.bit b k = 0 := by omega
    obtain ⟨rfl, rfl⟩ := Nat.bit_eq_zero_iff.1 hk
    exact (scalarBit_false_inf K p).symm
  obtain ⟨n, hn⟩ : ∃ n, 8 * (nb + 1) = n + 1 := ⟨8 * nb + 7, rfl⟩
  have htop : k.testBit n = false := by
    rw [hn, pow_succ, Nat.bit_val] at h
    exact Nat.testBit_lt_two_pow (by omega)
  rw [scalarMul_eq, scalarMul_eq, hn, iterDown_succ_last, iterDown_succ, htop, scalarBit_false_inf,
    Nat.testBit_bit_zero]
  simp only [Nat.testBit_bit_succ]

end

/-- The degenerate cases over any coordinate field. -/
theorem degenerate_cases {α : Type} [DecidableEq α] (K : CoordField α) (p1 p2 : Jac α) (a : Aff α) (k nb : Nat) :
    (p1.z = K.zero → jadd K p1 p2 = canonPoint K p2 ∧ jdbl K p1 = infPoint K ∧
      scalarMul K p1 k nb = infPoint K) ∧
    (p1.z ≠ K.zero → p2.z = K.zero → jadd K p1 p2 = p1) ∧
    jadd K p1 p1 = jdbl K p1 ∧
    (a.x = K.zero → a.y = K.zero → jadda K p1 a = canonPoint K p1) ∧
    (p1.z = K.zero → ¬ (a.x = K.zero ∧ a.y = K.zero) → jadda K p1 a = { x := a.x, y := a.y, z := K.one }) ∧
    scalarMul K p1 k nb = scalarMul K p1 (k % 2 ^ (8 * nb)) nb ∧
    scalarMul K p1 0 nb = infPoint K ∧
    (1 ≤ nb → scalarMul K p1 1 nb = canonPoint K p1) ∧
    (2 * k + 1 < 2 ^ (8 * nb) → scalarMul K p1 (2 * k) nb = jdbl K (scalarMul K p1 k nb) ∧
      scalarMul K p1 (2 * k + 1) nb = jadd K (jdbl K (scalarMul K p1 k nb)) p1) := by
  refine ⟨fun h => ⟨jadd_of_left_inf K p2 h, jdbl_of_inf K h, scalarMul_inf K h k nb⟩, fun h1 h2 => ?_,
    jadd_self K p1, fun hx hy => ?_, fun h hns => ?_, scalarMul_mod K p1 k nb, scalarMul_zero K p1 nb,
    fun hnb => ?_, fun hk => ⟨?_, ?_⟩⟩
  · rw [jadd, if_neg h1, if_pos h2]
  · rw [jadda, if_pos ⟨hx, hy⟩]
  · rw [jadda, if_neg hns, if_pos h]
  · have hlt : Nat.bit true 0 < 2 ^ (8 * nb) := Nat.one_lt_two_pow (by omega)
    have hbit := scalarMul_bit K p1 true hlt
    rw [scalarMul_zero, scalarBit, if_pos rfl, jdbl_infPoint, jadd_of_left_inf K p1 rfl] at hbit
    exact hbit
  · exact scalarMul_bit K p1 false (Nat.lt_of_succ_lt hk)
  · exact scalarMul_bit K p1 true hk

/-- Over a field a point and its negative add up to infinity, also where they are one point. -/
theorem IsSum.neg_eq {F : Type} [Field F] (h2 : (2 : F) ≠ 0) {p d : Jac F} (hz : p.z ≠ 0)
    (h : IsSum 1 p { x := p.x, y := -p.y, z := p.z } d) : d = infAt 1 := by
  obtain ⟨-, -, -, hgeneral⟩ := h
  obtain ⟨hdouble, hopposite, -, -⟩ := hgeneral hz hz
  have hh : p.x * p.z ^ 2 - p.x * p.z ^ 2 = 0 := sub_self _
  by_cases hk : -p.y * p.z ^ 3 - p.y * p.z ^ 3 = 0
  · have hy : p.y = 0 := by
      have hprod : 2 * (p.y * p.z ^ 3) = 0 := by linear_combination -hk
      exact (mul_eq_zero.1 ((mul_eq_zero.1 hprod).resolve_left h2)).resolve_right (pow_ne_zero 3 hz)
    exact (hdouble hh hk).1 (by rw [hy, zero_mul])
  · exact hopposite hh hk

/-- Settles O38: the general cases by unfolding no formula; P + (−P) from the equations of the sum. -/
theorem groupLawDegenerateCases : Obligations.GroupLawDegenerateCases := by
  intro s
  refine ⟨fun g => ?_, fun hv hprime p hx hy hz => ?_⟩
  · cases g
    · exact degenerate_cases (g1Field s)
    · exact degenerate_cases (g2Field s)
  have o := g1Field_reads hv
  have hp : p.All s.El1 := ⟨hx, hy, hz⟩
  by_cases h0 : p.z = (g1Field s).zero
  · rw [jadd_of_left_inf _ _ h0, jneg_of_inf _ h0, canonPoint_of_inf _ rfl]
  have hnp : (jneg (g1Field s) p).All s.El1 := jneg_closed o.closed hp
  have hmap : (jneg (g1Field s) p).map (s.residue .fq) =
      { x := s.residue .fq p.x, y := -s.residue .fq p.y, z := s.residue .fq p.z } := by
    rw [jneg_of_finite _ h0, Jac.map, o.neg _ hy]
  have hsum := jadd_isSum o (State.isUnit_two hv) hp hnp
  have hz0 : s.residue .fq p.z ≠ 0 := fun h => h0 ((o.eq_zero_iff (.of_mem hz)).2 h)
  rw [hmap] at hsum
  have := Fact.mk hprime
  have hd := IsSum.neg_eq (State.isUnit_two hv).ne_zero (p := p.map (s.residue .fq)) hz0 hsum
  rw [← infPoint_map o] at hd
  exact Jac.map_inj o (jadd_closed o.closed hp hnp) (infPoint_closed o.closed) hd

end Sys2Proof.Machine
end

section
/-! Both groups at once (45_curve.md R340): what G1 and G2 share, as one structure, so that each command of the
curve family is proved once. -/

namespace Sys2Proof.Machine

set_option Elab.async false

/-- Component `j` of an element, the lowest slot first. -/
def CoordField.comp {α : Type} (K : CoordField α) (v : α) (j : Nat) : Nat := (K.slots v).getD j 0

/-- `K` is the coordinate field of group `g` in the state `s`, `El` its canonical elements. -/
structure GroupField (s : State) (g : Group) {α : Type} [DecidableEq α] (K : CoordField α) (El : α → Prop) :
    Prop where
  closed : K.Closed El
  width : K.width = coordWidth g
  onGroup_eq : ∀ {β : Type} (F : (α : Type) → [DecidableEq α] → CoordField α → β), onGroup g s F = F α K
  comp_read : ∀ (x : Nat → Nat) (i j : Nat), j < K.width → K.comp (K.read x i) j = x (i + j)
  mem_iff : ∀ v, El v ↔ ∀ j, j < K.width → K.comp v j < s.q .fq
  ext : ∀ v w, (∀ j, j < K.width → K.comp v j = K.comp w j) → v = w
  comp_one : ∀ j, j < K.width → K.comp K.one j = s.oneSlot j
  comp_zero : ∀ j, j < K.width → K.comp K.zero j = 0
  comp_neg : ∀ v j, El v → j < K.width → K.comp (K.neg v) j = (s.q .fq - K.comp v j) % s.q .fq
  noConstant : s.NoConstant g ↔ K.bCanonical = false
  constant : K.bCanonical = true → El K.b
  ring : (g = .g2 → s.cfg.beta.toNat < s.q .fq) →
    ∃ (A : Type) (_ : CommRing A) (f : α → A), K.Reads El f ∧ IsUnit (2 : A)
  inRing : (g = .g2 → s.cfg.beta.toNat < s.q .fq) →
    ∀ P : (A : Type) → [CommRing A] → (State → Nat → A) → Prop,
      (∀ (A : Type) [CommRing A] (f : α → A) (e : State → Nat → A), K.Reads El f → IsUnit (2 : A) →
        (∀ t i, e t i = f (K.read t.x i) * 2 ^ 256) → P A e) → s.inRing g P

section

variable {s : State} (hv : (s.ctx .fq).valid = true)
include hv

theorem groupField_g1 : GroupField s .g1 (g1Field s) s.El1 where
  closed := g1Field_closed hv
  width := rfl
  onGroup_eq _ := rfl
  comp_read x i j hj := by
    obtain rfl := Nat.lt_one_iff.1 hj
    rfl
  mem_iff v := ⟨fun h j hj => by
    obtain rfl := Nat.lt_one_iff.1 hj
    exact h, fun h => h 0 Nat.one_pos⟩
  ext v w h := h 0 Nat.one_pos
  comp_one j hj := by
    obtain rfl := Nat.lt_one_iff.1 hj
    exact oneOf_eq hv
  comp_zero j hj := by
    obtain rfl := Nat.lt_one_iff.1 hj
    rfl
  comp_neg v j h hj := by
    obtain rfl := Nat.lt_one_iff.1 hj
    exact negq_eq_mod h
  noConstant := by
    rw [State.NoConstant, ← Nat.not_lt]
    exact decide_eq_false_iff_not.symm
  constant := decide_eq_true_iff.1
  ring _ := ⟨_, _, _, g1Field_reads hv, State.isUnit_two hv⟩
  inRing _ P h := h _ _ _ (g1Field_reads hv) (State.isUnit_two hv) fun t i =>
    (State.residue_mul_r hv (t.x i)).symm

theorem groupField_g2 : GroupField s .g2 (g2Field s) s.El2 where
  closed := g2Field_closed hv
  width := rfl
  onGroup_eq _ := rfl
  comp_read x i := forall_lt_two rfl rfl
  mem_iff v := ⟨fun h => forall_lt_two h.1 h.2, fun h => ⟨h 0 Nat.two_pos, h 1 Nat.one_lt_two⟩⟩
  ext v w h := by
    have h0 := h 0 Nat.two_pos
    have h1 := h 1 Nat.one_lt_two
    cases v
    cases w
    exact (Fq2.mk.injEq ..).mpr ⟨h0, h1⟩
  comp_one := forall_lt_two (oneOf_eq hv) rfl
  comp_zero := forall_lt_two rfl rfl
  comp_neg v j h hj :=
    forall_lt_two (p := fun j => (g2Field s).comp ((g2Field s).neg v) j =
      (s.q .fq - (g2Field s).comp v j) % s.q .fq) (negq_eq_mod h.1) (negq_eq_mod h.2) j hj
  noConstant := by
    rw [State.NoConstant, ← Nat.not_lt, ← Nat.not_lt, ← not_and_or]
    exact decide_eq_false_iff_not.symm
  constant := decide_eq_true_iff.1
  ring hbeta := ⟨_, _, _, g2Field_reads hv (hbeta rfl) rfl, isUnit_two_quad hv _⟩
  inRing hbeta P h b hb := h _ _ _ (g2Field_reads hv (hbeta rfl) (residue_of_form hv hb))
    (isUnit_two_quad hv _) fun t i => quad_eq_residue2 hv b { c0 := t.x i, c1 := t.x (i + 1) }

/-- The coordinate field of a group. -/
theorem State.groupField : ∀ g, ∃ (α : Type) (_ : DecidableEq α) (K : CoordField α) (El : α → Prop),
    GroupField s g K El
  | .g1 => ⟨_, _, _, _, groupField_g1 hv⟩
  | .g2 => ⟨_, _, _, _, groupField_g2 hv⟩

end

/-! ### Points in slots -/

section

variable {s : State} {g : Group} {α : Type} [DecidableEq α] {K : CoordField α} {El : α → Prop}
  (o : GroupField s g K El)
include o

theorem GroupField.jw_eq : jw g = 3 * K.width := by rw [jw, o.width]

theorem GroupField.aw_eq : aw g = 2 * K.width := by rw [aw, o.width]

theorem GroupField.coordSlots_eq : coordSlots g = K.width := by
  rw [o.width]
  cases g <;> rfl

theorem GroupField.read_mem_iff (x : Nat → Nat) (i : Nat) :
    El (K.read x i) ↔ ∀ j, j < K.width → x (i + j) < s.q .fq := by
  rw [o.mem_iff]
  exact forall₂_congr fun j hj => by rw [o.comp_read x i j hj]

theorem GroupField.read_zero_iff (x : Nat → Nat) (i : Nat) :
    K.read x i = K.zero ↔ ∀ j, j < K.width → x (i + j) = 0 := by
  constructor
  · intro h j hj
    rw [← o.comp_read x i j hj, h, o.comp_zero j hj]
  · intro h
    refine o.ext _ _ fun j hj => ?_
    rw [o.comp_read x i j hj, o.comp_zero j hj, h j hj]

/-- The slots of a Jacobian point are below q iff its coordinates are canonical. -/
theorem GroupField.readJac_all_iff (t : State) (b : Nat) :
    (readJac K t b).All El ↔ s.Below t b (jw g) := by
  rw [Jac.All, readJac, o.read_mem_iff, o.read_mem_iff, o.read_mem_iff, State.Below, o.jw_eq]
  constructor
  · rintro ⟨hx, hy, hz⟩ j hj
    by_cases h1 : j < K.width
    · exact hx j h1
    by_cases h2 : j < 2 * K.width
    · have h := hy (j - K.width) (by omega)
      rwa [show b + K.width + (j - K.width) = b + j by omega] at h
    · have h := hz (j - 2 * K.width) (by omega)
      rwa [show b + 2 * K.width + (j - 2 * K.width) = b + j by omega] at h
  · intro h
    refine ⟨fun j hj => h j (by omega), fun j hj => ?_, fun j hj => ?_⟩
    · rw [Nat.add_assoc]
      exact h _ (by omega)
    · rw [Nat.add_assoc]
      exact h _ (by omega)

theorem GroupField.readJac_all {b : Nat} (h : s.Canonical .fq b (jw g)) : (readJac K s b).All El :=
  (o.readJac_all_iff s b).2 fun _ hj => h.slot hj

theorem GroupField.readAff_all {b : Nat} (h : s.Canonical .fq b (aw g)) : (readAff K s b).All El := by
  rw [o.aw_eq] at h
  refine ⟨(o.read_mem_iff _ _).2 fun j hj => h.slot (by omega), (o.read_mem_iff _ _).2 fun j hj => ?_⟩
  rw [Nat.add_assoc]
  exact h.slot (by omega)

/-- The coordinates of a point that was read, slot by slot. -/
theorem GroupField.slots_of_readJac {t : State} {b : Nat} {p : Jac α} (h : readJac K t b = p) {j : Nat}
    (hj : j < K.width) : t.x (b + j) = K.comp p.x j ∧ t.x (b + K.width + j) = K.comp p.y j ∧
      t.x (b + 2 * K.width + j) = K.comp p.z j := by
  rw [← h, readJac, o.comp_read _ _ j hj, o.comp_read _ _ j hj, o.comp_read _ _ j hj]
  exact ⟨rfl, rfl, rfl⟩

theorem GroupField.slots_of_infPoint {t : State} {b : Nat} (h : readJac K t b = infPoint K) {j : Nat}
    (hj : j < K.width) : t.x (b + j) = s.oneSlot j ∧ t.x (b + K.width + j) = s.oneSlot j ∧
      t.x (b + 2 * K.width + j) = 0 := by
  have hs := o.slots_of_readJac h hj
  rwa [infPoint, o.comp_one j hj, o.comp_zero j hj] at hs

theorem GroupField.validPoint_iff (i : Nat) :
    s.ValidPoint g i ↔ validJac K (readJac K s i) = true := by
  rw [State.validPoint_iff, o.onGroup_eq]

/-- An affine point is valid in the statements' words iff it is in those of the commands: 1·b = b. -/
theorem GroupField.validAffine_iff (hbeta : g = .g2 → s.cfg.beta.toNat < s.q .fq) {i : Nat}
    (h : (readAff K s i).All El) : s.ValidAffine g i ↔ validAff K (readAff K s i) = true := by
  obtain ⟨A, _, f, r, -⟩ := o.ring hbeta
  rw [State.ValidAffine, o.onGroup_eq, o.noConstant, validAff, isSentinel]
  generalize readAff K s i = a at h
  obtain ⟨hx, hy⟩ := h
  cases hb : K.bCanonical with
  | false => simp
  | true =>
    have sb := Stands.of_mem (f := f) (o.constant hb)
    have sx := Stands.of_mem (f := f) hx
    have sy := Stands.of_mem (f := f) hy
    simp only [Bool.true_eq_false, false_or, Bool.not_true, Bool.false_or, Bool.or_eq_true,
      decide_eq_true_eq]
    by_cases hs : a.x = K.zero ∧ a.y = K.zero
    · rw [fromAffine, if_pos hs, onCurve_iff r (o.constant hb) (infPoint_closed r.closed), infPoint_map r]
      exact iff_of_true (infAt_onCurve _ 1) (.inl hs)
    · rw [fromAffine, if_neg hs, onCurve_iff r (o.constant hb) ⟨hx, hy, r.closed.one⟩,
        r.eq_iff (r.stands_sq sy) (r.stands_add (r.stands_mul (r.stands_sq sx) sx) sb), OnCurve, Jac.map, r.one]
      simp only [one_pow, mul_one, or_iff_right r.one_ne_zero, or_iff_right hs, ← pow_succ]

/-- A point in Montgomery form is its normal form times R. -/
theorem GroupField.jacAt_eq_scale {A : Type} [CommRing A] {f : α → A} {e : State → Nat → A} {R : A}
    (he : ∀ t i, e t i = f (K.read t.x i) * R) (t : State) (i : Nat) :
    jacAt e (coordSlots g) t i = ((readJac K t i).map f).scale R := by
  rw [o.coordSlots_eq, jacAt, he, he, he]
  rfl

theorem GroupField.affAt_eq_scale {A : Type} [CommRing A] {f : α → A} {e : State → Nat → A} {R : A}
    (he : ∀ t i, e t i = f (K.read t.x i) * R) (t : State) (i : Nat) :
    affAt e (coordSlots g) t i = ((readAff K t i).map f).scale R := by
  rw [o.coordSlots_eq, affAt, he, he]
  rfl

/-! ### Stored points -/

/-- A written point: its slots and the pc change, and it reads back. -/
theorem GroupField.writes {d : Nat} {p : Jac α} (hp : p.All El) :
    s.Wrote (writeJac K s d p).advance [(d, jw g)] ∧ readJac K (writeJac K s d p).advance d = p := by
  rw [o.jw_eq]
  exact writeJac_result o.closed hp

/-- The result of a group-law command on valid points. -/
theorem GroupField.stores {d : Nat} {valid : Bool} {p : Jac α} (hvalid : valid = true) (hp : p.All El) :
    s.Wrote (storePoint K valid d p s).advance [(d, jw g)] ∧
      readJac K (storePoint K valid d p s).advance d = p ∧
      s.Below (storePoint K valid d p s).advance d (jw g) := by
  rw [storePoint, if_pos hvalid]
  obtain ⟨hw, hr⟩ := o.writes (d := d) hp
  refine ⟨hw, hr, (o.readJac_all_iff _ d).1 ?_⟩
  rw [hr]
  exact hp

end

end Sys2Proof.Machine
end

section
/-! The curve commands (45_curve.md R349-R359): the group law, negation and lifting, the predicates. -/

namespace Sys2Proof.Machine

set_option Elab.async false

/-! ### The group law (45_curve.md R351-R353, R359) -/

section

variable {s : State} {g : Group} {α : Type} [DecidableEq α] {K : CoordField α} {El : α → Prop}
  (o : GroupField s g K El) (hbeta : g = .g2 → s.cfg.beta.toNat < s.q .fq) {ra rb rd : Nat}
include o hbeta

theorem GroupField.isSum {t : State} (ha : (readJac K s ra).All El) (hb : (readJac K s rb).All El)
    (ht : readJac K t rd = jadd K (readJac K s ra) (readJac K s rb)) :
    s.inRing g fun A _ e => IsSum (2 ^ 256 : A) (jacAt e (coordSlots g) s ra) (jacAt e (coordSlots g) s rb)
      (jacAt e (coordSlots g) t rd) := by
  refine o.inRing hbeta _ fun A _ f e r h2 he => ?_
  rw [o.jacAt_eq_scale he, o.jacAt_eq_scale he, o.jacAt_eq_scale he, ht]
  exact (jadd_isSum r h2 ha hb).scale (h2.pow 256)

theorem GroupField.isMixedSum {t : State} (ha : (readJac K s ra).All El) (hb : (readAff K s rb).All El)
    (ht : readJac K t rd = jadda K (readJac K s ra) (readAff K s rb)) :
    s.inRing g fun A _ e => IsMixedSum (2 ^ 256 : A) (jacAt e (coordSlots g) s ra)
      (affAt e (coordSlots g) s rb) (jacAt e (coordSlots g) t rd) := by
  refine o.inRing hbeta _ fun A _ f e r h2 he => ?_
  rw [o.jacAt_eq_scale he, o.affAt_eq_scale he, o.jacAt_eq_scale he, ht]
  exact (jadda_isMixedSum r h2 ha hb).scale (h2.pow 256)

theorem GroupField.isDouble {t : State} (ha : (readJac K s ra).All El)
    (ht : readJac K t rd = jdbl K (readJac K s ra)) :
    s.inRing g fun A _ e => IsDouble (2 ^ 256 : A) (jacAt e (coordSlots g) s ra)
      (jacAt e (coordSlots g) t rd) := by
  refine o.inRing hbeta _ fun A _ f e r h2 he => ?_
  rw [o.jacAt_eq_scale he, o.jacAt_eq_scale he, ht]
  exact (jdbl_isDouble r h2 ha).scale (h2.pow 256)

end

theorem checkNbytes_passes {nb : BitVec 7} (h1 : 1 ≤ nb.toNat) (h2 : nb.toNat ≤ 32) (s : State) :
    checkNbytes nb s = none := by
  rw [checkNbytes, if_pos ((nbytesOk_iff nb).2 ⟨h1, h2⟩)]

section

variable {g : Group} {s : State} {ra rb rd : SlotIx} (hv : (s.ctx .fq).valid = true)
  (hbeta : g = .g2 → s.cfg.beta.toNat < s.q .fq) (hra : s.inRange ra.toNat (jw g) = true)
  (hrd : s.inRange rd.toNat (jw g) = true) (hca : s.Canonical .fq ra.toNat (jw g))
include hv hbeta hra hrd hca

theorem pdbl_runs : exec (.pdbl g rd ra) s =
    .next (onGroup g s fun _ _ K => pdblEffect K rd.toNat ra.toNat s).advance := by
  have hb : checkBetaG2 g s = none := (checkBetaG2_none g s).2 hbeta
  rw [command_runs (exec_pdbl g rd ra s) (by simp [hv, hra, hrd, hca, hb, -checkBetaG2_none])]

theorem padd_runs (hrb : s.inRange rb.toNat (jw g) = true) (hcb : s.Canonical .fq rb.toNat (jw g)) :
    exec (.padd g rd ra rb) s =
      .next (onGroup g s fun _ _ K => paddEffect K rd.toNat ra.toNat rb.toNat s).advance := by
  have hb : checkBetaG2 g s = none := (checkBetaG2_none g s).2 hbeta
  rw [command_runs (exec_padd g rd ra rb s) (by simp [hv, hra, hrb, hrd, hca, hcb, hb, -checkBetaG2_none])]

theorem padda_runs (hrb : s.inRange rb.toNat (aw g) = true) (hcb : s.Canonical .fq rb.toNat (aw g)) :
    exec (.padda g rd ra rb) s =
      .next (onGroup g s fun _ _ K => paddaEffect K rd.toNat ra.toNat rb.toNat s).advance := by
  have hb : checkBetaG2 g s = none := (checkBetaG2_none g s).2 hbeta
  rw [command_runs (exec_padda g rd ra rb s) (by simp [hv, hra, hrb, hrd, hca, hcb, hb, -checkBetaG2_none])]

theorem pmul_runs {nb : BitVec 7} (h1 : 1 ≤ nb.toNat) (h2 : nb.toNat ≤ 32)
    (hrb : s.inRange rb.toNat 1 = true) : exec (.pmul g rd ra rb nb) s =
      .next (onGroup g s fun _ _ K => pmulEffect K rd.toNat ra.toNat rb.toNat nb.toNat s).advance := by
  have hb : checkBetaG2 g s = none := (checkBetaG2_none g s).2 hbeta
  rw [command_runs (exec_pmul g rd ra rb nb s) 
    (by simp [checkNbytes_passes h1 h2, hv, hra, hrb, hrd, hca, hb, -checkBetaG2_none])]

end

/-- Settles O33: the stored point is that of the group law, whose equations hold in normal form. -/
theorem groupLawCommands : Obligations.GroupLawCommands := by
  intro g s rd ra rb hv
  obtain ⟨α, _, K, El, o⟩ := s.groupField hv g
  intro hra hrd hca hbeta hva
  have ha := o.readJac_all hca
  rw [o.validPoint_iff] at hva
  simp only [o.onGroup_eq]
  refine ⟨fun hrb hcb hvb => ?_, fun hrb hcb hvb => ?_, ?_, fun nb h1 h2 hrb => ?_⟩
  · have hb := o.readJac_all hcb
    rw [o.validPoint_iff] at hvb
    have hexec := padd_runs hv hbeta hra hrd hca hrb hcb
    rw [o.onGroup_eq] at hexec
    obtain ⟨hw, hr, hlt⟩ := o.stores (d := rd.toNat) (Bool.and_eq_true_iff.2 ⟨hva, hvb⟩)
      (jadd_closed o.closed ha hb)
    exact ⟨_, hexec, hw, hr, hlt, o.isSum hbeta ha hb hr⟩
  · have hb := o.readAff_all hcb
    rw [o.validAffine_iff hbeta hb] at hvb
    have hexec := padda_runs hv hbeta hra hrd hca hrb hcb
    rw [o.onGroup_eq] at hexec
    obtain ⟨hw, hr, hlt⟩ := o.stores (d := rd.toNat) (Bool.and_eq_true_iff.2 ⟨hva, hvb⟩)
      (jadda_closed o.closed ha hb)
    exact ⟨_, hexec, hw, hr, hlt, o.isMixedSum hbeta ha hb hr⟩
  · have hexec := pdbl_runs hv hbeta hra hrd hca
    rw [o.onGroup_eq] at hexec
    obtain ⟨hw, hr, hlt⟩ := o.stores (d := rd.toNat) hva (jdbl_closed o.closed ha)
    exact ⟨_, hexec, hw, hr, hlt, o.isDouble hbeta ha hr⟩
  · have hexec := pmul_runs hv hbeta hra hrd hca h1 h2 hrb
    rw [o.onGroup_eq] at hexec
    obtain ⟨hw, hr, hlt⟩ := o.stores (d := rd.toNat) hva
      (scalarMul_closed o.closed ha (s.x rb.toNat) nb.toNat)
    exact ⟨_, hexec, hw, hlt, hr⟩

/-! ### Negation and lifting (45_curve.md R354, R357) -/

/-- Settles O35: the slots of each case's point. -/
theorem negateAndLift : Obligations.NegateAndLift := by
  intro g s rd ra w hw hv
  subst hw
  obtain ⟨α, _, K, El, o⟩ := s.groupField hv g
  rintro hrd _ rfl
  simp only [o.onGroup_eq, o.coordSlots_eq]
  refine ⟨fun hra hca => ?_, fun hra hca => ?_⟩
  · have ha := o.readJac_all hca
    have hexec := command_runs (exec_pneg g rd ra s) (by simp [hv, hra, hrd, hca])
    rw [o.onGroup_eq] at hexec
    obtain ⟨t, hexec, hw, hr⟩ : ∃ t, exec (.pneg g rd ra) s = .next t ∧ s.Wrote t [(rd.toNat, jw g)] ∧
        readJac K t rd.toNat = jneg K (readJac K s ra.toNat) :=
      ⟨_, hexec, o.writes (jneg_closed o.closed ha)⟩
    have hz := o.read_zero_iff s.x (ra.toNat + 2 * K.width)
    refine ⟨t, hexec, hw, hr, fun hfin j hj => ?_, fun h0 j hj => ?_⟩
    · have hne : (readJac K s ra.toNat).z ≠ K.zero := fun h => by
        obtain ⟨i, hi, hne⟩ := hfin
        exact hne (hz.1 h i hi)
      rw [jneg_of_finite K hne] at hr
      obtain ⟨hx, hy, hz⟩ := o.slots_of_readJac hr hj
      obtain ⟨hx', hy', hz'⟩ := o.slots_of_readJac (t := s) (b := ra.toNat) rfl hj
      rw [o.comp_neg _ _ ha.2.1 hj, ← hy'] at hy
      exact ⟨hx.trans hx'.symm, hy, hz.trans hz'.symm⟩
    · rw [jneg_of_inf K (hz.2 h0)] at hr
      exact o.slots_of_infPoint hr hj
  · have ha := o.readAff_all hca
    have hexec := command_runs (exec_pfroma g rd ra s) (by simp [hv, hra, hrd, hca])
    rw [o.onGroup_eq] at hexec
    obtain ⟨t, hexec, hw, hr⟩ : ∃ t, exec (.pfroma g rd ra) s = .next t ∧ s.Wrote t [(rd.toNat, jw g)] ∧
        readJac K t rd.toNat = fromAffine K (readAff K s ra.toNat) :=
      ⟨_, hexec, o.writes (fromAffine_closed o.closed ha)⟩
    have hx0 := o.read_zero_iff s.x ra.toNat
    have hy0 := o.read_zero_iff s.x (ra.toNat + K.width)
    refine ⟨t, hexec, hw, hr, fun hfin j hj => ?_, fun h0 j hj => ?_⟩
    · have hne : ¬ ((readAff K s ra.toNat).x = K.zero ∧ (readAff K s ra.toNat).y = K.zero) := by
        rintro ⟨hx, hy⟩
        obtain ⟨i, hi, hne⟩ := hfin
        by_cases hiw : i < K.width
        · exact hne (hx0.1 hx i hiw)
        · have h := hy0.1 hy (i - K.width) (by omega)
          rw [show ra.toNat + K.width + (i - K.width) = ra.toNat + i by omega] at h
          exact hne h
      rw [fromAffine, if_neg hne] at hr
      obtain ⟨hx, hy, hz⟩ := o.slots_of_readJac hr hj
      rw [readAff, o.comp_read _ _ j hj] at hx hy
      rw [o.comp_one j hj] at hz
      exact ⟨hx, hy, hz⟩
    · have hs : (readAff K s ra.toNat).x = K.zero ∧ (readAff K s ra.toNat).y = K.zero := by
        refine ⟨hx0.2 fun j hj => h0 j (by omega), hy0.2 fun j hj => ?_⟩
        rw [Nat.add_assoc]
        exact h0 _ (by omega)
      rw [fromAffine, if_pos hs] at hr
      exact o.slots_of_infPoint hr hj

/-! ### The predicates (45_curve.md R355, R356, R358) -/

theorem checkCurveConst_none (g : Group) (s : State) : checkCurveConst g s = none ↔
    (g = .g1 → s.cfg.b1.toNat < s.q .fq) ∧
      (g = .g2 → s.cfg.b2c0.toNat < s.q .fq ∧ s.cfg.b2c1.toNat < s.q .fq) := by
  cases g
  · simp [checkCurveConst]
  · simp [checkCurveConst]

/-- Settles O36: T is written, and the pc moves on. -/
theorem pointPredicates : Obligations.PointPredicates := by
  intro g s ra rb hv hra hca
  refine ⟨?_, fun hbeta => ⟨fun h1 h2 => ?_, fun hrb hcb => ?_⟩⟩
  · rw [command_runs (exec_pisz g ra s) (by simp [hv, hra, hca]), State.setFlags_advance, Flags.setT]
  · have hconst : checkCurveConst g s = none := (checkCurveConst_none g s).2 ⟨h1, h2⟩
    have hb : checkBetaG2 g s = none := (checkBetaG2_none g s).2 hbeta
    rw [command_runs (exec_ponc g ra s) (by simp [hv, hra, hca, hconst, hb, -checkBetaG2_none]),
      State.setFlags_advance, Flags.setT]
  · have hb : checkBetaG2 g s = none := (checkBetaG2_none g s).2 hbeta
    rw [command_runs (exec_peq g ra rb s) (by simp [hv, hra, hrb, hca, hcb, hb, -checkBetaG2_none]),
      State.setFlags_advance, Flags.setT]

end Sys2Proof.Machine
end

section
/-! The bucket commands (46_msm.md R390-R398): the loops over the bucket array, tied to their values without a
memory. -/

namespace Sys2Proof.Machine

set_option Elab.async false

/-! ### Loops -/

/-- Two descending loops that keep a relation round by round end in related values. -/
theorem iterDown_rel {σ τ : Type} (R : σ → τ → Prop) {n : Nat} {f : Nat → σ → σ} {g : Nat → τ → τ} {x : σ}
    {y : τ} (h0 : R x y) (hs : ∀ i x y, i < n → R x y → R (f i x) (g i y)) :
    R (iterDown n f x) (iterDown n g y) := by
  induction n generalizing x y with
  | zero => exact h0
  | succ n ih =>
    exact ih (hs n x y (Nat.lt_succ_self n) h0) fun i x y hi => hs i x y (Nat.lt_succ_of_lt hi)

/-- A loop that collects a test. -/
theorem iter_all {n : Nat} (p : Nat → Bool) :
    iter n (fun i ok => ok && p i) true = true ↔ ∀ i, i < n → p i = true := by
  induction n with
  | zero => exact ⟨fun _ i hi => absurd hi (Nat.not_lt_zero i), fun _ => rfl⟩
  | succ n ih => rw [iter_succ, Bool.and_eq_true, ih, Nat.forall_lt_succ_right]

/-! ### The checks on a descriptor's fields -/

section

variable (g : Group) (i : Nat) (s : State)

@[simp] theorem checkPoints_none :
    checkPoints g i s = none ↔ s.inRange (s.desc i).pb ((s.desc i).n * aw g) = true := checkRange_none ..

@[simp] theorem checkScalars_none :
    checkScalars i s = none ↔ s.inRange (s.desc i).sb (s.desc i).n = true := checkRange_none ..

@[simp] theorem checkBuckets_none :
    checkBuckets g i s = none ↔ s.inRange (s.desc i).bb ((s.desc i).nb * jw g) = true := checkRange_none ..

@[simp] theorem checkBucketsDesc_none :
    checkBucketsDesc g i s = none ↔ overlap (s.desc i).bb ((s.desc i).nb * jw g) i 1 = false :=
  checkApart_none ..

@[simp] theorem checkBucketsPoints_none : checkBucketsPoints g i s = none ↔
    overlap (s.desc i).bb ((s.desc i).nb * jw g) (s.desc i).pb ((s.desc i).n * aw g) = false :=
  checkApart_none ..

@[simp] theorem checkBucketsScalars_none : checkBucketsScalars g i s = none ↔
    overlap (s.desc i).bb ((s.desc i).nb * jw g) (s.desc i).sb (s.desc i).n = false := checkApart_none ..

@[simp] theorem checkPointsCanon_none :
    checkPointsCanon g i s = none ↔ s.Canonical .fq (s.desc i).pb ((s.desc i).n * aw g) :=
  checkCanon_none ..

@[simp] theorem checkBucketsCanon_none :
    checkBucketsCanon g i s = none ↔ s.Canonical .fq (s.desc i).bb ((s.desc i).nb * jw g) :=
  checkCanon_none ..

end

/-- Slots outside a range that another range does not overlap. -/
theorem outside_of_overlap {b1 w1 b2 w2 : Nat} (h : overlap b1 w1 b2 w2 = false) {i : Nat} (h1 : b2 ≤ i)
    (h2 : i < b2 + w2) : i < b1 ∨ b1 + w1 ≤ i := by
  rw [← Bool.not_eq_true, overlap_iff] at h
  omega

section

variable {g : Group} {s : State} {desc rd : SlotIx} {d : Desc} (hd : d = descriptorOf (s.x desc.toNat))
  (hv : (s.ctx .fq).valid = true) (hdesc : s.inRange desc.toNat 1 = true)
  (hbad : badDescriptor (s.x desc.toNat) = false) (hbb : s.inRange d.bb (d.nb * jw g) = true)
  (hapart : overlap d.bb (d.nb * jw g) desc.toNat 1 = false)
include hd hv hdesc hbad hbb hapart

theorem bktclr_runs :
    exec (.bktclr g desc) s = .next (onGroup g s fun _ _ K => clearBuckets K d s).advance := by
  rw [← State.desc_eq] at hd
  subst hd
  rw [command_runs (exec_bktclr g desc s) (by simp [hv, hdesc, hbad, hbb, hapart])]

variable (hbeta : g = .g2 → s.cfg.beta.toNat < s.q .fq)
include hbeta

theorem bktred_runs (hrd : s.inRange rd.toNat (jw g) = true) (hcb : s.Canonical .fq d.bb (d.nb * jw g)) :
    exec (.bktred g rd desc) s = .next (onGroup g s fun _ _ K => bktredEffect K d rd.toNat s).advance := by
  rw [← State.desc_eq] at hd
  subst hd
  have hb : checkBetaG2 g s = none := (checkBetaG2_none g s).2 hbeta
  rw [command_runs (exec_bktred g rd desc s)
    (by simp [hv, hdesc, hbad, hbb, hapart, hrd, hcb, hb, -checkBetaG2_none])]

variable (hpb : s.inRange d.pb (d.n * aw g) = true) (hsb : s.inRange d.sb d.n = true)
  (hap : overlap d.bb (d.nb * jw g) d.pb (d.n * aw g) = false)
  (has : overlap d.bb (d.nb * jw g) d.sb d.n = false) (hcp : s.Canonical .fq d.pb (d.n * aw g))
include hpb hsb hap has hcp

theorem bktacc_runs {w : BitVec 16} (hw : w.toNat * d.c < 256) (hcb : s.Canonical .fq d.bb (d.nb * jw g)) :
    exec (.bktacc g desc w) s = .next (onGroup g s fun _ _ K => bktaccEffect K d w.toNat s).advance := by
  rw [← State.desc_eq] at hd
  subst hd
  have hb : checkBetaG2 g s = none := (checkBetaG2_none g s).2 hbeta
  have hwin := (State.lt_windows hbad w.toNat).2 hw
  rw [command_runs (exec_bktacc g desc w s)
    (by simp [hv, hdesc, hbad, hbb, hapart, hpb, hsb, hap, has, hcp, hcb, hwin, hb, -checkBetaG2_none])]

theorem msm_runs (hrd : s.inRange rd.toNat (jw g) = true) :
    exec (.msm g rd desc) s = .next (onGroup g s fun _ _ K => msmEffect K d rd.toNat s).advance := by
  rw [← State.desc_eq] at hd
  subst hd
  have hb : checkBetaG2 g s = none := (checkBetaG2_none g s).2 hbeta
  rw [command_runs (exec_msm g rd desc s)
    (by simp [hv, hdesc, hbad, hbb, hapart, hpb, hsb, hap, has, hcp, hrd, hb, -checkBetaG2_none])]

end

/-! ### Buckets in slots -/

section

variable {s : State} {g : Group} {α : Type} [DecidableEq α] {K : CoordField α} {El : α → Prop}
  (o : GroupField s g K El)
include o

theorem GroupField.read_congr {x y : Nat → Nat} {i : Nat} (h : ∀ j, j < K.width → x (i + j) = y (i + j)) :
    K.read x i = K.read y i :=
  o.ext _ _ fun j hj => by rw [o.comp_read x i j hj, o.comp_read y i j hj, h j hj]

theorem GroupField.readJac_congr {t u : State} {b : Nat}
    (h : ∀ j, j < 3 * K.width → t.x (b + j) = u.x (b + j)) : readJac K t b = readJac K u b := by
  rw [readJac, readJac, Jac.mk.injEq]
  refine ⟨o.read_congr fun j hj => h j (by omega), o.read_congr fun j hj => ?_,
    o.read_congr fun j hj => ?_⟩
  · rw [Nat.add_assoc]
    exact h _ (by omega)
  · rw [Nat.add_assoc]
    exact h _ (by omega)

theorem GroupField.readAff_congr {t u : State} {b : Nat}
    (h : ∀ j, j < 2 * K.width → t.x (b + j) = u.x (b + j)) : readAff K t b = readAff K u b := by
  rw [readAff, readAff, Aff.mk.injEq]
  refine ⟨o.read_congr fun j hj => h j (by omega), o.read_congr fun j hj => ?_⟩
  rw [Nat.add_assoc]
  exact h _ (by omega)

theorem GroupField.readJac_advance (t : State) (b : Nat) : readJac K t.advance b = readJac K t b :=
  o.readJac_congr fun _ _ => State.x_advance _ _

/-- A point apart from the slots of a write reads as before. -/
theorem GroupField.readJac_writeJac_apart (t : State) {b b' : Nat} (p : Jac α)
    (h : b' + 3 * K.width ≤ b ∨ b + 3 * K.width ≤ b') : readJac K (writeJac K t b p) b' = readJac K t b' := by
  refine o.readJac_congr fun j hj => ?_
  refine (Footprint.writeJac o.closed.laid t p (le_refl b) (le_refl _) (.head [])).x fun r hr => ?_
  obtain rfl := List.mem_singleton.1 hr
  dsimp only
  omega

omit o [DecidableEq α] in
theorem bucketSlot_apart {d : Desc} {b b' : Nat} (h : b ≠ b') :
    bucketSlot K d b' + 3 * K.width ≤ bucketSlot K d b ∨ bucketSlot K d b + 3 * K.width ≤ bucketSlot K d b' := by
  have key : ∀ m n : Nat, m < n → bucketSlot K d m + 3 * K.width ≤ bucketSlot K d n := fun m n hmn => by
    have := Nat.mul_le_mul_right (3 * K.width) (Nat.succ_le_of_lt hmn)
    rw [Nat.succ_mul] at this
    rw [bucketSlot, bucketSlot]
    omega
  exact (Nat.lt_or_gt_of_ne h).elim (fun h => .inr (key _ _ h)) fun h => .inl (key _ _ h)

/-- Bucket `b'` after bucket `b` was written. -/
theorem GroupField.bucket_writeJac (t : State) (d : Desc) {b b' : Nat} {p : Jac α} (hp : p.All El) :
    readJac K (writeJac K t (bucketSlot K d b) p) (bucketSlot K d b') =
      if b' = b then p else readJac K t (bucketSlot K d b') := by
  split
  · next h =>
    rw [h]
    exact readJac_writeJac o.closed t _ p hp
  · next h => exact o.readJac_writeJac_apart t p (bucketSlot_apart fun h' => h h'.symm)

theorem GroupField.bucketSlot_eq (d : Desc) (b : Nat) : bucketSlot K d b = d.bb + b * jw g := by
  rw [bucketSlot, o.jw_eq]

theorem GroupField.bucketRange_eq (d : Desc) : bucketRange K d = (d.bb, d.nb * jw g) := by
  rw [bucketRange, o.jw_eq]

/-- Canonical bucket slots are canonical buckets. -/
theorem GroupField.bucket_all {d : Desc} (h : s.Canonical .fq d.bb (d.nb * jw g)) {b : Nat} (hb : b < d.nb) :
    (readJac K s (bucketSlot K d b)).All El := by
  refine (o.readJac_all_iff s _).2 fun j hj => ?_
  have hle := Nat.mul_le_mul_right (jw g) (Nat.succ_le_of_lt hb)
  rw [Nat.succ_mul] at hle
  rw [o.bucketSlot_eq, Nat.add_assoc]
  exact h.slot (by omega)

/-- Canonical point slots are canonical points. -/
theorem GroupField.msmPoint_all {d : Desc} (h : s.Canonical .fq d.pb (d.n * aw g)) {i : Nat} (hi : i < d.n) :
    (msmPoint K d s i).All El := by
  have hle := Nat.mul_le_mul_right (aw g) (Nat.succ_le_of_lt hi)
  rw [Nat.succ_mul] at hle
  rw [msmPoint, ← o.aw_eq]
  refine o.readAff_all fun k hk hk' => h k ?_ ?_
  · omega
  · omega

theorem GroupField.pointsValid_iff (hbeta : g = .g2 → s.cfg.beta.toNat < s.q .fq) {d : Desc}
    (h : s.Canonical .fq d.pb (d.n * aw g)) :
    pointsValid K d s = true ↔ ∀ i, i < d.n → s.ValidAffine g (d.pb + i * aw g) := by
  rw [pointsValid, iter_all]
  refine forall₂_congr fun i hi => ?_
  have hall := o.msmPoint_all h hi
  rw [msmPoint, ← o.aw_eq] at hall ⊢
  exact (o.validAffine_iff hbeta hall).symm

theorem GroupField.bucketsValid_iff (d : Desc) :
    bucketsValid K d s = true ↔ ∀ b, b < d.nb → s.ValidPoint g (d.bb + b * jw g) := by
  rw [bucketsValid, iter_all]
  refine forall₂_congr fun b _ => ?_
  rw [o.bucketSlot_eq, o.validPoint_iff]

/-! ### Clearing (46_msm.md R395) -/

theorem GroupField.clearBuckets_bucket (d : Desc) (t : State) {b : Nat} (hb : b < d.nb) :
    readJac K (clearBuckets K d t) (bucketSlot K d b) = infPoint K := by
  refine iter_induct (n := d.nb) (fun n u => ∀ b, b < n → readJac K u (bucketSlot K d b) = infPoint K)
    (fun b hb => absurd hb (Nat.not_lt_zero b)) (fun n u _ ih b hb => ?_) b hb
  rw [o.bucket_writeJac u d (infPoint_closed o.closed)]
  split
  · rfl
  · next hne => exact ih b (by omega)

/-! ### Accumulating (46_msm.md R393, R396) -/

/-- The first `n` rounds of a bucket's fold. -/
def bucketFoldTo (K : CoordField α) (d : Desc) (s : State) (w b n : Nat) (start : Jac α) : Jac α :=
  (List.range n).foldl (fun acc i =>
    if d.chunk w (s.x (d.sb + i)) = b + 1 then jadda K acc (msmPoint K d s i) else acc) start

omit o in
theorem bucketFold_eq (d : Desc) (w b : Nat) (start : Jac α) :
    bucketFold K d s w b start = bucketFoldTo K d s w b d.n start := rfl

omit o in
theorem bucketFoldTo_succ (d : Desc) (w b n : Nat) (start : Jac α) :
    bucketFoldTo K d s w b (n + 1) start = if d.chunk w (s.x (d.sb + n)) = b + 1 then
      jadda K (bucketFoldTo K d s w b n start) (msmPoint K d s n) else bucketFoldTo K d s w b n start := by
  rw [bucketFoldTo, List.range_succ, List.foldl_append]
  rfl

section

variable {d : Desc} (hap : overlap d.bb (d.nb * jw g) d.pb (d.n * aw g) = false)
  (has : overlap d.bb (d.nb * jw g) d.sb d.n = false) (hcp : s.Canonical .fq d.pb (d.n * aw g))
include hcp

theorem GroupField.bucketFoldTo_all {w b n : Nat} (hn : n ≤ d.n) {start : Jac α} (h : start.All El) :
    (bucketFoldTo K d s w b n start).All El := by
  induction n with
  | zero => exact h
  | succ n ih =>
    rw [bucketFoldTo_succ]
    split
    · exact jadda_closed o.closed (ih (by omega)) (o.msmPoint_all hcp (by omega))
    · exact ih (by omega)

include hap has

omit hcp in
/-- A state that differs from `s` in the buckets alone has the points and scalars of `s`. -/
theorem GroupField.inputs_eq {t : State} (ht : Footprint s t [bucketRange K d]) {i : Nat} (hi : i < d.n) :
    t.x (d.sb + i) = s.x (d.sb + i) ∧ msmPoint K d t i = msmPoint K d s i := by
  rw [o.bucketRange_eq] at ht
  constructor
  · refine ht.x fun r hr => ?_
    obtain rfl := List.mem_singleton.1 hr
    exact outside_of_overlap has (by omega) (by omega)
  · refine o.readAff_congr fun j hj => ht.x fun r hr => ?_
    obtain rfl := List.mem_singleton.1 hr
    have hle := Nat.mul_le_mul_right (aw g) (Nat.succ_le_of_lt hi)
    rw [Nat.succ_mul] at hle
    rw [← o.aw_eq] at hj ⊢
    exact outside_of_overlap hap (by omega) (by omega)

/-- ACC_g(w) on a state that differs from `s` in the buckets alone: every bucket is its fold over the points of
`s`. -/
theorem GroupField.accWindow_bucket {t : State} (ht : Footprint s t [bucketRange K d])
    (hall : ∀ b, b < d.nb → (readJac K t (bucketSlot K d b)).All El) (w : Nat) {b : Nat} (hb : b < d.nb) :
    readJac K (accWindow K d w t) (bucketSlot K d b) =
      bucketFold K d s w b (readJac K t (bucketSlot K d b)) := by
  refine (iter_induct (n := d.n) (fun n u => Footprint s u [bucketRange K d] ∧ ∀ b, b < d.nb →
    readJac K u (bucketSlot K d b) = bucketFoldTo K d s w b n (readJac K t (bucketSlot K d b)))
    ⟨ht, fun _ _ => rfl⟩ fun n u hn ih => ?_).2 b hb
  obtain ⟨hu, ih⟩ := ih
  obtain ⟨hx, hp⟩ := o.inputs_eq hap has hu hn
  rw [accPoint]
  dsimp only
  rw [hx, hp]
  generalize hch : d.chunk w (s.x (d.sb + n)) = ch
  have hle : ch ≤ d.nb := hch ▸ d.chunk_le w _
  split
  · next h0 =>
    refine ⟨hu, fun b hb => ?_⟩
    rw [ih b hb, bucketFoldTo_succ, hch, if_neg (by omega)]
  · next h0 =>
    have hlt : ch - 1 < d.nb := by omega
    have hmem : (jadda K (bucketFoldTo K d s w (ch - 1) n (readJac K t (bucketSlot K d (ch - 1))))
        (msmPoint K d s n)).All El :=
      jadda_closed o.closed (o.bucketFoldTo_all hcp (by omega) (hall _ hlt)) (o.msmPoint_all hcp hn)
    obtain ⟨hb1, hb2⟩ := bucketSlot_le (K := K) hlt
    rw [ih _ hlt]
    refine ⟨hu.trans (Footprint.writeJac o.closed.laid u _ hb1 hb2 (.head [])), fun b hb => ?_⟩
    rw [o.bucket_writeJac u d hmem, bucketFoldTo_succ, hch]
    split
    · next hbc => rw [if_pos (by omega), hbc]
    · next hbc => rw [if_neg (by omega), ih b hb]

end

/-! ### Reducing (46_msm.md R394, R397) -/

omit o in
theorem reduceBuckets_eq (d : Desc) (t : State) :
    reduceBuckets K d t = bucketSum K d.nb fun b => readJac K t (bucketSlot K d b) := rfl

theorem GroupField.bucketSum_all {n : Nat} {bk : Nat → Jac α} (h : ∀ b, b < n → (bk b).All El) :
    (bucketSum K n bk).All El := by
  have hinf := infPoint_closed o.closed
  refine (iterDown_induct (n := n) (fun _ (rs : Jac α × Jac α) => rs.1.All El ∧ rs.2.All El) ⟨hinf, hinf⟩
    fun b rs hb ih => ?_).2
  have hrun := jadd_closed o.closed ih.1 (h b hb)
  exact ⟨hrun, jadd_closed o.closed ih.2 hrun⟩

omit o in
theorem bucketSum_congr {n : Nat} {bk bk' : Nat → Jac α} (h : ∀ b, b < n → bk b = bk' b) :
    bucketSum K n bk = bucketSum K n bk' := by
  rw [bucketSum, bucketSum, iterDown_congr fun b hb => by rw [h b hb]]

omit o in
theorem bucketSum_inf (n : Nat) : bucketSum K n (fun _ => infPoint K) = infPoint K := by
  have hadd : jadd K (infPoint K) (infPoint K) = infPoint K := by
    rw [jadd_self, jdbl_infPoint]
  rw [bucketSum, iterDown_fixed fun _ _ => by rw [hadd, hadd]]

end

end Sys2Proof.Machine
end

section
/-! BKTCLR, BKTACC, BKTRED and MSM (46_msm.md R395-R398), and every group-law command on a point that is not valid
(45_curve.md R349). -/

namespace Sys2Proof.Machine

set_option Elab.async false

/-- Settles O41: every bucket is the canonical infinity, whose slots are known. -/
theorem bucketsCleared : Obligations.BucketsCleared := by
  intro g s desc d hd hv hdesc hbad hbb hapart
  obtain ⟨α, _, K, El, o⟩ := s.groupField hv g
  have hexec := bktclr_runs hd hv hdesc hbad hbb hapart
  rw [o.onGroup_eq] at hexec
  have hw := (Footprint.clearBuckets o.closed.laid d s (.head [])).wrote
  rw [o.bucketRange_eq] at hw
  refine ⟨_, hexec, hw, fun b hb => ?_⟩
  have hr : readJac K (clearBuckets K d s).advance (d.bb + b * jw g) = infPoint K := by
    rw [o.readJac_advance, ← o.bucketSlot_eq, o.clearBuckets_bucket d s hb]
  rw [o.onGroup_eq, o.coordSlots_eq]
  exact ⟨hr, fun j hj => o.slots_of_infPoint hr hj⟩

/-- Settles O42: the loop over the points, bucket by bucket. -/
theorem bucketsAccumulate : Obligations.BucketsAccumulate := by
  intro g s desc w d hd hv hdesc hbad hw hpb hsb hbb hapart hap has hcp hcb hbeta hvalid
  obtain ⟨α, _, K, El, o⟩ := s.groupField hv g
  have hexec := bktacc_runs hd hv hdesc hbad hbb hapart hbeta hpb hsb hap has hcp hw hcb
  rw [o.onGroup_eq] at hexec
  have hfoot : Footprint s (bktaccEffect K d w.toNat s) [bucketRange K d] ∧ ∀ b, b < d.nb →
      readJac K (bktaccEffect K d w.toNat s) (bucketSlot K d b) =
        bucketFold K d s w.toNat b (readJac K s (bucketSlot K d b)) := by
    rw [bktaccEffect]
    split
    · next h0 =>
      refine ⟨Footprint.refl _ _, fun b _ => ?_⟩
      rw [bucketFold_eq, h0]
      rfl
    · next h0 =>
      obtain ⟨hp, hb⟩ := hvalid.resolve_left h0
      rw [(o.pointsValid_iff hbeta hcp).2 hp, (o.bucketsValid_iff d).2 hb, Bool.and_self, if_pos rfl]
      exact ⟨Footprint.accWindow o.closed.laid d _ s (.head []), fun b hb =>
        o.accWindow_bucket hap has hcp (Footprint.refl _ _) (fun b hb => o.bucket_all hcb hb) _ hb⟩
  obtain ⟨hfoot, hbuckets⟩ := hfoot
  rw [o.bucketRange_eq] at hfoot
  refine ⟨_, hexec, hfoot.wrote, fun b hb => ?_⟩
  rw [o.onGroup_eq, o.readJac_advance, ← o.bucketSlot_eq, hbuckets b hb]

/-- Settles O43: the loop over the buckets is the sum over their values. -/
theorem bucketsReduce : Obligations.BucketsReduce := by
  intro g s rd desc d hd hv hdesc hrd hbad hbb hapart hcb hbeta hvalid
  obtain ⟨α, _, K, El, o⟩ := s.groupField hv g
  have hexec := bktred_runs hd hv hdesc hbad hbb hapart hbeta hrd hcb
  rw [o.onGroup_eq, bktredEffect, if_pos ((o.bucketsValid_iff d).2 hvalid), reduceBuckets_eq] at hexec
  obtain ⟨hw, hr⟩ := o.writes (d := rd.toNat) (o.bucketSum_all fun b hb => o.bucket_all hcb hb)
  refine ⟨_, hexec, hw, ?_⟩
  rw [o.onGroup_eq, hr]
  simp only [o.bucketSlot_eq]

/-! ### MSM (46_msm.md R398) -/

section

variable {s : State} {g : Group} {α : Type} [DecidableEq α] {K : CoordField α} {El : α → Prop}
  (o : GroupField s g K El) {d : Desc}

theorem iter_jdbl_all (n : Nat) {p : Jac α} (h : p.All El) (o : GroupField s g K El) :
    (iter n (fun _ a => jdbl K a) p).All El :=
  iter_induct (fun _ (a : Jac α) => a.All El) h fun _ _ _ h => jdbl_closed o.closed h

/-- What MSM's loop keeps: the state is `s` but for the buckets, and the accumulator is a canonical point. -/
structure MsmInv (K : CoordField α) (El : α → Prop) (d : Desc) (s : State) (sa : State × Jac α) (acc : Jac α) :
    Prop where
  foot : Footprint s sa.1 [bucketRange K d]
  eq : sa.2 = acc
  mem : acc.All El

variable (hap : overlap d.bb (d.nb * jw g) d.pb (d.n * aw g) = false)
  (has : overlap d.bb (d.nb * jw g) d.sb d.n = false) (hcp : s.Canonical .fq d.pb (d.n * aw g))
include o hap has hcp

/-- The buckets of one window, cleared first, hold the folds from infinity. -/
theorem GroupField.window_bucket {t : State} (ht : Footprint s t [bucketRange K d]) (w : Nat) {b : Nat}
    (hb : b < d.nb) : readJac K (accWindow K d w (clearBuckets K d t)) (bucketSlot K d b) =
      bucketFold K d s w b (infPoint K) := by
  have hclear := ht.trans (Footprint.clearBuckets o.closed.laid d t (.head []))
  rw [o.accWindow_bucket hap has hcp hclear (fun b hb => ?_) w hb, o.clearBuckets_bucket d t hb]
  rw [o.clearBuckets_bucket d t hb]
  exact infPoint_closed o.closed

theorem GroupField.msmWindow_inv {sa : State × Jac α} {acc : Jac α} (h : MsmInv K El d s sa acc) (w : Nat) :
    MsmInv K El d s (msmWindow K d w sa) (jadd K (iter d.c (fun _ a => jdbl K a) acc)
      (bucketSum K d.nb fun b => bucketFold K d s w b (infPoint K))) where
  foot := (h.foot.trans (Footprint.clearBuckets o.closed.laid d _ (.head []))).trans
    (Footprint.accWindow o.closed.laid d w _ (.head []))
  eq := by
    rw [msmWindow, ← h.eq, bucketSum_congr fun b hb => (o.window_bucket hap has hcp h.foot w hb).symm]
    rfl
  mem := jadd_closed o.closed (iter_jdbl_all _ h.mem o)
    (o.bucketSum_all fun b hb => o.bucketFoldTo_all hcp (le_refl d.n) (infPoint_closed o.closed))

/-- MSM's loop: its accumulator is the bucket method's value, and its buckets are those of window 0. -/
theorem GroupField.msmWindows_result (hc : 0 < d.c) :
    MsmInv K El d s (msmWindows K d s) (msmValue K d s) ∧ ∀ b, b < d.nb →
      readJac K (msmWindows K d s).1 (bucketSlot K d b) = bucketFold K d s 0 b (infPoint K) := by
  have hinv : ∀ f : Nat → Nat, ∀ n, MsmInv K El d s (iterDown n (fun w => msmWindow K d (f w)) (s, infPoint K))
      (iterDown n (fun w acc => jadd K (iter d.c (fun _ a => jdbl K a) acc)
        (bucketSum K d.nb fun b => bucketFold K d s (f w) b (infPoint K))) (infPoint K)) := fun f n =>
    iterDown_rel (MsmInv K El d s) ⟨Footprint.refl _ _, rfl, infPoint_closed o.closed⟩
      fun w sa acc _ h => o.msmWindow_inv hap has hcp h (f w)
  refine ⟨hinv id _, fun b hb => ?_⟩
  obtain ⟨n, hn⟩ : ∃ n, d.windows = n + 1 := Nat.exists_eq_succ_of_ne_zero
    (Nat.div_pos (by omega) hc).ne'
  rw [msmWindows, hn, iterDown_succ_last]
  exact o.window_bucket hap has hcp (hinv (· + 1) n).foot 0 hb

end

section

variable {α : Type} [DecidableEq α] {K : CoordField α}

/-- With no point every window adds infinity to infinity. -/
theorem msmValue_no_point {d : Desc} (s : State) (h : d.n = 0) : msmValue K d s = infPoint K := by
  have hfold : ∀ w b, bucketFold K d s w b (infPoint K) = infPoint K := fun w b => by
    rw [bucketFold_eq, h]
    rfl
  have hdbl : ∀ n, iter n (fun _ a => jdbl K a) (infPoint K) = infPoint K := fun n =>
    iter_induct (fun _ a => a = infPoint K) rfl fun _ a _ ha => by rw [ha, jdbl_infPoint]
  refine iterDown_fixed fun w _ => ?_
  rw [hdbl, bucketSum_congr fun b _ => hfold w b, bucketSum_inf, jadd_self, jdbl_infPoint]

end

theorem pos_of_not_bad {v : Nat} {d : Desc} (hd : d = descriptorOf v) (hv : v < 2 ^ 256)
    (h : badDescriptor v = false) : 0 < d.c := by
  rw [← Bool.not_eq_true, badDescriptor_iff v hv, not_or] at h
  rw [hd]
  exact Nat.pos_of_ne_zero h.1

/-- Settles O44: the windows' relation to the value without a memory, then the write to RD. -/
theorem multiScalarMultiplication : Obligations.MultiScalarMultiplication := by
  intro g s rd desc d hd hv hdesc hrd hbad hpb hsb hbb hapart hap has hcp hbeta hvalid
  obtain ⟨α, _, K, El, o⟩ := s.groupField hv g
  have hexec := msm_runs hd hv hdesc hbad hbb hapart hbeta hpb hsb hap has hcp hrd
  rw [o.onGroup_eq, msmEffect, if_pos ((o.pointsValid_iff hbeta hcp).2 hvalid)] at hexec
  obtain ⟨⟨hfoot, heq, hmem⟩, hbuckets⟩ := o.msmWindows_result hap has hcp
    (pos_of_not_bad hd (s.x_lt _) hbad)
  dsimp only at hexec
  rw [heq] at hexec
  rw [o.bucketRange_eq] at hfoot
  have hwrite := (hfoot.mono (qs := [(d.bb, d.nb * jw g), (rd.toNat, jw g)]) fun a r hr h1 h2 =>
    ⟨r, List.mem_cons.2 (.inl (List.mem_singleton.1 hr)), h1, h2⟩).trans
      (Footprint.writeJac o.closed.laid _ (b := rd.toNat) (w := jw g) (msmValue K d s) (le_refl _)
        (o.jw_eq ▸ le_refl _) (.tail _ (.head [])))
  have hr : readJac K (writeJac K (msmWindows K d s).1 rd.toNat (msmValue K d s)).advance rd.toNat =
      msmValue K d s := by
    rw [o.readJac_advance, readJac_writeJac o.closed _ _ _ hmem]
  refine ⟨_, hexec, hwrite.wrote, ?_⟩
  rw [o.onGroup_eq]
  refine ⟨hr, fun h0 => hr.trans (msmValue_no_point s h0), fun b hb hover => ?_⟩
  have hw : 0 < jw g := by
    cases g <;> decide
  rw [← Bool.not_eq_true, overlap_iff, ← o.bucketSlot_eq, o.jw_eq] at hover
  rw [o.jw_eq] at hw
  rw [o.readJac_advance, ← o.bucketSlot_eq, o.readJac_writeJac_apart _ _ (by omega), hbuckets b hb]

end Sys2Proof.Machine
end

section
/-! A group-law command on a point that is not valid (45_curve.md R349; 93_implementation_defined.md U1): the free
values it leaves are below q. -/

namespace Sys2Proof.Machine

set_option Elab.async false

/-- Slots of the filled ranges hold reduced values, and slots that did before still do. -/
theorem foldl_fillSlots_lt {q : Nat} (hq : 0 < q) (hq' : q < 2 ^ 256) (f : Nat → Nat) (rs : List (Nat × Nat))
    (t : State) (i : Nat) (h : t.x i < q ∨ ∃ r ∈ rs, r.1 ≤ i ∧ i < r.1 + r.2) :
    (rs.foldl (fun st r => st.fillSlots (fun i => BitVec.ofNat 256 (f i % q)) r.1 r.2) t).x i < q := by
  induction rs generalizing t with
  | nil => exact h.resolve_right fun ⟨r, hr, _⟩ => nomatch hr
  | cons r rs ih =>
    refine ih _ ?_
    by_cases hin : r.1 ≤ i ∧ i < r.1 + r.2
    · refine .inl ?_
      have hlt := Nat.mod_lt (f i) hq
      rw [State.x, State.slot_fillSlots_in _ _ hin.1 hin.2, BitVec.toNat_ofNat, Nat.mod_eq_of_lt (hlt.trans hq')]
      exact hlt
    · have hx : (t.fillSlots (fun i => BitVec.ofNat 256 (f i % q)) r.1 r.2).x i = t.x i := by
        refine (Footprint.fillSlots t _ (.head [])).x fun r' hr' => ?_
        obtain rfl := List.mem_singleton.1 hr'
        dsimp only
        omega
      rw [hx]
      refine h.imp id fun ⟨r', hr', hi⟩ => ?_
      obtain rfl | hr' := List.mem_cons.1 hr'
      · exact absurd hi hin
      · exact ⟨r', hr', hi⟩

theorem State.x_countDraw (s : State) (i : Nat) : s.countDraw.x i = s.x i := State.x_of_mem rfl rfl i

/-- A command that ends in free values: its frame, the pc, the count of draws, and the values' bound. -/
theorem offCurve_completes {i : Instr} {s : State} {rs : List (Nat × Nat)} (hv : (s.ctx .fq).valid = true)
    (hexec : exec i s = .next (s.offCurve rs).advance) :
    ∃ t, exec i s = .next t ∧ s.SameOutside t rs ∧
      t = { s with mem := t.mem, cpc := s.cpc + 1, freeCtr := s.freeCtr + 1 } ∧
      ∀ r ∈ rs, ∀ j, j < r.2 → t.x (r.1 + j) < s.q .fq := by
  have hfoot := State.offCurve_footprint s rs
  refine ⟨_, hexec, fun a ha => hfoot.same a ha, ?_, fun r hr j hj => ?_⟩
  · rw [hfoot.regs]
    rfl
  · rw [State.x_advance, State.offCurve, State.x_countDraw]
    exact foldl_fillSlots_lt (State.zero_lt_q hv) (s.q_lt _) _ rs s _
      (.inr ⟨r, hr, Nat.le_add_right _ _, Nat.add_lt_add_left hj _⟩)

section

variable {s : State} {g : Group} {α : Type} [DecidableEq α] {K : CoordField α} {El : α → Prop}
  (o : GroupField s g K El)
include o

theorem GroupField.storePoint_off {d : Nat} {valid : Bool} (p : Jac α) (h : ¬ valid = true) :
    storePoint K valid d p s = s.offCurve [(d, jw g)] := by
  rw [storePoint, if_neg h, o.jw_eq]

/-- The four commands on points. -/
theorem GroupField.point_offCurve (hv : (s.ctx .fq).valid = true)
    (hbeta : g = .g2 → s.cfg.beta.toNat < s.q .fq) {i : Instr} {rd ra rb : SlotIx}
    (hra : s.inRange ra.toNat (jw g) = true) (hca : s.Canonical .fq ra.toNat (jw g))
    (hrd : s.inRange rd.toNat (jw g) = true)
    (hi : (i = .padd g rd ra rb ∧ s.inRange rb.toNat (jw g) = true ∧ s.Canonical .fq rb.toNat (jw g) ∧
          (¬ s.ValidPoint g ra.toNat ∨ ¬ s.ValidPoint g rb.toNat)) ∨
        (i = .padda g rd ra rb ∧ s.inRange rb.toNat (aw g) = true ∧ s.Canonical .fq rb.toNat (aw g) ∧
          (¬ s.ValidPoint g ra.toNat ∨ ¬ s.ValidAffine g rb.toNat)) ∨
        (¬ s.ValidPoint g ra.toNat ∧ (i = .pdbl g rd ra ∨
            ∃ nb : BitVec 7, i = .pmul g rd ra rb nb ∧ 1 ≤ nb.toNat ∧ nb.toNat ≤ 32 ∧
              s.inRange rb.toNat 1 = true))) :
    exec i s = .next (s.offCurve [(rd.toNat, jw g)]).advance := by
  obtain ⟨rfl, hrb, hcb, hoff⟩ | ⟨rfl, hrb, hcb, hoff⟩ | ⟨hoff, rfl | ⟨nb, rfl, h1, h2, hrb⟩⟩ := hi
  · rw [o.validPoint_iff, o.validPoint_iff, ← not_and_or, ← Bool.and_eq_true] at hoff
    rw [padd_runs hv hbeta hra hrd hca hrb hcb, o.onGroup_eq, paddEffect]
    rw [o.storePoint_off _ hoff]
  · rw [o.validPoint_iff, o.validAffine_iff hbeta (o.readAff_all hcb), ← not_and_or, ← Bool.and_eq_true] at hoff
    rw [padda_runs hv hbeta hra hrd hca hrb hcb, o.onGroup_eq, paddaEffect]
    rw [o.storePoint_off _ hoff]
  · rw [o.validPoint_iff] at hoff
    rw [pdbl_runs hv hbeta hra hrd hca, o.onGroup_eq, pdblEffect]
    rw [o.storePoint_off _ hoff]
  · rw [o.validPoint_iff] at hoff
    rw [pmul_runs hv hbeta hra hrd hca h1 h2 hrb, o.onGroup_eq, pmulEffect]
    rw [o.storePoint_off _ hoff]

end

/-- Settles O34: each command's test of validity fails, and it fills its destination slots. -/
theorem offCurveCommandsComplete : Obligations.OffCurveCommandsComplete := by
  intro g s rd ra rb desc d i dests hv hbeta hd hi
  obtain ⟨α, _, K, El, o⟩ := s.groupField hv g
  refine offCurve_completes hv ?_
  obtain ⟨hra, hca, hrd, rfl, hi⟩ | ⟨hdesc, hbad, hbb, hapart, hi⟩ := hi
  · exact o.point_offCurve hv hbeta hra hca hrd hi
  obtain ⟨⟨hpb, hsb, hap, has, hcp⟩, ⟨w, rfl, hw, rfl, hcb, hn, hoff⟩ | ⟨rfl, hrd, rfl, hoff⟩⟩ |
    ⟨rfl, hrd, rfl, hcb, hoff⟩ := hi
  · have hvalid : ¬ (pointsValid K d s && bucketsValid K d s) = true := by
      rw [Bool.and_eq_true, o.pointsValid_iff hbeta hcp, o.bucketsValid_iff]
      rintro ⟨hp, hb⟩
      obtain ⟨j, hj, hne⟩ | ⟨b, hb', hne⟩ := hoff
      exacts [hne (hp j hj), hne (hb b hb')]
    rw [bktacc_runs hd hv hdesc hbad hbb hapart hbeta hpb hsb hap has hcp hw hcb, o.onGroup_eq, bktaccEffect,
      if_neg hn.ne', if_neg hvalid, o.bucketRange_eq]
  · have hvalid : ¬ pointsValid K d s = true := by
      rw [o.pointsValid_iff hbeta hcp]
      obtain ⟨j, hj, hne⟩ := hoff
      exact fun hp => hne (hp j hj)
    rw [msm_runs hd hv hdesc hbad hbb hapart hbeta hpb hsb hap has hcp hrd, o.onGroup_eq, msmEffect,
      if_neg hvalid, o.bucketRange_eq, o.jw_eq]
  · have hvalid : ¬ bucketsValid K d s = true := by
      rw [o.bucketsValid_iff]
      obtain ⟨b, hb, hne⟩ := hoff
      exact fun h => hne (h b hb)
    rw [bktred_runs hd hv hdesc hbad hbb hapart hbeta hrd hcb, o.onGroup_eq, bktredEffect, if_neg hvalid, o.jw_eq]

end Sys2Proof.Machine
end

section
/-! The checks of every command family in their order (60_exceptions.md R450, R455, R457): each list of checks
against its list of rows. -/

namespace Sys2Proof.Machine

set_option Elab.async false

/-! ### Lists of checks -/

/-- A command's rows, from its checks one by one. -/
theorem checksInOrder_of {i : Instr} {cs ds : List Check} {rss : List (List FaultRow)} {rows : List FaultRow}
    {eff : State → State} {s : State} (he : exec i s = command i ds eff s) (hd : firstTrap ds s = firstTrap cs s)
    (hr : List.Forall₂ (fun c rs => Raises c s rs) cs rss)
    (hk : (eff s).status = s.status ∧ (eff s).faultRec = s.faultRec) (hrows : rss.flatten = rows) :
    s.ChecksInOrder i rows := hrows ▸ checks_in_order he hd hr hk

theorem firstTrap_cons_congr {cs ds : List Check} {s : State} (c : Check)
    (h : firstTrap cs s = firstTrap ds s) : firstTrap (c :: cs) s = firstTrap (c :: ds) s := by
  rw [firstTrap, firstTrap, h]

/-- Checks taken as one group. -/
theorem firstTrap_group (cs ds : List Check) (s : State) :
    firstTrap (cs ++ ds) s = firstTrap (firstTrap cs :: ds) s := by
  induction cs with
  | nil => rfl
  | cons c cs ih =>
    cases h : c s with
    | some t => rw [List.cons_append, firstTrap_fails _ _ _ h, firstTrap_fails _ _ _ (firstTrap_fails _ _ _ h)]
    | none =>
      rw [List.cons_append, firstTrap_passes _ _ _ h, ih, firstTrap, firstTrap, firstTrap_passes _ _ _ h]

/-- A command that writes memory alone leaves STATUS and the fault record. -/
theorem Footprint.keeps {s u : State} {rs : List (Nat × Nat)} (h : Footprint s u rs) :
    u.advance.status = s.status ∧ u.advance.faultRec = s.faultRec := by
  rw [h.regs]
  exact ⟨rfl, rfl⟩

/-- The same with new flags. -/
theorem Footprint.keeps_flags {s u : State} {rs : List (Nat × Nat)} (f : Flags) (h : Footprint s u rs) :
    (u.setFlags f).advance.status = s.status ∧ (u.setFlags f).advance.faultRec = s.faultRec := by
  rw [h.regs]
  exact ⟨rfl, rfl⟩

theorem setFlags_keeps (s : State) (f : Flags) :
    (s.setFlags f).advance.status = s.status ∧ (s.setFlags f).advance.faultRec = s.faultRec := ⟨rfl, rfl⟩

theorem setSlot_foot (s : State) (i : Nat) (v : Word256) : Footprint s (s.setSlot i v) [(i, 1)] :=
  Footprint.setSlot s v (le_refl i) (Nat.lt_succ_self i) (.head [])

theorem storeElement_keeps (rd : SlotIx) (v : State → Nat) (s : State) :
    (storeElement rd v s).status = s.status ∧ (storeElement rd v s).faultRec = s.faultRec :=
  (setSlot_foot s rd.toNat _).keeps

/-! ### Limb, field and Fq2 commands -/

section

variable {s : State} {i : Instr} {c : FieldCtx} {rd ra rb : SlotIx}

theorem limb2_rows {f : Word256 → Word256 → Word256} {g : Flags → Word256 → Word256 → Flags}
    (he : exec i s = limb2 i rd ra rb f g s) :
    s.ChecksInOrder i [s.rangeRow ra.toNat 1, s.rangeRow rb.toNat 1, s.rangeRow rd.toNat 1] :=
  checksInOrder_of (he.trans (limb2_eq i rd ra rb f g s)) rfl
    (.cons (raises_range s _ _) (.cons (raises_range s _ _) (.cons (raises_range s _ _) .nil)))
    ((setSlot_foot s rd.toNat _).keeps_flags _) rfl

theorem limb1_rows {f : Word256 → Word256} (he : exec i s = limb1 i rd ra f s) :
    s.ChecksInOrder i [s.rangeRow ra.toNat 1, s.rangeRow rd.toNat 1] :=
  checksInOrder_of (he.trans (limb1_eq i rd ra f s)) rfl
    (.cons (raises_range s _ _) (.cons (raises_range s _ _) .nil)) ((setSlot_foot s rd.toNat _).keeps_flags _) rfl

theorem fieldChecks1_rows {v : State → Nat}
    (he : exec i s = command i (fieldChecks1 c rd ra) (storeElement rd v) s) :
    s.ChecksInOrder i ([s.ctxRow c, s.rangeRow ra.toNat 1, s.rangeRow rd.toNat 1] ++
      s.canonRows c ra.toNat 1) :=
  checksInOrder_of he rfl (.cons (raises_ctx s c) (.cons (raises_range s _ _) (.cons (raises_range s _ _)
    (.cons (raises_canon s _ _ _) .nil)))) (storeElement_keeps rd v s) rfl

theorem fieldChecks2_rows {v : State → Nat}
    (he : exec i s = command i (fieldChecks2 c rd ra rb) (storeElement rd v) s) :
    s.ChecksInOrder i ([s.ctxRow c, s.rangeRow ra.toNat 1, s.rangeRow rb.toNat 1, s.rangeRow rd.toNat 1] ++
      s.canonRows c ra.toNat 1 ++ s.canonRows c rb.toNat 1) :=
  checksInOrder_of he rfl (.cons (raises_ctx s c) (.cons (raises_range s _ _) (.cons (raises_range s _ _)
    (.cons (raises_range s _ _) (.cons (raises_canon s _ _ _) (.cons (raises_canon s _ _ _) .nil))))))
    (storeElement_keeps rd v s) rfl

theorem fq2Checks2_raises (s : State) (rd ra rb : SlotIx) :
    List.Forall₂ (fun c rs => Raises c s rs) (fq2Checks2 rd ra rb)
      [[s.ctxRow .fq], [s.rangeRow ra.toNat 2], [s.rangeRow rb.toNat 2], [s.rangeRow rd.toNat 2],
        s.canonRows .fq ra.toNat 2, s.canonRows .fq rb.toNat 2] :=
  .cons (raises_ctx s _) (.cons (raises_range s _ _) (.cons (raises_range s _ _)
    (.cons (raises_range s _ _) (.cons (raises_canon s _ _ _) (.cons (raises_canon s _ _ _) .nil)))))

theorem fq2Checks1_raises (s : State) (rd ra : SlotIx) :
    List.Forall₂ (fun c rs => Raises c s rs) (fq2Checks1 rd ra)
      [[s.ctxRow .fq], [s.rangeRow ra.toNat 2], [s.rangeRow rd.toNat 2], s.canonRows .fq ra.toNat 2] :=
  .cons (raises_ctx s _) (.cons (raises_range s _ _) (.cons (raises_range s _ _)
    (.cons (raises_canon s _ _ _) .nil)))

theorem setFq2_keeps (s : State) (b : Nat) (v : Fq2) :
    (s.setFq2 b v).advance.status = s.status ∧ (s.setFq2 b v).advance.faultRec = s.faultRec :=
  (Footprint.setXs s [v.c0, v.c1] (le_refl b) (le_refl _) (.head [])).keeps

end

/-- Settles O27: the checks of each command, one row or one group of rows each. -/
theorem operandChecksInOrder : Obligations.OperandChecksInOrder := by
  intro s c rd ra rb f n m imm
  have hrecord := raises_record s c ra.toNat
  refine ⟨?_, ?_, ?_, ?_, ?_, ?_, ?_, ?_, ?_, ?_, ?_, ?_, ?_, ?_, ?_, ?_, ?_⟩
  · simp only [List.mem_cons, List.not_mem_nil, or_false]
    rintro i (rfl | rfl | rfl)
    exacts [fieldChecks2_rows (exec_fmul c rd ra rb s), fieldChecks2_rows (exec_fadd c rd ra rb s),
      fieldChecks2_rows (exec_fsub c rd ra rb s)]
  · exact checksInOrder_of (exec_fmulw c rd ra rb s) rfl (.cons (raises_ctx s c) (.cons (raises_range s _ _)
      (.cons (raises_range s _ _) (.cons (raises_range s _ _) (.cons (raises_canon s _ _ _) .nil)))))
      (storeElement_keeps rd _ s) rfl
  · simp only [List.mem_cons, List.not_mem_nil, or_false]
    rintro i (rfl | rfl | rfl | rfl)
    exacts [fieldChecks1_rows (exec_fsqr c rd ra s), fieldChecks1_rows (exec_fneg c rd ra s),
      fieldChecks1_rows (exec_ftom c rd ra s), fieldChecks1_rows (exec_ffromm c rd ra s)]
  · exact checksInOrder_of (exec_norm c rd ra f s)
      (firstTrap_cons_congr _ (firstTrap_cons_congr _ (firstTrap_cons_congr _
        (firstTrap_group [checkTag _, checkRecordValue c _] [] s))))
      (.cons (raises_ctx s c) (.cons (raises_range s _ _) (.cons (raises_range s _ _) (.cons hrecord .nil))))
      (storeElement_keeps rd _ s) rfl
  · exact checksInOrder_of (exec_feisz c ra s)
      (firstTrap_cons_congr _ (firstTrap_cons_congr _ (firstTrap_group [checkTag _, checkRecordValue c _] [] s)))
      (.cons (raises_ctx s c) (.cons (raises_range s _ _) (.cons hrecord .nil))) (setFlags_keeps s _) rfl
  · simp only [List.mem_cons, List.not_mem_nil, or_false]
    rintro i (rfl | rfl)
    · exact checksInOrder_of (exec_e2add rd ra rb s) rfl (fq2Checks2_raises s rd ra rb)
        (setFq2_keeps s _ _) rfl
    · exact checksInOrder_of (exec_e2sub rd ra rb s) rfl (fq2Checks2_raises s rd ra rb)
        (setFq2_keeps s _ _) rfl
  · exact checksInOrder_of (exec_e2mul rd ra rb s) rfl
      (List.rel_append (fq2Checks2_raises s rd ra rb) (.cons (raises_register s (·.beta)) .nil))
      (setFq2_keeps s _ _) rfl
  · exact checksInOrder_of (exec_e2neg rd ra s) rfl (fq2Checks1_raises s rd ra) (setFq2_keeps s _ _) rfl
  · exact checksInOrder_of (exec_e2sqr rd ra s) rfl
      (List.rel_append (fq2Checks1_raises s rd ra) (.cons (raises_register s (·.beta)) .nil))
      (setFq2_keeps s _ _) rfl
  · exact checksInOrder_of (exec_e2eq ra rb s) rfl (.cons (raises_ctx s _) (.cons (raises_range s _ _)
      (.cons (raises_range s _ _) (.cons (raises_canon s _ _ _) (.cons (raises_canon s _ _ _) .nil)))))
      (setFlags_keeps s _) rfl
  · exact checksInOrder_of (exec_e2isz ra s) rfl (.cons (raises_ctx s _) (.cons (raises_range s _ _)
      (.cons (raises_canon s _ _ _) .nil))) (setFlags_keeps s _) rfl
  · simp only [List.mem_cons, List.not_mem_nil, or_false]
    rintro i (rfl | rfl | rfl | rfl | rfl)
    exacts [limb2_rows (exec_ladd rd ra rb s), limb2_rows (exec_lsub rd ra rb s),
      limb2_rows (exec_land rd ra rb s), limb2_rows (exec_lor rd ra rb s), limb2_rows (exec_lxor rd ra rb s)]
  · exact checksInOrder_of (exec_lcmp ra rb s) rfl
      (.cons (raises_range s _ _) (.cons (raises_range s _ _) .nil)) (setFlags_keeps s _) rfl
  · simp only [List.mem_cons, List.not_mem_nil, or_false]
    rintro i (rfl | rfl | rfl)
    exacts [limb1_rows (exec_lshl rd ra m s), limb1_rows (exec_lshr rd ra m s), limb1_rows (exec_lnot rd ra s)]
  · exact checksInOrder_of (exec_lisz ra s) rfl (.cons (raises_range s _ _) .nil) (setFlags_keeps s _) rfl
  · exact checksInOrder_of (exec_mov rd ra n s) rfl
      (.cons (raises_range s _ _) (.cons (raises_range s _ _) .nil))
      (Footprint.setSlots s _ (le_refl _) (le_refl _) (.head [])).keeps rfl
  · exact checksInOrder_of (exec_limm rd imm s) rfl (.cons (raises_range s _ _) .nil)
      (setSlot_foot s rd.toNat _).keeps rfl

/-! ### Curve commands -/

section

variable {α : Type} [DecidableEq α] {K : CoordField α} (hK : K.Laid) (s : State)

theorem offCurve_keeps (rs : List (Nat × Nat)) :
    (s.offCurve rs).advance.status = s.status ∧ (s.offCurve rs).advance.faultRec = s.faultRec := by
  rw [(s.offCurve_footprint rs).regs]
  exact ⟨rfl, rfl⟩

include hK

omit [DecidableEq α] in
theorem writeJac_keeps (d : Nat) (p : Jac α) :
    (writeJac K s d p).advance.status = s.status ∧ (writeJac K s d p).advance.faultRec = s.faultRec :=
  (Footprint.writeJac hK s p (le_refl _) (le_refl _) (.head [])).keeps

omit [DecidableEq α] in
theorem storePoint_keeps (valid : Bool) (d : Nat) (p : Jac α) :
    (storePoint K valid d p s).advance.status = s.status ∧
      (storePoint K valid d p s).advance.faultRec = s.faultRec := by
  rw [storePoint]
  split
  exacts [writeJac_keeps hK s d p, offCurve_keeps s _]

theorem bktaccEffect_keeps (d : Desc) (w : Nat) : (bktaccEffect K d w s).advance.status = s.status ∧
    (bktaccEffect K d w s).advance.faultRec = s.faultRec := by
  rw [bktaccEffect]
  split
  · exact ⟨rfl, rfl⟩
  split
  exacts [(Footprint.accWindow hK d w s (.head [])).keeps, offCurve_keeps s _]

theorem bktredEffect_keeps (d : Desc) (rd : Nat) : (bktredEffect K d rd s).advance.status = s.status ∧
    (bktredEffect K d rd s).advance.faultRec = s.faultRec := by
  rw [bktredEffect]
  split
  exacts [writeJac_keeps hK s _ _, offCurve_keeps s _]

theorem msmEffect_keeps (d : Desc) (rd : Nat) : (msmEffect K d rd s).advance.status = s.status ∧
    (msmEffect K d rd s).advance.faultRec = s.faultRec := by
  rw [msmEffect]
  split
  · have hloop := Footprint.msmWindows hK d s (rs := [bucketRange K d, (rd, 3 * K.width)]) (.head _)
    exact (hloop.trans (Footprint.writeJac hK _ _ (le_refl _) (le_refl _) (.tail _ (.head [])))).keeps
  · exact offCurve_keeps s _

end

/-- What holds of the effect in both groups holds of `onGroup`. -/
theorem onGroup_keeps {g : Group} {s : State}
    {F : (α : Type) → [DecidableEq α] → CoordField α → State}
    (h : ∀ (α : Type) [DecidableEq α] (K : CoordField α), K.Laid →
      (F α K).advance.status = s.status ∧ (F α K).advance.faultRec = s.faultRec) :
    (onGroup g s F).advance.status = s.status ∧ (onGroup g s F).advance.faultRec = s.faultRec := by
  cases g
  exacts [h Nat _ (g1Field_laid s), h Fq2 _ (g2Field_laid s)]

/-- Settles O40: the checks of each command, one row or one group of rows each. -/
theorem curveChecksInOrder : Obligations.CurveChecksInOrder := by
  intro g s rd ra rb
  refine ⟨?_, ?_, ?_, ?_, ?_, ?_, ?_, ?_, fun nb h1 h2 => ?_⟩
  · exact checksInOrder_of (exec_padd g rd ra rb s) rfl (.cons (raises_ctx s _) (.cons (raises_range s _ _)
      (.cons (raises_range s _ _) (.cons (raises_range s _ _) (.cons (raises_canon s _ _ _)
      (.cons (raises_canon s _ _ _) (.cons (raises_betaG2 s g) .nil)))))))
      (onGroup_keeps fun _ _ K hK => storePoint_keeps hK s _ _ _) (by simp)
  · exact checksInOrder_of (exec_padda g rd ra rb s) rfl (.cons (raises_ctx s _) (.cons (raises_range s _ _)
      (.cons (raises_range s _ _) (.cons (raises_range s _ _) (.cons (raises_canon s _ _ _)
      (.cons (raises_canon s _ _ _) (.cons (raises_betaG2 s g) .nil)))))))
      (onGroup_keeps fun _ _ K hK => storePoint_keeps hK s _ _ _) (by simp)
  · exact checksInOrder_of (exec_pdbl g rd ra s) rfl (.cons (raises_ctx s _) (.cons (raises_range s _ _)
      (.cons (raises_range s _ _) (.cons (raises_canon s _ _ _) (.cons (raises_betaG2 s g) .nil)))))
      (onGroup_keeps fun _ _ K hK => storePoint_keeps hK s _ _ _) (by simp)
  · exact checksInOrder_of (exec_pneg g rd ra s) rfl (.cons (raises_ctx s _) (.cons (raises_range s _ _)
      (.cons (raises_range s _ _) (.cons (raises_canon s _ _ _) .nil))))
      (onGroup_keeps fun _ _ K hK => writeJac_keeps hK s _ _) (by simp)
  · exact checksInOrder_of (exec_pisz g ra s) rfl (.cons (raises_ctx s _) (.cons (raises_range s _ _)
      (.cons (raises_canon s _ _ _) .nil))) (setFlags_keeps s _) (by simp)
  · exact checksInOrder_of (exec_ponc g ra s) rfl (.cons (raises_ctx s _) (.cons (raises_range s _ _)
      (.cons (raises_canon s _ _ _) (.cons (raises_betaG2 s g) (.cons (raises_constant s g) .nil)))))
      (setFlags_keeps s _) (by simp)
  · exact checksInOrder_of (exec_pfroma g rd ra s) rfl (.cons (raises_ctx s _) (.cons (raises_range s _ _)
      (.cons (raises_range s _ _) (.cons (raises_canon s _ _ _) .nil))))
      (onGroup_keeps fun _ _ K hK => writeJac_keeps hK s _ _) (by simp)
  · exact checksInOrder_of (exec_peq g ra rb s) rfl (.cons (raises_ctx s _) (.cons (raises_range s _ _)
      (.cons (raises_range s _ _) (.cons (raises_canon s _ _ _) (.cons (raises_canon s _ _ _)
      (.cons (raises_betaG2 s g) .nil)))))) (setFlags_keeps s _) (by simp)
  · exact checksInOrder_of (exec_pmul g rd ra rb nb s)
      (firstTrap_passes _ _ _ (checkNbytes_passes h1 h2 s)) (.cons (raises_ctx s _)
      (.cons (raises_range s _ _) (.cons (raises_range s _ _) (.cons (raises_range s _ _)
      (.cons (raises_canon s _ _ _) (.cons (raises_betaG2 s g) .nil))))))
      (onGroup_keeps fun _ _ K hK => storePoint_keeps hK s _ _ _) (by simp)

end Sys2Proof.Machine
end

section
/-! The checks of the bucket commands and of the transforms in their order (46_msm.md R390-R398; 47_fft.md
R422-R429). -/

namespace Sys2Proof.Machine

set_option Elab.async false

/-! ### Bucket commands -/

/-- A check that does in `s` what another one does. -/
theorem Raises.of_eq {c c' : Check} {s : State} {rs : List FaultRow} (h : c s = c' s) (hr : Raises c' s rs) :
    Raises c s rs := fun t w rest h1 h2 => hr t w rest (fun u hu => h1 u (h.trans hu)) fun hn => h2 (h.trans hn)

section

variable (s : State) (g : Group) (i : Nat)

theorem raises_points :
    Raises (checkPoints g i) s [s.rangeRow (s.desc i).pb ((s.desc i).n * aw g)] :=
  .of_eq (c' := checkRange (s.desc i).pb ((s.desc i).n * aw g)) (by rw [checkPoints]) (raises_range s _ _)

theorem raises_scalars : Raises (checkScalars i) s [s.rangeRow (s.desc i).sb (s.desc i).n] :=
  .of_eq (c' := checkRange (s.desc i).sb (s.desc i).n) (by rw [checkScalars]) (raises_range s _ _)

theorem raises_buckets :
    Raises (checkBuckets g i) s [s.rangeRow (s.desc i).bb ((s.desc i).nb * jw g)] :=
  .of_eq (c' := checkRange (s.desc i).bb ((s.desc i).nb * jw g)) (by rw [checkBuckets]) (raises_range s _ _)

theorem raises_bucketsDesc :
    Raises (checkBucketsDesc g i) s [overlapRow (s.desc i).bb ((s.desc i).nb * jw g) i 1] :=
  .of_eq (c' := checkApart (s.desc i).bb ((s.desc i).nb * jw g) i 1) (by rw [checkBucketsDesc])
    (raises_apart s _ _ _ _)

theorem raises_bucketsPoints : Raises (checkBucketsPoints g i) s
    [overlapRow (s.desc i).bb ((s.desc i).nb * jw g) (s.desc i).pb ((s.desc i).n * aw g)] :=
  .of_eq (c' := checkApart (s.desc i).bb ((s.desc i).nb * jw g) (s.desc i).pb ((s.desc i).n * aw g))
    (by rw [checkBucketsPoints]) (raises_apart s _ _ _ _)

theorem raises_bucketsScalars : Raises (checkBucketsScalars g i) s
    [overlapRow (s.desc i).bb ((s.desc i).nb * jw g) (s.desc i).sb (s.desc i).n] :=
  .of_eq (c' := checkApart (s.desc i).bb ((s.desc i).nb * jw g) (s.desc i).sb (s.desc i).n)
    (by rw [checkBucketsScalars]) (raises_apart s _ _ _ _)

theorem raises_pointsCanon :
    Raises (checkPointsCanon g i) s (s.canonRows .fq (s.desc i).pb ((s.desc i).n * aw g)) :=
  .of_eq (c' := checkCanon .fq (s.desc i).pb ((s.desc i).n * aw g)) (by rw [checkPointsCanon])
    (raises_canon s _ _ _)

theorem raises_bucketsCanon :
    Raises (checkBucketsCanon g i) s (s.canonRows .fq (s.desc i).bb ((s.desc i).nb * jw g)) :=
  .of_eq (c' := checkCanon .fq (s.desc i).bb ((s.desc i).nb * jw g)) (by rw [checkBucketsCanon])
    (raises_canon s _ _ _)

end

/-- Settles O45: the fields the checks read are those of the descriptor's bits. -/
theorem descriptorChecksInOrder : Obligations.DescriptorChecksInOrder := by
  intro g s rd desc w v n pb sb bb c nb hv hn hpb hsb hbb hc hnb
  have hd : s.desc desc.toNat = { n := n, pb := pb, sb := sb, bb := bb, c := c } := by
    rw [s.desc_eq, ← hv, descriptorOf, ← hn, ← hpb, ← hsb, ← hbb, ← hc]
  have hwindow := raises_window s desc.toNat w.toNat
  have hinfo : BitVec.ofNat 32 desc.toNat = desc.setWidth 32 := slotInfo_slotIx desc
  rw [hinfo, ← hv, ← hc] at hwindow
  refine ⟨?_, ?_, ?_, ?_⟩
  · exact checksInOrder_of (exec_bktclr g desc s) rfl (.cons (raises_ctx s _) (.cons (raises_range s _ _)
      (.cons (raises_descriptor s _) (.cons (raises_buckets s g _) (.cons (raises_bucketsDesc s g _) .nil)))))
      (onGroup_keeps fun _ _ K hK => (Footprint.clearBuckets hK _ s (.head [])).keeps)
      (by simp [hd, Desc.nb, hnb])
  · exact checksInOrder_of (exec_bktacc g desc w s)
      (firstTrap_cons_congr _ (firstTrap_cons_congr _
        (firstTrap_group [checkDesc desc.toNat, checkWindow desc.toNat w.toNat] _ s)))
      (.cons (raises_ctx s _) (.cons (raises_range s _ _) (.cons hwindow (.cons (raises_points s g _)
      (.cons (raises_scalars s _) (.cons (raises_buckets s g _) (.cons (raises_bucketsDesc s g _)
      (.cons (raises_bucketsPoints s g _) (.cons (raises_bucketsScalars s g _)
      (.cons (raises_pointsCanon s g _) (.cons (raises_bucketsCanon s g _)
      (.cons (raises_betaG2 s g) .nil))))))))))))
      (onGroup_keeps fun _ _ K hK => bktaccEffect_keeps hK s _ _) (by simp [hd, Desc.nb, hnb])
  · exact checksInOrder_of (exec_bktred g rd desc s) rfl (.cons (raises_ctx s _) (.cons (raises_range s _ _)
      (.cons (raises_range s _ _) (.cons (raises_descriptor s _) (.cons (raises_buckets s g _)
      (.cons (raises_bucketsDesc s g _) (.cons (raises_bucketsCanon s g _)
      (.cons (raises_betaG2 s g) .nil))))))))
      (onGroup_keeps fun _ _ K hK => bktredEffect_keeps hK s _ _) (by simp [hd, Desc.nb, hnb])
  · exact checksInOrder_of (exec_msm g rd desc s) rfl (.cons (raises_ctx s _) (.cons (raises_range s _ _)
      (.cons (raises_range s _ _) (.cons (raises_descriptor s _) (.cons (raises_points s g _)
      (.cons (raises_scalars s _) (.cons (raises_buckets s g _) (.cons (raises_bucketsDesc s g _)
      (.cons (raises_bucketsPoints s g _) (.cons (raises_bucketsScalars s g _)
      (.cons (raises_pointsCanon s g _) (.cons (raises_betaG2 s g) .nil))))))))))))
      (onGroup_keeps fun _ _ K hK => msmEffect_keeps hK s _ _) (by simp [hd, Desc.nb, hnb])

/-! ### Transforms -/

theorem raises_domain (s : State) (k : BitVec 7) : Raises (checkDomain k) s
    [{ fails := s.cfg.rootMaxlog.toNat < k.toNat, cause := 7, info := k.setWidth 32 }] :=
  .one { cause := .domain, info := k.setWidth 32 } (fun h => if_pos h) (fun h => if_neg h) rfl rfl

/-- The rows of a transform with its table at register `t`. -/
theorem fftChecks_rows {s : State} {i : Instr} {base : SlotIx} {k : BitVec 7} {t : ConfigRegs → BitVec 16}
    {eff : State → State} (he : exec i s = command i (fftChecks base k t) eff s)
    (hk : (eff s).status = s.status ∧ (eff s).faultRec = s.faultRec) :
    s.ChecksInOrder i ([s.ctxRow .fr,
      { fails := s.cfg.rootMaxlog.toNat < k.toNat, cause := 7, info := k.setWidth 32 },
      s.rangeRow base.toNat (2 ^ k.toNat), s.rangeRow (t s.cfg).toNat (2 ^ k.toNat - 1),
      overlapRow base.toNat (2 ^ k.toNat) (t s.cfg).toNat (2 ^ k.toNat - 1)] ++
      s.canonRows .fr base.toNat (2 ^ k.toNat) ++ s.canonRows .fr (t s.cfg).toNat (2 ^ k.toNat - 1)) := by
  have htable : Raises (fun s => checkRange (t s.cfg).toNat (2 ^ k.toNat - 1) s) s
      [s.rangeRow (t s.cfg).toNat (2 ^ k.toNat - 1)] :=
    .of_eq (c' := checkRange (t s.cfg).toNat (2 ^ k.toNat - 1)) rfl (raises_range s _ _)
  have hapart : Raises (fun s => checkApart base.toNat (2 ^ k.toNat) (t s.cfg).toNat (2 ^ k.toNat - 1) s) s
      [overlapRow base.toNat (2 ^ k.toNat) (t s.cfg).toNat (2 ^ k.toNat - 1)] :=
    .of_eq (c' := checkApart base.toNat (2 ^ k.toNat) (t s.cfg).toNat (2 ^ k.toNat - 1)) rfl
      (raises_apart s _ _ _ _)
  have hcanon : Raises (fun s => checkCanon .fr (t s.cfg).toNat (2 ^ k.toNat - 1) s) s
      (s.canonRows .fr (t s.cfg).toNat (2 ^ k.toNat - 1)) :=
    .of_eq (c' := checkCanon .fr (t s.cfg).toNat (2 ^ k.toNat - 1)) rfl (raises_canon s _ _ _)
  exact checksInOrder_of he rfl (.cons (raises_ctx s _) (.cons (raises_domain s k) (.cons (raises_range s _ _)
    (.cons htable (.cons hapart (.cons (raises_canon s _ _ _) (.cons hcanon .nil))))))) hk (by simp)

/-- Settles O51: the checks of each command, one row or one group of rows each. -/
theorem transformChecksInOrder : Obligations.TransformChecksInOrder := by
  rintro s base rd ra rb k _ rfl
  refine ⟨?_, ?_, fun i table hmem => ?_⟩
  · exact checksInOrder_of (exec_bfly rd ra rb s) rfl (.cons (raises_ctx s _) (.cons (raises_range s _ _)
      (.cons (raises_range s _ _) (.cons (raises_range s _ _) (.cons (raises_canon s _ _ _)
      (.cons (raises_canon s _ _ _) (.cons (raises_canon s _ _ _) .nil)))))))
      (Footprint.keeps (rs := [(rd.toNat, 1), (ra.toNat, 1)])
        ((Footprint.setX s _ (le_refl _) (Nat.lt_succ_self _) (.head _)).trans
          (Footprint.setX _ _ (le_refl _) (Nat.lt_succ_self _) (.tail _ (.head []))))) (by simp)
  · exact checksInOrder_of (exec_bitrev base k s) rfl (.cons (raises_range s _ _) .nil)
      (Footprint.bitReverse _ _ s (.head [])).keeps (by simp)
  · simp only [List.mem_cons, List.not_mem_nil, or_false, Prod.mk.injEq] at hmem
    obtain ⟨rfl, rfl⟩ | ⟨rfl, rfl⟩ := hmem
    · exact fftChecks_rows (t := (·.rootBase)) (exec_fft base k s)
        (Footprint.fftCore _ _ _ s (.head [])).keeps
    · exact fftChecks_rows (t := (·.irootBase)) (exec_ifft base k s)
        ((Footprint.fftCore _ _ _ s (.head [])).trans (Footprint.scaleVector _ _ _ _ (.head []))).keeps

end Sys2Proof.Machine
end

section
/-! BFLY and BITREV (47_fft.md R425, R427), and the operations of the transforms as functions on the values of
the slots. -/

namespace Sys2Proof.Machine

set_option Elab.async false

/-! ### The slots' values as a function -/

theorem State.x_setX (s : State) (i v : Nat) : (s.setX i v).x = Function.update s.x i (v % 2 ^ 256) := by
  funext j
  by_cases h : j = i
  · rw [h, Function.update_self, State.x, State.setX, State.slot_setSlot_same, BitVec.toNat_ofNat]
  · rw [Function.update_of_ne h, State.x_setX_ne s v h]

/-- A loop over states whose rounds act on the slots' values as a function does. -/
theorem x_iter {n : Nat} {f : Nat → State → State} {g : Nat → (Nat → Nat) → Nat → Nat} (P : State → Prop)
    {s : State} (hs : P s) (hP : ∀ i t, i < n → P t → P (f i t))
    (h : ∀ i t, i < n → P t → (f i t).x = g i t.x) : (iter n f s).x = iter n g s.x ∧ P (iter n f s) := by
  induction n with
  | zero => exact ⟨rfl, hs⟩
  | succ n ih =>
    obtain ⟨hx, hp⟩ := ih (fun i t hi => hP i t (Nat.lt_succ_of_lt hi)) fun i t hi => h i t (Nat.lt_succ_of_lt hi)
    rw [iter_succ, iter_succ, h n _ (Nat.lt_succ_self n) hp, hx]
    exact ⟨rfl, hP n _ (Nat.lt_succ_self n) hp⟩

/-! ### One butterfly (47_fft.md R425) -/

/-- A butterfly on the slots' values: `u + t` to `a`, then `u − t` to `b`. -/
def butterflyFn (k : Ctx) (a b w : Nat) (x : Nat → Nat) : Nat → Nat :=
  Function.update (Function.update x a (addq k.q.toNat (x a) (mont k (x w) (x b)) % 2 ^ 256)) b
    (subq k.q.toNat (x a) (mont k (x w) (x b)) % 2 ^ 256)

theorem x_butterfly (a b w : Nat) (t : State) :
    (butterfly a b w t).x = butterflyFn (t.ctx .fr) a b w t.x := by
  rw [butterfly, State.x_setX, State.x_setX]
  rfl

theorem butterflyFn_lower (k : Ctx) (a b w : Nat) (x : Nat → Nat) :
    butterflyFn k a b w x b = subq k.q.toNat (x a) (mont k (x w) (x b)) % 2 ^ 256 := Function.update_self ..

theorem butterflyFn_upper (k : Ctx) {a b : Nat} (w : Nat) (x : Nat → Nat) (h : a ≠ b) :
    butterflyFn k a b w x a = addq k.q.toNat (x a) (mont k (x w) (x b)) % 2 ^ 256 := by
  rw [butterflyFn, Function.update_of_ne h, Function.update_self]

theorem butterflyFn_other (k : Ctx) {a b c : Nat} (w : Nat) (x : Nat → Nat) (ha : c ≠ a) (hb : c ≠ b) :
    butterflyFn k a b w x c = x c := by
  rw [butterflyFn, Function.update_of_ne hb, Function.update_of_ne ha]

/-- Settles O46: the two results, the second written last. -/
theorem butterflyResult : Obligations.ButterflyResult := by
  intro s rd ra rb hv hrd hra hrb hcd hca hcb
  have hd := hcd.one
  have hp : mont (s.ctx .fr) (s.x rb.toNat) (s.x ra.toNat) < s.q .fr := mont_lt _ hv _ hca.one
  have hexec := command_runs (exec_bfly rd ra rb s) (by simp [hv, hrd, hra, hrb, hcd, hca, hcb])
  have hfoot : Footprint s (butterfly rd.toNat ra.toNat rb.toNat s) [(rd.toNat, 1), (ra.toNat, 1)] :=
    (Footprint.setX s _ (le_refl _) (Nat.lt_succ_self _) (.head _)).trans
      (Footprint.setX _ _ (le_refl _) (Nat.lt_succ_self _) (.tail _ (.head [])))
  refine ⟨_, hexec, hfoot.wrote, _, hp, mont_modEq _ hv _ hcb.one, fun hne => ?_, ?_⟩
  · have hne' : rd.toNat ≠ ra.toNat := fun h => hne (BitVec.eq_of_toNat_eq h)
    rw [State.x_advance, x_butterfly, butterflyFn_upper _ _ _ hne', ← State.q_eq,
      Nat.mod_eq_of_lt ((addq_lt hd hp).trans (s.q_lt .fr))]
    exact addq_eq_mod hd hp
  · rw [State.x_advance, x_butterfly, butterflyFn_lower, ← State.q_eq,
      Nat.mod_eq_of_lt ((subq_lt hd hp).trans (s.q_lt .fr))]
    exact subq_eq_mod hd hp

/-! ### The bit reversal (47_fft.md R427) -/

/-- After the rounds below `n`, the pairs with an index below `n` are swapped. -/
theorem bitReverse_partial (base k : Nat) (s : State) (n : Nat) (hn : n ≤ 2 ^ k) (i : Nat) (hi : i < 2 ^ k) :
    (iter n (bitrevStep base k) s).x (base + i) =
      s.x (base + if min i (revBits k i) < n then revBits k i else i) := by
  induction n generalizing i with
  | zero => rw [iter_zero, if_neg (Nat.not_lt_zero _)]
  | succ n ih =>
    have ih := ih (Nat.le_of_succ_le hn)
    have hrn := revBits_lt k n
    have hinv := revBits_revBits (Nat.lt_of_succ_le hn)
    have hinv' := revBits_revBits hi
    rw [iter_succ, bitrevStep]
    by_cases hswap : n < revBits k n
    · rw [if_pos hswap, State.x_setX, State.x_setX, Nat.mod_eq_of_lt (State.x_lt _ _),
        Nat.mod_eq_of_lt (State.x_lt _ _)]
      by_cases h1 : i = revBits k n
      · rw [h1, Function.update_self, ih n (by omega), hinv, if_neg (by omega), if_pos (by omega)]
      by_cases h2 : i = n
      · rw [h2, Function.update_of_ne (by omega), Function.update_self, ih _ hrn, hinv, if_neg (by omega),
          if_pos (by omega)]
      · have hne : revBits k i ≠ n := fun h => h1 (by rw [← h, hinv'])
        rw [Function.update_of_ne (by omega), Function.update_of_ne (by omega), ih i hi]
        congr 2
        exact if_congr (by omega) rfl rfl
    · rw [if_neg hswap, ih i hi]
      congr 1
      by_cases h : min i (revBits k i) = n
      · have hself : revBits k i = i := by
          rcases Nat.le_total i (revBits k i) with h' | h'
          · rw [Nat.min_eq_left h'] at h
            rw [h] at h' ⊢
            omega
          · rw [Nat.min_eq_right h'] at h
            rw [← h, hinv'] at hswap
            omega
        rw [hself, ite_self, ite_self]
      · exact congrArg _ (if_congr (by omega) rfl rfl)

theorem bitReverse_x (base k : Nat) (s : State) {i : Nat} (hi : i < 2 ^ k) :
    (bitReverse base k s).x (base + i) = s.x (base + revBits k i) := by
  rw [bitReverse, bitReverse_partial base k s _ (le_refl _) i hi,
    if_pos (Nat.lt_of_le_of_lt (Nat.min_le_left _ _) hi)]

/-- Settles O48: the loop swaps every pair once. -/
theorem bitReversalPermutes : Obligations.BitReversalPermutes := by
  intro s base k hrange
  refine ⟨_, command_runs (exec_bitrev base k s) (by simp [hrange]),
    (Footprint.bitReverse base.toNat k.toNat s (.head [])).wrote, fun i hi => ?_⟩
  rw [State.x_advance, bitReverse_x _ _ _ hi]

end Sys2Proof.Machine
end

section
/-! FFT and IFFT (47_fft.md R428-R430): the in-place stages as functions on the slots' values, their butterflies
independent of each other, and the recursion they compute. -/

namespace Sys2Proof.Machine

set_option Elab.async false

/-! ### Independent rounds -/

/-- `g` changes the slots of `D` alone, by what stands in `D` and `C`. -/
structure ActsOn (g : (Nat → Nat) → Nat → Nat) (D C : Nat → Prop) : Prop where
  frame : ∀ x a, ¬ D a → g x a = x a
  reads : ∀ x y, (∀ a, D a ∨ C a → x a = y a) → ∀ a, D a → g x a = g y a

/-- Rounds on disjoint slots, which read no slot of another, each act as if alone. -/
theorem iter_apart {n : Nat} {g : Nat → (Nat → Nat) → Nat → Nat} {D : Nat → Nat → Prop} {C : Nat → Prop}
    (h : ∀ i, i < n → ActsOn (g i) (D i) C) (hD : ∀ i j a, i < n → j < n → D i a → D j a → i = j)
    (hC : ∀ i a, i < n → D i a → ¬ C a) (x : Nat → Nat) :
    (∀ i a, i < n → D i a → iter n g x a = g i x a) ∧
      ∀ a, (∀ i, i < n → ¬ D i a) → iter n g x a = x a := by
  induction n with
  | zero => exact ⟨fun i a hi => absurd hi (Nat.not_lt_zero i), fun a _ => rfl⟩
  | succ n ih =>
    have hn := Nat.lt_succ_self n
    obtain ⟨hin, hout⟩ := ih (fun i hi => h i (hi.trans hn))
      (fun i j a hi hj => hD i j a (hi.trans hn) (hj.trans hn))
      fun i a hi => hC i a (hi.trans hn)
    refine ⟨fun i a hi ha => ?_, fun a ha => ?_⟩
    · rw [iter_succ]
      obtain hlt | rfl := Nat.lt_succ_iff_lt_or_eq.1 hi
      · rw [(h n hn).frame _ _ fun hna => hlt.ne (hD i n a hi hn ha hna), hin i a hlt ha]
      · refine (h i hi).reads _ _ (fun c hc => hout c fun j hj hjc => ?_) a ha
        obtain hc | hc := hc
        · exact hj.ne (hD j i c (hj.trans hn) hn hjc hc)
        · exact hC j c (hj.trans hn) hjc hc
    · rw [iter_succ, (h n hn).frame _ _ (ha n hn), hout a fun i hi => ha i (hi.trans hn)]

theorem ActsOn.iter {n : Nat} {g : Nat → (Nat → Nat) → Nat → Nat} {D : Nat → Nat → Prop} {C : Nat → Prop}
    (h : ∀ i, i < n → ActsOn (g i) (D i) C) (hD : ∀ i j a, i < n → j < n → D i a → D j a → i = j)
    (hC : ∀ i a, i < n → D i a → ¬ C a) : ActsOn (Machine.iter n g) (fun a => ∃ i, i < n ∧ D i a) C where
  frame x a ha := (iter_apart h hD hC x).2 a fun i hi hia => ha ⟨i, hi, hia⟩
  reads x y hxy a ha := by
    obtain ⟨i, hi, hia⟩ := ha
    rw [(iter_apart h hD hC x).1 i a hi hia, (iter_apart h hD hC y).1 i a hi hia]
    exact (h i hi).reads x y (fun c hc => hxy c (hc.imp (fun hc => ⟨i, hi, hc⟩) id)) a hia

theorem butterflyFn_actsOn (k : Ctx) (a b w : Nat) {C : Nat → Prop} (hw : C w) :
    ActsOn (butterflyFn k a b w) (fun c => c = a ∨ c = b) C where
  frame x c hc := butterflyFn_other k w x (fun h => hc (.inl h)) fun h => hc (.inr h)
  reads x y hxy c hc := by
    have ha := hxy a (.inl (.inl rfl))
    have hb := hxy b (.inl (.inr rfl))
    have hw := hxy w (.inr hw)
    by_cases hcb : c = b
    · rw [hcb, butterflyFn_lower, butterflyFn_lower, ha, hb, hw]
    · obtain rfl := hc.resolve_right hcb
      rw [butterflyFn_upper _ _ _ hcb, butterflyFn_upper _ _ _ hcb, ha, hb, hw]

/-! ### One stage (47_fft.md R428) -/

/-- Butterfly `j` of block `blk` of a stage, on the slots' values. -/
def stageRound (kx : Ctx) (base t stage blk j : Nat) : (Nat → Nat) → Nat → Nat :=
  butterflyFn kx (base + blk * 2 ^ (stage + 1) + j) (base + blk * 2 ^ (stage + 1) + j + 2 ^ stage)
    (rootSlot t stage j)

/-- A stage on the slots' values. -/
def stageFn (kx : Ctx) (base k t stage : Nat) : (Nat → Nat) → Nat → Nat :=
  iter (2 ^ (k - 1 - stage)) fun blk => iter (2 ^ stage) (stageRound kx base t stage blk)

theorem butterfly_cfg (a b w : Nat) (u : State) : (butterfly a b w u).cfg = u.cfg := by
  rw [butterfly, State.setX_cfg, State.setX_cfg]

theorem State.ctx_of_cfg {u s : State} (h : u.cfg = s.cfg) (c : FieldCtx) : u.ctx c = s.ctx c := by
  cases c
  · exact congrArg ConfigRegs.ctx0 h
  · exact congrArg ConfigRegs.ctx1 h

theorem x_stageBlock (base t stage blk : Nat) {s u : State} (hu : u.cfg = s.cfg) :
    (iter (2 ^ stage) (fun j st => butterfly (base + blk * 2 ^ (stage + 1) + j)
        (base + blk * 2 ^ (stage + 1) + j + 2 ^ stage) (rootSlot t stage j) st) u).x =
      iter (2 ^ stage) (stageRound (s.ctx .fr) base t stage blk) u.x ∧
    (iter (2 ^ stage) (fun j st => butterfly (base + blk * 2 ^ (stage + 1) + j)
        (base + blk * 2 ^ (stage + 1) + j + 2 ^ stage) (rootSlot t stage j) st) u).cfg = s.cfg :=
  x_iter (fun v : State => v.cfg = s.cfg) hu (fun _ v _ hv => (butterfly_cfg _ _ _ v).trans hv)
    fun _ v _ hv => by rw [x_butterfly, State.ctx_of_cfg hv, stageRound]

theorem x_fftStage (base k t stage : Nat) {s u : State} (hu : u.cfg = s.cfg) :
    (fftStage base k t stage u).x = stageFn (s.ctx .fr) base k t stage u.x ∧
      (fftStage base k t stage u).cfg = s.cfg :=
  x_iter (fun v : State => v.cfg = s.cfg) hu (fun blk _ _ hv => (x_stageBlock base t stage blk hv).2)
    fun blk _ _ hv => (x_stageBlock base t stage blk hv).1

/-- The slots of a vector of `2^k` elements. -/
def inVector (base k a : Nat) : Prop := base ≤ a ∧ a < base + 2 ^ k

/-- The twiddles of a stage lie outside the vector. -/
def TableApart (base k t : Nat) : Prop :=
  ∀ stage j, stage < k → j < 2 ^ stage → ¬ inVector base k (rootSlot t stage j)

section Stage

variable {kx : Ctx} {base k t stage : Nat} (hs : stage < k) (hapart : TableApart base k t)

/-- The slots of butterfly `j` of block `blk`. -/
def pairOf (base stage blk j a : Nat) : Prop :=
  a = base + blk * 2 ^ (stage + 1) + j ∨ a = base + blk * 2 ^ (stage + 1) + j + 2 ^ stage

theorem pairOf_bounds {blk j a : Nat} (hj : j < 2 ^ stage) (h : pairOf base stage blk j a) :
    base + blk * 2 ^ (stage + 1) ≤ a ∧ a < base + (blk + 1) * 2 ^ (stage + 1) := by
  rw [pairOf, pow_succ] at h
  rw [Nat.succ_mul, pow_succ]
  omega

theorem pairOf_inj {blk i j a : Nat} (hi : i < 2 ^ stage) (hj : j < 2 ^ stage)
    (h1 : pairOf base stage blk i a) (h2 : pairOf base stage blk j a) : i = j := by
  rw [pairOf] at h1 h2
  omega

theorem block_inj {b c a w : Nat} (h1 : base + b * w ≤ a ∧ a < base + (b + 1) * w)
    (h2 : base + c * w ≤ a ∧ a < base + (c + 1) * w) : b = c := by
  rw [Nat.succ_mul] at h1 h2
  by_contra hne
  obtain h | h := Nat.lt_or_gt_of_ne hne
  · have hle := Nat.mul_le_mul_right w (Nat.succ_le_of_lt h)
    rw [Nat.succ_mul] at hle
    omega
  · have hle := Nat.mul_le_mul_right w (Nat.succ_le_of_lt h)
    rw [Nat.succ_mul] at hle
    omega

include hs

theorem pairOf_inVector {blk j a : Nat} (hb : blk < 2 ^ (k - 1 - stage)) (hj : j < 2 ^ stage)
    (h : pairOf base stage blk j a) : inVector base k a := by
  have hlt := fftStage_index hs hb hj
  have hpos := Nat.two_pow_pos stage
  rw [pairOf] at h
  rw [inVector]
  omega

include hapart

theorem stageRound_actsOn (blk : Nat) {j : Nat} (hj : j < 2 ^ stage) :
    ActsOn (stageRound kx base t stage blk j) (pairOf base stage blk j) fun a => ¬ inVector base k a :=
  butterflyFn_actsOn kx _ _ _ (hapart stage j hs hj)

theorem stageBlock_actsOn {blk : Nat} (hb : blk < 2 ^ (k - 1 - stage)) :
    ActsOn (iter (2 ^ stage) (stageRound kx base t stage blk))
      (fun a => ∃ j, j < 2 ^ stage ∧ pairOf base stage blk j a) fun a => ¬ inVector base k a :=
  .iter (fun _ hj => stageRound_actsOn hs hapart blk hj) (fun _ _ _ hi hj => pairOf_inj hi hj)
    fun _ _ hj h => not_not.2 (pairOf_inVector hs hb hj h)

/-- What a stage leaves: every pair joined by its butterfly, and the rest as it was. -/
theorem stageFn_result (x : Nat → Nat) :
    (∀ blk j, blk < 2 ^ (k - 1 - stage) → j < 2 ^ stage →
      ∀ lo hi u v w, lo = base + blk * 2 ^ (stage + 1) + j → hi = lo + 2 ^ stage → u = x lo → v = x hi →
        w = x (rootSlot t stage j) →
        stageFn kx base k t stage x lo = addq kx.q.toNat u (mont kx w v) % 2 ^ 256 ∧
        stageFn kx base k t stage x hi = subq kx.q.toNat u (mont kx w v) % 2 ^ 256) ∧
    ∀ a, ¬ inVector base k a → stageFn kx base k t stage x a = x a := by
  obtain ⟨hin, hout⟩ := iter_apart (n := 2 ^ (k - 1 - stage))
    (g := fun blk => iter (2 ^ stage) (stageRound kx base t stage blk))
    (fun blk hb => stageBlock_actsOn hs hapart hb)
    (fun b c a _ _ ⟨_, hi, h1⟩ ⟨_, hj, h2⟩ => block_inj (pairOf_bounds hi h1) (pairOf_bounds hj h2))
    (fun _ _ hb ⟨_, hj, h⟩ => not_not.2 (pairOf_inVector hs hb hj h)) x
  refine ⟨fun blk j hb hj lo hi u v w hlo hhi hu hv hw => ?_, fun a ha => hout a fun b hb ⟨j, hj, h⟩ =>
    ha (pairOf_inVector hs hb hj h)⟩
  have hpair := fun a (ha : pairOf base stage blk j a) => (hin blk a hb ⟨j, hj, ha⟩).trans
    ((iter_apart (fun _ hj => stageRound_actsOn hs hapart blk hj) (fun _ _ _ hi hj => pairOf_inj hi hj)
      (fun _ _ hj h => not_not.2 (pairOf_inVector hs hb hj h)) x).1 j a hj ha)
  have hne : lo ≠ hi := by
    have := Nat.two_pow_pos stage
    omega
  subst hu hv hw
  constructor
  · rw [stageFn, hpair lo (.inl hlo), stageRound, ← hlo, ← hhi, butterflyFn_upper _ _ _ hne]
  · rw [stageFn, hpair hi (.inr (hlo ▸ hhi)), stageRound, ← hlo, ← hhi, butterflyFn_lower]

end Stage

/-! ### The recursion (47_fft.md R428) -/

section Radix

variable (kx : Ctx) (root : Nat → Nat → Nat)

theorem radix2_lower (k : Nat) (v : Nat → Nat) {j : Nat} (hj : j < 2 ^ k) :
    radix2 kx root (k + 1) v j = addq kx.q.toNat (radix2 kx root k (fun n => v (2 * n)) j)
      (mont kx (root k j) (radix2 kx root k (fun n => v (2 * n + 1)) j)) := by
  rw [radix2]
  rw [if_pos hj, Nat.mod_eq_of_lt hj]

theorem radix2_upper (k : Nat) (v : Nat → Nat) {j : Nat} (hj : j < 2 ^ k) :
    radix2 kx root (k + 1) v (j + 2 ^ k) = subq kx.q.toNat (radix2 kx root k (fun n => v (2 * n)) j)
      (mont kx (root k j) (radix2 kx root k (fun n => v (2 * n + 1)) j)) := by
  rw [radix2]
  rw [if_neg (by omega), Nat.add_mod_right, Nat.mod_eq_of_lt hj]

theorem radix2_lt (hv : kx.valid = true) {k : Nat} {v : Nat → Nat} (h : ∀ n, n < 2 ^ k → v n < kx.q.toNat)
    (i : Nat) : radix2 kx root k v i < kx.q.toNat := by
  induction k generalizing v i with
  | zero => exact h 0 Nat.one_pos
  | succ k ih =>
    have he := ih (v := fun n => v (2 * n)) (fun n hn => h _ (by rw [pow_succ]; omega)) (i % 2 ^ k)
    have ho := ih (v := fun n => v (2 * n + 1)) (fun n hn => h _ (by rw [pow_succ]; omega)) (i % 2 ^ k)
    have ht := mont_lt kx hv (root k (i % 2 ^ k)) ho
    rw [radix2]
    split
    exacts [addq_lt he ht, subq_lt he ht]

end Radix

/-- The stages below `m`, on the slots' values. -/
def stagesFn (kx : Ctx) (base k t m : Nat) : (Nat → Nat) → Nat → Nat := iter m (stageFn kx base k t)

theorem revBits_two_mul (K b : Nat) : revBits (K + 1) (2 * b) = revBits K b := by
  rw [revBits, Nat.mul_mod_right, Nat.zero_mul, Nat.zero_add, Nat.mul_div_cancel_left b Nat.two_pos]

theorem revBits_two_mul_add_one (K b : Nat) : revBits (K + 1) (2 * b + 1) = 2 ^ K + revBits K b := by
  rw [revBits, Nat.mul_add_mod, Nat.mul_add_div Nat.two_pos, Nat.one_mod, Nat.one_mul,
    Nat.div_eq_of_lt Nat.one_lt_two, Nat.add_zero]

section Stages

variable {kx : Ctx} (hv : kx.valid = true) {base k t : Nat} (hapart : TableApart base k t) {x y v : Nat → Nat}
  (hy : ∀ i, i < 2 ^ k → y (base + i) = v (revBits k i)) (hv' : ∀ i, i < 2 ^ k → v i < kx.q.toNat)
  {root : Nat → Nat → Nat} (hroot : ∀ stage j, stage < k → j < 2 ^ stage → y (rootSlot t stage j) = root stage j)
include hv hapart hy hv' hroot

/-- After the stages below `m` block `b` of `2^m` elements is the transform of the elements whose index ends in
the reversed bits of `b`. -/
theorem stagesFn_result (m : Nat) (hm : m ≤ k) :
    (∀ b j, b < 2 ^ (k - m) → j < 2 ^ m → stagesFn kx base k t m y (base + b * 2 ^ m + j) =
      radix2 kx root m (fun n => v (n * 2 ^ (k - m) + revBits (k - m) b)) j) ∧
    ∀ a, ¬ inVector base k a → stagesFn kx base k t m y a = y a := by
  induction m with
  | zero =>
    refine ⟨fun b j hb hj => ?_, fun a _ => rfl⟩
    obtain rfl := Nat.lt_one_iff.1 hj
    rw [pow_zero, Nat.mul_one, Nat.add_zero]
    refine (hy b hb).trans ?_
    rw [radix2, Nat.zero_mul, Nat.zero_add, Nat.sub_zero]
  | succ m ih =>
    obtain ⟨hin, hout⟩ := ih (Nat.le_of_succ_le hm)
    obtain ⟨K, hK⟩ : ∃ K, k = m + 1 + K := ⟨k - (m + 1), by omega⟩
    have hkm : k - m = K + 1 := by omega
    have hkm1 : k - (m + 1) = K := by omega
    have hk1m : k - 1 - m = K := by omega
    obtain ⟨hpairs, hrest⟩ := stageFn_result (kx := kx) (Nat.lt_of_succ_le hm) hapart (stagesFn kx base k t m y)
    rw [hkm] at hin
    rw [hk1m] at hpairs
    rw [hkm1]
    refine ⟨fun b i hb hi => ?_, fun a ha => (hrest a ha).trans (hout a ha)⟩
    have hbound : ∀ n, n < 2 ^ (m + 1) → n * 2 ^ K + revBits K b < 2 ^ k := fun n hn => by
      have h1 := Nat.mul_le_mul_right (2 ^ K) (Nat.succ_le_of_lt hn)
      have h2 := revBits_lt K b
      rw [Nat.succ_mul, ← pow_add, ← hK] at h1
      omega
    have hb0 : 2 * b < 2 ^ (K + 1) := by
      rw [pow_succ]
      omega
    have hb1 : 2 * b + 1 < 2 ^ (K + 1) := by
      rw [pow_succ]
      omega
    have hsplit : ∀ j, j < 2 ^ m →
        stagesFn kx base k t m y (base + b * 2 ^ (m + 1) + j) =
          radix2 kx root m (fun n => v (2 * n * 2 ^ K + revBits K b)) j ∧
        stagesFn kx base k t m y (base + b * 2 ^ (m + 1) + j + 2 ^ m) =
          radix2 kx root m (fun n => v ((2 * n + 1) * 2 ^ K + revBits K b)) j ∧
        stagesFn kx base k t m y (rootSlot t m j) = root m j := fun j hj => by
      have h0 := hin (2 * b) j hb0 hj
      have h1 := hin (2 * b + 1) j hb1 hj
      rw [revBits_two_mul] at h0
      rw [revBits_two_mul_add_one] at h1
      rw [hout _ (hapart m j hm hj), hroot m j hm hj]
      refine ⟨?_, ?_, rfl⟩
      · rw [show base + b * 2 ^ (m + 1) + j = base + 2 * b * 2 ^ m + j by ring, h0]
        congr 1
        funext n
        congr 1
        ring
      · rw [show base + b * 2 ^ (m + 1) + j + 2 ^ m = base + (2 * b + 1) * 2 ^ m + j by ring, h1]
        congr 1
        funext n
        congr 1
        ring
    have hlt := radix2_lt kx root hv (k := m + 1) (v := fun n => v (n * 2 ^ K + revBits K b))
      (fun n hn => hv' _ (hbound n hn))
    have hmod : ∀ i, radix2 kx root (m + 1) (fun n => v (n * 2 ^ K + revBits K b)) i % 2 ^ 256 =
        radix2 kx root (m + 1) (fun n => v (n * 2 ^ K + revBits K b)) i := fun i =>
      Nat.mod_eq_of_lt (Ctx.lt_word kx (hlt i))
    rw [← hmod i]
    by_cases hlow : i < 2 ^ m
    · obtain ⟨e0, e1, er⟩ := hsplit i hlow
      rw [radix2_lower kx root m _ hlow]
      exact (hpairs b i hb hlow _ _ _ _ _ rfl rfl e0.symm e1.symm er.symm).1
    · obtain ⟨j, rfl⟩ : ∃ j, i = j + 2 ^ m := ⟨i - 2 ^ m, by omega⟩
      have hj : j < 2 ^ m := by
        rw [pow_succ] at hi
        omega
      obtain ⟨e0, e1, er⟩ := hsplit j hj
      rw [radix2_upper kx root m _ hj, ← Nat.add_assoc]
      exact (hpairs b j hb hj _ _ _ _ _ rfl rfl e0.symm e1.symm er.symm).2

end Stages

end Sys2Proof.Machine
end

section
/-! FFT and IFFT as commands (47_fft.md R428, R429), and the Fourier transform they compute (R430). -/

namespace Sys2Proof.Machine

set_option Elab.async false

/-! ### The slots a transform leaves -/

theorem tableApart_of_overlap {base k t : Nat} (h : overlap base (2 ^ k) t (2 ^ k - 1) = false) :
    TableApart base k t := by
  intro stage j hs hj hin
  have hle : 2 ^ (stage + 1) ≤ 2 ^ k := Nat.pow_le_pow_right Nat.two_pos hs
  rw [pow_succ] at hle
  rw [rootSlot] at hin
  have hpos := Nat.two_pow_pos stage
  obtain h | h := outside_of_overlap h (i := t + 2 ^ stage - 1 + j) (by omega) (by omega)
  · exact absurd hin.1 (Nat.not_le_of_lt h)
  · exact absurd hin.2 (Nat.not_lt_of_le h)

section Core

variable {base k t : Nat} {s : State}

theorem bitReverse_cfg : (bitReverse base k s).cfg = s.cfg := by
  rw [(Footprint.bitReverse base k s (.head [])).regs, State.setMem_cfg]

theorem fftCore_cfg : (fftCore base k t s).cfg = s.cfg := by
  rw [(Footprint.fftCore base k t s (.head [])).regs, State.setMem_cfg]

theorem bitReverse_x_outside {a : Nat} (h : ¬ inVector base k a) : (bitReverse base k s).x a = s.x a :=
  (Footprint.bitReverse base k s (.head [])).x fun r hr => by
    rw [List.mem_singleton.1 hr]
    exact (Nat.lt_or_ge a base).imp id fun hle => Nat.le_of_not_lt fun hlt => h ⟨hle, hlt⟩

theorem x_fftCore : (fftCore base k t s).x = stagesFn (s.ctx .fr) base k t k (bitReverse base k s).x :=
  (x_iter (fun u : State => u.cfg = s.cfg) bitReverse_cfg (fun stage _ _ hu => (x_fftStage base k t stage hu).2)
    fun stage _ _ hu => (x_fftStage base k t stage hu).1).1

/-- The in-place transform leaves what the recursion gives. -/
theorem fftCore_x (hv : (s.ctx .fr).valid = true) (hc : s.Canonical .fr base (2 ^ k))
    (hapart : overlap base (2 ^ k) t (2 ^ k - 1) = false) {i : Nat} (hi : i < 2 ^ k) :
    (fftCore base k t s).x (base + i) =
      radix2 (s.ctx .fr) (fun stage j => s.x (rootSlot t stage j)) k (fun m => s.x (base + m)) i := by
  have hta := tableApart_of_overlap hapart
  have hresult := (stagesFn_result hv hta (v := fun m => s.x (base + m)) (fun j hj => bitReverse_x base k s hj)
    (fun j hj => hc.slot hj) (root := fun stage j => s.x (rootSlot t stage j))
    (fun stage j hs hj => bitReverse_x_outside (hta stage j hs hj)) k (le_refl k)).1 0 i
  rw [Nat.sub_self, Nat.zero_mul, Nat.add_zero] at hresult
  rw [x_fftCore, hresult Nat.one_pos hi]
  refine congrArg (fun v => radix2 _ _ k v i) (funext fun n => ?_)
  rw [pow_zero, Nat.mul_one, revBits, Nat.add_zero]

end Core

/-! ### The scaling of IFFT (47_fft.md R429) -/

theorem halve_lt {q v : Nat} (hodd : q % 2 = 1) (hv : v < q) : halve q v < q := by
  rw [halve]
  split <;> omega

theorem cast_div_two {q v : Nat} (h : v % 2 = 0) : ((v / 2 : Nat) : ZMod q) * 2 = v := by
  have hdiv := congrArg (Nat.cast (R := ZMod q)) (Nat.div_mul_cancel (Nat.dvd_of_mod_eq_zero h))
  rwa [Nat.cast_mul, Nat.cast_ofNat] at hdiv

theorem halve_mul_two {q : Nat} (hodd : q % 2 = 1) (v : Nat) : ((halve q v : Nat) : ZMod q) * 2 = v := by
  rw [halve]
  split
  · next h => exact cast_div_two h
  · next h => rw [cast_div_two (by omega), Nat.cast_add, ZMod.natCast_self, add_zero]

/-- NINV is the Montgomery form of the inverse of `2^k`. -/
theorem ninv_spec {s : State} (hv : (s.ctx .fr).valid = true) (k : Nat) :
    ninv (s.ctx .fr) k < s.q .fr ∧ ((ninv (s.ctx .fr) k : Nat) : ZMod (s.q .fr)) * 2 ^ k = 2 ^ 256 := by
  obtain ⟨hodd, -⟩ := (Ctx.valid_iff _).1 hv
  induction k with
  | zero =>
    have hone := State.residue_mul_r hv (oneOf (s.ctx .fr))
    rw [State.residue_oneOf hv, one_mul] at hone
    exact ⟨oneOf_lt hv, by rw [pow_zero, mul_one, hone]; rfl⟩
  | succ k ih =>
    obtain ⟨hlt, hcast⟩ := ih
    have hsucc : ninv (s.ctx .fr) (k + 1) = halve (s.q .fr) (ninv (s.ctx .fr) k) := iter_succ ..
    rw [hsucc]
    refine ⟨halve_lt hodd hlt, ?_⟩
    rw [pow_succ', ← mul_assoc, State.q_eq, halve_mul_two hodd]
    exact hcast

/-- One round of the scaling, on the slots' values. -/
def scaleFn (kx : Ctx) (base v i : Nat) (x : Nat → Nat) : Nat → Nat :=
  Function.update x (base + i) (mont kx (x (base + i)) v % 2 ^ 256)

theorem scaleFn_actsOn (kx : Ctx) (base v i : Nat) :
    ActsOn (scaleFn kx base v i) (fun a => a = base + i) fun _ => False where
  frame x a ha := Function.update_of_ne ha ..
  reads x y hxy a ha := by
    rw [ha, scaleFn, scaleFn, Function.update_self, Function.update_self, hxy _ (.inl rfl)]

theorem scaleVector_x (base k v : Nat) {s u : State} (hu : u.cfg = s.cfg) {i : Nat} (hi : i < 2 ^ k) :
    (scaleVector base k v u).x (base + i) = mont (s.ctx .fr) (u.x (base + i)) v % 2 ^ 256 := by
  have hx : (scaleVector base k v u).x = iter (2 ^ k) (scaleFn (s.ctx .fr) base v) u.x :=
    (x_iter (fun w : State => w.cfg = s.cfg) hu (fun _ w _ hw => (State.setX_cfg ..).trans hw)
      fun _ w _ hw => by rw [State.x_setX, State.ctx_of_cfg hw, scaleFn]).1
  rw [hx, (iter_apart (fun j _ => scaleFn_actsOn (s.ctx .fr) base v j) (fun i j a _ _ h1 h2 => by omega)
    (fun _ _ _ _ h => h) u.x).1 i _ hi rfl, scaleFn, Function.update_self]

/-- Scaling divides by `2^k`. -/
theorem mont_ninv {s : State} (hv : (s.ctx .fr).valid = true) (k : Nat) {r : Nat} (hr : r < s.q .fr) :
    mont (s.ctx .fr) r (ninv (s.ctx .fr) k) < s.q .fr ∧
      mont (s.ctx .fr) r (ninv (s.ctx .fr) k) * 2 ^ k % s.q .fr = r := by
  obtain ⟨hlt, hninv⟩ := ninv_spec hv k
  have hmont : ((mont (s.ctx .fr) r (ninv (s.ctx .fr) k) : Nat) : ZMod (s.q .fr)) * 2 ^ 256 =
    r * ninv (s.ctx .fr) k := cast_mont _ hv _ hr
  refine ⟨mont_lt _ hv r hlt, ?_⟩
  have hcast : ((mont (s.ctx .fr) r (ninv (s.ctx .fr) k) * 2 ^ k : Nat) : ZMod (s.q .fr)) = (r : Nat) := by
    refine (State.isUnit_r hv).mul_right_cancel ?_
    rw [Nat.cast_mul, Nat.cast_pow, Nat.cast_ofNat, mul_right_comm, hmont, mul_assoc, hninv]
  rw [(ZMod.natCast_eq_natCast_iff' _ _ _).1 hcast, Nat.mod_eq_of_lt hr]

/-! ### The commands -/

theorem fftChecks_pass {s : State} {base : SlotIx} {k : BitVec 7} {t : ConfigRegs → BitVec 16}
    (hv : (s.ctx .fr).valid = true) (hk : k.toNat ≤ s.cfg.rootMaxlog.toNat)
    (hr : s.inRange base.toNat (2 ^ k.toNat) = true) (hc : s.Canonical .fr base.toNat (2 ^ k.toNat))
    (htr : s.inRange (t s.cfg).toNat (2 ^ k.toNat - 1) = true)
    (hov : overlap base.toNat (2 ^ k.toNat) (t s.cfg).toNat (2 ^ k.toNat - 1) = false)
    (htc : s.Canonical .fr (t s.cfg).toNat (2 ^ k.toNat - 1)) : firstTrap (fftChecks base k t) s = none := by
  have hdomain : checkDomain k s = none := if_neg (Nat.not_lt_of_le hk)
  simp [fftChecks, hdomain, hv, hr, hc, htr, hov, htc]

theorem fft_runs {s : State} {base : SlotIx} {k : BitVec 7} (hv : (s.ctx .fr).valid = true)
    (hk : k.toNat ≤ s.cfg.rootMaxlog.toNat) (hr : s.inRange base.toNat (2 ^ k.toNat) = true)
    (hc : s.Canonical .fr base.toNat (2 ^ k.toNat))
    (htr : s.inRange s.cfg.rootBase.toNat (2 ^ k.toNat - 1) = true)
    (hov : overlap base.toNat (2 ^ k.toNat) s.cfg.rootBase.toNat (2 ^ k.toNat - 1) = false)
    (htc : s.Canonical .fr s.cfg.rootBase.toNat (2 ^ k.toNat - 1)) :
    ∃ t, exec (.fft base k) s = .next t ∧ s.Wrote t [(base.toNat, 2 ^ k.toNat)] ∧
      ∀ i, i < 2 ^ k.toNat → t.x (base.toNat + i) =
        radix2 (s.ctx .fr) (fun st j => s.x (s.cfg.rootBase.toNat + 2 ^ st - 1 + j)) k.toNat
          (fun m => s.x (base.toNat + m)) i := by
  refine ⟨_, command_runs (exec_fft base k s) (fftChecks_pass hv hk hr hc htr hov htc),
    (Footprint.fftCore _ _ _ s (.head [])).wrote, fun i hi => ?_⟩
  rw [State.x_advance, fftCore_x hv hc hov hi]
  rfl

/-- Settles O49: the in-place stages compute the recursion, and IFFT scales it by the inverse of its size. -/
theorem transformsAreRadix2 : Obligations.TransformsAreRadix2 := by
  rintro s base k _ rfl hv hk hr hc
  refine ⟨fun htr hov htc => fft_runs hv hk hr hc htr hov htc, fun htr hov htc => ?_⟩
  refine ⟨_, command_runs (exec_ifft base k s) (fftChecks_pass (t := (·.irootBase)) hv hk hr hc htr hov htc),
    ((Footprint.fftCore _ _ _ s (.head [])).trans (Footprint.scaleVector _ _ _ _ (.head []))).wrote,
    fun i hi => ?_⟩
  have hlt := radix2_lt (s.ctx .fr) (fun stage j => s.x (rootSlot s.cfg.irootBase.toNat stage j)) hv
    (fun n hn => hc.slot hn) i
  obtain ⟨hscaled, hmul⟩ := mont_ninv hv k.toNat hlt
  rw [State.x_advance, scaleVector_x _ _ _ fftCore_cfg hi, fftCore_x hv hc hov hi,
    Nat.mod_eq_of_lt (Ctx.lt_word _ hscaled)]
  exact ⟨hscaled, hmul⟩

/-! ### The Fourier transform (47_fft.md R430) -/

section Fourier

variable {R : Type*} [CommRing R]

/-- `Σ_j v_j·w^(i·j)` over `N` elements. -/
def dft (w : R) (N : Nat) (v : Nat → R) (i : Nat) : R := ∑ j ∈ Finset.range N, v j * w ^ (i * j)

theorem sum_range_even_odd (f : Nat → R) (N : Nat) : ∑ n ∈ Finset.range (N * 2), f n =
    ∑ n ∈ Finset.range N, f (2 * n) + ∑ n ∈ Finset.range N, f (2 * n + 1) := by
  induction N with
  | zero => simp
  | succ N ih =>
    rw [Nat.succ_mul, Finset.sum_range_succ, Finset.sum_range_succ, ih, Finset.sum_range_succ,
      Finset.sum_range_succ, Nat.mul_comm N 2]
    ring

/-- The transform of twice the size, by the even and the odd elements. -/
theorem dft_even_odd (w : R) (N : Nat) (v : Nat → R) (i : Nat) :
    dft w (N * 2) v i =
      dft (w ^ 2) N (fun n => v (2 * n)) i + w ^ i * dft (w ^ 2) N (fun n => v (2 * n + 1)) i := by
  rw [dft, sum_range_even_odd, dft, dft, Finset.mul_sum]
  congr 1 <;> refine Finset.sum_congr rfl fun n _ => ?_
  · rw [← pow_mul]
    congr 2
    ring
  · rw [← pow_mul]
    ring

theorem dft_add_period {w : R} {N : Nat} (h : w ^ N = 1) (v : Nat → R) (i : Nat) :
    dft w N v (i + N) = dft w N v i := by
  refine Finset.sum_congr rfl fun n _ => ?_
  rw [Nat.add_mul, pow_add, pow_mul w N n, h, one_pow, mul_one]

/-- Half a turn: `w_(m+1)` to the power `2^m` is −1. -/
theorem root_half_turn {W : Nat → R} {k : Nat} (h1 : W 1 = -1) (hsq : ∀ m, m < k → W (m + 1) ^ 2 = W m) {m : Nat}
    (hm : m < k) : W (m + 1) ^ 2 ^ m = -1 := by
  induction m with
  | zero => rw [pow_zero, pow_one, h1]
  | succ m ih => rw [pow_succ', pow_mul, hsq _ hm, ih (Nat.lt_of_succ_lt hm)]

end Fourier

/-- With the roots' Montgomery forms for twiddles the recursion is the Fourier transform. -/
theorem cast_radix2 (kx : Ctx) (hv : kx.valid = true) {root : Nat → Nat → Nat} {W : Nat → ZMod kx.q.toNat}
    {k : Nat} (h1 : W 1 = -1) (hsq : ∀ m, m < k → W (m + 1) ^ 2 = W m)
    (hroot : ∀ m j, m < k → j < 2 ^ m → root m j < kx.q.toNat ∧
      ((root m j : Nat) : ZMod kx.q.toNat) = W (m + 1) ^ j * 2 ^ 256)
    {v : Nat → Nat} (hlt : ∀ n, n < 2 ^ k → v n < kx.q.toNat) {i : Nat} (hi : i < 2 ^ k) :
    ((radix2 kx root k v i : Nat) : ZMod kx.q.toNat) = dft (W k) (2 ^ k) (fun n => (v n : ZMod kx.q.toNat)) i := by
  induction k generalizing v i with
  | zero =>
    obtain rfl := Nat.lt_one_iff.1 hi
    rw [radix2, dft, pow_zero, Finset.sum_range_one, Nat.mul_zero, pow_zero, mul_one]
  | succ k ih =>
    have hk := Nat.lt_succ_self k
    have hhalf := root_half_turn h1 hsq hk
    have hperiod : W k ^ 2 ^ k = 1 := by
      rw [← hsq k hk, ← pow_mul, Nat.mul_comm, pow_mul, hhalf, neg_one_sq]
    have hevens : ∀ n, n < 2 ^ k → v (2 * n) < kx.q.toNat := fun n hn => hlt _ (by rw [pow_succ]; omega)
    have hodds : ∀ n, n < 2 ^ k → v (2 * n + 1) < kx.q.toNat := fun n hn => hlt _ (by rw [pow_succ]; omega)
    have ih := @ih (fun m hm => hsq m (hm.trans hk)) fun m j hm => hroot m j (hm.trans hk)
    have htwiddle : ∀ j, j < 2 ^ k → ((mont kx (root k j) (radix2 kx root k (fun n => v (2 * n + 1)) j) : Nat) :
        ZMod kx.q.toNat) = W (k + 1) ^ j * dft (W k) (2 ^ k) (fun n => (v (2 * n + 1) : ZMod kx.q.toNat)) j := by
      intro j hj
      obtain ⟨hr, hrc⟩ := hroot k j hk hj
      refine (Ctx.isUnit_r kx hv).mul_right_cancel ?_
      rw [cast_mont kx hv _ hr, hrc, ih hodds hj, mul_right_comm]
    have hsub : ∀ j, mont kx (root k j) (radix2 kx root k (fun n => v (2 * n + 1)) j) < kx.q.toNat := fun j =>
      mont_lt kx hv _ (radix2_lt kx root hv hodds j)
    rw [pow_succ, dft_even_odd, hsq k hk]
    by_cases hlow : i < 2 ^ k
    · rw [radix2_lower kx root k v hlow, cast_addq, ih hevens hlow, htwiddle i hlow]
    · obtain ⟨j, rfl⟩ : ∃ j, i = j + 2 ^ k := ⟨i - 2 ^ k, by omega⟩
      have hj : j < 2 ^ k := by
        rw [pow_succ] at hi
        omega
      rw [radix2_upper kx root k v hj, cast_subq (hsub j), ih hevens hj, htwiddle j hj, dft_add_period hperiod,
        dft_add_period hperiod, pow_add, hhalf]
      ring

/-- The roots as residues, with 1 for the root of one element. -/
def rootResidue (q : Nat) (om : Nat → Nat) (m : Nat) : ZMod q := if m = 0 then 1 else om m

section Roots

variable {q k : Nat} {om : Nat → Nat} (hq : 0 < q) (h1 : om 1 = q - 1)
  (hsq : ∀ m, 1 ≤ m → m < k → om (m + 1) ^ 2 % q = om m)

theorem rootResidue_succ (m : Nat) : rootResidue q om (m + 1) = om (m + 1) := if_neg (Nat.succ_ne_zero m)

include hq h1

theorem rootResidue_one : rootResidue q om 1 = -1 := by
  rw [rootResidue_succ, h1, Nat.cast_sub hq, ZMod.natCast_self, Nat.cast_one, zero_sub]

include hsq

theorem rootResidue_sq {m : Nat} (hm : m < k) : rootResidue q om (m + 1) ^ 2 = rootResidue q om m := by
  obtain _ | m := m
  · rw [rootResidue_one hq h1, neg_one_sq]
    rfl
  · rw [rootResidue_succ, rootResidue_succ, ← Nat.cast_pow, ← ZMod.natCast_mod, hsq _ (Nat.le_add_left 1 m) hm]

end Roots

/-- Every slot of a table belongs to a stage. -/
theorem exists_rootSlot {t k a : Nat} (h1 : t ≤ a) (h2 : a < t + (2 ^ k - 1)) :
    ∃ stage j, stage < k ∧ j < 2 ^ stage ∧ a = t + 2 ^ stage - 1 + j := by
  have hlow : 2 ^ Nat.log 2 (a - t + 1) ≤ a - t + 1 := Nat.pow_log_le_self 2 (Nat.succ_ne_zero _)
  have hhigh := Nat.lt_pow_succ_log_self Nat.one_lt_two (a - t + 1)
  rw [pow_succ] at hhigh
  exact ⟨Nat.log 2 (a - t + 1), a - t + 1 - 2 ^ Nat.log 2 (a - t + 1),
    Nat.log_lt_of_lt_pow (Nat.succ_ne_zero _) (by omega), by omega, by omega⟩

theorem dft_rootResidue (q k : Nat) (om v : Nat → Nat) {i : Nat} (hi : i < 2 ^ k) :
    dft (rootResidue q om k) (2 ^ k) (fun n => (v n : ZMod q)) i =
      ((∑ j ∈ Finset.range (2 ^ k), v j * om k ^ (i * j) : Nat) : ZMod q) := by
  rw [dft, Nat.cast_sum]
  refine Finset.sum_congr rfl fun j _ => ?_
  rw [Nat.cast_mul, Nat.cast_pow]
  obtain _ | k := k
  · rw [Nat.lt_one_iff.1 hi, Nat.zero_mul, pow_zero, pow_zero]
  · rw [rootResidue_succ]

/-- Settles O50: FFT is the recursion (O49), and the recursion with the table's roots is the transform. -/
theorem fftIsTheFourierTransform : Obligations.FftIsTheFourierTransform := by
  rintro s base k _ om rfl hv hk hr hc htr hov h1 hsq htable
  have hq := Ctx.q_pos _ hv
  have htc : s.Canonical .fr s.cfg.rootBase.toNat (2 ^ k.toNat - 1) := by
    intro a hle hlt
    obtain ⟨stage, j, hst, hj, rfl⟩ := exists_rootSlot hle hlt
    rw [htable stage j hst hj]
    exact Nat.mod_lt _ hq
  obtain ⟨t, hexec, -, hx⟩ := fft_runs hv hk hr hc htr hov htc
  refine ⟨t, hexec, fun i hi => ?_⟩
  have hroot : ∀ m j, m < k.toNat → j < 2 ^ m →
      s.x (s.cfg.rootBase.toNat + 2 ^ m - 1 + j) < (s.ctx .fr).q.toNat ∧
      ((s.x (s.cfg.rootBase.toNat + 2 ^ m - 1 + j) : Nat) : ZMod (s.ctx .fr).q.toNat) =
        rootResidue (s.ctx .fr).q.toNat om (m + 1) ^ j * 2 ^ 256 := fun m j hm hj => by
    rw [htable m j hm hj, State.q_eq, ZMod.natCast_mod, rootResidue_succ, Nat.cast_mul, Nat.cast_pow, Nat.cast_pow,
      Nat.cast_ofNat]
    exact ⟨Nat.mod_lt _ hq, rfl⟩
  have hcast := cast_radix2 (s.ctx .fr) hv (rootResidue_one hq h1) (fun m hm => rootResidue_sq hq h1 hsq hm)
    hroot (fun n hn => hc.slot hn) hi
  have hsum := dft_rootResidue (s.ctx .fr).q.toNat k.toNat om (fun n => s.x (base.toNat + n)) hi
  rw [hx i hi, ← Nat.mod_eq_of_lt (radix2_lt (s.ctx .fr) _ hv (fun n hn => hc.slot hn) i)]
  exact (ZMod.natCast_eq_natCast_iff' _ _ _).1 (hcast.trans hsum)

end Sys2Proof.Machine
end
